-- ==== Sys2Proof/Word.lean ====
section
/-!
DEFINITION. The word types of HUFFCORE: the 32-bit control-register word, the byte, the 9-bit symbol field,
the bit string in stream order, and the node handle (`00_scope.md` R5, notation section).
-/

namespace Sys2Proof

/-- One control register (`10_state.md` R10: six registers of 32 bits). -/
abbrev Word := BitVec 32

/-- One uncompressed symbol of the input or the output (`00_scope.md` R5: `BITS_PER_WORD` = 8). -/
abbrev Byte := BitVec 8

/-- The symbol field of a leaf: 9 bits (`00_scope.md` R5: `SYM_W`). -/
abbrev Sym := BitVec 9

/-- A bit string in stream order: the head is the bit that travels first (`00_scope.md` notation). -/
abbrev Bits := List Bool

/-- A node handle. `none` is the value NULL = 0x3FF of `10_state.md` R22; `some h` names `NODE[h]`. -/
abbrev Handle := Option Nat

/-- A table indexed by number, in one canonical form: entries with strictly rising indices.
An index with no entry is an entry nothing has written in this run (`10_state.md` R33: "unspecified"; for `CODE`: absent). -/
abbrev Table (α : Type) := List (Nat × α)

end Sys2Proof
end

