-- ==== Sys2Proof/Config.lean ====
section
/-!
DEFINITION. The implementation parameters of `00_scope.md` R5 and the free values of the model.
A parameter with a value in R5 has that value here; what the spec leaves open is an `opaque` constant with no body,
so that no proof can learn its value.
-/

namespace Sys2Proof.Config

/-- `ALPH_SIZE`: the byte symbols are 0 to 255 (R5). -/
def alphSize : Nat := 256

/-- `PSEUDO_EOF`: the end-of-file symbol (R5). -/
def pseudoEof : Nat := 256

/-- `NSYM`: symbols 0 to 256 (R5). -/
def nsym : Nat := 257

/-- `LEN_MAX` = 2^`CNT_W` − 2 with `CNT_W` = 32 (R5, `40_frequency_counter.md` R84). -/
def lenMax : Nat := 2 ^ 32 - 2

/-- `NODE_CAP` = 2·`NSYM` − 1 (R5). -/
def nodeCap : Nat := 513

/-- `PQ_CAP` (R5). -/
def pqCap : Nat := 257

/-- `CODE_MAX`: the longest code in bits (R5, `42_code_table_deriver.md` R110). -/
def codeMax : Nat := 256

/-- One more than the largest value of a `POS_W` = 64 bit position counter (R5, `10_state.md` R24). -/
def posLimit : Nat := 2 ^ 64

/-- The sentinel stored in the symbol field of an internal node; no rule reads it (`10_state.md` R26). -/
def internalSym : Sym := 0x1FF#9

/-- `MAGIC`: OPEN (R5, D2, U4). The spec gives the width and not the value, so the value is free (log entry 11). -/
opaque magic : BitVec 32

/-- FREE VALUE: how many of the bits that remain an `EXHAUSTED` answer consumes (`20_memory.md` R43, U5: any value; log
entry 13). The argument is the model's draw counter. -/
opaque bitsExhaustedConsumes : Nat → Nat

/-- FREE VALUE: the pad bits `SNK.close()` adds (`20_memory.md` R47, U1: any value; log entry 12).
The argument is the model's draw counter. -/
opaque padBit : Nat → Bool

end Sys2Proof.Config
end

