-- ==== Sys2Proof/Syntax.lean ====
section
/-!
DEFINITION. The instructions: one constructor of `Instr` for each row of `spec/opcode_table.json` (20 rows), and
the inductive tree of `10_state.md` R27, which gives the code words their lengths (`30_encoding.md` R68).
-/

namespace Sys2Proof

/-- The tree of a run as a value (`10_state.md` R27): `L(sym)` or `N(left, right)`. -/
inductive Tree where
  | leaf (sym : Sym)
  | node (left right : Tree)
  deriving DecidableEq, Repr

/-- Every operation of the opcode table: the five `CMD` values, the eleven `PHASE` values, the four wire fields. -/
inductive Instr where
  /-- `CMD` = 0 (`46_sequencer.md` R163). -/
  | nop
  /-- `CMD` = 1 (R157). -/
  | compress
  /-- `CMD` = 2 (R160). -/
  | decompress
  /-- `CMD` = 3 (R164). -/
  | reservedOp3
  /-- A `CMD` value with any of bits[31:2] set; `value` is the whole word written (R164). -/
  | reservedHigh (value : Word)
  /-- `PHASE` = 1 (`40_frequency_counter.md` R80). -/
  | count
  /-- `PHASE` = 2 (`41_tree_builder.md` R90). -/
  | build
  /-- `PHASE` = 3 (`42_code_table_deriver.md` R105). -/
  | derive
  /-- `PHASE` = 4 (`46_sequencer.md` R158). -/
  | wrmagic
  /-- `PHASE` = 5 (`43_tree_header_codec.md` R115). -/
  | wrtree
  /-- `PHASE` = 6 (`44_encoder.md` R130). -/
  | encode
  /-- `PHASE` = 7 (`46_sequencer.md` R159). -/
  | flush
  /-- `PHASE` = 8 (R161). -/
  | rdmagic
  /-- `PHASE` = 9 (`43_tree_header_codec.md` R119). -/
  | rdtree
  /-- `PHASE` = 10 (`45_decoder.md` R140). -/
  | decode
  /-- `PHASE` = 0: no phase running (`10_state.md` R18). -/
  | phaseNone
  /-- The first field of a compressed stream, 32 bits (`30_encoding.md` R61). -/
  | magic (field : Word)
  /-- Tree token INTERNAL, the bit `0` (R62). -/
  | internal
  /-- Tree token LEAF, the bit `1` and a 9-bit symbol value (R63). -/
  | leaf (sym : Sym)
  /-- A code word of the body: a bit string of 0 to 256 bits (R65, R67). -/
  | codeword (code : Bits)
  deriving DecidableEq, Repr

end Sys2Proof
end

