-- ==== Sys2Proof/WellFormed.lean ====
section
/-!
DEFINITION. Which terms of `Instr` stand for an encoding of the spec.
-/

namespace Sys2Proof

/-- The operand checks: a `RESERVED_HIGH` word has one of bits[31:2] set (`30_encoding.md` R69; the four exact rows
of the opcode table take priority), and a code word has at most `CODE_MAX` = 256 bits (R67).
Every 32-bit word can stand in the magic field (R61: a word other than `MAGIC` is an illegal field, and running it
raises the fault), and every 9-bit value in a leaf token (R63, R74: reserved values are accepted and stored). -/
def Instr.wf : Instr → Bool
  | .nop | .compress | .decompress | .reservedOp3 => true
  | .reservedHigh v => v.extractLsb' 2 30 != 0#30
  | .count | .build | .derive | .wrmagic | .wrtree | .encode | .flush => true
  | .rdmagic | .rdtree | .decode | .phaseNone => true
  | .magic _ => true
  | .internal => true
  | .leaf _ => true
  | .codeword c => c.length ≤ Config.codeMax

end Sys2Proof
end

