-- ==== Sys2Proof/Decode.lean ====
section
/-!
DEFINITION. Bit order, the decoder and the encoder.
The decoder is total: it reads a bit string in stream order in one of five places where an encoding can stand
(`30_encoding.md` R60 to R72) and answers the instruction and the bits after it, or a rejection by name.
-/

namespace Sys2Proof

/-! ### Bit strings and numbers (`00_scope.md` notation, `20_memory.md` R42) -/

/-- `bits_n(v)`: the n low-order bits of v, most significant first. -/
def bitsOf : Nat → Nat → Bits
  | 0, _ => []
  | n + 1, v => v.testBit n :: bitsOf n v

/-- One more bit on the right of a number written most significant bit first. -/
def shiftIn (v : Nat) (b : Bool) : Nat := 2 * v + b.toNat

/-- `val(b)`: the unsigned number whose most-significant-first writing is b. -/
def bitsVal (b : Bits) : Nat := b.foldl shiftIn 0

/-! ### Trees as the wire format writes them (`30_encoding.md` R64, R67) -/

/-- `ser(tree)`: the pre-order serialization (R64). -/
def Tree.ser : Tree → Bits
  | .leaf s => true :: bitsOf 9 s.toNat
  | .node l r => false :: (l.ser ++ r.ser)

/-- The number of nodes. -/
def Tree.size : Tree → Nat
  | .leaf _ => 1
  | .node l r => l.size + r.size + 1

/-- The number of leaves. -/
def Tree.leaves : Tree → Nat
  | .leaf _ => 1
  | .node l r => l.leaves + r.leaves

/-- The walk of a bit string from the root: the symbol of the leaf it ends on, if it ends on one (R67). -/
def Tree.at? : Tree → Bits → Option Sym
  | .leaf s, [] => some s
  | .leaf _, _ :: _ => none
  | .node _ _, [] => none
  | .node l _, false :: c => l.at? c
  | .node _ r, true :: c => r.at? c

/-- Every symbol with the path to its leaf, left to right (`42_code_table_deriver.md` R106). -/
def Tree.codes : Tree → List (Sym × Bits)
  | .leaf s => [(s, [])]
  | .node l r =>
    l.codes.map (fun p => (p.1, false :: p.2)) ++ r.codes.map (fun p => (p.1, true :: p.2))

/-- Split a bit string after the first leaf the walk reaches: the code word, its symbol and the rest (R68). -/
def Tree.split? : Tree → Bits → Option (Bits × Sym × Bits)
  | .leaf s, b => some ([], s, b)
  | .node _ _, [] => none
  | .node l _, false :: b => (l.split? b).map fun p => (false :: p.1, p.2)
  | .node _ r, true :: b => (r.split? b).map fun p => (true :: p.1, p.2)

/-! ### Where an encoding can stand -/

/-- The place of an encoding: it tells which format applies (R60 to R71). -/
inductive Place where
  /-- A 32-bit write to register 0 (R69). -/
  | cmd
  /-- The 4-bit PHASE field of `STATUS` (R71). -/
  | phase
  /-- Stream bits 0 to 31 of a compressed stream (R61). -/
  | magicField
  /-- A token of the serialized tree (R62, R63). -/
  | treeToken
  /-- The body, under the code of the tree `t` (R65, R67, R68). -/
  | body (t : Tree)
  deriving DecidableEq, Repr

/-- Why the decoder rejects a bit string. -/
inductive DecodeError where
  /-- Fewer bits than the format needs. -/
  | truncated
  /-- PHASE 11 to 15 (R71, R74: reserved, never produced). -/
  | reservedPhase
  /-- A path of more than 256 bits: no code word is that long (R67). -/
  | codeTooLong
  deriving DecidableEq, Repr

/-! ### The decoder -/

/-- `CMD` (R69): the four exact values; any other value has a reserved bit set. -/
def decodeCmd (v : Word) : Instr :=
  match v.toNat with
  | 0 => .nop
  | 1 => .compress
  | 2 => .decompress
  | 3 => .reservedOp3
  | _ => .reservedHigh v

/-- `STATUS.PHASE` (R71). -/
def decodePhase (v : BitVec 4) : Except DecodeError Instr :=
  match v.toNat with
  | 0 => .ok .phaseNone
  | 1 => .ok .count
  | 2 => .ok .build
  | 3 => .ok .derive
  | 4 => .ok .wrmagic
  | 5 => .ok .wrtree
  | 6 => .ok .encode
  | 7 => .ok .flush
  | 8 => .ok .rdmagic
  | 9 => .ok .rdtree
  | 10 => .ok .decode
  | _ => .error .reservedPhase

/-- Take the value of an n-bit field off the front of a bit string (`20_memory.md` R42). -/
def takeField (n : Nat) (b : Bits) : Except DecodeError (Nat × Bits) :=
  if b.length < n then .error .truncated else .ok (bitsVal (b.take n), b.drop n)

/-- A tree token (R62, R63, R68): the first bit tells whether 1 bit or 10 bits. -/
def decodeTreeToken : Bits → Except DecodeError (Instr × Bits)
  | [] => .error .truncated
  | false :: b => .ok (.internal, b)
  | true :: b =>
    match takeField 9 b with
    | .error e => .error e
    | .ok (v, rest) => .ok (.leaf (BitVec.ofNat 9 v), rest)

/-- The decoder, at any of the five places. -/
def decode (p : Place) (b : Bits) : Except DecodeError (Instr × Bits) :=
  match p with
  | .cmd =>
    match takeField 32 b with
    | .error e => .error e
    | .ok (v, rest) => .ok (decodeCmd (BitVec.ofNat 32 v), rest)
  | .phase =>
    match takeField 4 b with
    | .error e => .error e
    | .ok (v, rest) =>
      match decodePhase (BitVec.ofNat 4 v) with
      | .error e => .error e
      | .ok i => .ok (i, rest)
  | .magicField =>
    match takeField 32 b with
    | .error e => .error e
    | .ok (v, rest) => .ok (.magic (BitVec.ofNat 32 v), rest)
  | .treeToken => decodeTreeToken b
  | .body t =>
    match t.split? b with
    | none => .error .truncated
    | some (c, _, rest) => if c.length ≤ Config.codeMax then .ok (.codeword c, rest) else .error .codeTooLong

/-! ### The encoder -/

/-- The place of an instruction's encoding; a code word stands in the body of the tree `t`. -/
def placeOf (t : Tree) : Instr → Place
  | .nop | .compress | .decompress | .reservedOp3 | .reservedHigh _ => .cmd
  | .count | .build | .derive | .wrmagic | .wrtree | .encode | .flush => .phase
  | .rdmagic | .rdtree | .decode | .phaseNone => .phase
  | .magic _ => .magicField
  | .internal | .leaf _ => .treeToken
  | .codeword _ => .body t

/-- The bits of an instruction, most significant first (R61 to R63, R67, R69, R71). -/
def encode : Instr → Bits
  | .nop => bitsOf 32 0
  | .compress => bitsOf 32 1
  | .decompress => bitsOf 32 2
  | .reservedOp3 => bitsOf 32 3
  | .reservedHigh v => bitsOf 32 v.toNat
  | .phaseNone => bitsOf 4 0
  | .count => bitsOf 4 1
  | .build => bitsOf 4 2
  | .derive => bitsOf 4 3
  | .wrmagic => bitsOf 4 4
  | .wrtree => bitsOf 4 5
  | .encode => bitsOf 4 6
  | .flush => bitsOf 4 7
  | .rdmagic => bitsOf 4 8
  | .rdtree => bitsOf 4 9
  | .decode => bitsOf 4 10
  | .magic m => bitsOf 32 m.toNat
  | .internal => [false]
  | .leaf s => true :: bitsOf 9 s.toNat
  | .codeword c => c

/-- A whole encoding and nothing after it. -/
def decodeAll (p : Place) (b : Bits) : Option Instr :=
  match decode p b with
  | .ok (i, []) => some i
  | _ => none

/-- What the decoder reads from the `width` low-order bits of `w`, given the place; the bits above are 0. -/
def decodeAt (p : Place) (width w : Nat) : Option Instr :=
  if w < 2 ^ width then decodeAll p (bitsOf width w) else none

/-- What the decoder reads from the bits of one opcode-table row.
The table numbers a `CMD` value with 32 bits, a `PHASE` value with 4 bits (8 in whole bytes) and a LEAF token with
10 bits (16 in whole bytes).
The token INTERNAL has one bit; the magic field shares its 32 bits with `CMD`, and a code word has no fixed width
(DESIGN CHOICE, log entry 9). -/
def decodeTableWord (nbits w : Nat) : Option Instr :=
  match nbits with
  | 1 => decodeAt .treeToken 1 w
  | 4 => decodeAt .phase 4 w
  | 8 => decodeAt .phase 4 w
  | 10 => decodeAt .treeToken 10 w
  | 16 => decodeAt .treeToken 10 w
  | 32 => decodeAt .cmd 32 w
  | _ => none

end Sys2Proof
end

