-- ==== Sys2Proof/Machine/State.lean ====
section
/-!
DEFINITION. The state of HUFFCORE (`10_state.md` R10, R32) as plain data, the reasons a step can stop, and the state
after reset (R33).
-/

namespace Sys2Proof.Machine

/-! ### Control state (`10_state.md` R17 to R19) -/

/-- `STATE` (R17). -/
inductive RunState where
  | idle
  | busy
  | done
  | faulted
  deriving DecidableEq, Repr

/-- `PHASE` (R18). The values 11 to 15 are never produced and the type does not hold them (U9). -/
inductive Phase where
  | noPhase
  | count
  | build
  | derive
  | wrmagic
  | wrtree
  | encode
  | flush
  | rdmagic
  | rdtree
  | decode
  deriving DecidableEq, Repr

/-- `DSTATE` (R19). -/
inductive DState where
  | atRoot
  | atInternal
  | atLeaf
  | accept
  deriving DecidableEq, Repr

/-- The nine faults of `60_exceptions.md` R170, as `ERR.CODE` names them. -/
inductive FaultCode where
  | badMagicNumber
  | malformedHeader
  | corruptTree
  | truncatedStream
  | ioFailure
  | countOverflow
  | nodeOverflow
  | missingCode
  | illegalCommand
  deriving DecidableEq, Repr

/-! ### Table entries (`10_state.md` R26, R28, R30) -/

/-- One entry of the node arena (R26). -/
structure Node where
  leaf : Bool
  sym : Sym
  weight : Nat
  left : Handle
  right : Handle
  deriving DecidableEq, Repr

/-- One entry of the priority queue: key (weight, seq) and handle (R28). -/
structure PqEntry where
  weight : Nat
  seq : Nat
  handle : Nat
  deriving DecidableEq, Repr

/-- One entry of the traversal stack: a node and its "left done" mark (R30).
`left` is the local `l` of `des()` (`43_tree_header_codec.md` R119): the handle the left subtree returned;
DERIVE and WRTREE never set it (DEDUCED, log entry 16). -/
structure StkEntry where
  handle : Nat
  leftDone : Bool
  left : Handle
  deriving DecidableEq, Repr

/-- Where inside the pseudocode of the running phase the sequencer stands between two turns.
The spec writes the phases as loops and recursions; this is the program point they imply (DEDUCED, log entry 2). -/
inductive Micro where
  /-- The first line of the phase. -/
  | start
  /-- The head of the phase's loop (COUNT, BUILD, ENCODE, DECODE) or of `des()` (RDTREE). -/
  | loop
  /-- `walk(h)` of DERIVE or `ser(h)` of WRTREE is about to look at node h. -/
  | visit (h : Handle)
  /-- `walk` or `ser` has returned to its caller. -/
  | back
  /-- WRTREE: the tag of a leaf is written, its 9-bit field is next. -/
  | symField (sym : Sym)
  /-- RDTREE: the tag of a leaf is read and handle h taken, its 9-bit field is next. -/
  | leafField (h : Nat)
  /-- ENCODE: `emit` with these bits left; `last` tells the code of PSEUDO_EOF from a byte's. -/
  | emit (bits : Bits) (last : Bool)
  deriving DecidableEq, Repr

/-! ### The collaborators and the host (`20_memory.md` R41, R44, R46, R53; `00_scope.md` R9) -/

/-- The bit source SRC (R41): its bit string and cursor, and what its owner made of it. -/
structure Source where
  bits : Bits
  pos : Nat
  /-- The stream has failed or its owner has closed it (R44). -/
  failed : Bool
  /-- Transactions do not return for now (R53; DESIGN CHOICE, log entry 17). -/
  blocked : Bool
  /-- What `rewind()` presents: `none` is the same bit string again (R45); `some b` is a collaborator that breaks
  the contract of `70_reset_and_hazards.md` R194 and presents b (DESIGN CHOICE, log entry 18). -/
  reread : Option Bits
  deriving DecidableEq, Repr

/-- The bit sink SNK (R46): the bits accepted, and what became of it. -/
structure Sink where
  bits : Bits
  /-- The stream has failed or its owner has closed it (R44). -/
  failed : Bool
  /-- The core has called `close()` (R47). -/
  closed : Bool
  /-- Transactions do not return for now (R53; DESIGN CHOICE, log entry 17). -/
  blocked : Bool
  deriving DecidableEq, Repr

/-- What the outside world can do to the block (`00_scope.md` R9, `60_exceptions.md` R185). -/
inductive Event where
  /-- A write of a control register by number (`10_state.md` R11 to R16). -/
  | hostWrite (reg : Nat) (value : Word)
  /-- A read of a control register by number. -/
  | hostRead (reg : Nat)
  /-- The reset input is asserted or released (`70_reset_and_hazards.md` R190, R191). -/
  | resetInput (asserted : Bool)
  /-- The host binds SRC to a stream at its first bit (R193 a); `reread` as in `Source`. -/
  | bindSrc (bits : Bits) (reread : Option Bits)
  /-- The host binds SNK to a new, empty, open sink (R193 b). -/
  | bindSnk
  /-- The owner closes SRC, or it fails (`20_memory.md` R44). -/
  | closeSrc
  /-- The owner closes SNK, or it fails (R44). -/
  | closeSnk
  /-- From now on SRC does not, or does again, answer (R53). -/
  | blockSrc (blocked : Bool)
  /-- From now on SNK does not, or does again, answer (R53). -/
  | blockSnk (blocked : Bool)
  deriving DecidableEq, Repr

/-- The tables whose entries can be unspecified (`10_state.md` R33). -/
inductive TableName where
  | freq
  | node
  | code
  deriving DecidableEq, Repr

/-! ### The state -/

/-- The state of the machine. -/
structure State where
  /-- `STATE` (R17). -/
  state : RunState
  /-- `PHASE` (R18). -/
  phase : Phase
  /-- `DSTATE` (R19). -/
  dstate : DState
  /-- `ERR.CODE` (R13): `none` is code 0. -/
  err : Option FaultCode
  /-- `ERRPOS` (R14). -/
  errpos : BitVec 64
  /-- `CTRL.IE` (R15). -/
  ie : Bool
  /-- `LEN` (R20). -/
  len : Nat
  /-- `SEQ` (R21). -/
  seq : Nat
  /-- `NNODES` (R21). -/
  nnodes : Nat
  /-- `ROOT` (R22). -/
  root : Handle
  /-- `CUR` (R22). -/
  cur : Handle
  /-- The first `TLEN` bits of `TRAIL` (R23); `TLEN` is its length (DEDUCED, log entry 15). -/
  trail : Bits
  /-- `SRCPOS` (R24). -/
  srcpos : Nat
  /-- `SNKPOS` (R24). -/
  snkpos : Nat
  /-- `FREQ[0..255]` (R25); `FREQ[256]` is hardwired and is read and written through `readFreq` and `writeFreq`. -/
  freq : Table Nat
  /-- `NODE` (R26). -/
  node : Table Node
  /-- `PQ` (R28), least key first. -/
  pq : List PqEntry
  /-- `CODE` (R29): an index with no entry is absent (`valid` = 0). -/
  code : Table Bits
  /-- `STK` (R30), top first. -/
  stk : List StkEntry
  /-- Where inside the running phase the sequencer stands. -/
  micro : Micro
  /-- The bit source bound to the block. -/
  src : Source
  /-- The bit sink bound to the block. -/
  snk : Sink
  /-- The reset input is asserted (`70_reset_and_hazards.md` R190). -/
  rst : Bool
  /-- What the outside world will do, in order: each event with the number of turns of a run that pass before it
  (DESIGN CHOICE, log entry 3). -/
  inputs : List (Nat × Event)
  /-- The word the last host read returned (the model's own field, DESIGN CHOICE, log entry 21). -/
  hostData : Word
  /-- How many free values the run has drawn (the model's own field, DESIGN CHOICE, log entry 4). -/
  draws : Nat
  deriving DecidableEq, Repr

/-! ### Why a step can stop -/

/-- Faults of the MODEL: a read the spec forbids (`10_state.md` R33: "A model must treat a read of an "unspecified"
entry as a fault of the model, not as zero") or a situation the spec derives to be impossible.
The nine faults of the hardware are no `Fault`: they are next states with `STATE` = FAULTED. All five are SAFE. -/
inductive Fault where
  /-- A table entry this run has not written is read (by BUILD, DERIVE, WRTREE, ENCODE, DECODE). Safe. -/
  | unspecifiedRead (table : TableName) (index : Nat)
  /-- `NODE[NULL]` is read (by DERIVE, WRTREE, DECODE before a tree exists). Safe. -/
  | nullHandle
  /-- `removeMin` on an empty queue (by BUILD; `41_tree_builder.md` R93: never). Safe. -/
  | emptyQueue
  /-- `CODE[s]` with s above 256 is written (by DERIVE; `20_memory.md` R56: such a symbol indexes no table). Safe. -/
  | noSuchEntry (index : Nat)
  /-- The program point does not belong to the running phase (by any phase; no step produces such a state). Safe. -/
  | lostPlace
  deriving DecidableEq, Repr

/-- Situations the spec gives no meaning (`93_implementation_defined.md`, treatment `refuse`). All are SAFE. -/
inductive Refusal where
  /-- An instruction of the table that has no meaning in the model yet; no meaning answers with it. Safe. -/
  | notModelled (mnemonic : String)
  /-- `SRCPOS` or `SNKPOS` would pass 2^64 − 1 (`10_state.md` R24, U16), by any stream transaction. Safe. -/
  | positionOverflow
  /-- The host rebinds a stream while a run is BUSY (`70_reset_and_hazards.md` R196, U17), by an event. Safe. -/
  | rebindWhileBusy
  deriving DecidableEq, Repr

/-- What a step or an instruction answers. -/
abbrev Out := Host.Outcome State Fault Refusal

/-- What one turn of a phase answers: `go` hands on to the next turn, `halt` ends the instruction with an outcome. -/
inductive Res where
  | go (s : State)
  | halt (o : Out)

/-! ### Reset -/

/-- Nothing is bound to the port: an empty stream (DESIGN CHOICE, log entry 5). -/
def Source.unbound : Source := ⟨[], 0, false, false, none⟩

/-- Nothing is bound to the port: an empty open sink (DESIGN CHOICE, log entry 5). -/
def Sink.unbound : Sink := ⟨[], false, false, false⟩

/-- The state after reset (`10_state.md` R33, `70_reset_and_hazards.md` R190). -/
def State.reset : State where
  state := .idle
  phase := .noPhase
  dstate := .atRoot
  err := none
  errpos := 0#64
  ie := false
  len := 0
  seq := 0
  nnodes := 0
  root := none
  cur := none
  trail := []
  srcpos := 0
  snkpos := 0
  freq := []
  node := []
  pq := []
  code := []
  stk := []
  micro := .start
  src := .unbound
  snk := .unbound
  rst := false
  inputs := []
  hostData := 0#32
  draws := 0

end Sys2Proof.Machine
end

