-- ==== Sys2Proof/Machine/Ops.lean ====
section
/-!
DEFINITION. The shared operations: tables, fault entry, the four stream transactions and the shorthands `rd`, `wr`,
`emit` over them, per-run initialisation, the end of a phase, and the turns of a phase.
There is no return from a fault (`60_exceptions.md` R182), so none stands beside fault entry.
-/

namespace Sys2Proof.Machine

/-! ### Tables in canonical form -/

/-- The entry of an index, if this run has written one. -/
def Table.read {α : Type} : Table α → Nat → Option α
  | [], _ => none
  | (j, w) :: t, k => if k = j then some w else Table.read t k

/-- Write an entry and keep the indices strictly rising. -/
def Table.write {α : Type} : Table α → Nat → α → Table α
  | [], k, v => [(k, v)]
  | (j, w) :: t, k, v =>
    if k < j then (k, v) :: (j, w) :: t
    else if k = j then (k, v) :: t
    else (j, w) :: Table.write t k v

/-- The canonical form: every index is above `low`, and they strictly rise. -/
def Table.wfFrom {α : Type} : Nat → Table α → Bool
  | _, [] => true
  | low, (j, _) :: t => decide (low ≤ j) && Table.wfFrom (j + 1) t

/-- The canonical form of a table. -/
def Table.wf {α : Type} (t : Table α) : Bool := Table.wfFrom 0 t

/-! ### Taking a fault (`60_exceptions.md` R180) -/

/-- Fault entry: the code and the position are recorded and `STATE` becomes FAULTED; nothing else changes. -/
def faultEntry (f : FaultCode) (s : State) : State :=
  { s with err := some f, errpos := BitVec.ofNat 64 s.srcpos, state := .faulted }

/-- `raise F`: fault entry, and no statement after it executes. -/
def raise (f : FaultCode) (s : State) : Res := .halt (.next (faultEntry f s))

/-- The model stops: a read or a situation the spec excludes. -/
def modelFault (f : Fault) : Res := .halt (.fault f)

/-! ### Sequencing -/

/-- What follows a turn. -/
def Res.bind (r : Res) (k : State → Res) : Res :=
  match r with
  | .go s => k s
  | .halt o => .halt o

/-- The outcome of an instruction whose turns are over. -/
def Res.out : Res → Out
  | .go s => .next s
  | .halt o => o

/-! ### The bit source (`20_memory.md` R41 to R45, R53) -/

/-- The answer of a stream transaction; `waits` is a transaction that does not return yet (R53). -/
inductive Answer where
  | value (v : Nat)
  | exhausted
  | ioFail
  | waits
  deriving DecidableEq, Repr

/-- `SRC.readBits(n)` (R41): the answer and the source after it. `free` bits of those that remain are consumed by an
`EXHAUSTED` answer (R43: unspecified; R40, R41: forward only, and not past the end). With no bit left the cursor stays
at the end (`40_frequency_counter.md` R83). -/
def Source.readBits (n free : Nat) (src : Source) : Answer × Source :=
  if src.failed then (.ioFail, src)
  else if src.blocked then (.waits, src)
  else if src.bits.length - src.pos < n then
    (.exhausted, { src with pos := src.pos + min free (src.bits.length - src.pos) })
  else
    (.value (bitsVal ((src.bits.drop src.pos).take n)), { src with pos := src.pos + n })

/-- `SRC.rewind()` (R45): the value of an `OK` answer is not used. -/
def Source.rewind (src : Source) : Answer × Source :=
  if src.failed then (.ioFail, src)
  else if src.blocked then (.waits, src)
  else (.value 0, { src with bits := src.reread.getD src.bits, pos := 0 })

/-- `rd(n)` (`00_scope.md` notation, `20_memory.md` R58): `IOFAIL` becomes the fault `IoFailure`; a value moves
`SRCPOS`, an `EXHAUSTED` answer does not. A transaction that waits changes nothing. -/
def rd (n : Nat) (s : State) (onValue : Nat → State → Res) (onExhausted : State → Res) : Res :=
  match s.src.readBits n (Config.bitsExhaustedConsumes s.draws) with
  | (.ioFail, _) => raise .ioFailure s
  | (.waits, _) => .halt (.next s)
  | (.exhausted, src) => onExhausted { s with src := src, draws := s.draws + 1 }
  | (.value v, src) =>
    if s.srcpos + n < Config.posLimit then onValue v { s with src := src, srcpos := s.srcpos + n }
    else .halt (.refused .positionOverflow)

/-- `SRC.rewind()` as ENCODE uses it (`44_encoder.md` R131): `SRCPOS` becomes 0 on `OK`. -/
def rewind (s : State) (k : State → Res) : Res :=
  match s.src.rewind with
  | (.ioFail, _) => raise .ioFailure s
  | (.waits, _) => .halt (.next s)
  | (_, src) => k { s with src := src, srcpos := 0 }

/-! ### The bit sink (`20_memory.md` R46, R47, R53) -/

/-- `SNK.writeBits(n, v)` (R46). A sink the core has closed answers as one its owner closed (DEDUCED, log entry 10). -/
def Sink.writeBits (n v : Nat) (snk : Sink) : Answer × Sink :=
  if snk.failed || snk.closed then (.ioFail, snk)
  else if snk.blocked then (.waits, snk)
  else (.value 0, { snk with bits := snk.bits ++ bitsOf n v })

/-- The number of pad bits that reach a byte boundary (R47). -/
def padLength (len : Nat) : Nat := (8 - len % 8) % 8

/-- The pad bits of a `close()`: free values (R47, U1). -/
def padBits (k draws : Nat) : Bits := (List.range k).map fun i => Config.padBit (draws + i)

/-- `SNK.close()` (R47) with the pad bits it adds. -/
def Sink.close (pad : Bits) (snk : Sink) : Answer × Sink :=
  if snk.failed || snk.closed then (.ioFail, snk)
  else if snk.blocked then (.waits, snk)
  else (.value 0, { snk with bits := snk.bits ++ pad, closed := true })

/-- `wr(n, v)` (`00_scope.md` notation, `20_memory.md` R58). -/
def wr (n v : Nat) (s : State) (k : State → Res) : Res :=
  match s.snk.writeBits n v with
  | (.ioFail, _) => raise .ioFailure s
  | (.waits, _) => .halt (.next s)
  | (_, snk) =>
    if s.snkpos + n < Config.posLimit then k { s with snk := snk, snkpos := s.snkpos + n }
    else .halt (.refused .positionOverflow)

/-- `emit(c)`: one transaction per bit (`00_scope.md` notation, D28). -/
def emit : Bits → State → (State → Res) → Res
  | [], s, k => k s
  | b :: c, s, k => wr 1 b.toNat s fun s => emit c s k

/-- `SNK.close()` as FLUSH uses it (`46_sequencer.md` R159); the pad bits are not counted (R58). -/
def closeSink (s : State) (k : State → Res) : Res :=
  let n := padLength s.snk.bits.length
  match s.snk.close (padBits n s.draws) with
  | (.ioFail, _) => raise .ioFailure s
  | (.waits, _) => .halt (.next s)
  | (_, snk) => k { s with snk := snk, draws := s.draws + n }

/-! ### Starting a run, ending a phase, ending a run -/

/-- A command is examined and accepted: no run is in progress (`46_sequencer.md` R155), and the reset input is not
asserted (`70_reset_and_hazards.md` R190: while it is, the state is that after reset). -/
abbrev Accepting (s : State) : Prop := s.state ≠ .busy ∧ s.rst = false

/-- Per-run initialisation (`46_sequencer.md` R156). What the tables hold from an earlier run is unspecified to the
new run (`10_state.md` R33), so the model forgets it (DEDUCED, log entry 6). -/
def perRunInit (s : State) : State :=
  { s with
    state := .busy, phase := .noPhase, dstate := .atRoot, err := none, errpos := 0#64,
    len := 0, seq := 0, nnodes := 0, root := none, cur := none, trail := [], srcpos := 0, snkpos := 0,
    freq := [], node := [], pq := [], code := [], stk := [], micro := .start }

/-- Hand control to a phase (`00_scope.md` notation: `PHASE <- p`). -/
def enterPhase (p : Phase) (s : State) : State := { s with phase := p, micro := .start }

/-- The phase after a phase, in the order of `46_sequencer.md` R157 and R160. -/
def Phase.next : Phase → Phase
  | .count => .build
  | .build => .derive
  | .derive => .wrmagic
  | .wrmagic => .wrtree
  | .wrtree => .encode
  | .encode => .flush
  | .rdmagic => .rdtree
  | .rdtree => .decode
  | .decode => .flush
  | .flush => .noPhase
  | .noPhase => .noPhase

/-- The end of a phase that is not the last. -/
def endPhase (s : State) : State := enterPhase s.phase.next s

/-- Completion of the run (`46_sequencer.md` R162). -/
def complete (s : State) : State := { s with phase := .noPhase, state := .done, micro := .start }

/-! ### The turns of a phase -/

/-- The next event of the outside world is due before the next turn. -/
def due (s : State) : Bool :=
  match s.inputs with
  | (0, _) :: _ => true
  | _ => false

/-- One turn passes. -/
def tick (s : State) : State :=
  match s.inputs with
  | (n + 1, e) :: rest => { s with inputs := (n, e) :: rest }
  | _ => s

/-- The turns of phase `p`, at most `fuel` of them: they stop when the phase ends, when a turn halts, or when an
event of the outside world is due. -/
def runTurns (p : Phase) (turn : State → Res) : Nat → State → Out
  | 0, s => .next s
  | fuel + 1, s =>
    if s.state = .busy ∧ s.phase = p ∧ due s = false then
      match turn (tick s) with
      | .go s' => runTurns p turn fuel s'
      | .halt o => o
    else .next s

/-- At least as many turns as any phase of a run takes on these streams (DESIGN CHOICE, log entry 7). -/
def turnBound (s : State) : Nat :=
  2048 + 512 * (s.src.bits.length + (s.src.reread.getD []).length)

/-- A phase instruction: it hands control to its phase (from its first line, unless the phase is already running) and
runs it to its end (DESIGN CHOICE, log entry 1). No phase runs outside a run (`30_encoding.md` R76; DEDUCED, log
entry 25). -/
def runPhase (p : Phase) (turn : State → Res) (s : State) : Out :=
  if s.state = .busy then
    let s := if s.phase = p then s else enterPhase p s
    runTurns p turn (turnBound s) s
  else .next s

end Sys2Proof.Machine
end

