-- ==== Sys2Proof/Machine/Operands.lean ====
section
/-!
DEFINITION. Every operand form of HUFFCORE: a symbol into `FREQ` or `CODE`, a handle into `NODE`, the queue and the
stack.
-/

namespace Sys2Proof.Machine

/-! ### `FREQ` (`10_state.md` R25) -/

/-- `FREQ[i]`: entry 256 is hardwired to 1. -/
def freqAt (i : Nat) (s : State) : Option Nat :=
  if i = Config.pseudoEof then some 1 else Table.read s.freq i

/-- A read of `FREQ[i]`; an unspecified entry stops the model (R33). -/
def readFreq (i : Nat) (s : State) (k : Nat → Res) : Res :=
  match freqAt i s with
  | some w => k w
  | none => modelFault (.unspecifiedRead .freq i)

/-- `FREQ[i] <- w`: entry 256 ignores writes. -/
def writeFreq (i w : Nat) (s : State) : State :=
  if i = Config.pseudoEof then s else { s with freq := Table.write s.freq i w }

/-! ### `NODE` (`10_state.md` R26) -/

/-- A leaf of symbol `sym` and weight `w`. -/
def mkLeaf (sym : Sym) (w : Nat) : Node := ⟨true, sym, w, none, none⟩

/-- An internal node of weight `w`; its symbol field holds the sentinel. -/
def mkInternal (w : Nat) (l r : Handle) : Node := ⟨false, Config.internalSym, w, l, r⟩

/-- A read of `NODE[h]`; NULL and an unspecified entry stop the model (R33). -/
def readNode (h : Handle) (s : State) (k : Node → Res) : Res :=
  match h with
  | none => modelFault .nullHandle
  | some i =>
    match Table.read s.node i with
    | some n => k n
    | none => modelFault (.unspecifiedRead .node i)

/-- `NODE[h] <- n`. -/
def writeNode (h : Nat) (n : Node) (s : State) : State := { s with node := Table.write s.node h n }

/-! ### `CODE` (`10_state.md` R29) -/

/-- `CODE[i]`: absent, or a bit string. -/
def codeAt (i : Nat) (s : State) : Option Bits := Table.read s.code i

/-- `CODE[sym] <- c`: a symbol above 256 indexes no table (`20_memory.md` R56). -/
def writeCode (sym : Sym) (c : Bits) (s : State) : Res :=
  if sym.toNat ≤ Config.pseudoEof then .go { s with code := Table.write s.code sym.toNat c }
  else modelFault (.noSuchEntry sym.toNat)

/-! ### `PQ` (`41_tree_builder.md` R92, R93) -/

/-- x comes before y: lexicographic on (weight, seq). -/
def PqEntry.before (x y : PqEntry) : Bool :=
  decide (x.weight < y.weight) || (decide (x.weight = y.weight) && decide (x.seq < y.seq))

/-- `PQ.insert`. -/
def pqInsert (e : PqEntry) : List PqEntry → List PqEntry
  | [] => [e]
  | x :: q => if e.before x then e :: x :: q else x :: pqInsert e q

/-- `PQ.removeMin`: the entry that comes before all others, and the queue without it. -/
def removeMin : List PqEntry → Option (PqEntry × List PqEntry)
  | [] => none
  | x :: q => some (x, q)

/-- The queue is held least key first. -/
def pqSorted : List PqEntry → Bool
  | [] => true
  | x :: q => q.all (fun y => x.before y) && pqSorted q

/-! ### `STK` and the return of a recursive walk (`10_state.md` R30) -/

/-- Enter the left subtree of node `h`. -/
def pushLeft (h : Nat) (s : State) : State := { s with stk := ⟨h, false, none⟩ :: s.stk }

/-- `walk` or `ser` has returned: into the right subtree of the top entry if only its left is done, out of it if both
are, to the end of the phase if the stack is empty. `onRight` and `onPop` are what the phase does beside. -/
def walkBack (onRight onPop : State → State) (s : State) : Res :=
  match s.stk with
  | [] => .go (endPhase s)
  | e :: rest =>
    if e.leftDone then .go { onPop s with stk := rest, micro := .back }
    else
      readNode (some e.handle) s fun n =>
        .go { onRight s with stk := { e with leftDone := true } :: rest, micro := .visit n.right }

end Sys2Proof.Machine
end

