-- ==== Sys2Proof/Machine/Flags.lean ====
section
/-!
DEFINITION. The encodings of the control state (`30_encoding.md` R70 to R73), the control registers a host reads and
writes (`10_state.md` R11 to R16) and the interrupt line (R31). HUFFCORE has no arithmetic flags (R31).
-/

namespace Sys2Proof.Machine

/-- `STATUS.STATE` (R70). -/
def RunState.code : RunState → BitVec 2
  | .idle => 0
  | .busy => 1
  | .done => 2
  | .faulted => 3

/-- `STATUS.PHASE` (R71). -/
def Phase.code : Phase → BitVec 4
  | .noPhase => 0
  | .count => 1
  | .build => 2
  | .derive => 3
  | .wrmagic => 4
  | .wrtree => 5
  | .encode => 6
  | .flush => 7
  | .rdmagic => 8
  | .rdtree => 9
  | .decode => 10

/-- `STATUS.DSTATE` (R72). -/
def DState.code : DState → BitVec 2
  | .atRoot => 0
  | .atInternal => 1
  | .atLeaf => 2
  | .accept => 3

/-- `ERR.CODE` (R73). -/
def FaultCode.code : FaultCode → BitVec 4
  | .badMagicNumber => 1
  | .malformedHeader => 2
  | .corruptTree => 3
  | .truncatedStream => 4
  | .ioFailure => 5
  | .countOverflow => 6
  | .nodeOverflow => 7
  | .missingCode => 8
  | .illegalCommand => 9

/-- `STATUS` (R12): STATE in bits[1:0], PHASE in bits[5:2], DSTATE in bits[7:6], the rest 0. -/
def statusWord (s : State) : Word :=
  (0#24 ++ s.dstate.code ++ s.phase.code ++ s.state.code : BitVec 32)

/-- `ERR.CODE`, 0 when there is no fault (R13). -/
def errCode (s : State) : BitVec 4 :=
  match s.err with
  | none => 0
  | some f => f.code

/-- `ERR` (R13): CODE in bits[3:0], the rest 0. -/
def errWord (s : State) : Word := (0#28 ++ errCode s : BitVec 32)

/-- `CTRL` (R15): IE in bit 0, the rest 0. -/
def ctrlWord (s : State) : Word := (0#31 ++ BitVec.ofBool s.ie : BitVec 32)

/-- A read of a control register by number (R11 to R16): `CMD` and numbers above 5 read 0. -/
def readReg (n : Nat) (s : State) : Word :=
  match n with
  | 1 => statusWord s
  | 2 => errWord s
  | 3 => s.errpos.extractLsb' 0 32
  | 4 => s.errpos.extractLsb' 32 32
  | 5 => ctrlWord s
  | _ => 0#32

/-- A write of a control register other than `CMD` (R12 to R16): only `CTRL.IE` takes it, and not while the reset input
is asserted (`70_reset_and_hazards.md` R190: `CTRL` is then 0). -/
def writeReg (n : Nat) (v : Word) (s : State) : State :=
  match n with
  | 5 => if s.rst then s else { s with ie := v.getLsbD 0 }
  | _ => s

/-- `IRQ = CTRL.IE and (STATE = DONE or STATE = FAULTED)` (R31, `60_exceptions.md` R184). -/
def irq (s : State) : Bool :=
  s.ie && (match s.state with
    | .done | .faulted => true
    | .idle | .busy => false)

/-- `CODE[i].valid` (R29, R31). -/
def codeValid (i : Nat) (s : State) : Bool := (codeAt i s).isSome

/-- The number of bits of `TRAIL` in use: `TLEN` (R23). -/
def tlen (s : State) : Nat := s.trail.length

end Sys2Proof.Machine
end

