-- ==== Sys2Proof/Machine/Builder.lean ====
section
/-!
DEFINITION. The Huffman Tree Builder with its priority queue: phase BUILD (`41_tree_builder.md` R90 to R101).
-/

namespace Sys2Proof.Machine

/-- Make node `NODE[SEQ]`, insert it into the queue under (weight, SEQ), and advance `SEQ` (R91). -/
def newNode (n : Node) (s : State) : State :=
  { writeNode s.seq n s with pq := pqInsert ⟨n.weight, s.seq, s.seq⟩ s.pq, seq := s.seq + 1 }

/-- The leaf of one symbol, if its count is not 0 (R90, R91). -/
def insertLeaf (sym : Nat) (s : State) : Res :=
  readFreq sym s fun w => if w = 0 then .go s else .go (newNode (mkLeaf (BitVec.ofNat 9 sym) w) s)

/-- The leaves of a list of symbols, in order. -/
def insertLeaves : List Nat → State → Res
  | [], s => .go s
  | sym :: rest, s => (insertLeaf sym s).bind (insertLeaves rest)

/-- One turn of the merge loop, or its end (R94, R95): `a` is removed first and becomes the left child. -/
def mergeTurn (s : State) : Res :=
  match removeMin s.pq with
  | none => modelFault .emptyQueue
  | some (a, q) =>
    match removeMin q with
    | none => .go (endPhase { s with root := some a.handle, pq := q })
    | some (b, q) =>
      readNode (some a.handle) s fun na =>
        readNode (some b.handle) s fun nb =>
          .go (newNode (mkInternal (na.weight + nb.weight) (some a.handle) (some b.handle)) { s with pq := q })

/-- One turn of BUILD: the leaves in ascending symbol order (R91), then one merge a turn. -/
def buildTurn (s : State) : Res :=
  match s.micro with
  | .start =>
    (insertLeaves (List.range Config.nsym) { s with seq := 0, pq := [] }).bind fun s => .go { s with micro := .loop }
  | .loop => mergeTurn s
  | _ => modelFault .lostPlace

/-- BUILD (R90). -/
def execBuild (s : State) : Out := runPhase .build buildTurn s

end Sys2Proof.Machine
end

