-- ==== Sys2Proof/Machine/Counter.lean ====
section
/-!
DEFINITION. The Symbol Frequency Counter: phase COUNT (`40_frequency_counter.md` R80 to R86).
-/

namespace Sys2Proof.Machine

/-- The 256 byte counters at 0 (R81). -/
def clearedFreq : Table Nat := (List.range Config.alphSize).map fun i => (i, 0)

/-- The first lines of COUNT (R81): `FREQ[256]` is not cleared. -/
def countInit (s : State) : State := { s with freq := clearedFreq, len := 0, micro := .loop }

/-- One byte counted (R82, R84): the length guard runs first. -/
def countByte (r : Nat) (s : State) : Res :=
  if s.len = Config.lenMax then raise .countOverflow s
  else readFreq r s fun w => .go { writeFreq r (w + 1) s with len := s.len + 1 }

/-- One turn of COUNT. An `EXHAUSTED` answer is the normal end of the input (R83). -/
def countTurn (s : State) : Res :=
  match s.micro with
  | .start => .go (countInit s)
  | .loop => rd 8 s countByte fun s => .go (endPhase s)
  | _ => modelFault .lostPlace

/-- COUNT (R80). -/
def execCount (s : State) : Out := runPhase .count countTurn s

end Sys2Proof.Machine
end

