-- ==== Sys2Proof/Machine/Decoder.lean ====
section
/-!
DEFINITION. The Decoder: phase DECODE, a state machine with one operation per `DSTATE` (`45_decoder.md` R140 to R149),
and the code word as an operation (`30_encoding.md` R65, R67).
-/

namespace Sys2Proof.Machine

/-- The pointer arrives at a node: the next state is told by its `leaf` bit (R142, R143). -/
def arrive (h : Handle) (s : State) : Res :=
  readNode h s fun n =>
    .go { s with cur := h, dstate := if n.leaf then .atLeaf else .atInternal }

/-- State AT_ROOT (R142): no bit is read. -/
def decodeRoot (s : State) : Res := arrive s.root s

/-- State AT_INTERNAL with the bit `t` read (R143): 0 selects the left child, 1 the right; NULL is `CorruptTree`. -/
def decodeBit (t : Nat) (s : State) : Res :=
  readNode s.cur s fun n =>
    match if t = 0 then n.left else n.right with
    | none => raise .corruptTree s
    | some h => arrive (some h) s

/-- State AT_LEAF (R144), the four cases in order. -/
def decodeLeaf (s : State) : Res :=
  readNode s.cur s fun n =>
    if n.sym.toNat = Config.pseudoEof then .go { s with dstate := .accept }
    else if Config.pseudoEof < n.sym.toNat then raise .corruptTree s
    else if s.cur = s.root then raise .corruptTree s
    else wr 8 n.sym.toNat s fun s => .go { s with dstate := .atRoot }

/-- One turn of DECODE (R140, R141, R145). -/
def decodeTurn (s : State) : Res :=
  match s.micro with
  | .start => .go { s with dstate := .atRoot, micro := .loop }
  | .loop =>
    match s.dstate with
    | .atRoot => decodeRoot s
    | .atInternal => rd 1 s decodeBit fun s => raise .truncatedStream s
    | .atLeaf => decodeLeaf s
    | .accept => .go (endPhase s)
  | _ => modelFault .lostPlace

/-- DECODE (R140). -/
def execDecode (s : State) : Out := runPhase .decode decodeTurn s

/-- The bits of a code word walk the pointer, one read each (R143). -/
def walkBits : Bits → State → Res
  | [], s => .go s
  | b :: c, s => (rd 1 s (fun _ s => decodeBit b.toNat s) fun s => raise .truncatedStream s).bind (walkBits c)

/-- The end of a code word: the leaf arrived at is taken (R144); an internal node awaits the next bit (R143). -/
def codeEnd (s : State) : Res :=
  match s.dstate with
  | .atLeaf => decodeLeaf s
  | _ => .go s

/-- A code word passes on the stream of the running phase: ENCODE appends its bits (`44_encoder.md` R132), DECODE
consumes them on a walk from the root to a leaf and takes the leaf (R142 to R144).
The spec gives no code word that is no path to a leaf of the tree held (`30_encoding.md` R67); what DECODE does with such
bits here is the model's choice (DESIGN CHOICE, log entry 29): a walk that ends on an internal node stands there with its
bits read, and a walk that runs on past a leaf finds a NULL child, which is `CorruptTree`.
The walk begins at `ROOT` whatever DSTATE and the program point are, in ACCEPT too, where DECODE itself reads no further
bit (R145): a code word begins at the root, and the spec has no such operation elsewhere (DESIGN CHOICE, log entry 30).
In any other phase, and outside a run, no unit writes or reads a code word (DESIGN CHOICE, log entry 8). -/
def execCodeword (c : Bits) (s : State) : Out :=
  match s.state, s.phase with
  | .busy, .encode => (emit c s .go).out
  | .busy, .decode => (((decodeRoot s).bind (walkBits c)).bind codeEnd).out
  | _, _ => .next s

end Sys2Proof.Machine
end

