-- ==== Sys2Proof/Machine/Deriver.lean ====
section
/-!
DEFINITION. The Code Table Deriver: phase DERIVE (`42_code_table_deriver.md` R105 to R112), with `STK` and `TRAIL`
in place of the recursion (`10_state.md` R23, R30).
-/

namespace Sys2Proof.Machine

/-- The first lines of DERIVE: all entries absent (R111), an empty trail, and the walk at the root. -/
def deriveInit (s : State) : State :=
  { s with code := [], trail := [], stk := [], micro := .visit s.root }

/-- `walk(h, trail)` looks at node `h` (R105): a leaf takes the trail as its code (R106), an internal node sends the
walk into its left subtree with a 0 on the trail. -/
def deriveVisit (h : Handle) (s : State) : Res :=
  readNode h s fun n =>
    if n.leaf then
      (writeCode n.sym s.trail s).bind fun s => .go { s with micro := .back }
    else
      match h with
      | none => modelFault .nullHandle
      | some i => .go { pushLeft i s with trail := s.trail ++ [false], micro := .visit n.left }

/-- Into the right subtree: the last bit of the trail becomes 1. -/
def trailRight (s : State) : State := { s with trail := s.trail.dropLast ++ [true] }

/-- Out of a node: the trail loses the bit of the edge to its right child. -/
def trailPop (s : State) : State := { s with trail := s.trail.dropLast }

/-- One turn of DERIVE. -/
def deriveTurn (s : State) : Res :=
  match s.micro with
  | .start => .go (deriveInit s)
  | .visit h => deriveVisit h s
  | .back => walkBack trailRight trailPop s
  | _ => modelFault .lostPlace

/-- DERIVE (R105). -/
def execDerive (s : State) : Out := runPhase .derive deriveTurn s

end Sys2Proof.Machine
end

