-- ==== Sys2Proof/Machine/Encoder.lean ====
section
/-!
DEFINITION. The Encoder: phase ENCODE (`44_encoder.md` R130 to R136).
-/

namespace Sys2Proof.Machine

/-- One byte of the second pass (R132, R134): its code is emitted, and a byte without a code is a fault. -/
def encodeByte (b : Nat) (s : State) : Res :=
  match codeAt b s with
  | none => raise .missingCode s
  | some c => .go { s with micro := .emit c false }

/-- The end of the second pass (R133): the code of PSEUDO_EOF is emitted. The spec derives that it is present
(`42_code_table_deriver.md` R111), so an absent one stops the model (DEDUCED, log entry 22). -/
def encodeEof (s : State) : Res :=
  match codeAt Config.pseudoEof s with
  | none => modelFault (.unspecifiedRead .code Config.pseudoEof)
  | some c => .go { s with micro := .emit c true }

/-- One turn of ENCODE: the rewind (R131), a byte read, one code bit written, or the end of a code. -/
def encodeTurn (s : State) : Res :=
  match s.micro with
  | .start => rewind s fun s => .go { s with micro := .loop }
  | .loop => rd 8 s encodeByte encodeEof
  | .emit (b :: c) last => wr 1 b.toNat s fun s => .go { s with micro := .emit c last }
  | .emit [] true => .go (endPhase s)
  | .emit [] false => .go { s with micro := .loop }
  | _ => modelFault .lostPlace

/-- ENCODE (R130). -/
def execEncode (s : State) : Out := runPhase .encode encodeTurn s

end Sys2Proof.Machine
end

