-- ==== Sys2Proof/Machine/HeaderCodec.lean ====
section
/-!
DEFINITION. The Tree Header Codec: phases WRTREE and RDTREE (`43_tree_header_codec.md` R115 to R125), with `STK` in
place of the recursion (`10_state.md` R30), and the tokens INTERNAL and LEAF they write and read
(`30_encoding.md` R62, R63).
-/

namespace Sys2Proof.Machine

/-! ### WRTREE -/

/-- The tag of an internal node (R116). -/
def putInternal (s : State) (k : State → Res) : Res := wr 1 0 s k

/-- The tag of a leaf (R117). -/
def putLeafTag (s : State) (k : State → Res) : Res := wr 1 1 s k

/-- The symbol field of a leaf, 9 bits (R117). -/
def putLeafSym (sym : Sym) (s : State) (k : State → Res) : Res := wr 9 sym.toNat s k

/-- `ser(h)` looks at node `h` (R115). -/
def wrtreeVisit (h : Handle) (s : State) : Res :=
  readNode h s fun n =>
    if n.leaf then
      putLeafTag s fun s => .go { s with micro := .symField n.sym }
    else
      match h with
      | none => modelFault .nullHandle
      | some i => putInternal s fun s => .go { pushLeft i s with micro := .visit n.left }

/-- One turn of WRTREE. -/
def wrtreeTurn (s : State) : Res :=
  match s.micro with
  | .start => .go { s with stk := [], micro := .visit s.root }
  | .visit h => wrtreeVisit h s
  | .symField sym => putLeafSym sym s fun s => .go { s with micro := .back }
  | .back => walkBack id id s
  | _ => modelFault .lostPlace

/-- WRTREE (R115). -/
def execWrtree (s : State) : Out := runPhase .wrtree wrtreeTurn s

/-! ### RDTREE -/

/-- A call of `des()` returns handle `x`: into the right subtree of the node on top of the stack if only its left was
open, else that node is complete and is written (R119), and its own call returns in turn. `none` is the outermost
return; `some stk` waits for the next node. -/
def desReturn (x : Nat) : List StkEntry → Table Node → Nat × Option (List StkEntry) × Table Node
  | [], nodes => (x, none, nodes)
  | e :: rest, nodes =>
    if e.leftDone then
      desReturn e.handle rest (Table.write nodes e.handle (mkInternal 0 e.left (some x)))
    else (x, some ({ e with leftDone := true, left := some x } :: rest), nodes)

/-- `des()` returns `x`; at the outermost return `ROOT` takes it and the phase ends (R119). -/
def desDone (x : Nat) (s : State) : State :=
  match desReturn x s.stk s.node with
  | (root, none, nodes) => endPhase { s with node := nodes, stk := [], root := some root }
  | (_, some stk, nodes) => { s with node := nodes, stk := stk, micro := .loop }

/-- A tag bit has been read: the arena must have room (R122), the node takes the next handle (R120). -/
def desTag (t : Nat) (s : State) : Res :=
  if s.nnodes = Config.nodeCap then raise .nodeOverflow s
  else
    let h := s.nnodes
    let s := { s with nnodes := s.nnodes + 1 }
    if t = 1 then .go { s with micro := .leafField h }
    else .go { pushLeft h s with micro := .loop }

/-- The symbol field of leaf `h` has been read: any 9-bit value is stored (R123). -/
def desLeaf (h v : Nat) (s : State) : Res :=
  .go (desDone h (writeNode h (mkLeaf (BitVec.ofNat 9 v) 0) s))

/-- One turn of RDTREE. -/
def rdtreeTurn (s : State) : Res :=
  match s.micro with
  | .start => .go { s with nnodes := 0, stk := [], micro := .loop }
  | .loop => rd 1 s desTag fun s => raise .malformedHeader s
  | .leafField h => rd 9 s (desLeaf h) fun s => raise .malformedHeader s
  | _ => modelFault .lostPlace

/-- RDTREE (R119). -/
def execRdtree (s : State) : Out := runPhase .rdtree rdtreeTurn s

/-! ### The tokens as operations -/

/-- The token INTERNAL passes on the stream of the running phase: WRTREE appends it (R116), RDTREE consumes it and
opens a node (R119), at whatever program point of the phase (DESIGN CHOICE, log entry 30). In any other phase, and outside a run, no unit writes or reads a tree token (DESIGN CHOICE, log entry 8). -/
def execInternal (s : State) : Out :=
  match s.state, s.phase with
  | .busy, .wrtree => (putInternal s .go).out
  | .busy, .rdtree => (rd 1 s (fun _ s => desTag 0 s) fun s => raise .malformedHeader s).out
  | _, _ => .next s

/-- The token LEAF with symbol field `sym`: WRTREE appends its ten bits (R117), RDTREE consumes them and stores the
leaf (R119, R123), at whatever program point of the phase (DESIGN CHOICE, log entry 30). In any other phase, and outside a
run, it has no effect (DESIGN CHOICE, log entry 8). -/
def execLeaf (sym : Sym) (s : State) : Out :=
  match s.state, s.phase with
  | .busy, .wrtree => (putLeafTag s fun s => putLeafSym sym s .go).out
  | .busy, .rdtree =>
    (rd 1 s (fun _ s =>
      let h := s.nnodes
      (desTag 1 s).bind fun s => rd 9 s (fun _ s => desLeaf h sym.toNat s) fun s => raise .malformedHeader s)
      fun s => raise .malformedHeader s).out
  | _, _ => .next s

end Sys2Proof.Machine
end

