-- ==== Sys2Proof/Machine/Sequencer.lean ====
section
/-!
DEFINITION. The Sequencer: the commands and the phases WRMAGIC, RDMAGIC, FLUSH (`46_sequencer.md` R155 to R165), the
idle phase NONE (`10_state.md` R18) and the magic field (`30_encoding.md` R61).
-/

namespace Sys2Proof.Machine

/-! ### Commands (R155) -/

/-- A command that starts a run at phase `p`: ignored while BUSY (R165) and in reset, else per-run initialisation and
the first phase of the sequence. -/
def startRun (p : Phase) (s : State) : Out :=
  if Accepting s then .next (enterPhase p (perRunInit s)) else .next s

/-- A reserved command (R164): ignored while BUSY (R165) and in reset, else per-run initialisation and the fault. -/
def reservedCommand (s : State) : Out :=
  if Accepting s then (raise .illegalCommand (perRunInit s)).out else .next s

/-- NOP: no state changes at all (R163). -/
def execNop (s : State) : Out := .next s

/-- COMPRESS (R157). -/
def execCompress (s : State) : Out := startRun .count s

/-- DECOMPRESS (R160). -/
def execDecompress (s : State) : Out := startRun .rdmagic s

/-- `CMD.OP` = 3 (R164). -/
def execReservedOp3 (s : State) : Out := reservedCommand s

/-- Any of `CMD` bits[31:2] set (R164); the fault does not depend on which. -/
def execReservedHigh (_value : Word) (s : State) : Out := reservedCommand s

/-- No phase runs (`10_state.md` R18): the block waits. -/
def execPhaseNone (s : State) : Out := .next s

/-! ### The magic number -/

/-- `wr(32, m)` and the end of the phase (R158). -/
def putMagic (m : Word) (s : State) : Res := wr 32 m.toNat s fun s => .go (endPhase s)

/-- The first 32 bits of the stream are `m` (R161). -/
def checkMagic (m : Word) (s : State) : Res :=
  if m = Config.magic then .go (endPhase s) else raise .badMagicNumber s

/-- The one turn of WRMAGIC. -/
def wrmagicTurn (s : State) : Res :=
  match s.micro with
  | .start => putMagic Config.magic s
  | _ => modelFault .lostPlace

/-- The one turn of RDMAGIC: a short stream is `BadMagicNumber` too (R161). -/
def rdmagicTurn (s : State) : Res :=
  match s.micro with
  | .start => rd 32 s (fun v s => checkMagic (BitVec.ofNat 32 v) s) fun s => raise .badMagicNumber s
  | _ => modelFault .lostPlace

/-- WRMAGIC (R158). -/
def execWrmagic (s : State) : Out := runPhase .wrmagic wrmagicTurn s

/-- RDMAGIC (R161). -/
def execRdmagic (s : State) : Out := runPhase .rdmagic rdmagicTurn s

/-- The magic field passes on the stream of the running phase: WRMAGIC appends it (R158), RDMAGIC consumes and checks
it (R161), at whatever program point of the phase (DESIGN CHOICE, log entry 30). In any other phase, and outside a run, no unit writes or reads it (DESIGN CHOICE, log entry 8). -/
def execMagic (field : Word) (s : State) : Out :=
  match s.state, s.phase with
  | .busy, .wrmagic => (putMagic field s).out
  | .busy, .rdmagic => (rd 32 s (fun _ s => checkMagic field s) fun s => raise .badMagicNumber s).out
  | _, _ => .next s

/-! ### The end of a run -/

/-- The one turn of FLUSH (R159), and completion (R162). -/
def flushTurn (s : State) : Res :=
  match s.micro with
  | .start => closeSink s fun s => .go (complete s)
  | _ => modelFault .lostPlace

/-- FLUSH (R159). -/
def execFlush (s : State) : Out := runPhase .flush flushTurn s

end Sys2Proof.Machine
end

