-- ==== Sys2Proof/Machine/Dispatch.lean ====
section
/-!
DEFINITION. One arm per constructor of `Instr`, each a direct call of that instruction's meaning.
-/

namespace Sys2Proof.Machine

def exec (i : Instr) (s : State) : Host.Outcome State Fault Refusal :=
  match i with
  -- commands (46_sequencer.md)
  | .nop => Sys2Proof.Machine.execNop s
  | .compress => Sys2Proof.Machine.execCompress s
  | .decompress => Sys2Proof.Machine.execDecompress s
  | .reservedOp3 => Sys2Proof.Machine.execReservedOp3 s
  | .reservedHigh value => Sys2Proof.Machine.execReservedHigh value s
  -- phases (files 40 to 46)
  | .count => Sys2Proof.Machine.execCount s
  | .build => Sys2Proof.Machine.execBuild s
  | .derive => Sys2Proof.Machine.execDerive s
  | .wrmagic => Sys2Proof.Machine.execWrmagic s
  | .wrtree => Sys2Proof.Machine.execWrtree s
  | .encode => Sys2Proof.Machine.execEncode s
  | .flush => Sys2Proof.Machine.execFlush s
  | .rdmagic => Sys2Proof.Machine.execRdmagic s
  | .rdtree => Sys2Proof.Machine.execRdtree s
  | .decode => Sys2Proof.Machine.execDecode s
  | .phaseNone => Sys2Proof.Machine.execPhaseNone s
  -- wire fields (30_encoding.md)
  | .magic field => Sys2Proof.Machine.execMagic field s
  | .internal => Sys2Proof.Machine.execInternal s
  | .leaf sym => Sys2Proof.Machine.execLeaf sym s
  | .codeword code => Sys2Proof.Machine.execCodeword code s

end Sys2Proof.Machine
end

