-- ==== Sys2Proof/Machine/Events.lean ====
section
/-!
DEFINITION. What the outside world does to the block, which phase runs next, and how one instruction is placed where
the next step runs it.
-/

namespace Sys2Proof.Machine

/-! ### Events (`00_scope.md` R9, `60_exceptions.md` R185) -/

/-- The block as after reset (`10_state.md` R33); the streams keep their bits (`70_reset_and_hazards.md` R191) and the
outside world goes on (DESIGN CHOICE, log entry 24). -/
def resetBlock (s : State) : State :=
  { State.reset with
    src := s.src, snk := s.snk, rst := s.rst, inputs := s.inputs, hostData := s.hostData, draws := s.draws }

/-- The reset input takes a level (R190): while it is asserted, and when it is released, the block is as after reset;
a release where nothing was asserted is no change. -/
def driveReset (asserted : Bool) (s : State) : State :=
  if asserted || s.rst then { resetBlock s with rst := asserted } else s

/-- A write of a control register (`10_state.md` R11 to R16): register 0 takes a command (`46_sequencer.md` R155). -/
def hostWrite (n : Nat) (v : Word) (s : State) : Out :=
  if n = 0 then exec (decodeCmd v) s else .next (writeReg n v s)

/-- The host binds a stream; during a run the spec refuses it (`70_reset_and_hazards.md` R193, R196, U17; DEDUCED, log
entry 19). -/
def bindStream (s s' : State) : Out :=
  if s.state = .busy then .refused .rebindWhileBusy else .next s'

/-- One event of the outside world. -/
def deliver (e : Event) (s : State) : Out :=
  match e with
  | .hostWrite n v => hostWrite n v s
  | .hostRead n => .next { s with hostData := readReg n s }
  | .resetInput asserted => .next (driveReset asserted s)
  | .bindSrc bits reread => bindStream s { s with src := ⟨bits, 0, false, false, reread⟩ }
  | .bindSnk => bindStream s { s with snk := .unbound }
  | .closeSrc => .next { s with src := { s.src with failed := true } }
  | .closeSnk => .next { s with snk := { s.snk with failed := true } }
  | .blockSrc b => .next { s with src := { s.src with blocked := b } }
  | .blockSnk b => .next { s with snk := { s.snk with blocked := b } }

/-- The event that lands now, and the state with it taken off the list: the head of the list when its turns have
passed, or at once when no run is in progress. -/
def nextEvent (s : State) : Option (Event × State) :=
  match s.inputs with
  | [] => none
  | (n, e) :: rest => if n = 0 ∨ s.state ≠ .busy then some (e, { s with inputs := rest }) else none

/-! ### The running phase -/

/-- The four PHASE bits the sequencer runs: those of `STATUS.PHASE` in a run, NONE outside a run (after a fault PHASE
keeps the phase of the fault, `10_state.md` R18, and nothing runs, R182; DEDUCED, log entry 25). -/
def phaseBits (s : State) : BitVec 4 :=
  if s.state = .busy then s.phase.code else Phase.noPhase.code

/-- The instruction the PHASE bits stand for, run. -/
def runCurrent (s : State) : Out :=
  match decodePhase (phaseBits s) with
  | .ok i => exec i s
  | .error _ => .fault .lostPlace

/-! ### Placing one instruction where the next step runs it -/

/-- The phase of a PHASE value (`30_encoding.md` R71). -/
def phaseOf (w : Nat) : Option Phase :=
  match w with
  | 0 => some .noPhase
  | 1 => some .count
  | 2 => some .build
  | 3 => some .derive
  | 4 => some .wrmagic
  | 5 => some .wrtree
  | 6 => some .encode
  | 7 => some .flush
  | 8 => some .rdmagic
  | 9 => some .rdtree
  | 10 => some .decode
  | _ => none

/-- The tables as the phases before `p` leave them in a run on the empty input: the phase reads them
(BUILD reads `FREQ`, DERIVE and WRTREE the tree `L(256)`, ENCODE its code table, DECODE the tree). -/
def emptyRunTables (p : Phase) (s : State) : State :=
  match p with
  | .build => { s with freq := clearedFreq }
  | .derive | .wrmagic | .wrtree | .encode =>
    { s with
      freq := clearedFreq, node := [(0, mkLeaf 256#9 1)], seq := 1, root := some 0
      code := if p = .derive then [] else [(256, [])] }
  | .decode => { s with node := [(0, mkLeaf 256#9 0)], nnodes := 1, root := some 0 }
  | _ => s

/-- The state in which a run has reached the first line of phase `p`, out of reset, and nothing from outside is due. -/
def reachPhase (p : Phase) (s : State) : State :=
  if s.state = .busy then { enterPhase p s with rst := false, inputs := [] }
  else { enterPhase p (emptyRunTables p (perRunInit s)) with rst := false, inputs := [] }

/-- No run is in progress and nothing from outside is due. -/
def reachNone (s : State) : State :=
  { s with state := if s.state = .busy then .idle else s.state, phase := .noPhase, micro := .start, inputs := [] }

/-- RDTREE stands at the first token of a header, and the stream presents these bits and no more. -/
def presentToken (b : Bits) (s : State) : State :=
  { reachPhase .rdtree s with micro := .loop, src := ⟨b, 0, false, false, none⟩ }

/-- The bits of one opcode-table row (see `decodeTableWord`) where the next step runs them: a `CMD` value is a pending
host write, a `PHASE` value is the phase the run has reached, a tree token is what SRC presents to RDTREE
(DESIGN CHOICE, log entry 9). -/
def placeWord (nbits w : Nat) (s : State) : State :=
  match nbits with
  | 32 => { s with inputs := (0, .hostWrite 0 (BitVec.ofNat 32 w)) :: s.inputs }
  | 4 | 8 =>
    match phaseOf w with
    | some .noPhase => reachNone s
    | some p => reachPhase p s
    | none => s
  | 1 => presentToken (bitsOf 1 w) s
  | 10 | 16 => presentToken (bitsOf 10 w) s
  | _ => s

end Sys2Proof.Machine
end

