-- ==== Sys2Proof/Machine/Step.lean ====
section
/-!
DEFINITION. One step of the machine: an event of the outside world if one lands now, else the running phase.
-/

namespace Sys2Proof.Machine

/-- One step (`00_scope.md` R9: one agent; `46_sequencer.md` R155 to R165). -/
def step (s : State) : Host.Outcome State Fault Refusal :=
  match nextEvent s with
  | some (e, s') => deliver e s'
  | none => runCurrent s

/-- `s` with one instruction placed where the next step runs it. -/
def State.withFetchWord (s : State) (nbits w : Nat) : State := placeWord nbits w s

end Sys2Proof.Machine
end

