-- ==== Sys2Proof/Safety.lean ====
section
/-!
DEFINITION. The vocabulary of the claims: what an arena holds, what the streams present, the invariant of the machine,
and what a safe step is.
-/

namespace Sys2Proof.Machine

/-! ### Trees in the arena (`10_state.md` R27) -/

/-- The leaf symbols, left to right. -/
def treeSyms : Tree → List Sym
  | .leaf s => [s]
  | .node l r => treeSyms l ++ treeSyms r

/-- The entries reachable from handle `h` form the tree `t`. -/
def arenaHolds (nodes : Table Node) : Tree → Handle → Bool
  | .leaf sym, h =>
    match h.bind (Table.read nodes) with
    | some n => n.leaf && decide (n.sym = sym)
    | none => false
  | .node l r, h =>
    match h.bind (Table.read nodes) with
    | some n => !n.leaf && arenaHolds nodes l n.left && arenaHolds nodes r n.right
    | none => false

/-- Some tree hangs from handle `h`. -/
def HasTree (nodes : Table Node) (h : Handle) : Prop := ∃ t, arenaHolds nodes t h = true

/-- Some tree with an end-of-file leaf hangs from handle `h`. -/
def HasEof (nodes : Table Node) (h : Handle) : Prop := ∃ t, arenaHolds nodes t h = true ∧ 256#9 ∈ treeSyms t

/-! ### Bytes and bit strings (`20_memory.md` R49, R57) -/

/-- The bit string of a byte sequence: eight bits a byte, most significant first (PRESUMED, log entry 28). -/
def byteBits (bs : List Byte) : Bits := bs.flatMap fun b => bitsOf 8 b.toNat

/-- The Frequency Table of a byte sequence (`40_frequency_counter.md` R82). -/
def freqOf (bs : List Byte) : Table Nat := (List.range Config.alphSize).map fun i => (i, bs.count (BitVec.ofNat 8 i))

/-- The Code Table a walk of the tree writes (`42_code_table_deriver.md` R105, R106). -/
def codeTable (t : Tree) : Table Bits := t.codes.foldl (fun tab p => Table.write tab p.1.toNat p.2) []

/-- The sum of `FREQ[0..255]`. -/
def freqSum (freq : Table Nat) : Nat := ((List.range Config.alphSize).map fun i => (Table.read freq i).getD 0).sum

/-- Every byte counter has been written. -/
def FreqFull (freq : Table Nat) : Prop := ∀ i < Config.alphSize, (Table.read freq i).isSome = true

/-- The body of a compressed stream (`30_encoding.md` R65): the codes of the bytes, then the code of PSEUDO_EOF. -/
def bodyBits (code : Table Bits) (bs : List Byte) : Bits :=
  (bs.flatMap fun b => (Table.read code b.toNat).getD []) ++ (Table.read code Config.pseudoEof).getD []

/-- Every byte of the list has a code of at most `CODE_MAX` bits. -/
def Coded (code : Table Bits) (bs : List Byte) : Prop :=
  ∀ b ∈ bs, ∃ c, Table.read code b.toNat = some c ∧ c.length ≤ Config.codeMax

/-- Every pair is a byte with the path to a leaf of that byte (R67). -/
def Spells (t : Tree) (ps : List (Byte × Bits)) : Prop := ∀ p ∈ ps, t.at? p.2 = some (p.1.setWidth 9)

/-- The nodes RDTREE makes of a tree, in the order of their handles from h on (`43_tree_header_codec.md` R119, R120):
pre-order, every weight 0 (R123). -/
def preNodes (h : Nat) : Tree → List Node
  | .leaf sym => [mkLeaf sym 0]
  | .node l r =>
    mkInternal 0 (some (h + 1)) (some (h + 1 + l.size)) :: (preNodes (h + 1) l ++ preNodes (h + 1 + l.size) r)

/-- How many subtrees a header still owes after one more token (R119). -/
def owedAfter (n : Nat) : Instr → Nat
  | .internal => n + 1
  | .leaf _ => n - 1
  | _ => 0

/-- The tokens, read one after another where `n` subtrees are owed, never complete the tree. -/
def stillOpen : Nat → List Instr → Bool
  | n, [] => decide (0 < n)
  | n, tok :: rest => decide (0 < n) && stillOpen (owedAfter n tok) rest

/-! ### The Huffman construction on values (`41_tree_builder.md` R90 to R99) -/

/-- An entry of the construction: its key (weight, seq) and its tree. -/
structure Sprout where
  weight : Nat
  seq : Nat
  tree : Tree

/-- x comes before y (R92). -/
def Sprout.precedes (x y : Sprout) : Prop := x.weight < y.weight ∨ x.weight = y.weight ∧ x.seq < y.seq

/-- The tree the construction makes of a collection of entries, and the internal nodes it makes on the way, in the order
they are made, the next sequence number being `next`: two entries that come before all others are merged, the first
removed on the left (R94), until one is left (R95). An entry's sequence number is the handle of its node (R91), so the
node made at number `next` has the numbers of the two as its children. The collection has no order of its own. -/
inductive Huffman : Nat → List Sprout → List Node → Tree → Prop where
  | last (next : Nat) (x : Sprout) : Huffman next [x] [] x.tree
  | merge (next : Nat) (all rest : List Sprout) (a b : Sprout) (made : List Node) (t : Tree) :
      all.Perm (a :: b :: rest) → a.precedes b → (∀ x ∈ rest, b.precedes x) →
      Huffman (next + 1) (⟨a.weight + b.weight, next, .node a.tree b.tree⟩ :: rest) made t →
      Huffman next all (mkInternal (a.weight + b.weight) (some a.seq) (some b.seq) :: made) t

/-- The symbols BUILD inserts, ascending, with their counts (R91): those of a count other than 0. -/
def countedSyms (freq : Table Nat) : List (Nat × Nat) :=
  (List.range Config.nsym).filterMap fun i =>
    let w := if i = Config.pseudoEof then 1 else (Table.read freq i).getD 0
    if w = 0 then none else some (i, w)

/-- The leaves of the construction, numbered from 0 in the order of insertion (R91). -/
def sprouts (freq : Table Nat) : List Sprout :=
  (countedSyms freq).zipIdx.map fun p => ⟨p.1.2, p.2, .leaf (BitVec.ofNat 9 p.1.1)⟩

/-- BUILD makes these internal nodes, in this order, and this tree for a Frequency Table. -/
def HuffmanNodes (freq : Table Nat) (made : List Node) (t : Tree) : Prop :=
  Huffman (sprouts freq).length (sprouts freq) made t

/-- The tree BUILD makes for a Frequency Table. -/
def HuffmanTree (freq : Table Nat) (t : Tree) : Prop := ∃ made, HuffmanNodes freq made t

/-- `Σ FREQ[s]·|code(s)|` over the leaves of a tree (R99, `42_code_table_deriver.md` R109). -/
def treeCost (freq : Table Nat) (t : Tree) : Nat :=
  (t.codes.map fun p =>
    (if p.1.toNat = Config.pseudoEof then 1 else (Table.read freq p.1.toNat).getD 0) * p.2.length).sum

/-! ### Phases and turns -/

/-- The instruction that runs a phase (`30_encoding.md` R71). -/
def Phase.instr : Phase → Instr
  | .noPhase => .phaseNone
  | .count => .count
  | .build => .build
  | .derive => .derive
  | .wrmagic => .wrmagic
  | .wrtree => .wrtree
  | .encode => .encode
  | .flush => .flush
  | .rdmagic => .rdmagic
  | .rdtree => .rdtree
  | .decode => .decode

/-- n turns of a phase. -/
def turns (turn : State → Res) : Nat → State → Res
  | 0, s => .go s
  | n + 1, s => (turn s).bind (turns turn n)

/-! ### Where a run stands -/

/-- The first line of phase `p` is next, and nothing from outside lands while the phase runs. -/
def AtStart (p : Phase) (s : State) : Prop :=
  s.state = .busy ∧ s.phase = p ∧ s.micro = .start ∧ s.inputs = []

/-- Phase `p` stands at program point `m`, and nothing from outside lands while the phase runs. -/
def AtPoint (p : Phase) (m : Micro) (s : State) : Prop :=
  s.state = .busy ∧ s.phase = p ∧ s.micro = m ∧ s.inputs = []

/-- Transactions on SRC return a value or `EXHAUSTED`. -/
def SrcOpen (s : State) : Prop := s.src.failed = false ∧ s.src.blocked = false

/-- Transactions on SNK return `OK`. -/
def SnkOpen (s : State) : Prop := s.snk.failed = false ∧ s.snk.closed = false ∧ s.snk.blocked = false

/-- The bits of SRC from the cursor on. -/
def upcoming (s : State) : Bits := s.src.bits.drop s.src.pos

/-- SRC after n bits have been read. -/
def srcAfter (n : Nat) (s : State) : Source := { s.src with pos := s.src.pos + n }

/-- SRC after an `EXHAUSTED` answer. -/
def srcExhausted (src : Source) (draws : Nat) : Source :=
  { src with pos := src.pos + min (Config.bitsExhaustedConsumes draws) (src.bits.length - src.pos) }

/-- SNK after the bits `b` have been written. -/
def snkAfter (b : Bits) (s : State) : Sink := { s.snk with bits := s.snk.bits ++ b }

/-- The running phase is about to make a transaction on SRC (`20_memory.md` R48; `rewind` of `44_encoder.md` R131). -/
def waitsOnSrc (s : State) : Bool :=
  match s.phase, s.micro with
  | .count, .loop | .rdmagic, .start | .rdtree, .loop | .rdtree, .leafField _ | .encode, .start | .encode, .loop => true
  | .decode, .loop => decide (s.dstate = .atInternal)
  | _, _ => false

/-- The running phase is about to make a transaction on SNK (R48; `close` of `46_sequencer.md` R159). -/
def waitsOnSnk (s : State) : Bool :=
  match s.phase, s.micro with
  | .wrmagic, .start | .wrtree, .symField _ | .encode, .emit (_ :: _) _ | .flush, .start => true
  | .wrtree, .visit (some h) => (Table.read s.node h).isSome
  | .decode, .loop =>
    decide (s.dstate = .atLeaf) && decide (s.cur ≠ s.root) &&
      (match s.cur.bind (Table.read s.node) with
      | some n => decide (n.sym.toNat < Config.pseudoEof)
      | none => false)
  | _, _ => false

/-! ### The invariant -/

/-- The program points of a phase. -/
def microFits : Phase → Micro → Bool
  | .count, .start | .count, .loop => true
  | .build, .start | .build, .loop => true
  | .derive, .start | .derive, .visit _ | .derive, .back => true
  | .wrmagic, .start => true
  | .wrtree, .start | .wrtree, .visit _ | .wrtree, .symField _ | .wrtree, .back => true
  | .encode, .start | .encode, .loop | .encode, .emit _ _ => true
  | .flush, .start => true
  | .rdmagic, .start => true
  | .rdtree, .start | .rdtree, .loop | .rdtree, .leafField _ => true
  | .decode, .start | .decode, .loop => true
  | _, _ => false

/-- The control state is consistent (`10_state.md` R13, R17, R18; `70_reset_and_hazards.md` R190). -/
structure ControlOk (s : State) : Prop where
  err_iff : s.err.isSome = true ↔ s.state = .faulted
  idle_phase : s.state = .idle → s.phase = .noPhase
  done_phase : s.state = .done → s.phase = .noPhase
  busy_place : s.state = .busy → microFits s.phase s.micro = true
  /-- While the reset input is asserted the block is as after reset (`70_reset_and_hazards.md` R190). -/
  held : s.rst = true → resetBlock s = s

/-- The tables are in canonical form, and the cursor of SRC is within its bits (`20_memory.md` R41). -/
structure TablesOk (s : State) : Prop where
  freq_wf : Table.wf s.freq = true
  node_wf : Table.wf s.node = true
  code_wf : Table.wf s.code = true
  cursor : s.src.pos ≤ s.src.bits.length

/-- Every register and table entry fits the width the spec gives it (`00_scope.md` R5, `10_state.md` R20 to R30):
no operation of the machine wraps (`41_tree_builder.md` R101). -/
structure WidthsOk (s : State) : Prop where
  len_le : s.len ≤ Config.lenMax
  seq_le : s.seq ≤ Config.nodeCap
  nnodes_le : s.nnodes ≤ Config.nodeCap
  trail_le : s.trail.length ≤ Config.codeMax
  srcpos_lt : s.srcpos < Config.posLimit
  snkpos_lt : s.snkpos < Config.posLimit
  freq_le : ∀ i w, Table.read s.freq i = some w → i < Config.alphSize ∧ w < 2 ^ 32
  node_le : ∀ i n, Table.read s.node i = some n → i < Config.nodeCap ∧ n.weight < 2 ^ 32
  pq_le : s.pq.length ≤ Config.pqCap
  code_le : ∀ i c, Table.read s.code i = some c → i < Config.nsym ∧ c.length ≤ Config.codeMax
  stk_le : s.stk.length ≤ Config.nodeCap

/-- The arena BUILD makes from `k` leaves, filled up to `seq` (`41_tree_builder.md` R91, R94, R97): leaves first, then
internal nodes, each above its two children; no weight passes `limit`. -/
structure BuiltArena (k limit seq : Nat) (node : Table Node) : Prop where
  k_pos : 1 ≤ k
  k_le : k ≤ Config.nsym
  k_le_seq : k ≤ seq
  dense : ∀ i, i < seq ↔ (Table.read node i).isSome = true
  kind : ∀ i n, Table.read node i = some n → (n.leaf = true ↔ i < k)
  sym_le : ∀ i n, Table.read node i = some n → n.leaf = true → n.sym.toNat ≤ Config.pseudoEof
  weight_le : ∀ i n, Table.read node i = some n → n.weight ≤ limit
  children : ∀ i n, Table.read node i = some n → n.leaf = false →
    ∃ l r, n.left = some l ∧ n.right = some r ∧ l < i ∧ r < i

/-- What the run has built when BUILD is over: a tree with an end-of-file leaf under `ROOT`. -/
def TreeBuilt (seq : Nat) (node : Table Node) (root : Handle) : Prop :=
  ∃ k, BuiltArena k (2 ^ 32 - 1) seq node ∧ seq + 1 = 2 * k ∧ HasEof node root

/-- The queue of BUILD between two merges (`41_tree_builder.md` R92 to R97): `len` is `LEN`. -/
structure QueueOk (k len seq : Nat) (node : Table Node) (pq : List PqEntry) : Prop where
  sorted : pqSorted pq = true
  nonempty : pq ≠ []
  size : seq + pq.length = 2 * k
  entry : ∀ e ∈ pq, e.seq = e.handle ∧ ∃ n, Table.read node e.handle = some n ∧ n.weight = e.weight
  total : (pq.map PqEntry.weight).sum = len + 1
  eof : ∃ e ∈ pq, HasEof node (some e.handle)

/-- The stack of a walk over a built tree (DERIVE, WRTREE): internal nodes, each above the one on top of it, and above
the node the walk looks at. -/
structure WalkStack (seq : Nat) (node : Table Node) (micro : Micro) (stk : List StkEntry) : Prop where
  internal : ∀ e ∈ stk, ∃ n, Table.read node e.handle = some n ∧ n.leaf = false
  rising : stk.Pairwise fun a b => a.handle < b.handle
  below : ∀ h, micro = .visit h → ∃ i, h = some i ∧ i < seq ∧ ∀ e ∈ stk, i < e.handle

/-- The end-of-file leaf has its code, or the walk of DERIVE has still to reach it. -/
def EofAhead (code : Table Bits) (node : Table Node) (micro : Micro) (stk : List StkEntry) : Prop :=
  (Table.read code Config.pseudoEof).isSome = true ∨ (∃ h, micro = .visit h ∧ HasEof node h) ∨
    ∃ e ∈ stk, e.leftDone = false ∧ ∃ n, Table.read node e.handle = some n ∧ HasEof node n.right

/-- The stack of `des()` (RDTREE): open nodes, not yet written, each above the one below it. -/
structure ReadStack (nnodes : Nat) (node : Table Node) (micro : Micro) (stk : List StkEntry) : Prop where
  fresh : ∀ e ∈ stk, e.handle < nnodes ∧ Table.read node e.handle = none
  falling : stk.Pairwise fun a b => b.handle < a.handle
  lefts : ∀ e ∈ stk, e.leftDone = true → HasTree node e.left
  allocated : ∀ i n, Table.read node i = some n → i < nnodes
  pending : ∀ h, micro = .leafField h →
    h < nnodes ∧ Table.read node h = none ∧ ∀ e ∈ stk, e.handle < h

/-- What the running phase needs of the tables and working registers (`20_memory.md` R55: each table is complete
before the phase that reads it begins). -/
def Ready (s : State) : Prop :=
  match s.phase with
  | .noPhase => False
  | .count => s.node = [] ∧ (s.micro = .loop → FreqFull s.freq ∧ freqSum s.freq = s.len)
  | .build =>
    FreqFull s.freq ∧ freqSum s.freq = s.len ∧ (s.micro = .start → s.node = []) ∧
      (s.micro = .loop → ∃ k, BuiltArena k (s.len + 1) s.seq s.node ∧ QueueOk k s.len s.seq s.node s.pq)
  | .derive =>
    TreeBuilt s.seq s.node s.root ∧
      (s.micro ≠ .start → WalkStack s.seq s.node s.micro s.stk ∧ s.trail.length = s.stk.length ∧
        EofAhead s.code s.node s.micro s.stk)
  | .wrmagic => TreeBuilt s.seq s.node s.root ∧ (codeAt Config.pseudoEof s).isSome = true
  | .wrtree =>
    TreeBuilt s.seq s.node s.root ∧ (codeAt Config.pseudoEof s).isSome = true ∧
      (s.micro ≠ .start → WalkStack s.seq s.node s.micro s.stk)
  | .encode => (codeAt Config.pseudoEof s).isSome = true
  | .flush => True
  | .rdmagic => s.node = []
  | .rdtree =>
    (s.micro = .start → s.node = []) ∧ (s.micro ≠ .start → ReadStack s.nnodes s.node s.micro s.stk)
  | .decode =>
    HasTree s.node s.root ∧
      (s.micro = .loop →
        (s.dstate = .atInternal → ∃ l r, arenaHolds s.node (.node l r) s.cur = true) ∧
        (s.dstate = .atLeaf → ∃ sym, arenaHolds s.node (.leaf sym) s.cur = true))

/-- The invariant of the machine. -/
structure Inv (s : State) : Prop where
  control : ControlOk s
  tables : TablesOk s
  widths : WidthsOk s
  ready : s.state = .busy → Ready s

/-- A step the model gives a meaning: it answers a next state, or one of the spec's two situations without one. -/
def SafeStep (s : State) : Prop :=
  match step s with
  | .next _ => True
  | .fault _ => False
  | .refused r => r = .positionOverflow ∨ r = .rebindWhileBusy

end Sys2Proof.Machine
end

