-- ==== Sys2Proof/Certificates/Slice0/Obligations.lean ====
section
/-!
DEFINITION. The statements about the model, for the provers: encodings, the step, the commands and registers, faults and
reset, every phase with its result and its faults, frames, the invariant, and whole runs.
-/

open Sys2Proof Sys2Proof.Machine

/-! ### Encodings -/

/-- Decoding an encoded well-formed instruction gives it back, whatever follows (`30_encoding.md` R61 to R71; a code
word stands in the body of a tree that has it as a path, R67). -/
def Obligations.DecodeEncode : Prop :=
  ∀ (t : Tree) (i : Instr) (rest : Bits), i.wf = true →
    (∀ c, i = .codeword c → (t.at? c).isSome = true) →
    decode (placeOf t i) (encode i ++ rest) = .ok (i, rest)

/-- What the decoder accepts is well formed, begins with the encoding of what it answers, and stands in that
instruction's place: nothing falls through to a neighbour (R68, R74). -/
def Obligations.EncodeDecode : Prop :=
  ∀ (p : Place) (b rest : Bits) (i : Instr), decode p b = .ok (i, rest) →
    i.wf = true ∧ b = encode i ++ rest ∧ ∃ t, placeOf t i = p

/-- Words written out from the tables of R61, R63, R67, R69 and R71. -/
def Obligations.DecodesSpecWords : Prop :=
  decodeTableWord 32 0x00000001 = some .compress ∧
  decodeTableWord 32 0x00000003 = some .reservedOp3 ∧
  decodeTableWord 32 0x00000101 = some (.reservedHigh 0x101#32) ∧
  decodeTableWord 4 0xA = some .decode ∧
  decodeTableWord 4 0xB = none ∧
  decodeAll .treeToken [false] = some .internal ∧
  decodeAll .treeToken [true, false, false, true, false, false, false, false, false, true] = some (.leaf 65#9) ∧
  decodeAll (.body (.node (.node (.leaf 66#9) (.leaf 256#9)) (.leaf 65#9))) [false, true] =
    some (.codeword [false, true])

/-! ### The step -/

/-- With nothing from outside due, a step runs the instruction the PHASE bits stand for: the running phase in a run,
PHASE_NONE outside a run (`10_state.md` R18, `60_exceptions.md` R182). -/
def Obligations.StepRunsPhase : Prop :=
  ∀ s : State, (s.inputs = [] ∨ s.state = .busy ∧ due s = false) →
    (∀ i, decodePhase (phaseBits s) = .ok i → step s = exec i s) ∧
    (s.state = .busy → phaseBits s = s.phase.code ∧ decodePhase (phaseBits s) = .ok s.phase.instr) ∧
    (s.state ≠ .busy → decodePhase (phaseBits s) = .ok .phaseNone)

/-- An event that is due, or any pending event when no run is in progress, is what the step does; a write of register 0
runs the command its value decodes to (`46_sequencer.md` R155). What each event does to the streams: a bind in a run is
refused (`70_reset_and_hazards.md` R196, U17; log entry 19), a bind outside a run gives SRC at its first bit (R193 a) or
an empty open SNK (R193 b), a close sets the mark by which the next transaction is IOFAIL (`20_memory.md` R44; the
transaction itself is `IoFailure`), and a stream stops answering or answers again (R53; log entry 17).
The list of pending events is the model's choice (log entry 3), and so is what a source presents again (log entry 18). -/
def Obligations.StepDeliversEvent : Prop :=
  (∀ (s : State) (n : Nat) (e : Event) (rest : List (Nat × Event)), s.inputs = (n, e) :: rest →
    n = 0 ∨ s.state ≠ .busy →
    step s = deliver e { s with inputs := rest } ∧
      ∀ v, e = .hostWrite 0 v → step s = exec (decodeCmd v) { s with inputs := rest }) ∧
  ∀ s : State,
    (s.state = .busy →
      (∀ bits reread, deliver (.bindSrc bits reread) s = .refused .rebindWhileBusy) ∧
      deliver .bindSnk s = .refused .rebindWhileBusy) ∧
    (s.state ≠ .busy →
      (∀ bits reread, deliver (.bindSrc bits reread) s = .next
        { s with src := { bits := bits, pos := 0, failed := false, blocked := false, reread := reread } }) ∧
      deliver .bindSnk s = .next { s with snk := { bits := [], failed := false, closed := false, blocked := false } }) ∧
    deliver .closeSrc s = .next { s with src := { s.src with failed := true } } ∧
    deliver .closeSnk s = .next { s with snk := { s.snk with failed := true } } ∧
    ∀ b, deliver (.blockSrc b) s = .next { s with src := { s.src with blocked := b } } ∧
      deliver (.blockSnk b) s = .next { s with snk := { s.snk with blocked := b } }

/-- A word placed by `withFetchWord` is what the next step runs: a command in any state, a phase from its first line. -/
def Obligations.PlacedWordRuns : Prop :=
  (∀ (s : State) (v : Word), step (s.withFetchWord 32 v.toNat) = exec (decodeCmd v) s) ∧
  ∀ (s : State) (p : Phase), p ≠ .noPhase →
    decodeTableWord 4 p.code.toNat = some p.instr ∧
      step (s.withFetchWord 4 p.code.toNat) = exec p.instr (reachPhase p s) ∧ AtStart p (reachPhase p s)

/-! ### Commands (`46_sequencer.md`) -/

/-- NOP changes nothing (R163). -/
def Obligations.NopChangesNothing : Prop := ∀ s : State, exec .nop s = .next s

/-- COMPRESS and DECOMPRESS outside a run and out of reset are accepted: every item of per-run initialisation (R156), and control to
COUNT (R157) or RDMAGIC (R160). `CTRL`, the streams and the outside world stay.
The empty tables stand for "unspecified" (log entry 6). -/
def Obligations.AcceptedCommandStartsRun : Prop :=
  ∀ (s : State) (i : Instr) (p : Phase), Accepting s →
    (i = .compress ∧ p = .count ∨ i = .decompress ∧ p = .rdmagic) →
    exec i s = .next
      { s with
        state := .busy, phase := p, dstate := .atRoot, err := none, errpos := 0#64, len := 0, seq := 0,
        nnodes := 0, root := none, cur := none, trail := [], srcpos := 0, snkpos := 0, freq := [], node := [],
        pq := [], code := [], stk := [], micro := .start }

/-- A reserved command outside a run and out of reset: per-run initialisation and `IllegalCommand`, code 9, PHASE NONE,
ERRPOS 0, no stream touched (R164). The empty tables FREQ and NODE stand for "unspecified" (log entry 6: DEDUCED, the
model's), and passing through BUSY within one step is log entry 23. -/
def Obligations.ReservedCommandFaults : Prop :=
  ∀ (s : State) (i : Instr), Accepting s → (i = .reservedOp3 ∨ ∃ v, i = .reservedHigh v) →
    exec i s = .next
      { s with
        state := .faulted, phase := .noPhase, dstate := .atRoot, err := some .illegalCommand, errpos := 0#64, len := 0,
        seq := 0, nnodes := 0, root := none, cur := none, trail := [], srcpos := 0, snkpos := 0, freq := [],
        node := [], pq := [], code := [], stk := [], micro := .start } ∧
      FaultCode.illegalCommand.code = 9

/-- A write of CMD while BUSY is ignored whatever its value (R165). -/
def Obligations.BusyIgnoresCommand : Prop :=
  ∀ (s : State) (v : Word), s.state = .busy → deliver (.hostWrite 0 v) s = .next s ∧ exec (decodeCmd v) s = .next s

/-- What a write of CMD does, by STATE and value (R155). That it does nothing while the reset input is asserted is the
model's reading of `70_reset_and_hazards.md` R190 (log entry 24: DEDUCED); the state of an accepted command has FREQ and
NODE emptied (log entry 6: DEDUCED, the model's) and BUSY passed through within the step (log entry 23: DEDUCED, the
model's). -/
def Obligations.CommandAcceptance : Prop :=
  ∀ (s : State) (v : Word),
    (s.state = .busy → deliver (.hostWrite 0 v) s = .next s) ∧
    (s.rst = true → deliver (.hostWrite 0 v) s = .next s) ∧
    (Accepting s →
      (v = 0#32 → deliver (.hostWrite 0 v) s = .next s) ∧
      (v = 1#32 → deliver (.hostWrite 0 v) s = .next (enterPhase .count (perRunInit s))) ∧
      (v = 2#32 → deliver (.hostWrite 0 v) s = .next (enterPhase .rdmagic (perRunInit s))) ∧
      (2 < v.toNat → deliver (.hostWrite 0 v) s = .next (faultEntry .illegalCommand (perRunInit s))))

/-- A new run owes nothing to an earlier one: states that agree on CTRL, the streams and the outside world become equal
at an accepted command (R156; `10_state.md` R33). They become equal whole because the model empties FREQ and NODE, whose
contents R156 leaves as they are and calls unspecified to the new run (log entry 6: DEDUCED, the model's). -/
def Obligations.RunOwesNothingToEarlierRuns : Prop :=
  ∀ (s s' : State) (v : Word), Accepting s → Accepting s' → v ≠ 0#32 →
    s.ie = s'.ie → s.src = s'.src → s.snk = s'.snk → s.inputs = s'.inputs → s.hostData = s'.hostData →
    s.draws = s'.draws → deliver (.hostWrite 0 v) s = deliver (.hostWrite 0 v) s'

/-- What the host reads and what it writes into CTRL have no influence on any instruction: with another IE and another
word in the host's hands the answer is the same but for these two (`00_scope.md` R9, `60_exceptions.md` R184, R185). -/
def Obligations.HostAccessesDoNotInfluenceRuns : Prop :=
  ∀ (i : Instr) (s : State) (ie : Bool) (w : Word),
    (∀ t, exec i s = .next t →
      exec i { s with ie := ie, hostData := w } = .next { t with ie := ie, hostData := w }) ∧
    (∀ f, exec i s = .fault f → exec i { s with ie := ie, hostData := w } = .fault f) ∧
    ∀ r, exec i s = .refused r → exec i { s with ie := ie, hostData := w } = .refused r

/-! ### Control registers (`10_state.md` R11 to R16, R31) -/

/-- STATUS (R12, with the codes of `30_encoding.md` R70 to R72). -/
def Obligations.StatusRegister : Prop :=
  (∀ s : State,
    (readReg 1 s).extractLsb' 0 2 = s.state.code ∧ (readReg 1 s).extractLsb' 2 4 = s.phase.code ∧
    (readReg 1 s).extractLsb' 6 2 = s.dstate.code ∧ (readReg 1 s).extractLsb' 8 24 = 0#24 ∧
    ∀ v, deliver (.hostWrite 1 v) s = .next s) ∧
  readReg 1 State.reset = 0#32 ∧
  ([RunState.idle, .busy, .done, .faulted].map RunState.code = [0, 1, 2, 3]) ∧
  ([Phase.noPhase, .count, .build, .derive, .wrmagic, .wrtree, .encode, .flush, .rdmagic, .rdtree, .decode].map
    Phase.code = [0, 1, 2, 3, 4, 5, 6, 7, 8, 9, 10]) ∧
  [DState.atRoot, .atInternal, .atLeaf, .accept].map DState.code = [0, 1, 2, 3]

/-- ERR: the code of the fault in bits[3:0], the rest 0 (R13), with the codes of `30_encoding.md` R73; in every
consistent state the code is 0 exactly when no fault ended the last run (R13, last sentence). -/
def Obligations.ErrRegister : Prop :=
  (∀ s : State,
    (s.err = none → readReg 2 s = 0#32) ∧
    (∀ f, s.err = some f → (readReg 2 s).extractLsb' 0 4 = f.code ∧ (readReg 2 s).extractLsb' 4 28 = 0#28) ∧
    ∀ v, deliver (.hostWrite 2 v) s = .next s) ∧
  ([FaultCode.badMagicNumber, .malformedHeader, .corruptTree, .truncatedStream, .ioFailure, .countOverflow,
    .nodeOverflow, .missingCode, .illegalCommand].map FaultCode.code = [1, 2, 3, 4, 5, 6, 7, 8, 9]) ∧
  ∀ s : State, Inv s → (readReg 2 s ≠ 0#32 ↔ s.state = .faulted)

/-- ERRPOS: two read-only halves; fault entry copies SRCPOS; per-run initialisation and reset clear it (R14). -/
def Obligations.ErrposRegister : Prop :=
  ∀ s : State,
    (readReg 4 s ++ readReg 3 s : BitVec 64) = s.errpos ∧
    (∀ v, deliver (.hostWrite 3 v) s = .next s ∧ deliver (.hostWrite 4 v) s = .next s) ∧
    (∀ f, (faultEntry f s).errpos = BitVec.ofNat 64 s.srcpos) ∧
    (perRunInit s).errpos = 0#64 ∧ (resetBlock s).errpos = 0#64 ∧ State.reset.errpos = 0#64

/-- CTRL: IE in bit 0, the rest 0; written in any STATE; no command, no phase and no fault changes it (R15).
R15 lets it be written at any time; that a write while the reset input is asserted does nothing, because CTRL is then 0
(`70_reset_and_hazards.md` R190), is the model's reading (log entry 24: DEDUCED). -/
def Obligations.CtrlRegister : Prop :=
  (∀ s : State,
    (readReg 5 s).getLsbD 0 = s.ie ∧ (readReg 5 s).extractLsb' 1 31 = 0#31 ∧
    (∀ v, s.rst = false → deliver (.hostWrite 5 v) s = .next { s with ie := v.getLsbD 0 }) ∧
    (∀ v, s.rst = true → deliver (.hostWrite 5 v) s = .next s) ∧
    ∀ f, (faultEntry f s).ie = s.ie) ∧
  (∀ (i : Instr) (s t : State), exec i s = .next t → t.ie = s.ie) ∧
  State.reset.ie = false

/-- Numbers above 5 read 0, and so does CMD (R11); writes of read-only registers, of reserved bits and of numbers above 5
do nothing; a read shows nothing but the control registers (R16). That a read changes the word the host holds and nothing
else is the model's own field (log entry 21: DESIGN CHOICE). -/
def Obligations.OtherRegisters : Prop :=
  (∀ (s : State) (n : Nat), 5 < n → readReg n s = 0#32) ∧
  (∀ (s : State) (n : Nat) (v : Word), n ≠ 0 → n ≠ 5 → deliver (.hostWrite n v) s = .next s) ∧
  (∀ (s : State) (v w : Word), v.getLsbD 0 = w.getLsbD 0 →
    deliver (.hostWrite 5 v) s = deliver (.hostWrite 5 w) s) ∧
  (∀ (s s' : State) (n : Nat), s.state = s'.state → s.phase = s'.phase → s.dstate = s'.dstate → s.err = s'.err →
    s.errpos = s'.errpos → s.ie = s'.ie → readReg n s = readReg n s') ∧
  ∀ s : State, readReg 0 s = 0#32 ∧ ∀ n, deliver (.hostRead n) s = .next { s with hostData := readReg n s }

/-- IRQ: its condition, and what raises, masks and clears it (`60_exceptions.md` R184); while the reset input is asserted
it is 0 (`70_reset_and_hazards.md` R190). The two clauses on a write of CTRL are out of reset, since the model takes no
such write in reset (log entry 24: DEDUCED, the model's). -/
def Obligations.InterruptLine : Prop :=
  ∀ s : State,
    (irq s = true ↔ s.ie = true ∧ (s.state = .done ∨ s.state = .faulted)) ∧
    (∀ t, s.rst = false → deliver (.hostWrite 5 0#32) s = .next t → irq t = false) ∧
    (∀ t, s.rst = false → deliver (.hostWrite 5 1#32) s = .next t →
      (irq t = true ↔ s.state = .done ∨ s.state = .faulted)) ∧
    (Inv s → s.rst = true → irq s = false) ∧
    (∀ t i, Accepting s → (i = .compress ∨ i = .decompress) → exec i s = .next t → irq t = false) ∧
    (∀ f, irq (faultEntry f s) = s.ie) ∧ irq (complete s) = s.ie ∧ irq (resetBlock s) = false

/-! ### Faults and reset -/

/-- Fault entry: the code, the position and FAULTED; PHASE, DSTATE, CUR, the tables and the streams keep their values,
and nothing runs after it (`60_exceptions.md` R180). -/
def Obligations.FaultEntry : Prop :=
  ∀ (f : FaultCode) (s : State) (k : State → Res),
    faultEntry f s = { s with err := some f, errpos := BitVec.ofNat 64 s.srcpos, state := .faulted } ∧
    (raise f s).bind k = .halt (.next (faultEntry f s))

/-- No return and no nesting (R182): while FAULTED no phase, no wire field and no NOP changes anything, and an event
keeps STATE, ERR and ERRPOS unless it is reset or an accepted command. -/
def Obligations.FaultedIsFinal : Prop :=
  ∀ s : State, s.state = .faulted →
    (s.inputs = [] → step s = .next s) ∧
    (∀ i, i ≠ .compress → i ≠ .decompress → i ≠ .reservedOp3 → (∀ v, i ≠ .reservedHigh v) → exec i s = .next s) ∧
    ∀ e t, deliver e s = .next t → (∀ a, e ≠ .resetInput a) → (∀ v, v ≠ 0#32 → e ≠ .hostWrite 0 v) →
      t.state = .faulted ∧ t.err = s.err ∧ t.errpos = s.errpos

/-- The transitions of STATE (`10_state.md` R17): to BUSY at an accepted COMPRESS or DECOMPRESS, to DONE at the end of
FLUSH, to FAULTED at fault entry in a run, to IDLE at reset. A reserved command, and no other, is seen as FAULTED after
its one step: it passes through BUSY within it (log entry 23: DEDUCED, the model's). -/
def Obligations.StateTransitions : Prop :=
  ∀ s t : State, step s = .next t →
    t.state = s.state ∨
    (Accepting s ∧ ∃ n v rest, s.inputs = (n, .hostWrite 0 v) :: rest ∧
      (t.state = .busy ∧ (v = 1#32 ∨ v = 2#32) ∨ t.state = .faulted ∧ 2 < v.toNat)) ∨
    (s.state = .busy ∧ t.state = .done ∧ s.phase = .flush) ∨
    (s.state = .busy ∧ t.state = .faulted ∧ t.phase = s.phase ∧ t.err.isSome = true) ∨
    (t.state = .idle ∧ ∃ n a rest, s.inputs = (n, .resetInput a) :: rest)

/-- The values after reset (`10_state.md` R33); a table with no entry is unspecified (FREQ, NODE) or absent (CODE).
Per-run initialisation gives the same values but for CTRL, STATE and the outside world, and a read of an unspecified
entry is a fault of the model. -/
def Obligations.ResetValues : Prop :=
  (∀ s : State, perRunInit s =
    { State.reset with
      state := .busy, ie := s.ie, src := s.src, snk := s.snk, rst := s.rst, inputs := s.inputs
      hostData := s.hostData, draws := s.draws }) ∧
  (∀ (s : State) (i : Nat) (k : Nat → Res), freqAt i s = none →
    readFreq i s k = modelFault (.unspecifiedRead .freq i)) ∧
  (∀ (s : State) (i : Nat) (k : Node → Res), Table.read s.node i = none →
    readNode (some i) s k = modelFault (.unspecifiedRead .node i)) ∧
  let s := State.reset
  s.state = .idle ∧ s.phase = .noPhase ∧ s.dstate = .atRoot ∧ errCode s = 0 ∧ s.errpos = 0#64 ∧ s.ie = false ∧
  irq s = false ∧ s.len = 0 ∧ s.seq = 0 ∧ s.nnodes = 0 ∧ tlen s = 0 ∧ s.srcpos = 0 ∧ s.snkpos = 0 ∧
  s.root = none ∧ s.cur = none ∧ s.pq = [] ∧ s.stk = [] ∧
  (∀ i, i ≠ 256 → freqAt i s = none) ∧ (∀ t : State, freqAt 256 t = some 1) ∧ (∀ i, Table.read s.node i = none) ∧
  ∀ i, codeValid i s = false

/-- Reset (`70_reset_and_hazards.md` R190, R191): asserted in any STATE, and at its release, the block is as after reset,
and the streams keep their bits, SNK unclosed. While it is asserted the block stays so whatever the outside world does:
a write of any register does nothing, and no step changes the block.
The model's, all log entry 24: that the pending events, the word the host holds and the draw counter are kept (DESIGN
CHOICE), that a release with no assertion before it changes nothing (DESIGN CHOICE), and that a register write while it
is asserted does nothing (DEDUCED). -/
def Obligations.ResetAbandonsRun : Prop :=
  ∀ s : State,
    deliver (.resetInput true) s = .next
      { State.reset with
        src := s.src, snk := s.snk, rst := true, inputs := s.inputs, hostData := s.hostData, draws := s.draws } ∧
    (s.rst = true → deliver (.resetInput false) s = .next
      { State.reset with
        src := s.src, snk := s.snk, rst := false, inputs := s.inputs, hostData := s.hostData, draws := s.draws }) ∧
    (s.rst = false → deliver (.resetInput false) s = .next s) ∧
    (s.rst = true → ∀ n v, deliver (.hostWrite n v) s = .next s) ∧
    ∀ t, s.rst = true → resetBlock s = s → step s = .next t → resetBlock t = t

/-! ### COUNT (`40_frequency_counter.md`) -/

/-- COUNT reads its whole input and leaves the Frequency Table and the length of it (R80 to R83), and hands on to
BUILD. After a byte stream the cursor of SRC is at the end (R83). The last 1 to 7 bits of a stream that is no byte stream
are not counted (R83); how many of them the `EXHAUSTED` answer consumes is a free value (log entry 13). -/
def Obligations.CountCountsInput : Prop :=
  ∀ (s : State) (bs : List Byte) (tail : Bits), AtStart .count s → SrcOpen s → upcoming s = byteBits bs ++ tail →
    tail.length < 8 → bs.length ≤ Config.lenMax → s.srcpos + 8 * bs.length < Config.posLimit →
    exec .count s = .next
      { s with
        freq := freqOf bs, len := bs.length, srcpos := s.srcpos + 8 * bs.length
        src := srcExhausted (srcAfter (8 * bs.length) s) s.draws, draws := s.draws + 1
        phase := .build, micro := .start } ∧
    s.src.pos + 8 * bs.length ≤ (srcExhausted (srcAfter (8 * bs.length) s) s.draws).pos ∧
    (tail = [] → s.src.pos ≤ s.src.bits.length →
      (srcExhausted (srcAfter (8 * bs.length) s) s.draws).pos = s.src.bits.length)

/-- A byte read when LEN is LEN_MAX is `CountOverflow`, and the byte is not counted (R84, `60_exceptions.md` R176). -/
def Obligations.CountOverflow : Prop :=
  ∀ s : State, AtPoint .count .loop s → SrcOpen s → 8 ≤ (upcoming s).length → s.srcpos + 8 < Config.posLimit →
    s.len = Config.lenMax →
    exec .count s = .next (faultEntry .countOverflow { s with src := srcAfter 8 s, srcpos := s.srcpos + 8 })

/-! ### BUILD (`41_tree_builder.md`) -/

/-- The queue: the order of R92 is total on entries of different seq; `insert` keeps it and adds exactly the entry;
`removeMin` takes the entry that comes before all others (R92, R93). -/
def Obligations.QueueOrder : Prop :=
  (∀ x y : PqEntry, x.before y = true ↔ x.weight < y.weight ∨ x.weight = y.weight ∧ x.seq < y.seq) ∧
  (∀ x y : PqEntry, x.seq ≠ y.seq → (x.before y = true ↔ y.before x = false)) ∧
  (∀ (e : PqEntry) (q : List PqEntry), pqSorted q = true → (∀ y ∈ q, e.seq ≠ y.seq) →
    pqSorted (pqInsert e q) = true ∧ (pqInsert e q).Perm (e :: q)) ∧
  ∀ (q : List PqEntry), pqSorted q = true → q ≠ [] →
    ∃ x rest, removeMin q = some (x, rest) ∧ q = x :: rest ∧ pqSorted rest = true ∧ ∀ y ∈ rest, x.before y = true

/-- BUILD makes the tree of the Huffman construction with the tie-break of R92 and numbers its nodes by creation (R91, R94,
R95): the k leaves 0 to k − 1 in ascending order of symbol, then the internal nodes k, k + 1, … in the order they are
made, the last of them the root. It leaves the queue empty and hands on to DERIVE; nothing but NODE, PQ, SEQ and ROOT
changes. -/
def Obligations.BuildMakesHuffmanTree : Prop :=
  ∀ s : State, AtStart .build s → FreqFull s.freq →
    ∃ node made t k, k = (countedSyms s.freq).length ∧ 1 ≤ k ∧ k ≤ Config.pqCap ∧
      exec .build s = .next
        { s with
          node := node, pq := [], seq := 2 * k - 1, root := some (2 * k - 2), phase := .derive, micro := .start } ∧
      HuffmanNodes s.freq made t ∧ made.length = k - 1 ∧ arenaHolds node t (some (2 * k - 2)) = true ∧
      (∀ j n, made[j]? = some n → Table.read node (k + j) = some n) ∧
      (∀ j sym w, (countedSyms s.freq)[j]? = some (sym, w) →
        Table.read node j = some (mkLeaf (BitVec.ofNat 9 sym) w)) ∧
      (∃ n, Table.read node (2 * k - 2) = some n ∧ n.weight = freqSum s.freq + 1) ∧
      ∀ i, 2 * k - 1 ≤ i → Table.read node i = Table.read s.node i

/-- The tree BUILD makes costs no more than any tree with the same leaves (R99). -/
def Obligations.BuildIsOptimal : Prop :=
  ∀ s : State, AtStart .build s → FreqFull s.freq →
    ∃ s' t, exec .build s = .next s' ∧ arenaHolds s'.node t s'.root = true ∧
      ∀ t' : Tree, (treeSyms t').Perm (treeSyms t) → treeCost s.freq t ≤ treeCost s.freq t'

/-! ### DERIVE (`42_code_table_deriver.md`) -/

/-- DERIVE gives every leaf symbol the path to its leaf and leaves every other entry absent (R105 to R107), with STK and
the trail empty again, and hands on to WRMAGIC. -/
def Obligations.DeriveWritesPaths : Prop :=
  ∀ (s : State) (t : Tree), AtStart .derive s → arenaHolds s.node t s.root = true → t.leaves ≤ Config.nsym →
    (∀ sym ∈ treeSyms t, sym.toNat ≤ Config.pseudoEof) →
    exec .derive s = .next { s with code := codeTable t, trail := [], stk := [], phase := .wrmagic, micro := .start }

/-- After DERIVE no code is a prefix of another, and the code is complete: `Σ 2^(−|CODE[s]|) = 1` (R108), stated with
the denominators cleared. Each symbol has at most one leaf (R106). -/
def Obligations.PrefixCode : Prop :=
  ∀ (s : State) (t : Tree), AtStart .derive s → arenaHolds s.node t s.root = true → t.leaves ≤ Config.nsym →
    (∀ sym ∈ treeSyms t, sym.toNat ≤ Config.pseudoEof) → (treeSyms t).Nodup →
    ∃ s', exec .derive s = .next s' ∧
      (∀ i j c d, i ≠ j → codeAt i s' = some c → codeAt j s' = some d → ¬ c <+: d) ∧
      ((List.range Config.nsym).map fun i =>
        match codeAt i s' with
        | some c => 2 ^ (Config.codeMax - c.length)
        | none => 0).sum = 2 ^ Config.codeMax

/-- After BUILD and DERIVE a symbol has a code exactly when its count is not 0; PSEUDO_EOF always has one (R111), and no
code is longer than 256 bits (R110). -/
def Obligations.CodedExactlyIfCounted : Prop :=
  ∀ s : State, AtStart .build s → FreqFull s.freq →
    ∃ s1 s2, exec .build s = .next s1 ∧ exec .derive s1 = .next s2 ∧
      (∀ i, i ≤ Config.pseudoEof → (codeValid i s2 = true ↔ freqAt i s ≠ some 0)) ∧
      codeValid Config.pseudoEof s2 = true ∧ ∀ i c, codeAt i s2 = some c → c.length ≤ Config.codeMax

/-! ### WRMAGIC, WRTREE, ENCODE, FLUSH -/

/-- WRMAGIC appends the 32 bits of MAGIC, bit 31 first, and hands on to WRTREE; a sink that has failed or that
its owner has closed gives `IoFailure` (`46_sequencer.md` R158). That a sink the core itself has closed gives it too is
log entry 10 (DEDUCED, the model's). -/
def Obligations.WrmagicWritesMagic : Prop :=
  ∀ s : State, AtStart .wrmagic s →
    (SnkOpen s → s.snkpos + 32 < Config.posLimit →
      exec .wrmagic s = .next
        { s with
          snk := snkAfter (bitsOf 32 Config.magic.toNat) s, snkpos := s.snkpos + 32
          phase := .wrtree, micro := .start }) ∧
    (s.snk.failed = true ∨ s.snk.closed = true → exec .wrmagic s = .next (faultEntry .ioFailure s))

/-- WRTREE appends exactly `ser(tree)`, 11·k − 1 bits for k leaves (`43_tree_header_codec.md` R115 to R118), and hands
on to ENCODE. -/
def Obligations.WrtreeWritesHeader : Prop :=
  ∀ (s : State) (t : Tree), AtStart .wrtree s → SnkOpen s → arenaHolds s.node t s.root = true →
    t.leaves ≤ Config.nsym → s.snkpos + t.ser.length < Config.posLimit →
    exec .wrtree s = .next
      { s with
        snk := snkAfter t.ser s, snkpos := s.snkpos + t.ser.length, stk := [], phase := .encode, micro := .start } ∧
    t.ser.length = 11 * t.leaves - 1

/-- ENCODE reads the input again and appends the body: the code of every byte in input order, then the code of
PSEUDO_EOF once (`44_encoder.md` R130 to R133); it hands on to FLUSH without padding. -/
def Obligations.EncodeWritesBody : Prop :=
  ∀ (s : State) (bs : List Byte) (tail eof : Bits), AtStart .encode s → SrcOpen s → SnkOpen s →
    s.src.reread.getD s.src.bits = byteBits bs ++ tail → tail.length < 8 → Coded s.code bs →
    Table.read s.code Config.pseudoEof = some eof → eof.length ≤ Config.codeMax →
    8 * bs.length < Config.posLimit → s.snkpos + (bodyBits s.code bs).length < Config.posLimit →
    exec .encode s = .next
      { s with
        src := srcExhausted { s.src with bits := byteBits bs ++ tail, pos := 8 * bs.length } s.draws
        srcpos := 8 * bs.length, draws := s.draws + 1
        snk := snkAfter (bodyBits s.code bs) s, snkpos := s.snkpos + (bodyBits s.code bs).length
        phase := .flush, micro := .start }

/-- A byte of the second pass without a code is `MissingCode`: nothing is emitted for it and what is written stays
written (R134, `60_exceptions.md` R178). -/
def Obligations.MissingCode : Prop :=
  ∀ (s : State) (bs : List Byte) (b : Byte) (rest : Bits), AtStart .encode s → SrcOpen s → SnkOpen s →
    s.src.reread.getD s.src.bits = byteBits bs ++ bitsOf 8 b.toNat ++ rest → Coded s.code bs →
    Table.read s.code b.toNat = none → 8 * (bs.length + 1) < Config.posLimit →
    s.snkpos + (bs.flatMap fun x => (Table.read s.code x.toNat).getD []).length < Config.posLimit →
    exec .encode s = .next (faultEntry .missingCode
      { s with
        src := { s.src with bits := byteBits bs ++ bitsOf 8 b.toNat ++ rest, pos := 8 * (bs.length + 1) }
        srcpos := 8 * (bs.length + 1)
        snk := snkAfter (bs.flatMap fun x => (Table.read s.code x.toNat).getD []) s
        snkpos := s.snkpos + (bs.flatMap fun x => (Table.read s.code x.toNat).getD []).length
        micro := .loop })

/-- FLUSH closes the sink: 0 to 7 pad bits of any value up to a byte boundary, not counted by SNKPOS, and the run is
DONE with PHASE NONE, the fault code as it was, and IRQ raised if IE is set; `IoFailure` if the sink has failed or its
owner has closed it (`46_sequencer.md` R159, R162; `20_memory.md` R47, R58). That a sink the core itself has closed gives
it too is log entry 10 (DEDUCED, the model's). -/
def Obligations.FlushCompletesRun : Prop :=
  ∀ s : State, AtStart .flush s →
    (SnkOpen s →
      ∃ (pad : Bits) (t : State), pad.length < 8 ∧ (s.snk.bits.length + pad.length) % 8 = 0 ∧
        exec .flush s = .next t ∧ irq t = s.ie ∧
        t = { s with
              snk := { s.snk with bits := s.snk.bits ++ pad, closed := true }, draws := s.draws + pad.length
              state := .done, phase := .noPhase, micro := .start }) ∧
    (s.snk.failed = true ∨ s.snk.closed = true → exec .flush s = .next (faultEntry .ioFailure s))

/-! ### RDMAGIC and RDTREE -/

/-- RDMAGIC: the 32 bits of MAGIC hand on to RDTREE; 32 other bits are `BadMagicNumber` after them, fewer than 32 are
`BadMagicNumber` with no bit counted, and a failed source is `IoFailure` (`46_sequencer.md` R161). Nothing is
written. -/
def Obligations.RdmagicChecksMagic : Prop :=
  ∀ s : State, AtStart .rdmagic s →
    (s.src.failed = true → exec .rdmagic s = .next (faultEntry .ioFailure s)) ∧
    (SrcOpen s → 32 ≤ (upcoming s).length → s.srcpos + 32 < Config.posLimit →
      (bitsVal ((upcoming s).take 32) = Config.magic.toNat →
        exec .rdmagic s = .next
          { s with src := srcAfter 32 s, srcpos := s.srcpos + 32, phase := .rdtree, micro := .start }) ∧
      (bitsVal ((upcoming s).take 32) ≠ Config.magic.toNat →
        exec .rdmagic s = .next
          (faultEntry .badMagicNumber { s with src := srcAfter 32 s, srcpos := s.srcpos + 32 }))) ∧
    (SrcOpen s → (upcoming s).length < 32 →
      exec .rdmagic s = .next
        (faultEntry .badMagicNumber { s with src := srcExhausted s.src s.draws, draws := s.draws + 1 }))

/-- RDTREE on a source that goes on with `ser(t)` consumes exactly those bits and builds t: handles in pre-order from 0,
ROOT = 0, NNODES the number of nodes, every weight 0 (`43_tree_header_codec.md` R119, R120, R123, R124); it hands on to
DECODE with the cursor on the bit after the header. -/
def Obligations.RdtreeBuildsTree : Prop :=
  ∀ (s : State) (t : Tree) (rest : Bits), AtStart .rdtree s → SrcOpen s → upcoming s = t.ser ++ rest →
    t.size ≤ Config.nodeCap → s.srcpos + t.ser.length < Config.posLimit →
    ∃ node,
      exec .rdtree s = .next
        { s with
          src := srcAfter t.ser.length s, srcpos := s.srcpos + t.ser.length
          nnodes := t.size, node := node, stk := [], root := some 0, phase := .decode, micro := .start } ∧
      arenaHolds node t (some 0) = true ∧
      (∀ i, i < t.size → Table.read node i = (preNodes 0 t)[i]?) ∧
      ∀ i, t.size ≤ i → Table.read node i = Table.read s.node i

/-- A header that stops before its tree is complete is `MalformedHeader`, after a token or inside the field of a leaf;
ERRPOS counts the bits consumed before the failing read, the tag of a cut leaf among them; nothing is written
(R121, `60_exceptions.md` R172). With the arena full the end of the stream still wins (R122, R183 c). -/
def Obligations.MalformedHeader : Prop :=
  ∀ (s : State) (toks : List Instr) (cut : Bits), AtStart .rdtree s → SrcOpen s →
    (∀ tok ∈ toks, tok = .internal ∨ ∃ sym, tok = .leaf sym) → stillOpen 1 toks = true →
    (cut = [] ∨ ∃ field : Bits, cut = true :: field ∧ field.length < 9) →
    upcoming s = toks.flatMap encode ++ cut → toks.length + (cut.take 1).length ≤ Config.nodeCap →
    s.srcpos + (toks.flatMap encode).length + (cut.take 1).length < Config.posLimit →
    let used := (toks.flatMap encode).length + (cut.take 1).length
    ∃ node stk micro,
      exec .rdtree s = .next (faultEntry .malformedHeader
        { s with
          src := srcExhausted (srcAfter used s) s.draws, srcpos := s.srcpos + used, draws := s.draws + 1
          nnodes := toks.length + (cut.take 1).length, node := node, stk := stk, micro := micro })

/-- A tag bit read when the arena is full is `NodeOverflow` (R122, `60_exceptions.md` R177). -/
def Obligations.NodeOverflow : Prop :=
  ∀ (s : State) (toks : List Instr) (tag : Bool) (rest : Bits), AtStart .rdtree s → SrcOpen s →
    (∀ tok ∈ toks, tok = .internal ∨ ∃ sym, tok = .leaf sym) → stillOpen 1 toks = true →
    toks.length = Config.nodeCap → upcoming s = toks.flatMap encode ++ tag :: rest →
    s.srcpos + (toks.flatMap encode).length + 1 < Config.posLimit →
    let used := (toks.flatMap encode).length + 1
    ∃ node stk,
      exec .rdtree s = .next (faultEntry .nodeOverflow
        { s with
          src := srcAfter used s, srcpos := s.srcpos + used, nnodes := Config.nodeCap, node := node, stk := stk
          micro := .loop })

/-! ### DECODE (`45_decoder.md`) -/

/-- DECODE on a body consumes exactly its bits, writes exactly its bytes and ends in ACCEPT on the end-of-file leaf,
whatever follows (R140 to R147). -/
def Obligations.DecodeInvertsEncode : Prop :=
  ∀ (s : State) (t : Tree) (ps : List (Byte × Bits)) (eof rest : Bits), AtStart .decode s → SrcOpen s → SnkOpen s →
    arenaHolds s.node t s.root = true → Spells t ps → t.at? eof = some 256#9 →
    upcoming s = ps.flatMap Prod.snd ++ eof ++ rest →
    s.srcpos + (ps.flatMap Prod.snd ++ eof).length < Config.posLimit →
    s.snkpos + 8 * ps.length < Config.posLimit →
    ∃ cur, arenaHolds s.node (.leaf 256#9) cur = true ∧
      exec .decode s = .next
        { s with
          src := srcAfter (ps.flatMap Prod.snd ++ eof).length s
          srcpos := s.srcpos + (ps.flatMap Prod.snd ++ eof).length
          snk := snkAfter (byteBits (ps.map Prod.fst)) s, snkpos := s.snkpos + 8 * ps.length
          cur := cur, dstate := .accept, phase := .flush, micro := .start }

/-- A stream that ends inside a code, or before the end-of-file code, is `TruncatedStream` in AT_INTERNAL after the
bytes already complete; every bit of the stream has been read (R143, `60_exceptions.md` R174). -/
def Obligations.TruncatedStream : Prop :=
  ∀ (s : State) (t : Tree) (ps : List (Byte × Bits)) (cut more : Bits), AtStart .decode s → SrcOpen s → SnkOpen s →
    arenaHolds s.node t s.root = true → Spells t ps → (t.at? (cut ++ more)).isSome = true → more ≠ [] →
    upcoming s = ps.flatMap Prod.snd ++ cut →
    s.srcpos + (ps.flatMap Prod.snd ++ cut).length < Config.posLimit →
    s.snkpos + 8 * ps.length < Config.posLimit →
    ∃ cur,
      exec .decode s = .next (faultEntry .truncatedStream
        { s with
          src := srcExhausted (srcAfter (ps.flatMap Prod.snd ++ cut).length s) s.draws
          srcpos := s.srcpos + (ps.flatMap Prod.snd ++ cut).length, draws := s.draws + 1
          snk := snkAfter (byteBits (ps.map Prod.fst)) s, snkpos := s.snkpos + 8 * ps.length
          cur := cur, dstate := .atInternal, micro := .loop })

/-- The three causes of `CorruptTree` (`60_exceptions.md` R173): (a) the chosen child is NULL; (b) arrival at a leaf
whose symbol is above 256; (c) a root that is a leaf of a byte symbol. Bytes emitted before it stay written. -/
def Obligations.CorruptTree : Prop :=
  (∀ (s : State) (h : Nat) (n : Node) (b : Bool) (rest : Bits), AtPoint .decode .loop s → s.dstate = .atInternal →
    SrcOpen s → s.cur = some h → Table.read s.node h = some n → (if b then n.right else n.left) = none →
    upcoming s = b :: rest → s.srcpos + 1 < Config.posLimit →
    exec .decode s = .next (faultEntry .corruptTree { s with src := srcAfter 1 s, srcpos := s.srcpos + 1 })) ∧
  (∀ (s : State) (t : Tree) (ps : List (Byte × Bits)) (c rest : Bits) (sym : Sym), AtStart .decode s → SrcOpen s →
    SnkOpen s → arenaHolds s.node t s.root = true → Spells t ps → t.at? c = some sym → 256 < sym.toNat →
    upcoming s = ps.flatMap Prod.snd ++ c ++ rest →
    s.srcpos + (ps.flatMap Prod.snd ++ c).length < Config.posLimit → s.snkpos + 8 * ps.length < Config.posLimit →
    ∃ cur, exec .decode s = .next (faultEntry .corruptTree
      { s with
        src := srcAfter (ps.flatMap Prod.snd ++ c).length s
        srcpos := s.srcpos + (ps.flatMap Prod.snd ++ c).length
        snk := snkAfter (byteBits (ps.map Prod.fst)) s, snkpos := s.snkpos + 8 * ps.length
        cur := cur, dstate := .atLeaf, micro := .loop })) ∧
  ∀ (s : State) (sym : Sym), AtStart .decode s → arenaHolds s.node (.leaf sym) s.root = true → sym.toNat < 256 →
    exec .decode s = .next (faultEntry .corruptTree { s with cur := s.root, dstate := .atLeaf, micro := .loop })

/-! ### Stream failures and waiting (`20_memory.md` R44, R53) -/

/-- A transaction on a stream that has failed or that its owner has closed is `IoFailure` at once, in whichever phase
makes it, and nothing else happens but that the turn passes for the pending events (R44, `60_exceptions.md` R175).
That a sink the core itself has closed, in an earlier run it was bound for, answers so too is log entry 10 (DEDUCED, the
model's), and the turns are log entries 1 and 3. -/
def Obligations.IoFailure : Prop :=
  ∀ s : State, s.state = .busy → due s = false →
    (waitsOnSrc s = true → s.src.failed = true → step s = .next (faultEntry .ioFailure (tick s))) ∧
    (waitsOnSnk s = true → s.snk.failed = true ∨ s.snk.closed = true →
      step s = .next (faultEntry .ioFailure (tick s))) ∧
    (s.inputs = [] → tick s = s) ∧ ∃ inputs, tick s = { s with inputs := inputs }

/-- While a transaction does not return, the state does not change and the run stays BUSY (R53). -/
def Obligations.BlockedTransactionWaits : Prop :=
  ∀ s : State, s.state = .busy → s.inputs = [] →
    (waitsOnSrc s = true ∧ s.src.failed = false ∧ s.src.blocked = true ∨
      waitsOnSnk s = true ∧ s.snk.failed = false ∧ s.snk.closed = false ∧ s.snk.blocked = true) →
    ∀ n, core.run n s = .next s

/-! ### The wire fields as operations (the model's convention, log entry 8) -/

/-- In the phase that writes it, a wire field appends exactly its encoding (`30_encoding.md` R61 to R63, R67).
That it does so as an operation, at every program point of the phase, is the model's choice (log entries 8 and 30). -/
def Obligations.WireFieldsWritten : Prop :=
  ∀ s : State, s.state = .busy → SnkOpen s →
    (∀ m, s.phase = .wrmagic → s.snkpos + 32 < Config.posLimit →
      exec (.magic m) s = .next
        { s with snk := snkAfter (encode (.magic m)) s, snkpos := s.snkpos + 32, phase := .wrtree, micro := .start }) ∧
    (s.phase = .wrtree → s.snkpos + 1 < Config.posLimit →
      exec .internal s = .next { s with snk := snkAfter (encode .internal) s, snkpos := s.snkpos + 1 }) ∧
    (∀ sym, s.phase = .wrtree → s.snkpos + 10 < Config.posLimit →
      exec (.leaf sym) s = .next { s with snk := snkAfter (encode (.leaf sym)) s, snkpos := s.snkpos + 10 }) ∧
    ∀ c, s.phase = .encode → s.snkpos + c.length < Config.posLimit →
      exec (.codeword c) s = .next { s with snk := snkAfter (encode (.codeword c)) s, snkpos := s.snkpos + c.length }

/-- Where SRC presents its encoding, a wire field does what the turns of the reading phase do with those bits: RDMAGIC
one turn, RDTREE one turn for INTERNAL and two for LEAF, DECODE a walk of one turn per bit between the root and the leaf
(`45_decoder.md` R142 to R144). -/
def Obligations.WireFieldsRead : Prop :=
  ∀ (s : State) (rest : Bits), s.state = .busy → SrcOpen s →
    (∀ m, s.phase = .rdmagic → s.micro = .start → upcoming s = encode (.magic m) ++ rest →
      exec (.magic m) s = (rdmagicTurn s).out) ∧
    (s.phase = .rdtree → s.micro = .loop → upcoming s = encode .internal ++ rest →
      exec .internal s = (rdtreeTurn s).out) ∧
    (∀ sym, s.phase = .rdtree → s.micro = .loop → upcoming s = encode (.leaf sym) ++ rest →
      exec (.leaf sym) s = (turns rdtreeTurn 2 s).out) ∧
    ∀ c t, s.phase = .decode → s.micro = .loop → s.dstate = .atRoot → arenaHolds s.node t s.root = true →
      (t.at? c).isSome = true → upcoming s = c ++ rest →
      exec (.codeword c) s = (turns decodeTurn (c.length + 2) s).out

/-- Outside the two phases that write or read it, and outside a run, a wire field has no effect. -/
def Obligations.WireFieldsElsewhere : Prop :=
  ∀ s : State,
    (¬ (s.state = .busy ∧ (s.phase = .wrmagic ∨ s.phase = .rdmagic)) → ∀ m, exec (.magic m) s = .next s) ∧
    (¬ (s.state = .busy ∧ (s.phase = .wrtree ∨ s.phase = .rdtree)) →
      exec .internal s = .next s ∧ ∀ sym, exec (.leaf sym) s = .next s) ∧
    (¬ (s.state = .busy ∧ (s.phase = .encode ∨ s.phase = .decode)) → ∀ c, exec (.codeword c) s = .next s)

/-- No phase runs outside a run (`30_encoding.md` R76: the host cannot start one); in a run a phase instruction hands
control to its phase, from the first line unless the phase is running already; PHASE_NONE changes nothing
(`10_state.md` R18). -/
def Obligations.PhaseInstructionsHandControl : Prop :=
  ∀ s : State, exec .phaseNone s = .next s ∧
    ∀ p : Phase, p ≠ .noPhase →
      (s.state ≠ .busy → exec p.instr s = .next s) ∧
      (s.state = .busy → s.phase ≠ p → exec p.instr s = exec p.instr (enterPhase p s))

/-! ### Frames: what an instruction leaves unchanged, whatever it answers as a next state -/

/-- COUNT writes FREQ and LEN and reads SRC; BUILD writes NODE, PQ, SEQ, ROOT and DERIVE writes CODE, TRAIL, STK, and
both touch no stream and raise no fault (R80, R90, R105, `60_exceptions.md` R188). -/
def Obligations.FrameOfAnalysisPhases : Prop :=
  ∀ s t : State,
    (exec .count s = .next t →
      t = { s with
            freq := t.freq, len := t.len, src := { s.src with pos := t.src.pos }, srcpos := t.srcpos, draws := t.draws
            state := t.state, phase := t.phase, err := t.err, errpos := t.errpos, micro := t.micro
            inputs := t.inputs }) ∧
    (exec .build s = .next t →
      t = { s with
            node := t.node, pq := t.pq, seq := t.seq, root := t.root, phase := t.phase, micro := t.micro
            inputs := t.inputs }) ∧
    (exec .derive s = .next t →
      t = { s with
            code := t.code, trail := t.trail, stk := t.stk, phase := t.phase, micro := t.micro, inputs := t.inputs })

/-- WRMAGIC, WRTREE and FLUSH write SNK and read no bit of SRC; no table and no register of another unit changes
(R115, R158, R159). -/
def Obligations.FrameOfWritingPhases : Prop :=
  ∀ s t : State,
    (exec .wrmagic s = .next t →
      t = { s with
            snk := { s.snk with bits := t.snk.bits }, snkpos := t.snkpos, state := t.state, phase := t.phase
            err := t.err, errpos := t.errpos, micro := t.micro, inputs := t.inputs }) ∧
    (exec .wrtree s = .next t →
      t = { s with
            snk := { s.snk with bits := t.snk.bits }, snkpos := t.snkpos, stk := t.stk, state := t.state
            phase := t.phase, err := t.err, errpos := t.errpos, micro := t.micro, inputs := t.inputs }) ∧
    (exec .flush s = .next t →
      t = { s with
            snk := { s.snk with bits := t.snk.bits, closed := t.snk.closed }, draws := t.draws, state := t.state
            phase := t.phase, err := t.err, errpos := t.errpos, micro := t.micro, inputs := t.inputs })

/-- RDMAGIC and RDTREE write no bit; RDTREE writes NODE, NNODES, ROOT; ENCODE changes no table; DECODE writes CUR and
DSTATE and changes no table (R119, R130, R140, R161). -/
def Obligations.FrameOfReadingPhases : Prop :=
  ∀ s t : State,
    (exec .rdmagic s = .next t →
      t = { s with
            src := { s.src with pos := t.src.pos }, srcpos := t.srcpos, draws := t.draws, state := t.state
            phase := t.phase, err := t.err, errpos := t.errpos, micro := t.micro, inputs := t.inputs }) ∧
    (exec .rdtree s = .next t →
      t = { s with
            src := { s.src with pos := t.src.pos }, srcpos := t.srcpos, draws := t.draws, node := t.node
            nnodes := t.nnodes, stk := t.stk, root := t.root, state := t.state, phase := t.phase, err := t.err
            errpos := t.errpos, micro := t.micro, inputs := t.inputs }) ∧
    (exec .encode s = .next t →
      t = { s with
            src := { s.src with bits := t.src.bits, pos := t.src.pos }, srcpos := t.srcpos, draws := t.draws
            snk := { s.snk with bits := t.snk.bits }, snkpos := t.snkpos, state := t.state, phase := t.phase
            err := t.err, errpos := t.errpos, micro := t.micro, inputs := t.inputs }) ∧
    (exec .decode s = .next t →
      t = { s with
            src := { s.src with pos := t.src.pos }, srcpos := t.srcpos, draws := t.draws
            snk := { s.snk with bits := t.snk.bits }, snkpos := t.snkpos, cur := t.cur, dstate := t.dstate
            state := t.state, phase := t.phase, err := t.err, errpos := t.errpos, micro := t.micro
            inputs := t.inputs })

/-- SNK only grows (`20_memory.md` R46, R51, R52). That a sink the core has closed is unchanged by every instruction, its
transactions answering IOFAIL, is log entry 10 (DEDUCED, the model's; R47 says no rule writes it); that no instruction
takes an event off the list of the outside world is the model's choice (log entry 3). -/
def Obligations.SinkOnlyGrows : Prop :=
  ∀ (i : Instr) (s t : State), exec i s = .next t →
    s.snk.bits <+: t.snk.bits ∧ (s.snk.closed = true → t.snk = s.snk) ∧
      s.inputs.map Prod.snd = t.inputs.map Prod.snd

/-! ### The invariant -/

/-- The state after reset is consistent. -/
def Obligations.ResetIsConsistent : Prop := Inv State.reset

/-- Every step keeps the machine consistent: the canonical form of the tables, the widths of every register and table
(`00_scope.md` R5, `41_tree_builder.md` R97, R101), ERR and PHASE as STATE says (`10_state.md` R13, R17, R18), and each
table complete before the phase that reads it (`20_memory.md` R55). -/
def Obligations.StepKeepsConsistency : Prop := ∀ s t : State, Inv s → step s = .next t → Inv t

/-- From a consistent state no step reads an unspecified entry, an absent node or an empty queue (`10_state.md` R33:
"no rule of this spec makes such a read"); it stops only where the spec refuses (U16, U17). -/
def Obligations.ConsistentStepNeverFaults : Prop := ∀ s : State, Inv s → SafeStep s

/-! ### Whole runs (`46_sequencer.md`) -/

/-- A COMPRESS run ends in DONE with `bits_32(MAGIC) ++ ser(tree) ++ body ++ pad` on SNK, the tree being the one of the
Huffman construction for the input's counts (R157, `30_encoding.md` R60, R77). That the command and the seven phases are eight
steps, the command a pending write, is the model's choice (log entries 1 and 3). -/
def Obligations.CompressWritesStream : Prop :=
  ∀ (s : State) (bs : List Byte), Accepting s → s.inputs = [(0, .hostWrite 0 1#32)] → SrcOpen s → SnkOpen s →
    s.src.pos = 0 → s.src.bits = byteBits bs → s.src.reread = none → s.snk.bits = [] → bs.length ≤ Config.lenMax →
    ∃ t tree pad, core.run 8 s = .next t ∧ t.state = .done ∧ t.phase = .noPhase ∧ t.err = none ∧
      HuffmanTree (freqOf bs) tree ∧
      t.snk.bits = bitsOf 32 Config.magic.toNat ++ tree.ser ++ bodyBits (codeTable tree) bs ++ pad ∧
      pad.length < 8 ∧ t.snk.bits.length % 8 = 0 ∧ t.snk.closed = true ∧
      t.snkpos = 32 + (11 * (countedSyms (freqOf bs)).length - 1) + treeCost (freqOf bs) tree ∧
      t.srcpos = 8 * bs.length

/-- Round trip (R166): what COMPRESS wrote, with any bits after it, DECOMPRESS gives back bit for bit. That a run is
eight steps, or five, from a pending command is the model's choice (log entries 1 and 3). -/
def Obligations.RoundTrip : Prop :=
  ∀ (s : State) (bs : List Byte), Accepting s → s.inputs = [(0, .hostWrite 0 1#32)] → SrcOpen s → SnkOpen s →
    s.src.pos = 0 → s.src.bits = byteBits bs → s.src.reread = none → s.snk.bits = [] → bs.length ≤ Config.lenMax →
    ∃ t, core.run 8 s = .next t ∧ t.state = .done ∧
      ∀ (s' : State) (rest : Bits), Accepting s' → s'.inputs = [(0, .hostWrite 0 2#32)] → SrcOpen s' →
        SnkOpen s' → s'.src.pos = 0 → s'.src.bits = t.snk.bits.take t.snkpos ++ rest → s'.snk.bits = [] →
        ∃ t', core.run 5 s' = .next t' ∧ t'.state = .done ∧ t'.err = none ∧ t'.snk.bits = byteBits bs ∧
          t'.snk.closed = true

/-- DECOMPRESS of any bit string ends after four phases: in DONE, or by one of the five faults a stream can cause, with
whole bytes on SNK (R160, `45_decoder.md` R146, R148, `43_tree_header_codec.md` R125,
`70_reset_and_hazards.md` R202). That the command and the four phases are five steps, the command a pending write, is the
model's choice (log entries 1 and 3). -/
def Obligations.DecompressEnds : Prop :=
  ∀ s : State, Accepting s → s.inputs = [(0, .hostWrite 0 2#32)] → SrcOpen s → SnkOpen s → s.src.pos = 0 →
    s.snk.bits = [] → 8 * s.src.bits.length < Config.posLimit →
    ∃ t out, core.run 5 s = .next t ∧ t.snk.bits = byteBits out ∧
      (t.state = .done ∧ t.err = none ∧ t.snk.closed = true ∨
        t.state = .faulted ∧ t.snk.closed = false ∧
          ∃ f, t.err = some f ∧
            f ∈ [FaultCode.badMagicNumber, .malformedHeader, .nodeOverflow, .corruptTree, .truncatedStream])
end

