-- ==== Sys2Proof/Laws/State.lean ====
section
/-!
SUPPORT. One lemma per field per named update of the state: what the update writes and what it leaves alone.
-/

set_option Elab.async false -- many tiny theorems: one thread elaborates them all

namespace Sys2Proof.Machine

/-! ### `faultEntry` -/

@[simp] theorem faultEntry_state (f : FaultCode) (s : State) : (faultEntry f s).state = .faulted := rfl
@[simp] theorem faultEntry_phase (f : FaultCode) (s : State) : (faultEntry f s).phase = s.phase := rfl
@[simp] theorem faultEntry_dstate (f : FaultCode) (s : State) : (faultEntry f s).dstate = s.dstate := rfl
@[simp] theorem faultEntry_err (f : FaultCode) (s : State) : (faultEntry f s).err = some f := rfl
@[simp] theorem faultEntry_errpos (f : FaultCode) (s : State) : (faultEntry f s).errpos = BitVec.ofNat 64 s.srcpos := rfl
@[simp] theorem faultEntry_ie (f : FaultCode) (s : State) : (faultEntry f s).ie = s.ie := rfl
@[simp] theorem faultEntry_len (f : FaultCode) (s : State) : (faultEntry f s).len = s.len := rfl
@[simp] theorem faultEntry_seq (f : FaultCode) (s : State) : (faultEntry f s).seq = s.seq := rfl
@[simp] theorem faultEntry_nnodes (f : FaultCode) (s : State) : (faultEntry f s).nnodes = s.nnodes := rfl
@[simp] theorem faultEntry_root (f : FaultCode) (s : State) : (faultEntry f s).root = s.root := rfl
@[simp] theorem faultEntry_cur (f : FaultCode) (s : State) : (faultEntry f s).cur = s.cur := rfl
@[simp] theorem faultEntry_trail (f : FaultCode) (s : State) : (faultEntry f s).trail = s.trail := rfl
@[simp] theorem faultEntry_srcpos (f : FaultCode) (s : State) : (faultEntry f s).srcpos = s.srcpos := rfl
@[simp] theorem faultEntry_snkpos (f : FaultCode) (s : State) : (faultEntry f s).snkpos = s.snkpos := rfl
@[simp] theorem faultEntry_freq (f : FaultCode) (s : State) : (faultEntry f s).freq = s.freq := rfl
@[simp] theorem faultEntry_node (f : FaultCode) (s : State) : (faultEntry f s).node = s.node := rfl
@[simp] theorem faultEntry_pq (f : FaultCode) (s : State) : (faultEntry f s).pq = s.pq := rfl
@[simp] theorem faultEntry_code (f : FaultCode) (s : State) : (faultEntry f s).code = s.code := rfl
@[simp] theorem faultEntry_stk (f : FaultCode) (s : State) : (faultEntry f s).stk = s.stk := rfl
@[simp] theorem faultEntry_micro (f : FaultCode) (s : State) : (faultEntry f s).micro = s.micro := rfl
@[simp] theorem faultEntry_src (f : FaultCode) (s : State) : (faultEntry f s).src = s.src := rfl
@[simp] theorem faultEntry_snk (f : FaultCode) (s : State) : (faultEntry f s).snk = s.snk := rfl
@[simp] theorem faultEntry_rst (f : FaultCode) (s : State) : (faultEntry f s).rst = s.rst := rfl
@[simp] theorem faultEntry_inputs (f : FaultCode) (s : State) : (faultEntry f s).inputs = s.inputs := rfl
@[simp] theorem faultEntry_hostData (f : FaultCode) (s : State) : (faultEntry f s).hostData = s.hostData := rfl
@[simp] theorem faultEntry_draws (f : FaultCode) (s : State) : (faultEntry f s).draws = s.draws := rfl

/-! ### `perRunInit` -/

@[simp] theorem perRunInit_state (s : State) : (perRunInit s).state = .busy := rfl
@[simp] theorem perRunInit_phase (s : State) : (perRunInit s).phase = .noPhase := rfl
@[simp] theorem perRunInit_dstate (s : State) : (perRunInit s).dstate = .atRoot := rfl
@[simp] theorem perRunInit_err (s : State) : (perRunInit s).err = none := rfl
@[simp] theorem perRunInit_errpos (s : State) : (perRunInit s).errpos = 0#64 := rfl
@[simp] theorem perRunInit_ie (s : State) : (perRunInit s).ie = s.ie := rfl
@[simp] theorem perRunInit_len (s : State) : (perRunInit s).len = 0 := rfl
@[simp] theorem perRunInit_seq (s : State) : (perRunInit s).seq = 0 := rfl
@[simp] theorem perRunInit_nnodes (s : State) : (perRunInit s).nnodes = 0 := rfl
@[simp] theorem perRunInit_root (s : State) : (perRunInit s).root = none := rfl
@[simp] theorem perRunInit_cur (s : State) : (perRunInit s).cur = none := rfl
@[simp] theorem perRunInit_trail (s : State) : (perRunInit s).trail = [] := rfl
@[simp] theorem perRunInit_srcpos (s : State) : (perRunInit s).srcpos = 0 := rfl
@[simp] theorem perRunInit_snkpos (s : State) : (perRunInit s).snkpos = 0 := rfl
@[simp] theorem perRunInit_freq (s : State) : (perRunInit s).freq = [] := rfl
@[simp] theorem perRunInit_node (s : State) : (perRunInit s).node = [] := rfl
@[simp] theorem perRunInit_pq (s : State) : (perRunInit s).pq = [] := rfl
@[simp] theorem perRunInit_code (s : State) : (perRunInit s).code = [] := rfl
@[simp] theorem perRunInit_stk (s : State) : (perRunInit s).stk = [] := rfl
@[simp] theorem perRunInit_micro (s : State) : (perRunInit s).micro = .start := rfl
@[simp] theorem perRunInit_src (s : State) : (perRunInit s).src = s.src := rfl
@[simp] theorem perRunInit_snk (s : State) : (perRunInit s).snk = s.snk := rfl
@[simp] theorem perRunInit_rst (s : State) : (perRunInit s).rst = s.rst := rfl
@[simp] theorem perRunInit_inputs (s : State) : (perRunInit s).inputs = s.inputs := rfl
@[simp] theorem perRunInit_hostData (s : State) : (perRunInit s).hostData = s.hostData := rfl
@[simp] theorem perRunInit_draws (s : State) : (perRunInit s).draws = s.draws := rfl

/-! ### `resetBlock` -/

@[simp] theorem resetBlock_state (s : State) : (resetBlock s).state = .idle := rfl
@[simp] theorem resetBlock_phase (s : State) : (resetBlock s).phase = .noPhase := rfl
@[simp] theorem resetBlock_dstate (s : State) : (resetBlock s).dstate = .atRoot := rfl
@[simp] theorem resetBlock_err (s : State) : (resetBlock s).err = none := rfl
@[simp] theorem resetBlock_errpos (s : State) : (resetBlock s).errpos = 0#64 := rfl
@[simp] theorem resetBlock_ie (s : State) : (resetBlock s).ie = false := rfl
@[simp] theorem resetBlock_len (s : State) : (resetBlock s).len = 0 := rfl
@[simp] theorem resetBlock_seq (s : State) : (resetBlock s).seq = 0 := rfl
@[simp] theorem resetBlock_nnodes (s : State) : (resetBlock s).nnodes = 0 := rfl
@[simp] theorem resetBlock_root (s : State) : (resetBlock s).root = none := rfl
@[simp] theorem resetBlock_cur (s : State) : (resetBlock s).cur = none := rfl
@[simp] theorem resetBlock_trail (s : State) : (resetBlock s).trail = [] := rfl
@[simp] theorem resetBlock_srcpos (s : State) : (resetBlock s).srcpos = 0 := rfl
@[simp] theorem resetBlock_snkpos (s : State) : (resetBlock s).snkpos = 0 := rfl
@[simp] theorem resetBlock_freq (s : State) : (resetBlock s).freq = [] := rfl
@[simp] theorem resetBlock_node (s : State) : (resetBlock s).node = [] := rfl
@[simp] theorem resetBlock_pq (s : State) : (resetBlock s).pq = [] := rfl
@[simp] theorem resetBlock_code (s : State) : (resetBlock s).code = [] := rfl
@[simp] theorem resetBlock_stk (s : State) : (resetBlock s).stk = [] := rfl
@[simp] theorem resetBlock_micro (s : State) : (resetBlock s).micro = .start := rfl
@[simp] theorem resetBlock_src (s : State) : (resetBlock s).src = s.src := rfl
@[simp] theorem resetBlock_snk (s : State) : (resetBlock s).snk = s.snk := rfl
@[simp] theorem resetBlock_rst (s : State) : (resetBlock s).rst = s.rst := rfl
@[simp] theorem resetBlock_inputs (s : State) : (resetBlock s).inputs = s.inputs := rfl
@[simp] theorem resetBlock_hostData (s : State) : (resetBlock s).hostData = s.hostData := rfl
@[simp] theorem resetBlock_draws (s : State) : (resetBlock s).draws = s.draws := rfl

/-! ### `enterPhase` -/

@[simp] theorem enterPhase_state (p : Phase) (s : State) : (enterPhase p s).state = s.state := rfl
@[simp] theorem enterPhase_phase (p : Phase) (s : State) : (enterPhase p s).phase = p := rfl
@[simp] theorem enterPhase_dstate (p : Phase) (s : State) : (enterPhase p s).dstate = s.dstate := rfl
@[simp] theorem enterPhase_err (p : Phase) (s : State) : (enterPhase p s).err = s.err := rfl
@[simp] theorem enterPhase_errpos (p : Phase) (s : State) : (enterPhase p s).errpos = s.errpos := rfl
@[simp] theorem enterPhase_ie (p : Phase) (s : State) : (enterPhase p s).ie = s.ie := rfl
@[simp] theorem enterPhase_len (p : Phase) (s : State) : (enterPhase p s).len = s.len := rfl
@[simp] theorem enterPhase_seq (p : Phase) (s : State) : (enterPhase p s).seq = s.seq := rfl
@[simp] theorem enterPhase_nnodes (p : Phase) (s : State) : (enterPhase p s).nnodes = s.nnodes := rfl
@[simp] theorem enterPhase_root (p : Phase) (s : State) : (enterPhase p s).root = s.root := rfl
@[simp] theorem enterPhase_cur (p : Phase) (s : State) : (enterPhase p s).cur = s.cur := rfl
@[simp] theorem enterPhase_trail (p : Phase) (s : State) : (enterPhase p s).trail = s.trail := rfl
@[simp] theorem enterPhase_srcpos (p : Phase) (s : State) : (enterPhase p s).srcpos = s.srcpos := rfl
@[simp] theorem enterPhase_snkpos (p : Phase) (s : State) : (enterPhase p s).snkpos = s.snkpos := rfl
@[simp] theorem enterPhase_freq (p : Phase) (s : State) : (enterPhase p s).freq = s.freq := rfl
@[simp] theorem enterPhase_node (p : Phase) (s : State) : (enterPhase p s).node = s.node := rfl
@[simp] theorem enterPhase_pq (p : Phase) (s : State) : (enterPhase p s).pq = s.pq := rfl
@[simp] theorem enterPhase_code (p : Phase) (s : State) : (enterPhase p s).code = s.code := rfl
@[simp] theorem enterPhase_stk (p : Phase) (s : State) : (enterPhase p s).stk = s.stk := rfl
@[simp] theorem enterPhase_micro (p : Phase) (s : State) : (enterPhase p s).micro = .start := rfl
@[simp] theorem enterPhase_src (p : Phase) (s : State) : (enterPhase p s).src = s.src := rfl
@[simp] theorem enterPhase_snk (p : Phase) (s : State) : (enterPhase p s).snk = s.snk := rfl
@[simp] theorem enterPhase_rst (p : Phase) (s : State) : (enterPhase p s).rst = s.rst := rfl
@[simp] theorem enterPhase_inputs (p : Phase) (s : State) : (enterPhase p s).inputs = s.inputs := rfl
@[simp] theorem enterPhase_hostData (p : Phase) (s : State) : (enterPhase p s).hostData = s.hostData := rfl
@[simp] theorem enterPhase_draws (p : Phase) (s : State) : (enterPhase p s).draws = s.draws := rfl

/-! ### `endPhase` -/

@[simp] theorem endPhase_state (s : State) : (endPhase s).state = s.state := rfl
@[simp] theorem endPhase_phase (s : State) : (endPhase s).phase = s.phase.next := rfl
@[simp] theorem endPhase_dstate (s : State) : (endPhase s).dstate = s.dstate := rfl
@[simp] theorem endPhase_err (s : State) : (endPhase s).err = s.err := rfl
@[simp] theorem endPhase_errpos (s : State) : (endPhase s).errpos = s.errpos := rfl
@[simp] theorem endPhase_ie (s : State) : (endPhase s).ie = s.ie := rfl
@[simp] theorem endPhase_len (s : State) : (endPhase s).len = s.len := rfl
@[simp] theorem endPhase_seq (s : State) : (endPhase s).seq = s.seq := rfl
@[simp] theorem endPhase_nnodes (s : State) : (endPhase s).nnodes = s.nnodes := rfl
@[simp] theorem endPhase_root (s : State) : (endPhase s).root = s.root := rfl
@[simp] theorem endPhase_cur (s : State) : (endPhase s).cur = s.cur := rfl
@[simp] theorem endPhase_trail (s : State) : (endPhase s).trail = s.trail := rfl
@[simp] theorem endPhase_srcpos (s : State) : (endPhase s).srcpos = s.srcpos := rfl
@[simp] theorem endPhase_snkpos (s : State) : (endPhase s).snkpos = s.snkpos := rfl
@[simp] theorem endPhase_freq (s : State) : (endPhase s).freq = s.freq := rfl
@[simp] theorem endPhase_node (s : State) : (endPhase s).node = s.node := rfl
@[simp] theorem endPhase_pq (s : State) : (endPhase s).pq = s.pq := rfl
@[simp] theorem endPhase_code (s : State) : (endPhase s).code = s.code := rfl
@[simp] theorem endPhase_stk (s : State) : (endPhase s).stk = s.stk := rfl
@[simp] theorem endPhase_micro (s : State) : (endPhase s).micro = .start := rfl
@[simp] theorem endPhase_src (s : State) : (endPhase s).src = s.src := rfl
@[simp] theorem endPhase_snk (s : State) : (endPhase s).snk = s.snk := rfl
@[simp] theorem endPhase_rst (s : State) : (endPhase s).rst = s.rst := rfl
@[simp] theorem endPhase_inputs (s : State) : (endPhase s).inputs = s.inputs := rfl
@[simp] theorem endPhase_hostData (s : State) : (endPhase s).hostData = s.hostData := rfl
@[simp] theorem endPhase_draws (s : State) : (endPhase s).draws = s.draws := rfl

/-! ### `complete` -/

@[simp] theorem complete_state (s : State) : (complete s).state = .done := rfl
@[simp] theorem complete_phase (s : State) : (complete s).phase = .noPhase := rfl
@[simp] theorem complete_dstate (s : State) : (complete s).dstate = s.dstate := rfl
@[simp] theorem complete_err (s : State) : (complete s).err = s.err := rfl
@[simp] theorem complete_errpos (s : State) : (complete s).errpos = s.errpos := rfl
@[simp] theorem complete_ie (s : State) : (complete s).ie = s.ie := rfl
@[simp] theorem complete_len (s : State) : (complete s).len = s.len := rfl
@[simp] theorem complete_seq (s : State) : (complete s).seq = s.seq := rfl
@[simp] theorem complete_nnodes (s : State) : (complete s).nnodes = s.nnodes := rfl
@[simp] theorem complete_root (s : State) : (complete s).root = s.root := rfl
@[simp] theorem complete_cur (s : State) : (complete s).cur = s.cur := rfl
@[simp] theorem complete_trail (s : State) : (complete s).trail = s.trail := rfl
@[simp] theorem complete_srcpos (s : State) : (complete s).srcpos = s.srcpos := rfl
@[simp] theorem complete_snkpos (s : State) : (complete s).snkpos = s.snkpos := rfl
@[simp] theorem complete_freq (s : State) : (complete s).freq = s.freq := rfl
@[simp] theorem complete_node (s : State) : (complete s).node = s.node := rfl
@[simp] theorem complete_pq (s : State) : (complete s).pq = s.pq := rfl
@[simp] theorem complete_code (s : State) : (complete s).code = s.code := rfl
@[simp] theorem complete_stk (s : State) : (complete s).stk = s.stk := rfl
@[simp] theorem complete_micro (s : State) : (complete s).micro = .start := rfl
@[simp] theorem complete_src (s : State) : (complete s).src = s.src := rfl
@[simp] theorem complete_snk (s : State) : (complete s).snk = s.snk := rfl
@[simp] theorem complete_rst (s : State) : (complete s).rst = s.rst := rfl
@[simp] theorem complete_inputs (s : State) : (complete s).inputs = s.inputs := rfl
@[simp] theorem complete_hostData (s : State) : (complete s).hostData = s.hostData := rfl
@[simp] theorem complete_draws (s : State) : (complete s).draws = s.draws := rfl

/-! ### `countInit` -/

@[simp] theorem countInit_state (s : State) : (countInit s).state = s.state := rfl
@[simp] theorem countInit_phase (s : State) : (countInit s).phase = s.phase := rfl
@[simp] theorem countInit_dstate (s : State) : (countInit s).dstate = s.dstate := rfl
@[simp] theorem countInit_err (s : State) : (countInit s).err = s.err := rfl
@[simp] theorem countInit_errpos (s : State) : (countInit s).errpos = s.errpos := rfl
@[simp] theorem countInit_ie (s : State) : (countInit s).ie = s.ie := rfl
@[simp] theorem countInit_len (s : State) : (countInit s).len = 0 := rfl
@[simp] theorem countInit_seq (s : State) : (countInit s).seq = s.seq := rfl
@[simp] theorem countInit_nnodes (s : State) : (countInit s).nnodes = s.nnodes := rfl
@[simp] theorem countInit_root (s : State) : (countInit s).root = s.root := rfl
@[simp] theorem countInit_cur (s : State) : (countInit s).cur = s.cur := rfl
@[simp] theorem countInit_trail (s : State) : (countInit s).trail = s.trail := rfl
@[simp] theorem countInit_srcpos (s : State) : (countInit s).srcpos = s.srcpos := rfl
@[simp] theorem countInit_snkpos (s : State) : (countInit s).snkpos = s.snkpos := rfl
@[simp] theorem countInit_freq (s : State) : (countInit s).freq = clearedFreq := rfl
@[simp] theorem countInit_node (s : State) : (countInit s).node = s.node := rfl
@[simp] theorem countInit_pq (s : State) : (countInit s).pq = s.pq := rfl
@[simp] theorem countInit_code (s : State) : (countInit s).code = s.code := rfl
@[simp] theorem countInit_stk (s : State) : (countInit s).stk = s.stk := rfl
@[simp] theorem countInit_micro (s : State) : (countInit s).micro = .loop := rfl
@[simp] theorem countInit_src (s : State) : (countInit s).src = s.src := rfl
@[simp] theorem countInit_snk (s : State) : (countInit s).snk = s.snk := rfl
@[simp] theorem countInit_rst (s : State) : (countInit s).rst = s.rst := rfl
@[simp] theorem countInit_inputs (s : State) : (countInit s).inputs = s.inputs := rfl
@[simp] theorem countInit_hostData (s : State) : (countInit s).hostData = s.hostData := rfl
@[simp] theorem countInit_draws (s : State) : (countInit s).draws = s.draws := rfl

/-! ### `writeNode` -/

@[simp] theorem writeNode_state (h : Nat) (n : Node) (s : State) : (writeNode h n s).state = s.state := rfl
@[simp] theorem writeNode_phase (h : Nat) (n : Node) (s : State) : (writeNode h n s).phase = s.phase := rfl
@[simp] theorem writeNode_dstate (h : Nat) (n : Node) (s : State) : (writeNode h n s).dstate = s.dstate := rfl
@[simp] theorem writeNode_err (h : Nat) (n : Node) (s : State) : (writeNode h n s).err = s.err := rfl
@[simp] theorem writeNode_errpos (h : Nat) (n : Node) (s : State) : (writeNode h n s).errpos = s.errpos := rfl
@[simp] theorem writeNode_ie (h : Nat) (n : Node) (s : State) : (writeNode h n s).ie = s.ie := rfl
@[simp] theorem writeNode_len (h : Nat) (n : Node) (s : State) : (writeNode h n s).len = s.len := rfl
@[simp] theorem writeNode_seq (h : Nat) (n : Node) (s : State) : (writeNode h n s).seq = s.seq := rfl
@[simp] theorem writeNode_nnodes (h : Nat) (n : Node) (s : State) : (writeNode h n s).nnodes = s.nnodes := rfl
@[simp] theorem writeNode_root (h : Nat) (n : Node) (s : State) : (writeNode h n s).root = s.root := rfl
@[simp] theorem writeNode_cur (h : Nat) (n : Node) (s : State) : (writeNode h n s).cur = s.cur := rfl
@[simp] theorem writeNode_trail (h : Nat) (n : Node) (s : State) : (writeNode h n s).trail = s.trail := rfl
@[simp] theorem writeNode_srcpos (h : Nat) (n : Node) (s : State) : (writeNode h n s).srcpos = s.srcpos := rfl
@[simp] theorem writeNode_snkpos (h : Nat) (n : Node) (s : State) : (writeNode h n s).snkpos = s.snkpos := rfl
@[simp] theorem writeNode_freq (h : Nat) (n : Node) (s : State) : (writeNode h n s).freq = s.freq := rfl
@[simp] theorem writeNode_node (h : Nat) (n : Node) (s : State) : (writeNode h n s).node = Table.write s.node h n := rfl
@[simp] theorem writeNode_pq (h : Nat) (n : Node) (s : State) : (writeNode h n s).pq = s.pq := rfl
@[simp] theorem writeNode_code (h : Nat) (n : Node) (s : State) : (writeNode h n s).code = s.code := rfl
@[simp] theorem writeNode_stk (h : Nat) (n : Node) (s : State) : (writeNode h n s).stk = s.stk := rfl
@[simp] theorem writeNode_micro (h : Nat) (n : Node) (s : State) : (writeNode h n s).micro = s.micro := rfl
@[simp] theorem writeNode_src (h : Nat) (n : Node) (s : State) : (writeNode h n s).src = s.src := rfl
@[simp] theorem writeNode_snk (h : Nat) (n : Node) (s : State) : (writeNode h n s).snk = s.snk := rfl
@[simp] theorem writeNode_rst (h : Nat) (n : Node) (s : State) : (writeNode h n s).rst = s.rst := rfl
@[simp] theorem writeNode_inputs (h : Nat) (n : Node) (s : State) : (writeNode h n s).inputs = s.inputs := rfl
@[simp] theorem writeNode_hostData (h : Nat) (n : Node) (s : State) : (writeNode h n s).hostData = s.hostData := rfl
@[simp] theorem writeNode_draws (h : Nat) (n : Node) (s : State) : (writeNode h n s).draws = s.draws := rfl

/-! ### `newNode` -/

@[simp] theorem newNode_state (n : Node) (s : State) : (newNode n s).state = s.state := rfl
@[simp] theorem newNode_phase (n : Node) (s : State) : (newNode n s).phase = s.phase := rfl
@[simp] theorem newNode_dstate (n : Node) (s : State) : (newNode n s).dstate = s.dstate := rfl
@[simp] theorem newNode_err (n : Node) (s : State) : (newNode n s).err = s.err := rfl
@[simp] theorem newNode_errpos (n : Node) (s : State) : (newNode n s).errpos = s.errpos := rfl
@[simp] theorem newNode_ie (n : Node) (s : State) : (newNode n s).ie = s.ie := rfl
@[simp] theorem newNode_len (n : Node) (s : State) : (newNode n s).len = s.len := rfl
@[simp] theorem newNode_seq (n : Node) (s : State) : (newNode n s).seq = s.seq + 1 := rfl
@[simp] theorem newNode_nnodes (n : Node) (s : State) : (newNode n s).nnodes = s.nnodes := rfl
@[simp] theorem newNode_root (n : Node) (s : State) : (newNode n s).root = s.root := rfl
@[simp] theorem newNode_cur (n : Node) (s : State) : (newNode n s).cur = s.cur := rfl
@[simp] theorem newNode_trail (n : Node) (s : State) : (newNode n s).trail = s.trail := rfl
@[simp] theorem newNode_srcpos (n : Node) (s : State) : (newNode n s).srcpos = s.srcpos := rfl
@[simp] theorem newNode_snkpos (n : Node) (s : State) : (newNode n s).snkpos = s.snkpos := rfl
@[simp] theorem newNode_freq (n : Node) (s : State) : (newNode n s).freq = s.freq := rfl
@[simp] theorem newNode_node (n : Node) (s : State) : (newNode n s).node = Table.write s.node s.seq n := rfl
@[simp] theorem newNode_pq (n : Node) (s : State) : (newNode n s).pq = pqInsert ⟨n.weight, s.seq, s.seq⟩ s.pq := rfl
@[simp] theorem newNode_code (n : Node) (s : State) : (newNode n s).code = s.code := rfl
@[simp] theorem newNode_stk (n : Node) (s : State) : (newNode n s).stk = s.stk := rfl
@[simp] theorem newNode_micro (n : Node) (s : State) : (newNode n s).micro = s.micro := rfl
@[simp] theorem newNode_src (n : Node) (s : State) : (newNode n s).src = s.src := rfl
@[simp] theorem newNode_snk (n : Node) (s : State) : (newNode n s).snk = s.snk := rfl
@[simp] theorem newNode_rst (n : Node) (s : State) : (newNode n s).rst = s.rst := rfl
@[simp] theorem newNode_inputs (n : Node) (s : State) : (newNode n s).inputs = s.inputs := rfl
@[simp] theorem newNode_hostData (n : Node) (s : State) : (newNode n s).hostData = s.hostData := rfl
@[simp] theorem newNode_draws (n : Node) (s : State) : (newNode n s).draws = s.draws := rfl

/-! ### `pushLeft` -/

@[simp] theorem pushLeft_state (h : Nat) (s : State) : (pushLeft h s).state = s.state := rfl
@[simp] theorem pushLeft_phase (h : Nat) (s : State) : (pushLeft h s).phase = s.phase := rfl
@[simp] theorem pushLeft_dstate (h : Nat) (s : State) : (pushLeft h s).dstate = s.dstate := rfl
@[simp] theorem pushLeft_err (h : Nat) (s : State) : (pushLeft h s).err = s.err := rfl
@[simp] theorem pushLeft_errpos (h : Nat) (s : State) : (pushLeft h s).errpos = s.errpos := rfl
@[simp] theorem pushLeft_ie (h : Nat) (s : State) : (pushLeft h s).ie = s.ie := rfl
@[simp] theorem pushLeft_len (h : Nat) (s : State) : (pushLeft h s).len = s.len := rfl
@[simp] theorem pushLeft_seq (h : Nat) (s : State) : (pushLeft h s).seq = s.seq := rfl
@[simp] theorem pushLeft_nnodes (h : Nat) (s : State) : (pushLeft h s).nnodes = s.nnodes := rfl
@[simp] theorem pushLeft_root (h : Nat) (s : State) : (pushLeft h s).root = s.root := rfl
@[simp] theorem pushLeft_cur (h : Nat) (s : State) : (pushLeft h s).cur = s.cur := rfl
@[simp] theorem pushLeft_trail (h : Nat) (s : State) : (pushLeft h s).trail = s.trail := rfl
@[simp] theorem pushLeft_srcpos (h : Nat) (s : State) : (pushLeft h s).srcpos = s.srcpos := rfl
@[simp] theorem pushLeft_snkpos (h : Nat) (s : State) : (pushLeft h s).snkpos = s.snkpos := rfl
@[simp] theorem pushLeft_freq (h : Nat) (s : State) : (pushLeft h s).freq = s.freq := rfl
@[simp] theorem pushLeft_node (h : Nat) (s : State) : (pushLeft h s).node = s.node := rfl
@[simp] theorem pushLeft_pq (h : Nat) (s : State) : (pushLeft h s).pq = s.pq := rfl
@[simp] theorem pushLeft_code (h : Nat) (s : State) : (pushLeft h s).code = s.code := rfl
@[simp] theorem pushLeft_stk (h : Nat) (s : State) : (pushLeft h s).stk = ⟨h, false, none⟩ :: s.stk := rfl
@[simp] theorem pushLeft_micro (h : Nat) (s : State) : (pushLeft h s).micro = s.micro := rfl
@[simp] theorem pushLeft_src (h : Nat) (s : State) : (pushLeft h s).src = s.src := rfl
@[simp] theorem pushLeft_snk (h : Nat) (s : State) : (pushLeft h s).snk = s.snk := rfl
@[simp] theorem pushLeft_rst (h : Nat) (s : State) : (pushLeft h s).rst = s.rst := rfl
@[simp] theorem pushLeft_inputs (h : Nat) (s : State) : (pushLeft h s).inputs = s.inputs := rfl
@[simp] theorem pushLeft_hostData (h : Nat) (s : State) : (pushLeft h s).hostData = s.hostData := rfl
@[simp] theorem pushLeft_draws (h : Nat) (s : State) : (pushLeft h s).draws = s.draws := rfl

/-! ### `deriveInit` -/

@[simp] theorem deriveInit_state (s : State) : (deriveInit s).state = s.state := rfl
@[simp] theorem deriveInit_phase (s : State) : (deriveInit s).phase = s.phase := rfl
@[simp] theorem deriveInit_dstate (s : State) : (deriveInit s).dstate = s.dstate := rfl
@[simp] theorem deriveInit_err (s : State) : (deriveInit s).err = s.err := rfl
@[simp] theorem deriveInit_errpos (s : State) : (deriveInit s).errpos = s.errpos := rfl
@[simp] theorem deriveInit_ie (s : State) : (deriveInit s).ie = s.ie := rfl
@[simp] theorem deriveInit_len (s : State) : (deriveInit s).len = s.len := rfl
@[simp] theorem deriveInit_seq (s : State) : (deriveInit s).seq = s.seq := rfl
@[simp] theorem deriveInit_nnodes (s : State) : (deriveInit s).nnodes = s.nnodes := rfl
@[simp] theorem deriveInit_root (s : State) : (deriveInit s).root = s.root := rfl
@[simp] theorem deriveInit_cur (s : State) : (deriveInit s).cur = s.cur := rfl
@[simp] theorem deriveInit_trail (s : State) : (deriveInit s).trail = [] := rfl
@[simp] theorem deriveInit_srcpos (s : State) : (deriveInit s).srcpos = s.srcpos := rfl
@[simp] theorem deriveInit_snkpos (s : State) : (deriveInit s).snkpos = s.snkpos := rfl
@[simp] theorem deriveInit_freq (s : State) : (deriveInit s).freq = s.freq := rfl
@[simp] theorem deriveInit_node (s : State) : (deriveInit s).node = s.node := rfl
@[simp] theorem deriveInit_pq (s : State) : (deriveInit s).pq = s.pq := rfl
@[simp] theorem deriveInit_code (s : State) : (deriveInit s).code = [] := rfl
@[simp] theorem deriveInit_stk (s : State) : (deriveInit s).stk = [] := rfl
@[simp] theorem deriveInit_micro (s : State) : (deriveInit s).micro = .visit s.root := rfl
@[simp] theorem deriveInit_src (s : State) : (deriveInit s).src = s.src := rfl
@[simp] theorem deriveInit_snk (s : State) : (deriveInit s).snk = s.snk := rfl
@[simp] theorem deriveInit_rst (s : State) : (deriveInit s).rst = s.rst := rfl
@[simp] theorem deriveInit_inputs (s : State) : (deriveInit s).inputs = s.inputs := rfl
@[simp] theorem deriveInit_hostData (s : State) : (deriveInit s).hostData = s.hostData := rfl
@[simp] theorem deriveInit_draws (s : State) : (deriveInit s).draws = s.draws := rfl

/-! ### `trailRight` -/

@[simp] theorem trailRight_state (s : State) : (trailRight s).state = s.state := rfl
@[simp] theorem trailRight_phase (s : State) : (trailRight s).phase = s.phase := rfl
@[simp] theorem trailRight_dstate (s : State) : (trailRight s).dstate = s.dstate := rfl
@[simp] theorem trailRight_err (s : State) : (trailRight s).err = s.err := rfl
@[simp] theorem trailRight_errpos (s : State) : (trailRight s).errpos = s.errpos := rfl
@[simp] theorem trailRight_ie (s : State) : (trailRight s).ie = s.ie := rfl
@[simp] theorem trailRight_len (s : State) : (trailRight s).len = s.len := rfl
@[simp] theorem trailRight_seq (s : State) : (trailRight s).seq = s.seq := rfl
@[simp] theorem trailRight_nnodes (s : State) : (trailRight s).nnodes = s.nnodes := rfl
@[simp] theorem trailRight_root (s : State) : (trailRight s).root = s.root := rfl
@[simp] theorem trailRight_cur (s : State) : (trailRight s).cur = s.cur := rfl
@[simp] theorem trailRight_trail (s : State) : (trailRight s).trail = s.trail.dropLast ++ [true] := rfl
@[simp] theorem trailRight_srcpos (s : State) : (trailRight s).srcpos = s.srcpos := rfl
@[simp] theorem trailRight_snkpos (s : State) : (trailRight s).snkpos = s.snkpos := rfl
@[simp] theorem trailRight_freq (s : State) : (trailRight s).freq = s.freq := rfl
@[simp] theorem trailRight_node (s : State) : (trailRight s).node = s.node := rfl
@[simp] theorem trailRight_pq (s : State) : (trailRight s).pq = s.pq := rfl
@[simp] theorem trailRight_code (s : State) : (trailRight s).code = s.code := rfl
@[simp] theorem trailRight_stk (s : State) : (trailRight s).stk = s.stk := rfl
@[simp] theorem trailRight_micro (s : State) : (trailRight s).micro = s.micro := rfl
@[simp] theorem trailRight_src (s : State) : (trailRight s).src = s.src := rfl
@[simp] theorem trailRight_snk (s : State) : (trailRight s).snk = s.snk := rfl
@[simp] theorem trailRight_rst (s : State) : (trailRight s).rst = s.rst := rfl
@[simp] theorem trailRight_inputs (s : State) : (trailRight s).inputs = s.inputs := rfl
@[simp] theorem trailRight_hostData (s : State) : (trailRight s).hostData = s.hostData := rfl
@[simp] theorem trailRight_draws (s : State) : (trailRight s).draws = s.draws := rfl

/-! ### `trailPop` -/

@[simp] theorem trailPop_state (s : State) : (trailPop s).state = s.state := rfl
@[simp] theorem trailPop_phase (s : State) : (trailPop s).phase = s.phase := rfl
@[simp] theorem trailPop_dstate (s : State) : (trailPop s).dstate = s.dstate := rfl
@[simp] theorem trailPop_err (s : State) : (trailPop s).err = s.err := rfl
@[simp] theorem trailPop_errpos (s : State) : (trailPop s).errpos = s.errpos := rfl
@[simp] theorem trailPop_ie (s : State) : (trailPop s).ie = s.ie := rfl
@[simp] theorem trailPop_len (s : State) : (trailPop s).len = s.len := rfl
@[simp] theorem trailPop_seq (s : State) : (trailPop s).seq = s.seq := rfl
@[simp] theorem trailPop_nnodes (s : State) : (trailPop s).nnodes = s.nnodes := rfl
@[simp] theorem trailPop_root (s : State) : (trailPop s).root = s.root := rfl
@[simp] theorem trailPop_cur (s : State) : (trailPop s).cur = s.cur := rfl
@[simp] theorem trailPop_trail (s : State) : (trailPop s).trail = s.trail.dropLast := rfl
@[simp] theorem trailPop_srcpos (s : State) : (trailPop s).srcpos = s.srcpos := rfl
@[simp] theorem trailPop_snkpos (s : State) : (trailPop s).snkpos = s.snkpos := rfl
@[simp] theorem trailPop_freq (s : State) : (trailPop s).freq = s.freq := rfl
@[simp] theorem trailPop_node (s : State) : (trailPop s).node = s.node := rfl
@[simp] theorem trailPop_pq (s : State) : (trailPop s).pq = s.pq := rfl
@[simp] theorem trailPop_code (s : State) : (trailPop s).code = s.code := rfl
@[simp] theorem trailPop_stk (s : State) : (trailPop s).stk = s.stk := rfl
@[simp] theorem trailPop_micro (s : State) : (trailPop s).micro = s.micro := rfl
@[simp] theorem trailPop_src (s : State) : (trailPop s).src = s.src := rfl
@[simp] theorem trailPop_snk (s : State) : (trailPop s).snk = s.snk := rfl
@[simp] theorem trailPop_rst (s : State) : (trailPop s).rst = s.rst := rfl
@[simp] theorem trailPop_inputs (s : State) : (trailPop s).inputs = s.inputs := rfl
@[simp] theorem trailPop_hostData (s : State) : (trailPop s).hostData = s.hostData := rfl
@[simp] theorem trailPop_draws (s : State) : (trailPop s).draws = s.draws := rfl

/-! ### `writeFreq` and `tick`, which test their argument first -/

@[simp] theorem writeFreq_state (i w : Nat) (s : State) : (writeFreq i w s).state = s.state := by
  unfold writeFreq; split <;> rfl
@[simp] theorem writeFreq_phase (i w : Nat) (s : State) : (writeFreq i w s).phase = s.phase := by
  unfold writeFreq; split <;> rfl
@[simp] theorem writeFreq_dstate (i w : Nat) (s : State) : (writeFreq i w s).dstate = s.dstate := by
  unfold writeFreq; split <;> rfl
@[simp] theorem writeFreq_err (i w : Nat) (s : State) : (writeFreq i w s).err = s.err := by
  unfold writeFreq; split <;> rfl
@[simp] theorem writeFreq_errpos (i w : Nat) (s : State) : (writeFreq i w s).errpos = s.errpos := by
  unfold writeFreq; split <;> rfl
@[simp] theorem writeFreq_ie (i w : Nat) (s : State) : (writeFreq i w s).ie = s.ie := by
  unfold writeFreq; split <;> rfl
@[simp] theorem writeFreq_len (i w : Nat) (s : State) : (writeFreq i w s).len = s.len := by
  unfold writeFreq; split <;> rfl
@[simp] theorem writeFreq_seq (i w : Nat) (s : State) : (writeFreq i w s).seq = s.seq := by
  unfold writeFreq; split <;> rfl
@[simp] theorem writeFreq_nnodes (i w : Nat) (s : State) : (writeFreq i w s).nnodes = s.nnodes := by
  unfold writeFreq; split <;> rfl
@[simp] theorem writeFreq_root (i w : Nat) (s : State) : (writeFreq i w s).root = s.root := by
  unfold writeFreq; split <;> rfl
@[simp] theorem writeFreq_cur (i w : Nat) (s : State) : (writeFreq i w s).cur = s.cur := by
  unfold writeFreq; split <;> rfl
@[simp] theorem writeFreq_trail (i w : Nat) (s : State) : (writeFreq i w s).trail = s.trail := by
  unfold writeFreq; split <;> rfl
@[simp] theorem writeFreq_srcpos (i w : Nat) (s : State) : (writeFreq i w s).srcpos = s.srcpos := by
  unfold writeFreq; split <;> rfl
@[simp] theorem writeFreq_snkpos (i w : Nat) (s : State) : (writeFreq i w s).snkpos = s.snkpos := by
  unfold writeFreq; split <;> rfl
@[simp] theorem writeFreq_node (i w : Nat) (s : State) : (writeFreq i w s).node = s.node := by
  unfold writeFreq; split <;> rfl
@[simp] theorem writeFreq_pq (i w : Nat) (s : State) : (writeFreq i w s).pq = s.pq := by
  unfold writeFreq; split <;> rfl
@[simp] theorem writeFreq_code (i w : Nat) (s : State) : (writeFreq i w s).code = s.code := by
  unfold writeFreq; split <;> rfl
@[simp] theorem writeFreq_stk (i w : Nat) (s : State) : (writeFreq i w s).stk = s.stk := by
  unfold writeFreq; split <;> rfl
@[simp] theorem writeFreq_micro (i w : Nat) (s : State) : (writeFreq i w s).micro = s.micro := by
  unfold writeFreq; split <;> rfl
@[simp] theorem writeFreq_src (i w : Nat) (s : State) : (writeFreq i w s).src = s.src := by
  unfold writeFreq; split <;> rfl
@[simp] theorem writeFreq_snk (i w : Nat) (s : State) : (writeFreq i w s).snk = s.snk := by
  unfold writeFreq; split <;> rfl
@[simp] theorem writeFreq_rst (i w : Nat) (s : State) : (writeFreq i w s).rst = s.rst := by
  unfold writeFreq; split <;> rfl
@[simp] theorem writeFreq_inputs (i w : Nat) (s : State) : (writeFreq i w s).inputs = s.inputs := by
  unfold writeFreq; split <;> rfl
@[simp] theorem writeFreq_hostData (i w : Nat) (s : State) : (writeFreq i w s).hostData = s.hostData := by
  unfold writeFreq; split <;> rfl
@[simp] theorem writeFreq_draws (i w : Nat) (s : State) : (writeFreq i w s).draws = s.draws := by
  unfold writeFreq; split <;> rfl
@[simp] theorem tick_state (s : State) : (tick s).state = s.state := by
  unfold tick; split <;> rfl
@[simp] theorem tick_phase (s : State) : (tick s).phase = s.phase := by
  unfold tick; split <;> rfl
@[simp] theorem tick_dstate (s : State) : (tick s).dstate = s.dstate := by
  unfold tick; split <;> rfl
@[simp] theorem tick_err (s : State) : (tick s).err = s.err := by
  unfold tick; split <;> rfl
@[simp] theorem tick_errpos (s : State) : (tick s).errpos = s.errpos := by
  unfold tick; split <;> rfl
@[simp] theorem tick_ie (s : State) : (tick s).ie = s.ie := by
  unfold tick; split <;> rfl
@[simp] theorem tick_len (s : State) : (tick s).len = s.len := by
  unfold tick; split <;> rfl
@[simp] theorem tick_seq (s : State) : (tick s).seq = s.seq := by
  unfold tick; split <;> rfl
@[simp] theorem tick_nnodes (s : State) : (tick s).nnodes = s.nnodes := by
  unfold tick; split <;> rfl
@[simp] theorem tick_root (s : State) : (tick s).root = s.root := by
  unfold tick; split <;> rfl
@[simp] theorem tick_cur (s : State) : (tick s).cur = s.cur := by
  unfold tick; split <;> rfl
@[simp] theorem tick_trail (s : State) : (tick s).trail = s.trail := by
  unfold tick; split <;> rfl
@[simp] theorem tick_srcpos (s : State) : (tick s).srcpos = s.srcpos := by
  unfold tick; split <;> rfl
@[simp] theorem tick_snkpos (s : State) : (tick s).snkpos = s.snkpos := by
  unfold tick; split <;> rfl
@[simp] theorem tick_freq (s : State) : (tick s).freq = s.freq := by
  unfold tick; split <;> rfl
@[simp] theorem tick_node (s : State) : (tick s).node = s.node := by
  unfold tick; split <;> rfl
@[simp] theorem tick_pq (s : State) : (tick s).pq = s.pq := by
  unfold tick; split <;> rfl
@[simp] theorem tick_code (s : State) : (tick s).code = s.code := by
  unfold tick; split <;> rfl
@[simp] theorem tick_stk (s : State) : (tick s).stk = s.stk := by
  unfold tick; split <;> rfl
@[simp] theorem tick_micro (s : State) : (tick s).micro = s.micro := by
  unfold tick; split <;> rfl
@[simp] theorem tick_src (s : State) : (tick s).src = s.src := by
  unfold tick; split <;> rfl
@[simp] theorem tick_snk (s : State) : (tick s).snk = s.snk := by
  unfold tick; split <;> rfl
@[simp] theorem tick_rst (s : State) : (tick s).rst = s.rst := by
  unfold tick; split <;> rfl
@[simp] theorem tick_hostData (s : State) : (tick s).hostData = s.hostData := by
  unfold tick; split <;> rfl
@[simp] theorem tick_draws (s : State) : (tick s).draws = s.draws := by
  unfold tick; split <;> rfl

/-- With nothing to come from outside, a turn changes nothing by passing. -/
@[simp] theorem tick_quiet {s : State} (h : s.inputs = []) : tick s = s := by
  unfold tick; rw [h]

/-- With nothing to come from outside, nothing is due. -/
@[simp] theorem due_quiet {s : State} (h : s.inputs = []) : due s = false := by
  unfold due; rw [h]

/-! ### Commands and the reset input -/

/-- An accepted command starts its run. -/
theorem startRun_accepted {p : Phase} {s : State} (h : Accepting s) :
    startRun p s = .next (enterPhase p (perRunInit s)) := if_pos h

/-- A command that is not accepted changes nothing. -/
theorem startRun_ignored {p : Phase} {s : State} (h : ¬ Accepting s) : startRun p s = .next s := if_neg h

/-- An accepted reserved command is the fault `IllegalCommand` of a new run. -/
theorem reservedCommand_accepted {s : State} (h : Accepting s) :
    reservedCommand s = .next (faultEntry .illegalCommand (perRunInit s)) := if_pos h

/-- A reserved command that is not accepted changes nothing. -/
theorem reservedCommand_ignored {s : State} (h : ¬ Accepting s) : reservedCommand s = .next s := if_neg h

/-- Held in reset, the block takes no write of a register. -/
theorem writeReg_held {s : State} (h : s.rst = true) (n : Nat) (v : Word) : writeReg n v s = s := by
  unfold writeReg
  split <;> simp [h]

end Sys2Proof.Machine
end

