-- ==== Sys2Proof/Laws/Tables.lean ====
section
/-!
SUPPORT. The laws of the tables: read after write, and that a write keeps the canonical form.
-/

namespace Sys2Proof.Machine

variable {α : Type}

@[simp] theorem table_read_nil (k : Nat) : Table.read ([] : Table α) k = none := rfl

/-- A read of the index just written gives the value written. -/
@[simp] theorem table_read_write_same (t : Table α) (k : Nat) (v : α) :
    Table.read (Table.write t k v) k = some v := by
  induction t with
  | nil => simp [Table.write, Table.read]
  | cons e t ih =>
    obtain ⟨j, w⟩ := e
    simp only [Table.write]
    split
    · simp [Table.read]
    · split
      · simp [Table.read]
      · simp [Table.read, *]

/-- A write leaves every other index alone. -/
theorem table_read_write_other (t : Table α) {k j : Nat} (v : α) (h : j ≠ k) :
    Table.read (Table.write t k v) j = Table.read t j := by
  induction t with
  | nil => simp [Table.write, Table.read, h]
  | cons e t ih =>
    obtain ⟨i, w⟩ := e
    simp only [Table.write]
    split
    · simp [Table.read, h]
    · split
      · subst_vars; simp [Table.read, h]
      · simp [Table.read, ih]

theorem table_read_write (t : Table α) (k j : Nat) (v : α) :
    Table.read (Table.write t k v) j = if j = k then some v else Table.read t j := by
  split
  · subst_vars; simp
  · exact table_read_write_other t v ‹_›

theorem table_wfFrom_weaken {t : Table α} {a b : Nat} (hab : b ≤ a) (h : Table.wfFrom a t = true) :
    Table.wfFrom b t = true := by
  cases t with
  | nil => rfl
  | cons e t =>
    simp only [Table.wfFrom, Bool.and_eq_true, decide_eq_true_eq] at *
    exact ⟨by omega, h.2⟩

theorem table_wfFrom_write (t : Table α) {a k : Nat} (v : α) (hk : a ≤ k) (h : Table.wfFrom a t = true) :
    Table.wfFrom a (Table.write t k v) = true := by
  induction t generalizing a with
  | nil => simpa [Table.write, Table.wfFrom] using hk
  | cons e t ih =>
    obtain ⟨j, w⟩ := e
    simp only [Table.wfFrom, Bool.and_eq_true, decide_eq_true_eq] at h
    simp only [Table.write]
    split
    · simp only [Table.wfFrom, Bool.and_eq_true, decide_eq_true_eq]; exact ⟨hk, by omega, h.2⟩
    · split
      · subst_vars; simp only [Table.wfFrom, Bool.and_eq_true, decide_eq_true_eq]; exact h
      · simp only [Table.wfFrom, Bool.and_eq_true, decide_eq_true_eq]
        exact ⟨h.1, ih (by omega) h.2⟩

/-- A write keeps the canonical form. -/
theorem table_wf_write {t : Table α} (k : Nat) (v : α) (h : Table.wf t = true) :
    Table.wf (Table.write t k v) = true :=
  table_wfFrom_write t v (Nat.zero_le k) h

theorem table_read_below {t : Table α} {a k : Nat} (h : Table.wfFrom a t = true) (hk : k < a) :
    Table.read t k = none := by
  induction t generalizing a with
  | nil => rfl
  | cons e t ih =>
    obtain ⟨j, w⟩ := e
    simp only [Table.wfFrom, Bool.and_eq_true, decide_eq_true_eq] at h
    simp [Table.read, show k ≠ j by omega, ih h.2 (by omega)]

/-- Equal reads are equal canonical tables. -/
theorem table_ext {t u : Table α} (ht : Table.wf t = true) (hu : Table.wf u = true)
    (h : ∀ k, Table.read t k = Table.read u k) : t = u := by
  suffices H : ∀ a, Table.wfFrom a t = true → Table.wfFrom a u = true → t = u from H 0 ht hu
  clear ht hu
  induction t generalizing u with
  | nil =>
    intro a _ hu
    cases u with
    | nil => rfl
    | cons e u =>
      have := h e.1
      simp [Table.read] at this
  | cons e t ih =>
    intro a ht hu
    obtain ⟨j, w⟩ := e
    cases u with
    | nil =>
      have := h j
      simp [Table.read] at this
    | cons e' u =>
      obtain ⟨j', w'⟩ := e'
      simp only [Table.wfFrom, Bool.and_eq_true, decide_eq_true_eq] at ht hu
      have hj := h j
      have hj' := h j'
      have hjj : j = j' := by
        rcases Nat.lt_trichotomy j j' with hlt | heq | hgt
        · have : Table.read u j = none := table_read_below hu.2 (by omega)
          simp [Table.read, show j ≠ j' by omega, this] at hj
        · exact heq
        · have : Table.read t j' = none := table_read_below ht.2 (by omega)
          simp [Table.read, show j' ≠ j by omega, this] at hj'
      subst hjj
      have hw : w = w' := by simpa [Table.read] using hj
      subst hw
      congr 1
      refine ih (fun k => ?_) (j + 1) ht.2 hu.2
      by_cases hk : k = j
      · subst hk
        rw [table_read_below ht.2 (by omega), table_read_below hu.2 (by omega)]
      · simpa [Table.read, hk] using h k

/-! ### Tables given by a list of indices -/

theorem table_read_map_range (n : Nat) (f : Nat → α) (k : Nat) :
    Table.read ((List.range n).map fun i => (i, f i)) k = if k < n then some (f k) else none := by
  suffices H : ∀ m a, Table.read ((List.range' a m).map fun i => (i, f i)) k
      = if a ≤ k ∧ k < a + m then some (f k) else none by
    have := H n 0
    simpa [List.range_eq_range'] using this
  intro m
  induction m with
  | zero => intro a; simp
  | succ m ih =>
    intro a
    simp only [List.range'_succ, List.map_cons, Table.read]
    by_cases hk : k = a
    · subst hk; simp
    · rw [if_neg hk, ih (a + 1)]
      congr 1
      exact propext ⟨fun h => by omega, fun h => by omega⟩

theorem table_wf_map_range (n : Nat) (f : Nat → α) :
    Table.wf ((List.range n).map fun i => (i, f i)) = true := by
  suffices H : ∀ m a, Table.wfFrom a ((List.range' a m).map fun i => (i, f i)) = true by
    simpa [List.range_eq_range', Table.wf] using H n 0
  intro m
  induction m with
  | zero => intro a; rfl
  | succ m ih =>
    intro a
    simp only [List.range'_succ, List.map_cons, Table.wfFrom, Nat.le_refl, decide_true, Bool.true_and]
    exact ih (a + 1)

end Sys2Proof.Machine
end

