-- ==== Sys2Proof/Laws/Arena.lean ====
section
/-!
SUPPORT. Trees in the arena: a write of a fresh entry leaves every tree alone, and the laws of the queue of BUILD.
-/

namespace Sys2Proof.Machine

/-! ### Trees -/

/-- A tree stays where every entry stays. -/
theorem arenaHolds_mono {nodes nodes' : Table Node}
    (h : ∀ i n, Table.read nodes i = some n → Table.read nodes' i = some n) {t : Tree} {r : Handle}
    (ht : arenaHolds nodes t r = true) : arenaHolds nodes' t r = true := by
  induction t generalizing r with
  | leaf s =>
    cases r with
    | none => simp [arenaHolds] at ht
    | some i =>
      simp only [arenaHolds, Option.bind_some] at ht ⊢
      cases hn : Table.read nodes i with
      | none => simp [hn] at ht
      | some n => rw [hn] at ht; rw [h i n hn]; exact ht
  | node l r' ihl ihr =>
    cases r with
    | none => simp [arenaHolds] at ht
    | some i =>
      simp only [arenaHolds, Option.bind_some] at ht ⊢
      cases hn : Table.read nodes i with
      | none => simp [hn] at ht
      | some n =>
        rw [hn] at ht; rw [h i n hn]
        simp only [Bool.and_eq_true] at ht ⊢
        exact ⟨⟨ht.1.1, ihl ht.1.2⟩, ihr ht.2⟩

/-- A write of a fresh entry keeps every entry. -/
theorem read_write_fresh {nodes : Table Node} {k : Nat} {m : Node} (hk : Table.read nodes k = none) :
    ∀ i n, Table.read nodes i = some n → Table.read (Table.write nodes k m) i = some n := by
  intro i n hi
  rw [table_read_write_other _ _ (by rintro rfl; simp [hk] at hi), hi]

theorem hasTree_mono {nodes nodes' : Table Node}
    (h : ∀ i n, Table.read nodes i = some n → Table.read nodes' i = some n) {r : Handle}
    (ht : HasTree nodes r) : HasTree nodes' r :=
  ht.imp fun _ => arenaHolds_mono h

theorem hasEof_mono {nodes nodes' : Table Node}
    (h : ∀ i n, Table.read nodes i = some n → Table.read nodes' i = some n) {r : Handle}
    (ht : HasEof nodes r) : HasEof nodes' r :=
  ht.imp fun _ hx => ⟨arenaHolds_mono h hx.1, hx.2⟩

theorem HasEof.hasTree {nodes : Table Node} {h : Handle} (he : HasEof nodes h) : HasTree nodes h :=
  he.imp fun _ hx => hx.1

theorem arenaHolds_leaf {nodes : Table Node} {sym : Sym} {i : Nat} {n : Node} (hi : Table.read nodes i = some n)
    (hl : n.leaf = true) (hs : n.sym = sym) : arenaHolds nodes (.leaf sym) (some i) = true := by
  simp [arenaHolds, hi, hl, hs]

theorem arenaHolds_node {nodes : Table Node} {l r : Tree} {i : Nat} {n : Node} (hi : Table.read nodes i = some n)
    (hl : n.leaf = false) (h1 : arenaHolds nodes l n.left = true) (h2 : arenaHolds nodes r n.right = true) :
    arenaHolds nodes (.node l r) (some i) = true := by
  simp [arenaHolds, hi, hl, h1, h2]

/-- What a handle with a tree points at. -/
theorem arenaHolds_inv {nodes : Table Node} {t : Tree} {h : Handle} (ht : arenaHolds nodes t h = true) :
    ∃ i n, h = some i ∧ Table.read nodes i = some n ∧
      ((∃ sym, t = .leaf sym ∧ n.leaf = true ∧ n.sym = sym) ∨
        ∃ l r, t = .node l r ∧ n.leaf = false ∧ arenaHolds nodes l n.left = true ∧
          arenaHolds nodes r n.right = true) := by
  cases h with
  | none => cases t <;> simp [arenaHolds] at ht
  | some i =>
    cases hn : Table.read nodes i with
    | none => cases t <;> simp [arenaHolds, hn] at ht
    | some n =>
      refine ⟨i, n, rfl, hn, ?_⟩
      cases t with
      | leaf sym =>
        simp only [arenaHolds, Option.bind_some, hn, Bool.and_eq_true, decide_eq_true_eq] at ht
        exact .inl ⟨sym, rfl, ht.1, ht.2⟩
      | node l r =>
        simp only [arenaHolds, Option.bind_some, hn, Bool.and_eq_true, Bool.not_eq_true'] at ht
        exact .inr ⟨l, r, rfl, ht.1.1, ht.1.2, ht.2⟩

/-- What `NODE` holds where a leaf hangs. -/
theorem arenaHolds_inv_leaf {nodes : Table Node} {sym : Sym} {h : Handle}
    (ht : arenaHolds nodes (.leaf sym) h = true) :
    ∃ i n, h = some i ∧ Table.read nodes i = some n ∧ n.leaf = true ∧ n.sym = sym := by
  obtain ⟨i, n, rfl, hn, ⟨_, hs, hl, hy⟩ | ⟨_, _, hs, -⟩⟩ := arenaHolds_inv ht
  · exact ⟨i, n, rfl, hn, hl, by cases hs; exact hy⟩
  · cases hs

/-- What `NODE` holds where an internal node hangs. -/
theorem arenaHolds_inv_node {nodes : Table Node} {l r : Tree} {h : Handle}
    (ht : arenaHolds nodes (.node l r) h = true) :
    ∃ i n, h = some i ∧ Table.read nodes i = some n ∧ n.leaf = false ∧
      arenaHolds nodes l n.left = true ∧ arenaHolds nodes r n.right = true := by
  obtain ⟨i, n, rfl, hn, ⟨_, hs, -⟩ | ⟨_, _, hs, hl, h1, h2⟩⟩ := arenaHolds_inv ht
  · cases hs
  · cases hs; exact ⟨i, n, rfl, hn, hl, h1, h2⟩

/-- A read of a handle with a tree. -/
theorem readNode_some {i : Nat} {s : State} {n : Node} {k : Node → Res} (h : Table.read s.node i = some n) :
    readNode (some i) s k = k n := by
  simp [readNode, h]

/-! ### The queue (`41_tree_builder.md` R92, R93) -/

theorem before_trans {x y z : PqEntry} (h1 : x.before y = true) (h2 : y.before z = true) : x.before z = true := by
  simp only [PqEntry.before, Bool.or_eq_true, Bool.and_eq_true, decide_eq_true_eq] at *
  omega

/-- The order is total on entries of different sequence numbers. -/
theorem before_total {x y : PqEntry} (h : x.seq ≠ y.seq) (hn : x.before y = false) : y.before x = true := by
  simp only [PqEntry.before, Bool.or_eq_true, Bool.and_eq_true, decide_eq_true_eq, Bool.or_eq_false_iff,
    Bool.and_eq_false_iff, decide_eq_false_iff_not] at *
  omega

theorem mem_pqInsert {e x : PqEntry} {q : List PqEntry} : x ∈ pqInsert e q ↔ x = e ∨ x ∈ q := by
  induction q with
  | nil => simp [pqInsert]
  | cons y q ih =>
    simp only [pqInsert]
    split
    · simp
    · simp [ih]; tauto

@[simp] theorem pqInsert_length (e : PqEntry) (q : List PqEntry) : (pqInsert e q).length = q.length + 1 := by
  induction q with
  | nil => rfl
  | cons y q ih => simp only [pqInsert]; split <;> simp [ih]

theorem pqInsert_weight (e : PqEntry) (q : List PqEntry) :
    ((pqInsert e q).map PqEntry.weight).sum = e.weight + (q.map PqEntry.weight).sum := by
  induction q with
  | nil => rfl
  | cons y q ih => simp only [pqInsert]; split <;> simp [ih]; omega

theorem pqSorted_cons {x : PqEntry} {q : List PqEntry} :
    pqSorted (x :: q) = true ↔ (∀ y ∈ q, x.before y = true) ∧ pqSorted q = true := by
  simp [pqSorted]

/-- An insert of an entry with a new sequence number keeps the queue sorted. -/
theorem pqSorted_insert {e : PqEntry} {q : List PqEntry} (hq : pqSorted q = true) (he : ∀ y ∈ q, e.seq ≠ y.seq) :
    pqSorted (pqInsert e q) = true := by
  induction q with
  | nil => rfl
  | cons x q ih =>
    rw [pqSorted_cons] at hq
    simp only [pqInsert]
    split
    · rename_i hb
      rw [pqSorted_cons, pqSorted_cons]
      refine ⟨fun y hy => ?_, hq⟩
      rcases List.mem_cons.mp hy with rfl | hy
      · exact hb
      · exact before_trans hb (hq.1 y hy)
    · rename_i hb
      rw [pqSorted_cons]
      refine ⟨fun y hy => ?_, ih hq.2 fun y hy => he y (List.mem_cons_of_mem _ hy)⟩
      rcases mem_pqInsert.mp hy with rfl | hy
      · exact before_total (he x List.mem_cons_self) (by simpa using hb)
      · exact hq.1 y hy

end Sys2Proof.Machine
end

