-- ==== Sys2Proof/Laws/Bits.lean ====
section
/-!
SUPPORT. The laws of the bit strings of `20_memory.md` R42: `bits_n` and `val` are inverse.
-/

namespace Sys2Proof

@[simp] theorem bitsOf_length (n v : Nat) : (bitsOf n v).length = n := by
  induction n with
  | zero => rfl
  | succ n ih => simp [bitsOf, ih]

theorem foldl_shiftIn (b : Bits) (a : Nat) : b.foldl shiftIn a = a * 2 ^ b.length + bitsVal b := by
  induction b generalizing a with
  | nil => simp [bitsVal]
  | cons x b ih =>
    simp only [List.foldl_cons, List.length_cons, bitsVal]
    rw [ih, ih (shiftIn 0 x)]
    simp only [shiftIn, Nat.pow_succ]
    ring

theorem bitsVal_cons (x : Bool) (b : Bits) : bitsVal (x :: b) = x.toNat * 2 ^ b.length + bitsVal b := by
  simp only [bitsVal, List.foldl_cons]
  rw [foldl_shiftIn]
  simp [shiftIn, bitsVal]

theorem bitsVal_lt (b : Bits) : bitsVal b < 2 ^ b.length := by
  induction b with
  | nil => simp [bitsVal]
  | cons x b ih =>
    rw [bitsVal_cons, List.length_cons, Nat.pow_succ]
    cases x <;> simp <;> omega

/-- `val(bits_n(v))` is the n low-order bits of v. -/
theorem bitsVal_bitsOf (n v : Nat) : bitsVal (bitsOf n v) = v % 2 ^ n := by
  induction n with
  | zero => simp [bitsOf, bitsVal, Nat.mod_one]
  | succ n ih =>
    simp only [bitsOf, bitsVal_cons, bitsOf_length, ih]
    rw [Nat.testBit_eq_decide_div_mod_eq]
    have h := Nat.mod_mul (x := v) (a := 2 ^ n) (b := 2)
    rw [← Nat.pow_succ] at h
    rw [h]
    have : v / 2 ^ n % 2 = 0 ∨ v / 2 ^ n % 2 = 1 := by omega
    rcases this with h0 | h0 <;> simp [h0]
    omega

theorem testBit_bitsVal_cons (x : Bool) (b : Bits) : (bitsVal (x :: b)).testBit b.length = x := by
  rw [bitsVal_cons, Nat.testBit_eq_decide_div_mod_eq]
  have := bitsVal_lt b
  have hp : 0 < 2 ^ b.length := Nat.pow_pos (by decide)
  cases x
  · simp [Nat.div_eq_of_lt this]
  · rw [show true.toNat = 1 from rfl, Nat.one_mul, Nat.add_div_left _ hp, Nat.div_eq_of_lt this]
    simp

theorem bitsOf_congr {n v w : Nat} (h : v % 2 ^ n = w % 2 ^ n) : bitsOf n v = bitsOf n w := by
  induction n with
  | zero => rfl
  | succ n ih =>
    have hbit : v.testBit n = w.testBit n := by
      have h1 : (v % 2 ^ (n + 1)).testBit n = (w % 2 ^ (n + 1)).testBit n := by rw [h]
      simpa [Nat.testBit_mod_two_pow] using h1
    have hlow : v % 2 ^ n = w % 2 ^ n := by
      have h2 : v % 2 ^ (n + 1) % 2 ^ n = w % 2 ^ (n + 1) % 2 ^ n := by rw [h]
      have hd : 2 ^ n ∣ 2 ^ (n + 1) := ⟨2, by rw [Nat.pow_succ]⟩
      simpa [Nat.mod_mod_of_dvd _ hd] using h2
    simp [bitsOf, hbit, ih hlow]

/-- `bits_n(val(b))` is b, for a bit string of n bits. -/
theorem bitsOf_bitsVal (b : Bits) : bitsOf b.length (bitsVal b) = b := by
  induction b with
  | nil => rfl
  | cons x b ih =>
    simp only [List.length_cons, bitsOf, testBit_bitsVal_cons]
    congr 1
    conv => rhs; rw [← ih]
    apply bitsOf_congr
    rw [bitsVal_cons]
    simp

theorem bitsOf_bitsVal' {b : Bits} {n : Nat} (h : b.length = n) : bitsOf n (bitsVal b) = b := by
  subst h; exact bitsOf_bitsVal b

end Sys2Proof
end

