-- ==== Sys2Proof/Laws/Streams.lean ====
section
/-!
SUPPORT. What the stream shorthands can do, said once: `rd`, `wr`, `rewind`, `closeSink`, `emit`.
A user of a transaction cites the lemma here instead of unfolding it.
-/

namespace Sys2Proof.Machine

/-! ### What a turn answers, as a predicate -/

/-- Every state a turn answers has the property `P`; it stops only where the spec gives no meaning. -/
def Res.Meets (P : State → Prop) : Res → Prop
  | .go s => P s
  | .halt (.next s) => P s
  | .halt (.fault _) => False
  | .halt (.refused r) => r = .positionOverflow ∨ r = .rebindWhileBusy

theorem Res.Meets.mono {P Q : State → Prop} {r : Res} (h : r.Meets P) (hpq : ∀ s, P s → Q s) : r.Meets Q := by
  match r, h with
  | .go s, h => exact hpq s h
  | .halt (.next s), h => exact hpq s h
  | .halt (.refused _), h => exact h

@[simp] theorem meets_go (P : State → Prop) (s : State) : (Res.go s).Meets P ↔ P s := Iff.rfl

@[simp] theorem meets_raise (P : State → Prop) (f : FaultCode) (s : State) :
    (raise f s).Meets P ↔ P (faultEntry f s) := Iff.rfl

@[simp] theorem bind_go (s : State) (k : State → Res) : (Res.go s).bind k = k s := rfl

@[simp] theorem bind_halt (o : Out) (k : State → Res) : (Res.halt o).bind k = .halt o := rfl

@[simp] theorem out_go (s : State) : (Res.go s).out = .next s := rfl

@[simp] theorem out_halt (o : Out) : (Res.halt o).out = o := rfl

theorem raise_eq (f : FaultCode) (s : State) : raise f s = .halt (.next (faultEntry f s)) := rfl

/-! ### `rd` -/

/-- A read of a failed source is the fault `IoFailure`. -/
theorem rd_failed {n : Nat} {s : State} {k : Nat → State → Res} {e : State → Res} (h : s.src.failed = true) :
    rd n s k e = raise .ioFailure s := by
  simp [rd, Source.readBits, h]

/-- A read that does not return changes nothing. -/
theorem rd_blocked {n : Nat} {s : State} {k : Nat → State → Res} {e : State → Res} (hf : s.src.failed = false)
    (h : s.src.blocked = true) : rd n s k e = .halt (.next s) := by
  simp [rd, Source.readBits, hf, h]

/-- A read with fewer than n bits left answers `EXHAUSTED`. -/
theorem rd_exhausted {n : Nat} {s : State} {k : Nat → State → Res} {e : State → Res} (ho : SrcOpen s)
    (h : (upcoming s).length < n) :
    rd n s k e = e { s with src := srcExhausted s.src s.draws, draws := s.draws + 1 } := by
  simp only [upcoming, List.length_drop] at h
  simp [rd, Source.readBits, ho.1, ho.2, h, srcExhausted]

/-- A read with n bits left answers their value. -/
theorem rd_value {n : Nat} {s : State} {k : Nat → State → Res} {e : State → Res} (ho : SrcOpen s)
    (h : n ≤ (upcoming s).length) (hp : s.srcpos + n < Config.posLimit) :
    rd n s k e = k (bitsVal ((upcoming s).take n)) { s with src := srcAfter n s, srcpos := s.srcpos + n } := by
  simp only [upcoming, List.length_drop] at h
  simp [rd, Source.readBits, ho.1, ho.2, Nat.not_lt.mpr h, srcAfter, upcoming, hp]

/-- A read whose bits would carry `SRCPOS` past its width is refused. -/
theorem rd_overflow {n : Nat} {s : State} {k : Nat → State → Res} {e : State → Res} (ho : SrcOpen s)
    (h : n ≤ (upcoming s).length) (hp : ¬ s.srcpos + n < Config.posLimit) :
    rd n s k e = .halt (.refused .positionOverflow) := by
  simp only [upcoming, List.length_drop] at h
  simp [rd, Source.readBits, ho.1, ho.2, Nat.not_lt.mpr h, hp]

/-- Everything `rd` can do. -/
theorem rd_meets {P : State → Prop} {n : Nat} {s : State} {k : Nat → State → Res} {e : State → Res}
    (hfault : P (faultEntry .ioFailure s)) (hwait : P s)
    (hex : (e { s with src := srcExhausted s.src s.draws, draws := s.draws + 1 }).Meets P)
    (hval : n ≤ s.src.bits.length - s.src.pos → s.srcpos + n < Config.posLimit → ∀ v < 2 ^ n,
      (k v { s with src := srcAfter n s, srcpos := s.srcpos + n }).Meets P) :
    (rd n s k e).Meets P := by
  by_cases hf : s.src.failed = true
  · rw [rd_failed hf]; exact hfault
  · have hf : s.src.failed = false := by simpa using hf
    by_cases hb : s.src.blocked = true
    · rw [rd_blocked hf hb]; exact hwait
    · have ho : SrcOpen s := ⟨hf, by simpa using hb⟩
      by_cases hl : (upcoming s).length < n
      · rw [rd_exhausted ho hl]; exact hex
      · by_cases hp : s.srcpos + n < Config.posLimit
        · rw [rd_value ho (by omega) hp]
          refine hval (by simp [upcoming] at hl; omega) hp _ ?_
          have := bitsVal_lt ((upcoming s).take n)
          rwa [List.length_take, Nat.min_eq_left (by omega)] at this
        · rw [rd_overflow ho (by omega) hp]; exact .inl rfl

/-! ### `rewind` -/

/-- The source a `rewind()` presents. -/
def srcRewound (s : State) : Source := { s.src with bits := s.src.reread.getD s.src.bits, pos := 0 }

theorem rewind_ok {s : State} {k : State → Res} (ho : SrcOpen s) :
    rewind s k = k { s with src := srcRewound s, srcpos := 0 } := by
  simp [rewind, Source.rewind, ho.1, ho.2, srcRewound]

theorem rewind_failed {s : State} {k : State → Res} (h : s.src.failed = true) :
    rewind s k = raise .ioFailure s := by
  simp [rewind, Source.rewind, h]

theorem rewind_blocked {s : State} {k : State → Res} (hf : s.src.failed = false) (h : s.src.blocked = true) :
    rewind s k = .halt (.next s) := by
  simp [rewind, Source.rewind, h, hf]

/-- Everything `rewind` can do. -/
theorem rewind_meets {P : State → Prop} {s : State} {k : State → Res}
    (hfault : P (faultEntry .ioFailure s)) (hwait : P s)
    (hok : (k { s with src := srcRewound s, srcpos := 0 }).Meets P) : (rewind s k).Meets P := by
  by_cases hf : s.src.failed = true
  · rw [rewind_failed hf]; exact hfault
  · have hf : s.src.failed = false := by simpa using hf
    by_cases hb : s.src.blocked = true
    · rw [rewind_blocked hf hb]; exact hwait
    · rw [rewind_ok ⟨hf, by simpa using hb⟩]; exact hok

/-! ### `wr` and `emit` -/

theorem wr_ok {n v : Nat} {s : State} {k : State → Res} (ho : SnkOpen s) (hp : s.snkpos + n < Config.posLimit) :
    wr n v s k = k { s with snk := snkAfter (bitsOf n v) s, snkpos := s.snkpos + n } := by
  simp [wr, Sink.writeBits, ho.1, ho.2.1, ho.2.2, snkAfter, hp]

theorem wr_failed {n v : Nat} {s : State} {k : State → Res} (h : s.snk.failed = true ∨ s.snk.closed = true) :
    wr n v s k = raise .ioFailure s := by
  rcases h with h | h <;> simp [wr, Sink.writeBits, h]

theorem wr_blocked {n v : Nat} {s : State} {k : State → Res} (hf : s.snk.failed = false)
    (hc : s.snk.closed = false) (h : s.snk.blocked = true) : wr n v s k = .halt (.next s) := by
  simp [wr, Sink.writeBits, hf, hc, h]

theorem wr_overflow {n v : Nat} {s : State} {k : State → Res} (ho : SnkOpen s)
    (hp : ¬ s.snkpos + n < Config.posLimit) : wr n v s k = .halt (.refused .positionOverflow) := by
  simp [wr, Sink.writeBits, ho.1, ho.2.1, ho.2.2, hp]

/-- Everything `wr` can do. -/
theorem wr_meets {P : State → Prop} {n v : Nat} {s : State} {k : State → Res}
    (hfault : P (faultEntry .ioFailure s)) (hwait : P s)
    (hok : s.snkpos + n < Config.posLimit →
      (k { s with snk := snkAfter (bitsOf n v) s, snkpos := s.snkpos + n }).Meets P) :
    (wr n v s k).Meets P := by
  by_cases hf : s.snk.failed = true ∨ s.snk.closed = true
  · rw [wr_failed hf]; exact hfault
  · have hf' : s.snk.failed = false := by simpa using fun h => hf (.inl h)
    have hc : s.snk.closed = false := by simpa using fun h => hf (.inr h)
    by_cases hb : s.snk.blocked = true
    · rw [wr_blocked hf' hc hb]; exact hwait
    · have ho : SnkOpen s := ⟨hf', hc, by simpa using hb⟩
      by_cases hp : s.snkpos + n < Config.posLimit
      · rw [wr_ok ho hp]; exact hok hp
      · rw [wr_overflow ho hp]; exact .inl rfl

@[simp] theorem snkOpen_write {s : State} {b : Bits} {p : Nat} :
    SnkOpen { s with snk := snkAfter b s, snkpos := p } ↔ SnkOpen s := Iff.rfl

/-- `emit(c)` is one append of c (D28). -/
theorem emit_ok {c : Bits} {s : State} {k : State → Res} (ho : SnkOpen s)
    (hp : s.snkpos + c.length < Config.posLimit) :
    emit c s k = k { s with snk := snkAfter c s, snkpos := s.snkpos + c.length } := by
  induction c generalizing s with
  | nil => simp [emit, snkAfter]
  | cons b c ih =>
    simp only [List.length_cons] at hp
    have hb : bitsOf 1 b.toNat = [b] := by cases b <;> rfl
    rw [emit, wr_ok ho (by omega), ih (snkOpen_write.mpr ho) (by simp; omega)]
    simp [snkAfter, hb, Nat.add_assoc, Nat.add_comm 1]

/-! ### `close` -/

theorem close_ok {s : State} {k : State → Res} (ho : SnkOpen s) :
    closeSink s k =
      k { s with
          snk := { snkAfter (padBits (padLength s.snk.bits.length) s.draws) s with closed := true }
          draws := s.draws + padLength s.snk.bits.length } := by
  simp [closeSink, Sink.close, ho.1, ho.2.1, ho.2.2, snkAfter]

theorem close_failed {s : State} {k : State → Res} (h : s.snk.failed = true ∨ s.snk.closed = true) :
    closeSink s k = raise .ioFailure s := by
  rcases h with h | h <;> simp [closeSink, Sink.close, h]

theorem close_blocked {s : State} {k : State → Res} (hf : s.snk.failed = false)
    (hc : s.snk.closed = false) (h : s.snk.blocked = true) : closeSink s k = .halt (.next s) := by
  simp [closeSink, Sink.close, hf, hc, h]

/-- Everything `closeSink` can do. -/
theorem close_meets {P : State → Prop} {s : State} {k : State → Res}
    (hfault : P (faultEntry .ioFailure s)) (hwait : P s)
    (hok : (k { s with
          snk := { snkAfter (padBits (padLength s.snk.bits.length) s.draws) s with closed := true }
          draws := s.draws + padLength s.snk.bits.length }).Meets P) :
    (closeSink s k).Meets P := by
  by_cases hf : s.snk.failed = true ∨ s.snk.closed = true
  · rw [close_failed hf]; exact hfault
  · have hf' : s.snk.failed = false := by simpa using fun h => hf (.inl h)
    have hc : s.snk.closed = false := by simpa using fun h => hf (.inr h)
    by_cases hb : s.snk.blocked = true
    · rw [close_blocked hf' hc hb]; exact hwait
    · rw [close_ok ⟨hf', hc, by simpa using hb⟩]; exact hok

/-- The pad reaches a byte boundary with 0 to 7 bits (`20_memory.md` R47). -/
theorem padLength_spec (len : Nat) : padLength len < 8 ∧ (len + padLength len) % 8 = 0 := by
  unfold padLength; omega

@[simp] theorem padBits_length (k d : Nat) : (padBits k d).length = k := by simp [padBits]

end Sys2Proof.Machine
end

