-- ==== Sys2Proof/Laws/Turns.lean ====
section
/-!
SUPPORT. The turns of a phase: one turn at a time, and what every turn keeps the whole phase keeps.
-/

namespace Sys2Proof.Machine

/-- Every state an instruction answers has the property `P`; it stops only where the spec gives no meaning. -/
def OutMeets (P : State → Prop) : Out → Prop
  | .next s => P s
  | .fault _ => False
  | .refused r => r = .positionOverflow ∨ r = .rebindWhileBusy

theorem out_meets {P : State → Prop} {r : Res} (h : r.Meets P) : OutMeets P r.out := by
  match r, h with
  | .go s, h => exact h
  | .halt (.next s), h => exact h
  | .halt (.refused _), h => exact h

variable {p : Phase} {turn : State → Res}

/-- One turn that hands on. -/
theorem runTurns_go {n : Nat} {s s' : State} (hb : s.state = .busy) (hp : s.phase = p) (hd : due s = false)
    (ht : turn (tick s) = .go s') : runTurns p turn (n + 1) s = runTurns p turn n s' := by
  simp [runTurns, hb, hp, hd, ht]

/-- One turn that halts. -/
theorem runTurns_halt {n : Nat} {s : State} {o : Out} (hb : s.state = .busy) (hp : s.phase = p)
    (hd : due s = false) (ht : turn (tick s) = .halt o) : runTurns p turn (n + 1) s = o := by
  simp [runTurns, hb, hp, hd, ht]

/-- The phase is over, or an event is due. -/
theorem runTurns_stop {n : Nat} {s : State} (h : ¬ (s.state = .busy ∧ s.phase = p ∧ due s = false)) :
    runTurns p turn n s = .next s := by
  cases n with
  | zero => rfl
  | succ n => rw [runTurns, if_neg h]

/-- The turns of a quiet phase, one at a time. -/
theorem runTurns_quiet {n : Nat} {s : State} (hb : s.state = .busy) (hp : s.phase = p) (hq : s.inputs = []) :
    runTurns p turn (n + 1) s =
      match turn s with
      | .go s' => runTurns p turn n s'
      | .halt o => o := by
  rw [runTurns, if_pos ⟨hb, hp, due_quiet hq⟩, tick_quiet hq] <;> rfl

/-- What every turn of a phase keeps, the phase keeps. -/
theorem runTurns_meets {P : State → Prop} (htick : ∀ s, P s → P (tick s))
    (hturn : ∀ s, P s → s.state = .busy → s.phase = p → (turn s).Meets P) (n : Nat) (s : State) (h : P s) :
    OutMeets P (runTurns p turn n s) := by
  induction n generalizing s with
  | zero => exact h
  | succ n ih =>
    rw [runTurns]
    split
    · rename_i hc
      have := hturn (tick s) (htick s h) (by simpa using hc.1) (by simpa using hc.2.1)
      cases hr : turn (tick s) with
      | go s' => rw [hr] at this; exact ih s' this
      | halt o =>
        rw [hr] at this
        cases o <;> exact this
    · exact h

/-- The same for a phase instruction that is already running. -/
theorem runPhase_meets {P : State → Prop} (htick : ∀ s, P s → P (tick s))
    (hturn : ∀ s, P s → s.state = .busy → s.phase = p → (turn s).Meets P) (s : State) (h : P s)
    (hp : s.state = .busy → s.phase = p) : OutMeets P (runPhase p turn s) := by
  unfold runPhase
  split
  · rename_i hb
    simp only [hp hb, if_true]
    exact runTurns_meets htick hturn _ _ h
  · exact h

end Sys2Proof.Machine
end

