-- ==== Sys2Proof/Laws/Invariant.lean ====
section
/-!
SUPPORT. Every turn of every phase keeps the invariant, phase by phase; fault entry, the start of a run and the
events of the outside world keep it too.
-/

namespace Sys2Proof.Machine

/-! ### Updates that touch little -/

/-- A block held in reset does no run. -/
theorem rst_of_busy {s : State} (h : Inv s) (hb : s.state = .busy) : s.rst = false := by
  cases hr : s.rst with
  | false => rfl
  | true =>
    have := congrArg State.state (h.control.held hr)
    rw [hb] at this
    contradiction

/-- The streams, `CTRL`, and the position counters within their width, out of reset. -/
theorem inv_env {s : State} (h : Inv s) (hr : s.rst = false) {src : Source} {snk : Sink} {draws : Nat} {ie : Bool}
    {srcpos snkpos : Nat} (hc : src.pos ≤ src.bits.length) (h1 : srcpos < Config.posLimit)
    (h2 : snkpos < Config.posLimit) :
    Inv { s with src := src, snk := snk, draws := draws, ie := ie, srcpos := srcpos, snkpos := snkpos } where
  control := ⟨h.control.err_iff, h.control.idle_phase, h.control.done_phase, h.control.busy_place,
    fun ht => absurd (hr.symm.trans ht) (by decide)⟩
  tables := ⟨h.tables.freq_wf, h.tables.node_wf, h.tables.code_wf, hc⟩
  widths := ⟨h.widths.len_le, h.widths.seq_le, h.widths.nnodes_le, h.widths.trail_le, h1, h2, h.widths.freq_le,
    h.widths.node_le, h.widths.pq_le, h.widths.code_le, h.widths.stk_le⟩
  ready := h.ready

/-- What is outside the block, in reset or not. -/
theorem inv_world {s : State} (h : Inv s) {src : Source} {snk : Sink} {inputs : List (Nat × Event)} {hostData : Word}
    {draws : Nat} (hc : src.pos ≤ src.bits.length) :
    Inv { s with src := src, snk := snk, inputs := inputs, hostData := hostData, draws := draws } where
  control := ⟨h.control.err_iff, h.control.idle_phase, h.control.done_phase, h.control.busy_place, fun hr =>
    congrArg (fun t : State => { t with src := src, snk := snk, inputs := inputs, hostData := hostData, draws := draws })
      (h.control.held hr)⟩
  tables := ⟨h.tables.freq_wf, h.tables.node_wf, h.tables.code_wf, hc⟩
  widths := { h.widths with }
  ready := h.ready

theorem inv_tick (s : State) (h : Inv s) : Inv (tick s) := by
  unfold tick
  split
  · exact inv_world h h.tables.cursor
  · exact h

/-- In a run there is no fault code, and the reset input is not asserted. -/
theorem err_none {s : State} (h : Inv s) (hb : s.state = .busy) : s.err = none ∧ s.rst = false := by
  refine ⟨?_, rst_of_busy h hb⟩
  cases he : s.err with
  | none => rfl
  | some f =>
    have := h.control.err_iff.mp (by simp [he])
    rw [hb] at this
    contradiction

theorem control_busy {s : State} (hb : s.state = .busy) (he : s.err = none ∧ s.rst = false)
    (hm : microFits s.phase s.micro = true) : ControlOk s where
  err_iff := by simp [hb, he.1]
  idle_phase := by simp [hb]
  done_phase := by simp [hb]
  busy_place := fun _ => hm
  held := by simp [he.2]

/-- Fault entry in a run keeps the invariant. -/
theorem inv_fault {s : State} (h : Inv s) (hb : s.state = .busy) (f : FaultCode) : Inv (faultEntry f s) where
  control := ⟨by simp, by simp, by simp, by simp, by simp [rst_of_busy h hb]⟩
  tables := ⟨h.tables.freq_wf, h.tables.node_wf, h.tables.code_wf, h.tables.cursor⟩
  widths := ⟨h.widths.len_le, h.widths.seq_le, h.widths.nnodes_le, h.widths.trail_le, h.widths.srcpos_lt,
    h.widths.snkpos_lt, h.widths.freq_le, h.widths.node_le, h.widths.pq_le, h.widths.code_le, h.widths.stk_le⟩
  ready := by simp

theorem inv_read {s : State} (h : Inv s) (hb : s.state = .busy) {n : Nat} (hn : n ≤ s.src.bits.length - s.src.pos)
    (hp : s.srcpos + n < Config.posLimit) : Inv { s with src := srcAfter n s, srcpos := s.srcpos + n } :=
  inv_env h (rst_of_busy h hb) (by have := h.tables.cursor; simp only [srcAfter]; omega) hp h.widths.snkpos_lt

theorem inv_exhausted {s : State} (h : Inv s) {d : Nat} :
    Inv { s with src := srcExhausted s.src s.draws, draws := d } :=
  inv_world h (by have := h.tables.cursor; simp only [srcExhausted]; omega)

theorem inv_write {s : State} (h : Inv s) (hb : s.state = .busy) {b : Bits} {p : Nat} (hp : p < Config.posLimit) :
    Inv { s with snk := snkAfter b s, snkpos := p } :=
  inv_env h (rst_of_busy h hb) h.tables.cursor h.widths.srcpos_lt hp

/-- `rd` in a turn that keeps the invariant. -/
theorem rd_inv {n : Nat} {s : State} {k : Nat → State → Res} {e : State → Res} (h : Inv s) (hb : s.state = .busy)
    (hex : ∀ s', Inv s' → s' = { s with src := s'.src, draws := s'.draws } → (e s').Meets Inv)
    (hval : ∀ v < 2 ^ n, ∀ s', Inv s' → s' = { s with src := s'.src, srcpos := s'.srcpos } → (k v s').Meets Inv) :
    (rd n s k e).Meets Inv :=
  rd_meets (inv_fault h hb _) h (hex _ (inv_exhausted h) rfl)
    fun hn hp v hv => hval v hv _ (inv_read h hb hn hp) rfl

/-- `wr` in a turn that keeps the invariant. -/
theorem wr_inv {n v : Nat} {s : State} {k : State → Res} (h : Inv s) (hb : s.state = .busy)
    (hok : ∀ s', Inv s' → s' = { s with snk := s'.snk, snkpos := s'.snkpos } → (k s').Meets Inv) :
    (wr n v s k).Meets Inv :=
  wr_meets (inv_fault h hb _) h fun hp => hok _ (inv_write h hb hp) rfl

/-! ### COUNT -/

theorem lenMax_eq : Config.lenMax = 4294967294 := by norm_num [Config.lenMax]

theorem sum_range_update {f g : Nat → Nat} {n k : Nat} (hk : k < n) (h : ∀ i, i ≠ k → g i = f i) :
    ((List.range n).map g).sum + f k = ((List.range n).map f).sum + g k := by
  induction n with
  | zero => omega
  | succ n ih =>
    simp only [List.range_succ, List.map_append, List.sum_append, List.map_cons, List.map_nil, List.sum_cons,
      List.sum_nil]
    by_cases hkn : k = n
    · subst hkn
      have : (List.range k).map g = (List.range k).map f :=
        List.map_congr_left fun i hi => h i (by have := List.mem_range.mp hi; omega)
      rw [this]; omega
    · have := ih (by omega)
      have := h n (by omega)
      omega

theorem le_sum_range {f : Nat → Nat} {n k : Nat} (hk : k < n) : f k ≤ ((List.range n).map f).sum := by
  induction n with
  | zero => omega
  | succ n ih =>
    simp only [List.range_succ, List.map_append, List.sum_append, List.map_cons, List.map_nil, List.sum_cons,
      List.sum_nil]
    by_cases hkn : k = n
    · subst hkn; omega
    · have := ih (by omega); omega

theorem freqSum_write {freq : Table Nat} {k w : Nat} (hk : k < Config.alphSize) (h : Table.read freq k = some w) :
    freqSum (Table.write freq k (w + 1)) = freqSum freq + 1 := by
  have := sum_range_update (f := fun i => (Table.read freq i).getD 0)
    (g := fun i => (Table.read (Table.write freq k (w + 1)) i).getD 0) hk
    (fun i hi => by simp [table_read_write_other _ _ hi])
  simp only [freqSum]
  simp only [h, table_read_write_same, Option.getD_some] at this
  omega

theorem freq_le_sum {freq : Table Nat} {k w : Nat} (hk : k < Config.alphSize) (h : Table.read freq k = some w) :
    w ≤ freqSum freq := by
  have := le_sum_range (f := fun i => (Table.read freq i).getD 0) hk
  simpa [h, freqSum] using this

theorem read_clearedFreq (i : Nat) : Table.read clearedFreq i = if i < Config.alphSize then some 0 else none :=
  table_read_map_range _ _ _

theorem freqSum_cleared : freqSum clearedFreq = 0 := by
  unfold freqSum
  rw [List.sum_eq_zero]
  intro x hx
  obtain ⟨i, hi, rfl⟩ := List.mem_map.mp hx
  rw [read_clearedFreq]
  split <;> rfl

theorem countByte_inv {s : State} (h : Inv s) (hb : s.state = .busy) (hp : s.phase = .count) (hm : s.micro = .loop)
    {v : Nat} (hv : v < 2 ^ 8) : (countByte v s).Meets Inv := by
  have hr := h.ready hb
  simp only [Ready, hp, hm, forall_const] at hr
  obtain ⟨hn, hfull, hsum⟩ := hr
  have hv' : v < Config.alphSize := hv
  unfold countByte
  split
  · exact inv_fault h hb _
  · rename_i hlen
    have hlen : s.len < Config.lenMax := lt_of_le_of_ne h.widths.len_le hlen
    obtain ⟨w, hw⟩ := Option.isSome_iff_exists.mp (hfull v hv')
    have hne : v ≠ Config.pseudoEof := by simp only [Config.pseudoEof, Config.alphSize] at *; omega
    simp only [readFreq, freqAt, if_neg hne, hw, writeFreq, meets_go]
    have hwl := freq_le_sum hv' hw
    have hs := freqSum_write hv' hw
    have herr := err_none h hb
    refine ⟨control_busy hb herr (by simp [hp, hm, microFits]), ?_, ?_, fun _ => ?_⟩
    · exact ⟨table_wf_write _ _ h.tables.freq_wf, h.tables.node_wf, h.tables.code_wf, h.tables.cursor⟩
    · refine { h.widths with len_le := hlen, freq_le := fun i w' hi => ?_ }
      rw [table_read_write] at hi
      split at hi
      · rename_i hiv
        rw [lenMax_eq] at hlen
        exact ⟨hiv ▸ hv', by simp only [Option.some.injEq] at hi; omega⟩
      · exact h.widths.freq_le i w' hi
    · simp only [Ready, hp]
      refine ⟨hn, fun _ => ⟨fun i hi => ?_, by omega⟩⟩
      rw [table_read_write]
      split
      · rfl
      · exact hfull i hi

theorem countTurn_inv {s : State} (h : Inv s) (hb : s.state = .busy) (hp : s.phase = .count) :
    (countTurn s).Meets Inv := by
  have hplace := h.control.busy_place hb
  have hr := h.ready hb
  have herr := err_none h hb
  unfold countTurn
  cases hm : s.micro <;> simp only [hp, hm, microFits, Bool.false_eq_true] at hplace
  · simp only [meets_go]
    simp only [Ready, hp] at hr
    refine ⟨control_busy hb herr (by simp [hp, microFits]), ?_, ?_, fun _ => ?_⟩
    · exact ⟨table_wf_map_range _ _, h.tables.node_wf, h.tables.code_wf, h.tables.cursor⟩
    · refine { h.widths with len_le := Nat.zero_le _, freq_le := fun i w hi => ?_ }
      simp only [countInit_freq, read_clearedFreq] at hi
      split at hi
      · simp only [Option.some.injEq] at hi; exact ⟨‹_›, by omega⟩
      · simp at hi
    · simp only [Ready, countInit_phase, hp]
      exact ⟨hr.1, fun _ => ⟨fun i hi => by simp [read_clearedFreq, hi], by simp [freqSum_cleared]⟩⟩
  · refine rd_inv h hb (fun s' h' he => ?_) (fun v hv s' h' he => ?_)
    · have hb' : s'.state = .busy := by rw [he]; exact hb
      have hp' : s'.phase = .count := by rw [he]; exact hp
      have hm' : s'.micro = .loop := by rw [he]; exact hm
      have hr' := h'.ready hb'
      have herr' := err_none h' hb'
      simp only [Ready, hp', hm', forall_const] at hr'
      refine ⟨control_busy hb' herr' (by simp [hp', Phase.next, microFits]), ?_, ?_, fun _ => ?_⟩
      · exact ⟨h'.tables.freq_wf, h'.tables.node_wf, h'.tables.code_wf, h'.tables.cursor⟩
      · exact { h'.widths with }
      · simp only [Ready, endPhase_phase, hp', Phase.next]
        exact ⟨hr'.2.1, hr'.2.2, fun _ => hr'.1, by simp⟩
    · exact countByte_inv h' (by rw [he]; exact hb) (by rw [he]; exact hp) (by rw [he]; exact hm) hv

end Sys2Proof.Machine
end

