-- ==== Sys2Proof/Laws/InvariantBuild.lean ====
section
/-!
SUPPORT. BUILD keeps the invariant: the leaves of the arena and the queue they make, then one merge at a time
(`41_tree_builder.md` R91 to R97).
-/

namespace Sys2Proof.Machine

/-! ### A new node -/

/-- `newNode` writes a fresh entry. -/
theorem newNode_keeps {s : State} (n : Node) (hd : ∀ i, i < s.seq ↔ (Table.read s.node i).isSome = true) :
    ∀ i m, Table.read s.node i = some m → Table.read (newNode n s).node i = some m := by
  refine read_write_fresh ?_
  have := (hd s.seq).not.mp (by omega)
  simpa using this

theorem newNode_dense {s : State} (n : Node) (hd : ∀ i, i < s.seq ↔ (Table.read s.node i).isSome = true) :
    ∀ i, i < (newNode n s).seq ↔ (Table.read (newNode n s).node i).isSome = true := by
  intro i
  simp only [newNode_seq, newNode_node, table_read_write]
  split
  · simp; omega
  · rw [← hd i]; omega

/-! ### The leaves -/

/-- The arena and the queue after some leaves: `s0` is the state before them, `T` the weight inserted. -/
structure LeafInv (s0 : State) (T : Nat) (s : State) : Prop where
  base : s = { s0 with node := s.node, pq := s.pq, seq := s.seq }
  wf : Table.wf s.node = true
  dense : ∀ i, i < s.seq ↔ (Table.read s.node i).isSome = true
  leaf : ∀ i n, Table.read s.node i = some n → n.leaf = true ∧ n.sym.toNat ≤ Config.pseudoEof ∧ n.weight ≤ T
  sorted : pqSorted s.pq = true
  size : s.pq.length = s.seq
  entry : ∀ e ∈ s.pq, e.seq = e.handle ∧ ∃ n, Table.read s.node e.handle = some n ∧ n.weight = e.weight
  total : (s.pq.map PqEntry.weight).sum = T

theorem leafInv_new {s0 s : State} {T w sym : Nat} (h : LeafInv s0 T s) (hsym : sym ≤ Config.pseudoEof) :
    LeafInv s0 (T + w) (newNode (mkLeaf (BitVec.ofNat 9 sym) w) s) := by
  have hkeep := newNode_keeps (mkLeaf (BitVec.ofNat 9 sym) w) h.dense
  have hlt : ∀ e ∈ s.pq, e.handle < s.seq := fun e he => by
    obtain ⟨_, n, hn, _⟩ := h.entry e he
    exact (h.dense e.handle).mpr (by simp [hn])
  refine ⟨?_, table_wf_write _ _ h.wf, newNode_dense _ h.dense, ?_, ?_, ?_, ?_, ?_⟩
  · conv => lhs; rw [h.base]
    rfl
  · intro i n hi
    simp only [newNode_node, table_read_write] at hi
    split at hi
    · simp only [Option.some.injEq] at hi
      subst hi
      refine ⟨rfl, ?_, by simp [mkLeaf]⟩
      simp only [mkLeaf, BitVec.toNat_ofNat]
      simp only [Config.pseudoEof] at *
      omega
    · have := h.leaf i n hi
      exact ⟨this.1, this.2.1, by omega⟩
  · simp only [newNode_pq]
    refine pqSorted_insert h.sorted fun y hy => ?_
    have := hlt y hy
    have := (h.entry y hy).1
    simp only
    omega
  · simp [h.size]
  · intro e he
    simp only [newNode_pq, mem_pqInsert] at he
    rcases he with rfl | he
    · exact ⟨rfl, mkLeaf (BitVec.ofNat 9 sym) w, by simp, rfl⟩
    · obtain ⟨h1, n, hn, hw⟩ := h.entry e he
      exact ⟨h1, n, hkeep _ _ hn, hw⟩
  · simp [pqInsert_weight, h.total, mkLeaf, Nat.add_comm]

/-- The leaves of a list of symbols whose counts are known. -/
theorem insertLeaves_spec {s0 : State} (syms : List Nat) (hle : ∀ x ∈ syms, x ≤ Config.pseudoEof)
    (hf : ∀ x ∈ syms, (freqAt x s0).isSome = true) {T : Nat} {s : State} (h : LeafInv s0 T s) :
    ∃ s', insertLeaves syms s = .go s' ∧
      LeafInv s0 (T + (syms.map fun x => (freqAt x s0).getD 0).sum) s' ∧ s'.seq ≤ s.seq + syms.length := by
  induction syms generalizing T s with
  | nil => exact ⟨s, rfl, by simpa using h, by simp⟩
  | cons x syms ih =>
    obtain ⟨w, hw⟩ := Option.isSome_iff_exists.mp (hf x List.mem_cons_self)
    have hw' : freqAt x s = some w := by
      have : s.freq = s0.freq := by rw [h.base]
      rw [← hw]; simp [freqAt, this]
    have hle' := fun y hy => hle y (List.mem_cons_of_mem _ hy)
    have hf' := fun y hy => hf y (List.mem_cons_of_mem _ hy)
    by_cases hz : w = 0
    · obtain ⟨s', h1, h2, h3⟩ := ih hle' hf' h
      refine ⟨s', ?_, ?_, by simp only [List.length_cons]; omega⟩
      · simp [insertLeaves, insertLeaf, readFreq, hw', hz, h1]
      · simpa [hw, hz] using h2
    · obtain ⟨s', h1, h2, h3⟩ := ih hle' hf' (leafInv_new (w := w) h (hle x List.mem_cons_self))
      refine ⟨s', ?_, ?_, by simp only [List.length_cons, newNode_seq] at *; omega⟩
      · simp [insertLeaves, insertLeaf, readFreq, hw', hz, h1]
      · simpa [hw, Nat.add_assoc] using h2

theorem insertLeaves_append (a b : List Nat) (s : State) :
    insertLeaves (a ++ b) s = (insertLeaves a s).bind (insertLeaves b) := by
  induction a generalizing s with
  | nil => rfl
  | cons x a ih =>
    simp only [List.cons_append, insertLeaves]
    cases insertLeaf x s with
    | go s' => simp [ih]
    | halt o => rfl

theorem ne_eof_of_lt {x : Nat} (h : x < Config.alphSize) : x ≠ Config.pseudoEof := by
  rintro rfl
  exact absurd h (by decide)

/-- The first lines of BUILD: all leaves, and the end-of-file leaf last. -/
theorem insertLeaves_all {s : State} (hfull : FreqFull s.freq) (hn : s.node = []) :
    ∃ s', insertLeaves (List.range Config.nsym) { s with seq := 0, pq := [] } = .go s' ∧
      LeafInv { s with seq := 0, pq := [] } (freqSum s.freq + 1) s' ∧ 1 ≤ s'.seq ∧ s'.seq ≤ Config.nsym ∧
      ∃ e ∈ s'.pq, HasEof s'.node (some e.handle) := by
  have hr : List.range Config.nsym = List.range Config.alphSize ++ [Config.pseudoEof] := List.range_succ
  have h0 : LeafInv { s with seq := 0, pq := [] } 0 { s with seq := 0, pq := [] } :=
    ⟨rfl, by simp [hn, Table.wf, Table.wfFrom], by simp [hn], by simp [hn], rfl, rfl, by simp, rfl⟩
  have hfr : ∀ x < Config.alphSize, freqAt x { s with seq := 0, pq := [] } = Table.read s.freq x := by
    intro x hx
    simp only [freqAt, if_neg (ne_eof_of_lt hx)]
  obtain ⟨s1, h1, h2, h3⟩ := insertLeaves_spec (List.range Config.alphSize)
    (fun x hx => Nat.le_of_lt (List.mem_range.mp hx))
    (fun x hx => by rw [hfr x (List.mem_range.mp hx)]; exact hfull x (List.mem_range.mp hx)) h0
  have hT : ((List.range Config.alphSize).map fun x => (freqAt x { s with seq := 0, pq := [] }).getD 0).sum
      = freqSum s.freq := by
    exact congrArg List.sum (List.map_congr_left fun x hx => by rw [hfr x (List.mem_range.mp hx)])
  rw [hT, Nat.zero_add] at h2
  have hlast : insertLeaves [Config.pseudoEof] s1 = .go (newNode (mkLeaf 256#9 1) s1) := by
    simp [insertLeaves, insertLeaf, readFreq, freqAt, Config.pseudoEof]
  refine ⟨newNode (mkLeaf 256#9 1) s1, ?_, leafInv_new (sym := 256) h2 (by decide), by simp, ?_, ?_⟩
  · rw [hr, insertLeaves_append, h1, bind_go, hlast]
  · simp only [List.length_range] at h3
    simp only [newNode_seq]
    have : Config.nsym = Config.alphSize + 1 := rfl
    omega
  · refine ⟨⟨1, s1.seq, s1.seq⟩, by simp [mem_pqInsert, mkLeaf], .leaf 256#9, ?_, by simp [treeSyms]⟩
    exact arenaHolds_leaf (n := mkLeaf 256#9 1) (by simp) rfl rfl

/-! ### One merge -/

/-- Two entries leave the queue and their parent enters it. -/
theorem mergeTurn_spec {s : State} {k : Nat} (ha : BuiltArena k (s.len + 1) s.seq s.node)
    (hq : QueueOk k s.len s.seq s.node s.pq) :
    (∃ a, s.pq = [a] ∧ mergeTurn s = .go (endPhase { s with root := some a.handle, pq := [] })) ∨
    ∃ a b q na nb, s.pq = a :: b :: q ∧ Table.read s.node a.handle = some na ∧
      Table.read s.node b.handle = some nb ∧
      mergeTurn s = .go (newNode (mkInternal (na.weight + nb.weight) (some a.handle) (some b.handle))
        { s with pq := q }) ∧
      BuiltArena k (s.len + 1) (s.seq + 1)
        (Table.write s.node s.seq (mkInternal (na.weight + nb.weight) (some a.handle) (some b.handle))) ∧
      QueueOk k s.len (s.seq + 1)
        (Table.write s.node s.seq (mkInternal (na.weight + nb.weight) (some a.handle) (some b.handle)))
        (pqInsert ⟨na.weight + nb.weight, s.seq, s.seq⟩ q) := by
  match hpq : s.pq with
  | [] => exact absurd hpq hq.nonempty
  | [a] => exact .inl ⟨a, rfl, by simp [mergeTurn, hpq, removeMin]⟩
  | a :: b :: q =>
    right
    obtain ⟨-, na, hna, hwa⟩ := hq.entry a (by simp [hpq])
    obtain ⟨-, nb, hnb, hwb⟩ := hq.entry b (by simp [hpq])
    have hlt : ∀ e ∈ s.pq, e.handle < s.seq := fun e he => by
      obtain ⟨_, n, hn, _⟩ := hq.entry e he
      exact (ha.dense e.handle).mpr (by simp [hn])
    have htot := hq.total
    simp only [hpq, List.map_cons, List.sum_cons] at htot
    have hsort := hq.sorted
    rw [hpq, pqSorted_cons, pqSorted_cons] at hsort
    have hsize := hq.size
    simp only [hpq, List.length_cons] at hsize
    have hfresh : Table.read s.node s.seq = none := by
      have := (ha.dense s.seq).not.mp (by omega)
      simpa using this
    have hkeep := read_write_fresh (m := mkInternal (na.weight + nb.weight) (some a.handle) (some b.handle)) hfresh
    refine ⟨a, b, q, na, nb, rfl, hna, hnb, ?_, ?_, ?_⟩
    · simp [mergeTurn, hpq, removeMin, readNode, hna, hnb]
    · refine ⟨ha.k_pos, ha.k_le, by have := ha.k_le_seq; omega, ?_, ?_, ?_, ?_, ?_⟩
      · intro i
        rw [table_read_write]
        split
        · simp; omega
        · rw [← ha.dense i]; omega
      · intro i n hi
        rw [table_read_write] at hi
        split at hi
        · simp only [Option.some.injEq] at hi
          subst hi
          have := ha.k_le_seq
          simp only [mkInternal, Bool.false_eq_true, false_iff]
          omega
        · exact ha.kind i n hi
      · intro i n hi hl
        rw [table_read_write] at hi
        split at hi
        · simp only [Option.some.injEq] at hi
          subst hi
          simp [mkInternal] at hl
        · exact ha.sym_le i n hi hl
      · intro i n hi
        rw [table_read_write] at hi
        split at hi
        · simp only [Option.some.injEq] at hi
          subst hi
          simp only [mkInternal]
          omega
        · exact ha.weight_le i n hi
      · intro i n hi hl
        rw [table_read_write] at hi
        split at hi
        · simp only [Option.some.injEq] at hi
          subst hi
          rename_i his
          exact ⟨a.handle, b.handle, rfl, rfl, his ▸ hlt a (by simp [hpq]), his ▸ hlt b (by simp [hpq])⟩
        · exact ha.children i n hi hl
    · refine ⟨?_, ?_, ?_, ?_, ?_, ?_⟩
      · refine pqSorted_insert hsort.2.2 fun y hy => ?_
        have h1 := hlt y (by simp [hpq, hy])
        have h2 := (hq.entry y (by simp [hpq, hy])).1
        simp only
        omega
      · intro hnil
        have := congrArg List.length hnil
        simp at this
      · simp only [pqInsert_length]; omega
      · intro e he
        rcases mem_pqInsert.mp he with rfl | he
        · exact ⟨rfl, _, table_read_write_same _ _ _, rfl⟩
        · obtain ⟨h1, n, hn, hw⟩ := hq.entry e (by simp [hpq, he])
          exact ⟨h1, n, hkeep _ _ hn, hw⟩
      · rw [pqInsert_weight]; simp only; omega
      · obtain ⟨e, he, heof⟩ := hq.eof
        have hnew : ∀ x, (x = a ∨ x = b) → HasEof s.node (some x.handle) →
            HasEof (Table.write s.node s.seq (mkInternal (na.weight + nb.weight) (some a.handle) (some b.handle)))
              (some s.seq) := by
          have tree : ∀ {e n}, e ∈ s.pq → Table.read s.node e.handle = some n → HasTree s.node (some e.handle) := by
            intro e n he hn
            suffices H : ∀ m i, i < m → i < s.seq → HasTree s.node (some i) from
              H (e.handle + 1) e.handle (by omega) (hlt e he)
            intro m
            induction m with
            | zero => intro i hi; omega
            | succ m ih =>
              intro i _ hi
              obtain ⟨n, hn⟩ := Option.isSome_iff_exists.mp ((ha.dense i).mp hi)
              cases hl : n.leaf with
              | true => exact ⟨.leaf n.sym, arenaHolds_leaf hn hl rfl⟩
              | false =>
                obtain ⟨l, r, h1, h2, h3, h4⟩ := ha.children i n hn hl
                obtain ⟨tl, htl⟩ := ih l (by omega) (by omega)
                obtain ⟨tr, htr⟩ := ih r (by omega) (by omega)
                exact ⟨.node tl tr, arenaHolds_node hn hl (h1 ▸ htl) (h2 ▸ htr)⟩
          intro x hx hx'
          obtain ⟨ta, hta⟩ := tree (e := a) (by simp [hpq]) hna
          obtain ⟨tb, htb⟩ := tree (e := b) (by simp [hpq]) hnb
          obtain ⟨t, ht, hmem⟩ := hx'
          rcases hx with rfl | rfl
          · exact ⟨.node t tb, arenaHolds_node (table_read_write_same _ _ _) rfl (arenaHolds_mono hkeep ht)
              (arenaHolds_mono hkeep htb), by simp [treeSyms, hmem]⟩
          · exact ⟨.node ta t, arenaHolds_node (table_read_write_same _ _ _) rfl (arenaHolds_mono hkeep hta)
              (arenaHolds_mono hkeep ht), by simp [treeSyms, hmem]⟩
        rw [hpq] at he
        rcases List.mem_cons.mp he with rfl | he
        · exact ⟨_, mem_pqInsert.mpr (.inl rfl), hnew _ (.inl rfl) heof⟩
        · rcases List.mem_cons.mp he with rfl | he
          · exact ⟨_, mem_pqInsert.mpr (.inl rfl), hnew _ (.inr rfl) heof⟩
          · exact ⟨e, mem_pqInsert.mpr (.inr he), hasEof_mono hkeep heof⟩

/-! ### The turns -/

theorem buildTurn_inv {s : State} (h : Inv s) (hb : s.state = .busy) (hp : s.phase = .build) :
    (buildTurn s).Meets Inv := by
  have hplace := h.control.busy_place hb
  have hr := h.ready hb
  have herr := err_none h hb
  unfold buildTurn
  cases hm : s.micro <;> simp only [hp, hm, microFits, Bool.false_eq_true] at hplace
  · simp only [Ready, hp, hm, forall_const] at hr
    obtain ⟨hfull, hsum, hn, -⟩ := hr
    obtain ⟨s', h1, h2, h3, h4, h5⟩ := insertLeaves_all hfull hn
    rw [hm] at h1
    simp only [h1, bind_go, meets_go]
    have hbase := h2.base
    have hlen : s'.len = s.len := by rw [hbase]
    have hfreq : s'.freq = s.freq := by rw [hbase]
    have hseq : s'.seq ≤ Config.nodeCap := by simp only [Config.nsym, Config.nodeCap] at *; omega
    refine ⟨control_busy ?_ ?_ ?_, ?_, ?_, fun _ => ?_⟩
    · rw [hbase]; exact hb
    · rw [hbase]; exact herr
    · rw [hbase]; simp [hp, microFits]
    · refine ⟨?_, h2.wf, ?_, ?_⟩
      · rw [hbase]; exact h.tables.freq_wf
      · rw [hbase]; exact h.tables.code_wf
      · rw [hbase]; exact h.tables.cursor
    · have hw := h.widths
      refine ⟨?_, hseq, ?_, ?_, ?_, ?_, ?_, ?_, ?_, ?_, ?_⟩
      · rw [hbase]; exact hw.len_le
      · rw [hbase]; exact hw.nnodes_le
      · rw [hbase]; exact hw.trail_le
      · rw [hbase]; exact hw.srcpos_lt
      · rw [hbase]; exact hw.snkpos_lt
      · rw [hbase]; exact hw.freq_le
      · intro i n hi
        have hl := h2.leaf i n hi
        have := (h2.dense i).mpr (by simp [hi])
        have := hw.len_le
        rw [lenMax_eq] at this
        exact ⟨by simp only [Config.nodeCap] at *; omega, by have := hl.2.2; omega⟩
      · simp only [h2.size, Config.pqCap]; exact h4
      · rw [hbase]; exact hw.code_le
      · rw [hbase]; exact hw.stk_le
    · have hphase : s'.phase = .build := by rw [hbase]; exact hp
      simp only [Ready, hphase, hlen, hfreq]
      refine ⟨hfull, hsum, by simp, fun _ => ⟨s'.seq, ?_, ?_⟩⟩
      · refine ⟨h3, h4, Nat.le_refl _, h2.dense, ?_, fun i n hi _ => (h2.leaf i n hi).2.1, ?_, ?_⟩
        · intro i n hi
          have := (h2.dense i).mpr (by simp [hi])
          simp [(h2.leaf i n hi).1, this]
        · intro i n hi
          rw [← hsum]
          exact (h2.leaf i n hi).2.2
        · intro i n hi hl
          simp [(h2.leaf i n hi).1] at hl
      · refine ⟨h2.sorted, ?_, by rw [h2.size]; omega, h2.entry, by rw [h2.total, hsum], h5⟩
        intro hnil
        have := h2.size
        simp [hnil] at this
        omega
  · simp only [Ready, hp, hm, forall_const] at hr
    obtain ⟨hfull, hsum, -, k, ha, hq⟩ := hr
    have hw := h.widths
    have hlen := hw.len_le
    rw [lenMax_eq] at hlen
    rcases mergeTurn_spec ha hq with ⟨a, hpq, ht⟩ | ⟨a, b, q, na, nb, hpq, hna, hnb, ht, ha', hq'⟩
    · simp only [ht, meets_go]
      refine ⟨control_busy hb herr (by simp [hp, Phase.next, microFits]), ?_, ?_, fun _ => ?_⟩
      · exact ⟨h.tables.freq_wf, h.tables.node_wf, h.tables.code_wf, h.tables.cursor⟩
      · exact { hw with pq_le := Nat.zero_le _ }
      · simp only [Ready, endPhase_phase, hp, Phase.next]
        have hsize := hq.size
        have heof := hq.eof
        simp only [hpq, List.length_singleton, List.mem_singleton, exists_eq_left] at hsize heof
        refine ⟨⟨k, ⟨ha.k_pos, ha.k_le, ha.k_le_seq, ha.dense, ha.kind, ha.sym_le, fun i n hi => ?_, ha.children⟩,
          hsize, heof⟩, by simp⟩
        have := ha.weight_le i n hi
        omega
    · simp only [ht, meets_go]
      have hk := ha'.k_le
      have hsz := hq'.size
      simp only [pqInsert_length] at hsz
      refine ⟨control_busy hb herr (by simp [hp, hm, microFits]), ?_, ?_, fun _ => ?_⟩
      · exact ⟨h.tables.freq_wf, table_wf_write _ _ h.tables.node_wf, h.tables.code_wf, h.tables.cursor⟩
      · refine ⟨hw.len_le, ?_, hw.nnodes_le, hw.trail_le, hw.srcpos_lt, hw.snkpos_lt, hw.freq_le, ?_, ?_, hw.code_le,
          hw.stk_le⟩
        · simp only [newNode_seq, Config.nsym, Config.nodeCap] at *; omega
        · intro i n hi
          simp only [newNode_node] at hi
          have hlt := (ha'.dense i).mpr (by rw [hi]; rfl)
          have := ha'.weight_le i n hi
          exact ⟨by simp only [Config.nsym, Config.nodeCap] at *; omega, by omega⟩
        · have := ha.k_le_seq
          simp only [newNode_pq, pqInsert_length, Config.nsym, Config.pqCap] at *
          omega
      · simp only [Ready, newNode_phase, hp]
        exact ⟨hfull, hsum, by simp [hm], fun _ => ⟨k, ha', hq'⟩⟩

end Sys2Proof.Machine
end

