-- ==== Sys2Proof/Laws/InvariantWalk.lean ====
section
/-!
SUPPORT. DERIVE, WRTREE and ENCODE keep the invariant: the stack of a walk over a built tree, and the code of the
end-of-file leaf, which is written before ENCODE needs it (`10_state.md` R30, `42_code_table_deriver.md` R111).
-/

namespace Sys2Proof.Machine

/-! ### The stack of a walk -/

/-- Rising numbers between two bounds are no more than the bounds leave room for. -/
theorem rising_length {l : List Nat} {a b : Nat} (hr : l.Pairwise (· < ·)) (hl : ∀ x ∈ l, a ≤ x ∧ x < b) :
    l.length ≤ b - a := by
  induction l generalizing a with
  | nil => simp
  | cons x l ih =>
    rw [List.pairwise_cons] at hr
    have hx := hl x List.mem_cons_self
    have := ih (a := x + 1) hr.2 fun y hy => ⟨hr.1 y hy, (hl y (List.mem_cons_of_mem _ hy)).2⟩
    simp only [List.length_cons]
    omega

/-- A walk over a tree of k leaves has at most k − 1 nodes on its stack (`42_code_table_deriver.md` R110). -/
theorem walkStack_length {k limit seq : Nat} {node : Table Node} {micro : Micro} {stk : List StkEntry}
    (ha : BuiltArena k limit seq node) (hs : seq + 1 = 2 * k) (hw : WalkStack seq node micro stk) :
    stk.length ≤ k - 1 := by
  have h1 : (stk.map StkEntry.handle).Pairwise (· < ·) := List.pairwise_map.mpr hw.rising
  have h2 : ∀ x ∈ stk.map StkEntry.handle, k ≤ x ∧ x < seq := by
    intro x hx
    obtain ⟨e, he, rfl⟩ := List.mem_map.mp hx
    obtain ⟨n, hn, hl⟩ := hw.internal e he
    have := ha.kind _ n hn
    refine ⟨?_, (ha.dense _).mpr (by simp [hn])⟩
    rw [hl] at this
    simp only [Bool.false_eq_true, false_iff] at this
    omega
  have := rising_length h1 h2
  rw [List.length_map] at this
  omega

variable {k limit seq : Nat} {node : Table Node} {stk : List StkEntry} {h : Handle}

theorem walkStack_back {micro micro' : Micro} (hw : WalkStack seq node micro stk) (hm : ∀ h, micro' ≠ .visit h) :
    WalkStack seq node micro' stk :=
  ⟨hw.internal, hw.rising, fun h hh => absurd hh (hm h)⟩

/-- The root of a built tree is a node. -/
theorem root_lt (ha : BuiltArena k limit seq node) {t : Tree} (ht : arenaHolds node t h = true) :
    ∃ i, h = some i ∧ i < seq := by
  obtain ⟨i, n, rfl, hn, -⟩ := arenaHolds_inv ht
  exact ⟨i, rfl, (ha.dense i).mpr (by simp [hn])⟩

/-- What a walk sees at the node it visits. -/
theorem walk_node (ha : BuiltArena k limit seq node) (hw : WalkStack seq node (.visit h) stk) :
    ∃ i n, h = some i ∧ i < seq ∧ Table.read node i = some n ∧ ∀ e ∈ stk, i < e.handle := by
  obtain ⟨i, rfl, hi, hb⟩ := hw.below h rfl
  obtain ⟨n, hn⟩ := Option.isSome_iff_exists.mp ((ha.dense i).mp hi)
  exact ⟨i, n, rfl, hi, hn, hb⟩

/-- Into the left subtree of an internal node. -/
theorem walkStack_push {micro : Micro} (ha : BuiltArena k limit seq node) {i : Nat} {n : Node}
    (hn : Table.read node i = some n) (hl : n.leaf = false) (hb : ∀ e ∈ stk, i < e.handle)
    (hw : WalkStack seq node micro stk) :
    WalkStack seq node (.visit n.left) (⟨i, false, none⟩ :: stk) := by
  obtain ⟨l, r, h1, h2, h3, h4⟩ := ha.children i n hn hl
  have hi : i < seq := (ha.dense i).mpr (by simp [hn])
  refine ⟨fun e he => ?_, List.pairwise_cons.mpr ⟨fun e he => hb e he, hw.rising⟩, fun h hh => ?_⟩
  · rcases List.mem_cons.mp he with rfl | he
    · exact ⟨n, hn, hl⟩
    · exact hw.internal e he
  · simp only [Micro.visit.injEq] at hh
    refine ⟨l, by rw [← hh, h1], by omega, fun e he => ?_⟩
    rcases List.mem_cons.mp he with rfl | he
    · exact h3
    · have := hb e he; omega

/-- Into the right subtree of the top node. -/
theorem walkStack_right {micro : Micro} (ha : BuiltArena k limit seq node) {e : StkEntry}
    (hw : WalkStack seq node micro (e :: stk)) :
    ∃ n, Table.read node e.handle = some n ∧
      WalkStack seq node (.visit n.right) ({ e with leftDone := true } :: stk) := by
  obtain ⟨n, hn, hl⟩ := hw.internal e List.mem_cons_self
  obtain ⟨l, r, h1, h2, h3, h4⟩ := ha.children _ n hn hl
  have hi : e.handle < seq := (ha.dense _).mpr (by simp [hn])
  have hr := List.pairwise_cons.mp hw.rising
  refine ⟨n, hn, fun e' he => ?_, List.pairwise_cons.mpr ⟨fun e' he => hr.1 e' he, hr.2⟩, fun h hh => ?_⟩
  · rcases List.mem_cons.mp he with rfl | he
    · exact ⟨n, hn, hl⟩
    · exact hw.internal e' (List.mem_cons_of_mem _ he)
  · simp only [Micro.visit.injEq] at hh
    refine ⟨r, by rw [← hh, h2], by omega, fun e' he => ?_⟩
    rcases List.mem_cons.mp he with rfl | he
    · exact h4
    · have := hr.1 e' he; omega

/-- Out of the top node. -/
theorem walkStack_pop {micro : Micro} {e : StkEntry} (hw : WalkStack seq node micro (e :: stk)) :
    WalkStack seq node .back stk :=
  ⟨fun e' he => hw.internal e' (List.mem_cons_of_mem _ he), (List.pairwise_cons.mp hw.rising).2,
    fun h hh => absurd hh (by simp)⟩

/-! ### DERIVE -/

/-- What DERIVE rests on between two of its turns. -/
theorem derive_ready {s : State} (h : Inv s) (hb : s.state = .busy) (hp : s.phase = .derive) :
    TreeBuilt s.seq s.node s.root ∧
      (s.micro ≠ .start → WalkStack s.seq s.node s.micro s.stk ∧ s.trail.length = s.stk.length ∧
        EofAhead s.code s.node s.micro s.stk) := by
  have hr := h.ready hb
  simpa only [Ready, hp] using hr

/-- A state DERIVE goes on to: code table, trail, stack and program point are new. -/
theorem derive_go {s : State} (h : Inv s) (hb : s.state = .busy) (hp : s.phase = .derive) {code : Table Bits}
    {trail : Bits} {stk : List StkEntry} {micro : Micro} (hwf : Table.wf code = true)
    (hcode : ∀ i c, Table.read code i = some c → i < Config.nsym ∧ c.length ≤ Config.codeMax)
    (hfit : microFits .derive micro = true) (_hne : micro ≠ .start)
    (hw : WalkStack s.seq s.node micro stk) (ht : trail.length = stk.length) (he : EofAhead code s.node micro stk) :
    Inv { s with code := code, trail := trail, stk := stk, micro := micro } := by
  obtain ⟨htree, -⟩ := derive_ready h hb hp
  obtain ⟨k, ha, hk, -⟩ := id htree
  have hlen := walkStack_length ha hk hw
  have hkle := ha.k_le
  simp only [Config.nsym] at hkle
  have herr := err_none h hb
  refine ⟨control_busy hb herr (by rw [hp]; exact hfit), ?_, ?_, fun _ => ?_⟩
  · exact ⟨h.tables.freq_wf, h.tables.node_wf, hwf, h.tables.cursor⟩
  · refine { h.widths with code_le := hcode, trail_le := ?_, stk_le := ?_ }
    · simp only [ht, Config.codeMax]; omega
    · simp only [Config.nodeCap]; omega
  · simp only [Ready, hp]
    exact ⟨htree, fun _ => ⟨hw, ht, he⟩⟩

theorem deriveVisit_inv {s : State} (h : Inv s) (hb : s.state = .busy) (hp : s.phase = .derive) {hd : Handle}
    (hm : s.micro = .visit hd) : (deriveVisit hd s).Meets Inv := by
  obtain ⟨htree, hrest⟩ := derive_ready h hb hp
  obtain ⟨hw, ht, he⟩ := hrest (by simp [hm])
  obtain ⟨k, ha, hk, -⟩ := id htree
  rw [hm] at hw he
  obtain ⟨i, n, rfl, hi, hn, hbelow⟩ := walk_node ha hw
  unfold deriveVisit
  rw [readNode_some hn]
  cases hl : n.leaf with
  | true =>
    have hsym := ha.sym_le i n hn hl
    simp only [if_true, writeCode, hsym, bind_go, meets_go]
    have hread : ∀ j, Table.read (Table.write s.code n.sym.toNat s.trail) j =
        if j = n.sym.toNat then some s.trail else Table.read s.code j := fun j => table_read_write _ _ _ _
    refine derive_go h hb hp (table_wf_write _ _ h.tables.code_wf) (fun j c hj => ?_) rfl (by simp)
      (walkStack_back hw (by simp)) ht ?_
    · rw [hread] at hj
      split at hj
      · simp only [Option.some.injEq] at hj
        subst hj
        rename_i hjs
        refine ⟨?_, h.widths.trail_le⟩
        rw [hjs]
        simp only [Config.pseudoEof, Config.nsym] at *
        omega
      · exact h.widths.code_le j c hj
    · rcases he with he | ⟨h', hh', t, htt, hmem⟩ | he
      · left
        rw [hread]
        split
        · rfl
        · exact he
      · left
        simp only [Micro.visit.injEq] at hh'
        subst hh'
        obtain ⟨i', n', hi', hn', hcase⟩ := arenaHolds_inv htt
        simp only [Option.some.injEq] at hi'
        subst hi'
        rw [hn] at hn'
        simp only [Option.some.injEq] at hn'
        subst hn'
        rcases hcase with ⟨sym, rfl, -, hs⟩ | ⟨l, r, rfl, hl', -, -⟩
        · simp only [treeSyms, List.mem_singleton] at hmem
          rw [hread, if_pos]
          · rfl
          · rw [hs, ← hmem]; rfl
        · rw [hl] at hl'; contradiction
      · exact .inr (.inr he)
  | false =>
    simp only [Bool.false_eq_true, if_false, meets_go]
    refine derive_go h hb hp h.tables.code_wf h.widths.code_le rfl (by simp)
      (walkStack_push ha hn hl hbelow hw) (by simp [ht]) ?_
    rcases he with he | ⟨h', hh', t, htt, hmem⟩ | ⟨e, hmem, hleft, he⟩
    · exact .inl he
    · right
      simp only [Micro.visit.injEq] at hh'
      subst hh'
      obtain ⟨i', n', hi', hn', hcase⟩ := arenaHolds_inv htt
      simp only [Option.some.injEq] at hi'
      subst hi'
      rw [hn] at hn'
      simp only [Option.some.injEq] at hn'
      subst hn'
      rcases hcase with ⟨sym, rfl, hl', -⟩ | ⟨l, r, rfl, -, h1, h2⟩
      · rw [hl] at hl'; contradiction
      · simp only [treeSyms, List.mem_append] at hmem
        rcases hmem with hmem | hmem
        · exact .inl ⟨_, rfl, l, h1, hmem⟩
        · exact .inr ⟨_, List.mem_cons_self, rfl, n, hn, r, h2, hmem⟩
    · exact .inr (.inr ⟨e, List.mem_cons_of_mem _ hmem, hleft, he⟩)

theorem deriveTurn_inv {s : State} (h : Inv s) (hb : s.state = .busy) (hp : s.phase = .derive) :
    (deriveTurn s).Meets Inv := by
  have hplace := h.control.busy_place hb
  obtain ⟨htree, hrest⟩ := derive_ready h hb hp
  obtain ⟨k, ha, hk, heof⟩ := id htree
  unfold deriveTurn
  cases hm : s.micro <;> simp only [hp, hm, microFits, Bool.false_eq_true] at hplace
  case start =>
    obtain ⟨i, hi, hlt⟩ := root_lt ha heof.hasTree.choose_spec
    simp only [meets_go]
    refine derive_go h hb hp rfl (by simp) rfl (by simp) ?_ rfl (.inr (.inl ⟨_, rfl, heof⟩))
    exact ⟨by simp, List.Pairwise.nil, fun h' hh => ⟨i, by simp only [Micro.visit.injEq] at hh; rw [← hh, hi],
      hlt, by simp⟩⟩
  case visit hd => exact deriveVisit_inv h hb hp hm
  case back =>
    obtain ⟨hw, ht, he⟩ := hrest (by simp [hm])
    rw [hm] at hw he
    simp only [walkBack]
    cases hs : s.stk with
    | nil =>
      simp only [meets_go]
      have herr := err_none h hb
      refine ⟨control_busy hb herr (by simp [hp, Phase.next, microFits]), ?_, ?_, fun _ => ?_⟩
      · exact ⟨h.tables.freq_wf, h.tables.node_wf, h.tables.code_wf, h.tables.cursor⟩
      · exact { h.widths with }
      · simp only [Ready, endPhase_phase, hp, Phase.next]
        refine ⟨htree, ?_⟩
        rcases he with he | ⟨h', hh', -⟩ | ⟨e, hmem, -⟩
        · exact he
        · simp at hh'
        · simp [hs] at hmem
    | cons e rest =>
      rw [hs] at hw ht he
      simp only
      split
      · rename_i hd
        simp only [meets_go]
        refine derive_go (stk := rest) (micro := .back) h hb hp h.tables.code_wf h.widths.code_le rfl (by simp)
          (walkStack_pop hw) (by simp [ht]) ?_
        rcases he with he | ⟨h', hh', -⟩ | ⟨e', hmem, hleft, he⟩
        · exact .inl he
        · simp at hh'
        · rcases List.mem_cons.mp hmem with rfl | hmem
          · rw [hd] at hleft; contradiction
          · exact .inr (.inr ⟨e', hmem, hleft, he⟩)
      · rename_i hd
        obtain ⟨n, hn, hw'⟩ := walkStack_right ha hw
        rw [readNode_some hn]
        simp only [meets_go]
        refine derive_go (stk := { e with leftDone := true } :: rest) (micro := .visit n.right) h hb hp
          h.tables.code_wf h.widths.code_le rfl (by simp) hw' (by simp [ht]) ?_
        rcases he with he | ⟨h', hh', -⟩ | ⟨e', hmem, hleft, n', hn', he⟩
        · exact .inl he
        · simp at hh'
        · rcases List.mem_cons.mp hmem with rfl | hmem
          · rw [hn] at hn'
            simp only [Option.some.injEq] at hn'
            subst hn'
            exact .inr (.inl ⟨_, rfl, he⟩)
          · exact .inr (.inr ⟨e', List.mem_cons_of_mem _ hmem, hleft, n', hn', he⟩)

/-! ### WRTREE -/

theorem wrtree_ready {s : State} (h : Inv s) (hb : s.state = .busy) (hp : s.phase = .wrtree) :
    TreeBuilt s.seq s.node s.root ∧ (Table.read s.code Config.pseudoEof).isSome = true ∧
      (s.micro ≠ .start → WalkStack s.seq s.node s.micro s.stk) := by
  have hr := h.ready hb
  simpa only [Ready, hp, codeAt] using hr

/-- A state WRTREE goes on to: stack and program point are new. -/
theorem wrtree_go {s : State} (h : Inv s) (hb : s.state = .busy) (hp : s.phase = .wrtree) {stk : List StkEntry}
    {micro : Micro} (hfit : microFits .wrtree micro = true) (_hne : micro ≠ .start)
    (hw : WalkStack s.seq s.node micro stk) : Inv { s with stk := stk, micro := micro } := by
  obtain ⟨htree, hcode, -⟩ := wrtree_ready h hb hp
  obtain ⟨k, ha, hk, -⟩ := id htree
  have hlen := walkStack_length ha hk hw
  have hkle := ha.k_le
  simp only [Config.nsym] at hkle
  have herr := err_none h hb
  refine ⟨control_busy hb herr (by rw [hp]; exact hfit), ?_, ?_, fun _ => ?_⟩
  · exact ⟨h.tables.freq_wf, h.tables.node_wf, h.tables.code_wf, h.tables.cursor⟩
  · exact { h.widths with stk_le := by simp only [Config.nodeCap]; omega }
  · simp only [Ready, hp]
    exact ⟨htree, hcode, fun _ => hw⟩

theorem wrtreeTurn_inv {s : State} (h : Inv s) (hb : s.state = .busy) (hp : s.phase = .wrtree) :
    (wrtreeTurn s).Meets Inv := by
  have hplace := h.control.busy_place hb
  obtain ⟨htree, hcode, hrest⟩ := wrtree_ready h hb hp
  obtain ⟨k, ha, hk, heof⟩ := id htree
  unfold wrtreeTurn
  cases hm : s.micro <;> simp only [hp, hm, microFits, Bool.false_eq_true] at hplace
  case start =>
    obtain ⟨i, hi, hlt⟩ := root_lt ha heof.hasTree.choose_spec
    simp only [meets_go]
    refine wrtree_go h hb hp rfl (by simp) ?_
    exact ⟨by simp, List.Pairwise.nil, fun h' hh => ⟨i, by simp only [Micro.visit.injEq] at hh; rw [← hh, hi],
      hlt, by simp⟩⟩
  case visit hd =>
    have hw := hrest (by simp [hm])
    rw [hm] at hw
    obtain ⟨i, n, rfl, hi, hn, hbelow⟩ := walk_node ha hw
    simp only [wrtreeVisit]
    rw [readNode_some hn]
    cases hl : n.leaf with
    | true =>
      simp only [if_true, putLeafTag]
      refine wr_inv h hb fun s' h' he => ?_
      have hp' : s'.phase = .wrtree := by rw [he]; exact hp
      have hb' : s'.state = .busy := by rw [he]; exact hb
      exact wrtree_go (stk := s'.stk) (micro := .symField n.sym) h' hb' hp' rfl (by simp)
        (by rw [he]; exact walkStack_back hw (by simp))
    | false =>
      simp only [Bool.false_eq_true, if_false, putInternal]
      refine wr_inv h hb fun s' h' he => ?_
      have hp' : s'.phase = .wrtree := by rw [he]; exact hp
      have hb' : s'.state = .busy := by rw [he]; exact hb
      exact wrtree_go (stk := ⟨i, false, none⟩ :: s'.stk) (micro := .visit n.left) h' hb' hp' rfl (by simp)
        (by rw [he]; exact walkStack_push ha hn hl hbelow hw)
  case symField sym =>
    have hw := hrest (by simp [hm])
    rw [hm] at hw
    simp only [putLeafSym]
    refine wr_inv h hb fun s' h' he => ?_
    have hp' : s'.phase = .wrtree := by rw [he]; exact hp
    have hb' : s'.state = .busy := by rw [he]; exact hb
    exact wrtree_go (stk := s'.stk) (micro := .back) h' hb' hp' rfl (by simp)
      (by rw [he]; exact walkStack_back hw (by simp))
  case back =>
    have hw := hrest (by simp [hm])
    rw [hm] at hw
    simp only [walkBack]
    cases hs : s.stk with
    | nil =>
      simp only [meets_go]
      have herr := err_none h hb
      refine ⟨control_busy hb herr (by simp [hp, Phase.next, microFits]), ?_, ?_, fun _ => ?_⟩
      · exact ⟨h.tables.freq_wf, h.tables.node_wf, h.tables.code_wf, h.tables.cursor⟩
      · exact { h.widths with }
      · simp only [Ready, endPhase_phase, hp, Phase.next]
        exact hcode
    | cons e rest =>
      rw [hs] at hw
      simp only
      split
      · simp only [meets_go]
        exact wrtree_go (stk := rest) (micro := .back) h hb hp rfl (by simp) (walkStack_pop hw)
      · obtain ⟨n, hn, hw'⟩ := walkStack_right ha hw
        rw [readNode_some hn]
        simp only [meets_go]
        exact wrtree_go (stk := { e with leftDone := true } :: rest) (micro := .visit n.right) h hb hp rfl (by simp) hw'

/-! ### ENCODE -/

/-- A state ENCODE goes on to: only the program point is new. -/
theorem encode_go {s : State} (h : Inv s) (hb : s.state = .busy) (hp : s.phase = .encode) {micro : Micro}
    (hfit : microFits .encode micro = true) : Inv { s with micro := micro } := by
  have hr := h.ready hb
  simp only [Ready, hp] at hr
  have herr := err_none h hb
  refine ⟨control_busy hb herr (by rw [hp]; exact hfit), ?_, ?_, fun _ => ?_⟩
  · exact ⟨h.tables.freq_wf, h.tables.node_wf, h.tables.code_wf, h.tables.cursor⟩
  · exact { h.widths with }
  · simp only [Ready, hp]; exact hr

theorem encodeTurn_inv {s : State} (h : Inv s) (hb : s.state = .busy) (hp : s.phase = .encode) :
    (encodeTurn s).Meets Inv := by
  have hplace := h.control.busy_place hb
  unfold encodeTurn
  cases hm : s.micro <;> simp only [hp, hm, microFits, Bool.false_eq_true] at hplace
  case start =>
    refine rewind_meets (inv_fault h hb _) h ?_
    have h' : Inv { s with src := srcRewound s, srcpos := 0 } :=
      inv_env h (rst_of_busy h hb) (Nat.zero_le _) (by decide) h.widths.snkpos_lt
    simp only [meets_go]
    exact encode_go (micro := .loop) h' hb hp rfl
  case loop =>
    refine rd_inv h hb (fun s' h' he => ?_) (fun v _ s' h' he => ?_)
    · have hp' : s'.phase = .encode := by rw [he]; exact hp
      have hb' : s'.state = .busy := by rw [he]; exact hb
      have hr := h'.ready hb'
      simp only [Ready, hp'] at hr
      obtain ⟨c, hc⟩ := Option.isSome_iff_exists.mp hr
      simp only [encodeEof, hc, meets_go]
      exact encode_go h' hb' hp' rfl
    · have hp' : s'.phase = .encode := by rw [he]; exact hp
      have hb' : s'.state = .busy := by rw [he]; exact hb
      unfold encodeByte
      split
      · exact inv_fault h' (by rw [he]; exact hb) _
      · simp only [meets_go]
        exact encode_go h' hb' hp' rfl
  case emit c last =>
    match c, last with
    | [], true =>
      simp only [meets_go]
      have herr := err_none h hb
      refine ⟨control_busy hb herr (by simp [hp, Phase.next, microFits]), ?_, ?_, fun _ => ?_⟩
      · exact ⟨h.tables.freq_wf, h.tables.node_wf, h.tables.code_wf, h.tables.cursor⟩
      · exact { h.widths with }
      · simp only [Ready, endPhase_phase, hp, Phase.next]
    | [], false =>
      simp only [meets_go]
      exact encode_go (micro := .loop) h hb hp rfl
    | b :: c, last =>
      refine wr_inv h hb fun s' h' he => ?_
      have hp' : s'.phase = .encode := by rw [he]; exact hp
      have hb' : s'.state = .busy := by rw [he]; exact hb
      simp only [meets_go]
      exact encode_go h' hb' hp' rfl

end Sys2Proof.Machine
end

