-- ==== Sys2Proof/Laws/InvariantRead.lean ====
section
/-!
SUPPORT. RDTREE, DECODE and the phases of the sequencer keep the invariant, and so does every event of the outside
world.
-/

namespace Sys2Proof.Machine

/-! ### RDTREE: the stack of `des()` -/

/-- Falling numbers below a bound are no more than the bound. -/
theorem falling_length {l : List Nat} {b : Nat} (hr : l.Pairwise fun x y => y < x) (hl : ∀ x ∈ l, x < b) :
    l.length ≤ b := by
  induction l generalizing b with
  | nil => simp
  | cons x l ih =>
    rw [List.pairwise_cons] at hr
    have hx := hl x List.mem_cons_self
    have := ih (b := x) hr.2 hr.1
    simp only [List.length_cons]
    omega

theorem readStack_length {nnodes : Nat} {node : Table Node} {micro : Micro} {stk : List StkEntry}
    (hs : ReadStack nnodes node micro stk) : stk.length ≤ nnodes := by
  have h1 : (stk.map StkEntry.handle).Pairwise fun x y => y < x := List.pairwise_map.mpr hs.falling
  have := falling_length (b := nnodes) h1 fun x hx => by
    obtain ⟨e, he, rfl⟩ := List.mem_map.mp hx
    exact (hs.fresh e he).1
  rwa [List.length_map] at this

/-- What the outermost return of `des()` leaves, and what a return into an open node leaves. -/
theorem desReturn_spec {nnodes : Nat} {stk : List StkEntry} {nodes : Table Node} {x : Nat}
    (hfresh : ∀ e ∈ stk, e.handle < nnodes ∧ Table.read nodes e.handle = none)
    (hfall : stk.Pairwise fun a b => b.handle < a.handle)
    (hleft : ∀ e ∈ stk, e.leftDone = true → HasTree nodes e.left)
    (halloc : ∀ i n, Table.read nodes i = some n → i < nnodes)
    (hx : HasTree nodes (some x)) (hwf : Table.wf nodes = true)
    (hw : ∀ i n, Table.read nodes i = some n → n.weight < 2 ^ 32) :
    ∃ x' r nodes', desReturn x stk nodes = (x', r, nodes') ∧ Table.wf nodes' = true ∧
      (∀ i n, Table.read nodes' i = some n → i < nnodes ∧ n.weight < 2 ^ 32) ∧
      match r with
      | none => HasTree nodes' (some x')
      | some stk' => stk'.length ≤ stk.length ∧ ReadStack nnodes nodes' .loop stk' := by
  induction stk generalizing nodes x with
  | nil => exact ⟨x, none, nodes, rfl, hwf, fun i n hi => ⟨halloc i n hi, hw i n hi⟩, hx⟩
  | cons e rest ih =>
    have hfall' := List.pairwise_cons.mp hfall
    have hfr := hfresh e List.mem_cons_self
    simp only [desReturn]
    cases hd : e.leftDone with
    | true =>
      simp only [if_true]
      have hkeep := read_write_fresh (m := mkInternal 0 e.left (some x)) hfr.2
      have hread : ∀ j, Table.read (Table.write nodes e.handle (mkInternal 0 e.left (some x))) j =
        if j = e.handle then some (mkInternal 0 e.left (some x)) else Table.read nodes j :=
        fun j => table_read_write _ _ _ _
      obtain ⟨x', r, nodes', h1, h2, h3, h4⟩ := ih (x := e.handle)
        (nodes := Table.write nodes e.handle (mkInternal 0 e.left (some x)))
        (fun e' he' => by
          have := hfresh e' (List.mem_cons_of_mem _ he')
          have hlt := hfall'.1 e' he'
          rw [hread, if_neg (by omega)]
          exact this)
        hfall'.2
        (fun e' he' hl => hasTree_mono hkeep (hleft e' (List.mem_cons_of_mem _ he') hl))
        (fun i n hi => by
          rw [hread] at hi
          split at hi
          · rename_i h; rw [h]; exact hfr.1
          · exact halloc i n hi)
        (by
          obtain ⟨tl, htl⟩ := hasTree_mono hkeep (hleft e List.mem_cons_self hd)
          obtain ⟨tr, htr⟩ := hasTree_mono hkeep hx
          exact ⟨.node tl tr, arenaHolds_node (table_read_write_same _ _ _) rfl htl htr⟩)
        (table_wf_write _ _ hwf)
        (fun i n hi => by
          rw [hread] at hi
          split at hi
          · simp only [Option.some.injEq] at hi; subst hi; simp [mkInternal]
          · exact hw i n hi)
      refine ⟨x', r, nodes', h1, h2, h3, ?_⟩
      cases r with
      | none => exact h4
      | some stk' => exact ⟨Nat.le_succ_of_le h4.1, h4.2⟩
    | false =>
      refine ⟨x, some ({ e with leftDone := true, left := some x } :: rest), nodes, by simp, hwf,
        fun i n hi => ⟨halloc i n hi, hw i n hi⟩, by simp, ?_⟩
      refine ⟨fun e' he' => ?_, List.pairwise_cons.mpr ⟨fun e' he' => hfall'.1 e' he', hfall'.2⟩,
        fun e' he' hl => ?_, halloc, fun h hh => absurd hh (by simp)⟩
      · rcases List.mem_cons.mp he' with rfl | he'
        · exact hfr
        · exact hfresh e' (List.mem_cons_of_mem _ he')
      · rcases List.mem_cons.mp he' with rfl | he'
        · exact hx
        · exact hleft e' (List.mem_cons_of_mem _ he') hl

/-- A state RDTREE goes on to. -/
theorem rdtree_go {s : State} (h : Inv s) (hb : s.state = .busy) (hp : s.phase = .rdtree) {nnodes : Nat}
    {node : Table Node} {stk : List StkEntry} {micro : Micro} (hfit : microFits .rdtree micro = true)
    (hwf : Table.wf node = true) (hn : ∀ i n, Table.read node i = some n → n.weight < 2 ^ 32)
    (hcap : nnodes ≤ Config.nodeCap) (hne : micro ≠ .start) (hs : ReadStack nnodes node micro stk) :
    Inv { s with nnodes := nnodes, node := node, stk := stk, micro := micro } := by
  have herr := err_none h hb
  have hlen := readStack_length hs
  refine ⟨control_busy hb herr (by rw [hp]; exact hfit), ?_, ?_, fun _ => ?_⟩
  · exact ⟨h.tables.freq_wf, hwf, h.tables.code_wf, h.tables.cursor⟩
  · exact { h.widths with
      nnodes_le := hcap
      node_le := fun i n hi => ⟨lt_of_lt_of_le (hs.allocated i n hi) hcap, hn i n hi⟩
      stk_le := le_trans hlen hcap }
  · simp only [Ready, hp]
    exact ⟨fun hm => absurd hm hne, fun _ => hs⟩

theorem rdtree_ready {s : State} (h : Inv s) (hb : s.state = .busy) (hp : s.phase = .rdtree)
    (hm : s.micro ≠ .start) : ReadStack s.nnodes s.node s.micro s.stk := by
  have hr := h.ready hb
  simp only [Ready, hp] at hr
  exact hr.2 hm

theorem desTag_inv {s : State} (h : Inv s) (hb : s.state = .busy) (hp : s.phase = .rdtree) (hm : s.micro = .loop)
    (t : Nat) : (desTag t s).Meets Inv := by
  have hs := rdtree_ready h hb hp (by simp [hm])
  have hnw : ∀ i n, Table.read s.node i = some n → n.weight < 2 ^ 32 := fun i n hi => (h.widths.node_le i n hi).2
  have hfree : Table.read s.node s.nnodes = none := by
    cases hr : Table.read s.node s.nnodes with
    | none => rfl
    | some n => exact absurd (hs.allocated _ n hr) (by omega)
  unfold desTag
  split
  · exact inv_fault h hb _
  · rename_i hcap
    have hcap' : s.nnodes + 1 ≤ Config.nodeCap := by have := h.widths.nnodes_le; omega
    dsimp only
    split
    · simp only [meets_go]
      refine rdtree_go h hb hp rfl h.tables.node_wf hnw hcap' (by simp)
        ⟨fun e he => ⟨by have := (hs.fresh e he).1; omega, (hs.fresh e he).2⟩, hs.falling, hs.lefts,
          fun i n hi => by have := hs.allocated i n hi; omega, fun x hx => ?_⟩
      obtain rfl : s.nnodes = x := by simpa using hx
      exact ⟨by omega, hfree, fun e he => (hs.fresh e he).1⟩
    · simp only [meets_go, pushLeft]
      refine rdtree_go h hb hp rfl h.tables.node_wf hnw hcap' (by simp)
        ⟨fun e he => ?_, List.pairwise_cons.mpr ⟨fun e he => (hs.fresh e he).1, hs.falling⟩, fun e he hl => ?_,
          fun i n hi => by have := hs.allocated i n hi; omega, fun x hx => absurd hx (by simp)⟩
      · rcases List.mem_cons.mp he with rfl | he
        · exact ⟨Nat.lt_succ_self _, hfree⟩
        · exact ⟨by have := (hs.fresh e he).1; omega, (hs.fresh e he).2⟩
      · rcases List.mem_cons.mp he with rfl | he
        · simp at hl
        · exact hs.lefts e he hl

theorem desLeaf_inv {s : State} (h : Inv s) (hb : s.state = .busy) (hp : s.phase = .rdtree) {x : Nat}
    (hm : s.micro = .leafField x) (v : Nat) : (desLeaf x v s).Meets Inv := by
  have hs := rdtree_ready h hb hp (by simp [hm])
  have herr := err_none h hb
  obtain ⟨hx, hfree, hbelow⟩ := hs.pending x hm
  have hread : ∀ j, Table.read (Table.write s.node x (mkLeaf (BitVec.ofNat 9 v) 0)) j =
    if j = x then some (mkLeaf (BitVec.ofNat 9 v) 0) else Table.read s.node j := fun j => table_read_write _ _ _ _
  have hkeep := read_write_fresh (m := mkLeaf (BitVec.ofNat 9 v) 0) hfree
  obtain ⟨x', r, nodes', h1, h2, h3, h4⟩ := desReturn_spec (nnodes := s.nnodes) (stk := s.stk) (x := x)
    (nodes := Table.write s.node x (mkLeaf (BitVec.ofNat 9 v) 0))
    (fun e he => by
      have := hbelow e he
      rw [hread, if_neg (by omega)]
      exact hs.fresh e he)
    hs.falling (fun e he hl => hasTree_mono hkeep (hs.lefts e he hl))
    (fun i n hi => by
      rw [hread] at hi
      split at hi
      · rename_i h; rw [h]; exact hx
      · exact hs.allocated i n hi)
    ⟨.leaf (BitVec.ofNat 9 v), by simp [arenaHolds, mkLeaf]⟩
    (table_wf_write _ _ h.tables.node_wf)
    (fun i n hi => by
      rw [hread] at hi
      split at hi
      · simp only [Option.some.injEq] at hi; subst hi; simp [mkLeaf]
      · exact (h.widths.node_le i n hi).2)
  simp only [desLeaf, desDone, writeNode, h1, meets_go]
  cases r with
  | none =>
    refine ⟨control_busy hb herr (by simp [hp, Phase.next, microFits]), ?_, ?_, fun _ => ?_⟩
    · exact ⟨h.tables.freq_wf, h2, h.tables.code_wf, h.tables.cursor⟩
    · exact { h.widths with
        node_le := fun i n hi => ⟨lt_of_lt_of_le (h3 i n hi).1 h.widths.nnodes_le, (h3 i n hi).2⟩
        stk_le := Nat.zero_le _ }
    · simp only [Ready, endPhase_phase, hp, Phase.next]
      exact ⟨h4, by simp⟩
  | some stk' =>
    exact rdtree_go h hb hp rfl h2 (fun i n hi => (h3 i n hi).2) h.widths.nnodes_le (by simp) h4.2

theorem rdtreeTurn_inv {s : State} (h : Inv s) (hb : s.state = .busy) (hp : s.phase = .rdtree) :
    (rdtreeTurn s).Meets Inv := by
  have hplace := h.control.busy_place hb
  unfold rdtreeTurn
  cases hm : s.micro <;> simp only [hp, hm, microFits, Bool.false_eq_true] at hplace
  · have hr := h.ready hb
    simp only [Ready, hp] at hr
    have hnode := hr.1 hm
    simp only [meets_go]
    refine rdtree_go h hb hp rfl h.tables.node_wf (fun i n hi => (h.widths.node_le i n hi).2) (Nat.zero_le _)
      (by simp) ⟨by simp, by simp, by simp, fun i n hi => ?_, by simp⟩
    rw [hnode] at hi
    simp [Table.read] at hi
  · refine rd_inv h hb (fun s' h' he => inv_fault h' (by rw [he]; exact hb) _) (fun v _ s' h' he => ?_)
    exact desTag_inv h' (by rw [he]; exact hb) (by rw [he]; exact hp) (by rw [he]; exact hm) v
  · refine rd_inv h hb (fun s' h' he => inv_fault h' (by rw [he]; exact hb) _) (fun v _ s' h' he => ?_)
    exact desLeaf_inv h' (by rw [he]; exact hb) (by rw [he]; exact hp) (by rw [he]; exact hm) v

/-! ### DECODE -/

theorem decode_ready {s : State} (h : Inv s) (hb : s.state = .busy) (hp : s.phase = .decode) :
    HasTree s.node s.root ∧ (s.micro = .loop →
      (s.dstate = .atInternal → ∃ l r, arenaHolds s.node (.node l r) s.cur = true) ∧
      (s.dstate = .atLeaf → ∃ sym, arenaHolds s.node (.leaf sym) s.cur = true)) := by
  have hr := h.ready hb
  simpa only [Ready, hp] using hr

/-- A state DECODE goes on to. -/
theorem decode_go {s : State} (h : Inv s) (hb : s.state = .busy) (hp : s.phase = .decode) {cur : Handle} {d : DState}
    {micro : Micro} (hfit : microFits .decode micro = true)
    (hi : micro = .loop → d = .atInternal → ∃ l r, arenaHolds s.node (.node l r) cur = true)
    (hl : micro = .loop → d = .atLeaf → ∃ sym, arenaHolds s.node (.leaf sym) cur = true) :
    Inv { s with cur := cur, dstate := d, micro := micro } := by
  have herr := err_none h hb
  refine ⟨control_busy hb herr (by rw [hp]; exact hfit), ?_, ?_, fun _ => ?_⟩
  · exact ⟨h.tables.freq_wf, h.tables.node_wf, h.tables.code_wf, h.tables.cursor⟩
  · exact { h.widths with }
  · simp only [Ready, hp]
    exact ⟨(decode_ready h hb hp).1, fun hm => ⟨hi hm, hl hm⟩⟩

theorem arrive_inv {s : State} (h : Inv s) (hb : s.state = .busy) (hp : s.phase = .decode) (hm : s.micro = .loop)
    {x : Handle} (hx : HasTree s.node x) : (arrive x s).Meets Inv := by
  obtain ⟨t, ht⟩ := hx
  obtain ⟨i, n, rfl, hn, hc⟩ := arenaHolds_inv ht
  simp only [arrive, readNode, hn, meets_go]
  refine decode_go h hb hp (by rw [hm]; rfl) (fun _ hd => ?_) (fun _ hd => ?_)
  · rcases hc with ⟨_, -, hl, -⟩ | ⟨l, r, rfl, -⟩
    · simp [hl] at hd
    · exact ⟨l, r, ht⟩
  · rcases hc with ⟨sym, rfl, -⟩ | ⟨_, _, -, hl, -⟩
    · exact ⟨sym, ht⟩
    · simp [hl] at hd

theorem decodeBit_inv {s : State} (h : Inv s) (hb : s.state = .busy) (hp : s.phase = .decode) (hm : s.micro = .loop)
    (hd : s.dstate = .atInternal) (t : Nat) : (decodeBit t s).Meets Inv := by
  obtain ⟨l, r, hlr⟩ := ((decode_ready h hb hp).2 hm).1 hd
  obtain ⟨i, n, hi, hn, -, h1, h2⟩ := arenaHolds_inv_node hlr
  simp only [decodeBit, hi, readNode, hn]
  split
  · exact inv_fault h hb _
  · rename_i x hx
    split at hx
    · exact arrive_inv h hb hp hm ⟨l, by rw [← hx]; exact h1⟩
    · exact arrive_inv h hb hp hm ⟨r, by rw [← hx]; exact h2⟩

theorem decodeLeaf_inv {s : State} (h : Inv s) (hb : s.state = .busy) (hp : s.phase = .decode) (hm : s.micro = .loop)
    (hd : s.dstate = .atLeaf) : (decodeLeaf s).Meets Inv := by
  obtain ⟨sym, hs⟩ := ((decode_ready h hb hp).2 hm).2 hd
  obtain ⟨i, n, hi, hn, -⟩ := arenaHolds_inv_leaf hs
  simp only [decodeLeaf, hi, readNode, hn]
  split
  · exact decode_go h hb hp (by rw [hm]; rfl) (by simp) (by simp)
  · split
    · exact inv_fault h hb _
    · split
      · exact inv_fault h hb _
      · refine wr_inv h hb fun s' h' he => ?_
        simp only [meets_go]
        have hb' : s'.state = .busy := by rw [he]; exact hb
        have hp' : s'.phase = .decode := by rw [he]; exact hp
        have hm' : s'.micro = .loop := by rw [he]; exact hm
        exact decode_go h' hb' hp' (by rw [hm']; rfl) (by simp) (by simp)

theorem decodeTurn_inv {s : State} (h : Inv s) (hb : s.state = .busy) (hp : s.phase = .decode) :
    (decodeTurn s).Meets Inv := by
  have hplace := h.control.busy_place hb
  have herr := err_none h hb
  unfold decodeTurn
  cases hm : s.micro <;> simp only [hp, hm, microFits, Bool.false_eq_true] at hplace
  · simp only [meets_go]
    exact decode_go h hb hp rfl (by simp) (by simp)
  · dsimp only
    cases hd : s.dstate
    · exact arrive_inv h hb hp hm (decode_ready h hb hp).1
    · refine rd_inv h hb (fun s' h' he => inv_fault h' (by rw [he]; exact hb) _) (fun v _ s' h' he => ?_)
      exact decodeBit_inv h' (by rw [he]; exact hb) (by rw [he]; exact hp) (by rw [he]; exact hm)
        (by rw [he]; exact hd) v
    · exact decodeLeaf_inv h hb hp hm hd
    · simp only [meets_go]
      refine ⟨control_busy hb herr (by simp [hp, Phase.next, microFits]), ?_, ?_, fun _ => ?_⟩
      · exact ⟨h.tables.freq_wf, h.tables.node_wf, h.tables.code_wf, h.tables.cursor⟩
      · exact { h.widths with }
      · simp only [Ready, endPhase_phase, hp, Phase.next]

/-! ### WRMAGIC, RDMAGIC, FLUSH -/

theorem wrmagicTurn_inv {s : State} (h : Inv s) (hb : s.state = .busy) (hp : s.phase = .wrmagic) :
    (wrmagicTurn s).Meets Inv := by
  have hplace := h.control.busy_place hb
  unfold wrmagicTurn
  cases hm : s.micro <;> simp only [hp, hm, microFits, Bool.false_eq_true] at hplace
  refine wr_inv h hb fun s' h' he => ?_
  have hb' : s'.state = .busy := by rw [he]; exact hb
  have hp' : s'.phase = .wrmagic := by rw [he]; exact hp
  have herr := err_none h' hb'
  have hr := h'.ready hb'
  simp only [Ready, hp'] at hr
  simp only [meets_go]
  refine ⟨control_busy hb' herr (by simp [hp', Phase.next, microFits]), ?_, ?_, fun _ => ?_⟩
  · exact ⟨h'.tables.freq_wf, h'.tables.node_wf, h'.tables.code_wf, h'.tables.cursor⟩
  · exact { h'.widths with }
  · simp only [Ready, endPhase_phase, hp', Phase.next]
    exact ⟨hr.1, hr.2, by simp⟩

theorem rdmagicTurn_inv {s : State} (h : Inv s) (hb : s.state = .busy) (hp : s.phase = .rdmagic) :
    (rdmagicTurn s).Meets Inv := by
  have hplace := h.control.busy_place hb
  unfold rdmagicTurn
  cases hm : s.micro <;> simp only [hp, hm, microFits, Bool.false_eq_true] at hplace
  refine rd_inv h hb (fun s' h' he => inv_fault h' (by rw [he]; exact hb) _) (fun v _ s' h' he => ?_)
  have hb' : s'.state = .busy := by rw [he]; exact hb
  have hp' : s'.phase = .rdmagic := by rw [he]; exact hp
  have herr := err_none h' hb'
  have hr := h'.ready hb'
  simp only [Ready, hp'] at hr
  unfold checkMagic
  split
  · simp only [meets_go]
    refine ⟨control_busy hb' herr (by simp [hp', Phase.next, microFits]), ?_, ?_, fun _ => ?_⟩
    · exact ⟨h'.tables.freq_wf, h'.tables.node_wf, h'.tables.code_wf, h'.tables.cursor⟩
    · exact { h'.widths with }
    · simp only [Ready, endPhase_phase, hp', Phase.next]
      exact ⟨fun _ => hr, by simp⟩
  · exact inv_fault h' (by rw [he]; exact hb) _

theorem flushTurn_inv {s : State} (h : Inv s) (hb : s.state = .busy) (hp : s.phase = .flush) :
    (flushTurn s).Meets Inv := by
  have hplace := h.control.busy_place hb
  have herr := err_none h hb
  unfold flushTurn
  cases hm : s.micro <;> simp only [hp, hm, microFits, Bool.false_eq_true] at hplace
  refine close_meets (inv_fault h hb _) h ?_
  simp only [meets_go]
  refine ⟨⟨by simp [herr], by simp, by simp, by simp, by simp [herr]⟩, ?_, ?_, by simp⟩
  · exact ⟨h.tables.freq_wf, h.tables.node_wf, h.tables.code_wf, h.tables.cursor⟩
  · exact { h.widths with }

/-! ### The start of a run and the events of the outside world -/

/-- Per-run initialisation gives a consistent machine at the first line of the first phase, whatever stood before. -/
theorem startRun_inv {s : State} (h : Inv s) (hr : s.rst = false) {p : Phase} (hp : p = .count ∨ p = .rdmagic) :
    Inv (enterPhase p (perRunInit s)) := by
  refine ⟨⟨by simp, by simp, by simp, fun _ => ?_, by simp [hr]⟩, ?_, ?_, fun _ => ?_⟩
  · rcases hp with rfl | rfl <;> rfl
  · exact ⟨rfl, rfl, rfl, h.tables.cursor⟩
  · exact {
      len_le := Nat.zero_le _, seq_le := Nat.zero_le _, nnodes_le := Nat.zero_le _, trail_le := Nat.zero_le _
      srcpos_lt := by simp [Config.posLimit], snkpos_lt := by simp [Config.posLimit]
      freq_le := by simp, node_le := by simp, pq_le := Nat.zero_le _
      code_le := by simp, stk_le := Nat.zero_le _ }
  · rcases hp with rfl | rfl <;> simp [Ready]

/-- A reserved command leaves a consistent machine in FAULTED. -/
theorem reserved_inv {s : State} (h : Inv s) (hr : s.rst = false) : Inv (faultEntry .illegalCommand (perRunInit s)) := by
  refine ⟨⟨by simp, by simp, by simp, by simp, by simp [hr]⟩, ⟨rfl, rfl, rfl, h.tables.cursor⟩, ?_, by simp⟩
  exact {
    len_le := Nat.zero_le _, seq_le := Nat.zero_le _, nnodes_le := Nat.zero_le _, trail_le := Nat.zero_le _
    srcpos_lt := by simp [Config.posLimit], snkpos_lt := by simp [Config.posLimit]
    freq_le := by simp, node_le := by simp, pq_le := Nat.zero_le _
    code_le := by simp, stk_le := Nat.zero_le _ }

/-- A block that is as after reset is consistent, whatever level the reset input has. -/
theorem resetBlock_inv {s : State} (h : Inv s) (a : Bool) : Inv { resetBlock s with rst := a } := by
  refine ⟨⟨by simp, by simp, by simp, by simp, fun _ => rfl⟩, ⟨rfl, rfl, rfl, h.tables.cursor⟩, ?_, by simp⟩
  exact {
    len_le := Nat.zero_le _, seq_le := Nat.zero_le _, nnodes_le := Nat.zero_le _, trail_le := Nat.zero_le _
    srcpos_lt := by simp [Config.posLimit], snkpos_lt := by simp [Config.posLimit]
    freq_le := by simp, node_le := by simp, pq_le := Nat.zero_le _
    code_le := by simp, stk_le := Nat.zero_le _ }

/-- The reset input keeps the machine consistent. -/
theorem driveReset_inv {s : State} (h : Inv s) (a : Bool) : Inv (driveReset a s) := by
  unfold driveReset
  split
  · exact resetBlock_inv h a
  · exact h

/-- A write of a register other than CMD keeps the machine consistent. -/
theorem writeReg_inv {s : State} (h : Inv s) (n : Nat) (v : Word) : Inv (writeReg n v s) := by
  unfold writeReg
  split
  · split
    · exact h
    · exact inv_env h (by simpa using ‹¬ s.rst = true›) h.tables.cursor h.widths.srcpos_lt h.widths.snkpos_lt
  · exact h

end Sys2Proof.Machine
end

