-- ==== Sys2Proof/Laws/PerInstr.lean ====
section
/-!
SUPPORT. The family `EncodeWidth`: the width of every instruction's encoding, by the place it stands in.
-/

/-- The encoding of a well-formed instruction has the width of its format: 32 bits for a command and the magic field
(`30_encoding.md` R61, R69), 4 for a phase (R71), 1 or 10 for a tree token (R62, R63), at most 256 for a code word
(R67). -/
def Sys2Proof.Laws.EncodeWidth.Statement (i : Sys2Proof.Instr) : Prop :=
  i.wf = true → ∀ t : Sys2Proof.Tree,
    match Sys2Proof.placeOf t i with
    | .cmd => (Sys2Proof.encode i).length = 32
    | .magicField => (Sys2Proof.encode i).length = 32
    | .phase => (Sys2Proof.encode i).length = 4
    | .treeToken => (Sys2Proof.encode i).length = 1 ∨ (Sys2Proof.encode i).length = 10
    | .body _ => (Sys2Proof.encode i).length ≤ 256

namespace Sys2Proof.Laws.EncodeWidth

theorem nop : Statement .nop := fun _ _ => bitsOf_length 32 _

theorem compress : Statement .compress := fun _ _ => bitsOf_length 32 _

theorem decompress : Statement .decompress := fun _ _ => bitsOf_length 32 _

theorem reservedOp3 : Statement .reservedOp3 := fun _ _ => bitsOf_length 32 _

theorem reservedHigh (value : Word) : Statement (.reservedHigh value) := fun _ _ => bitsOf_length 32 _

theorem count : Statement .count := fun _ _ => bitsOf_length 4 _

theorem build : Statement .build := fun _ _ => bitsOf_length 4 _

theorem derive : Statement .derive := fun _ _ => bitsOf_length 4 _

theorem wrmagic : Statement .wrmagic := fun _ _ => bitsOf_length 4 _

theorem wrtree : Statement .wrtree := fun _ _ => bitsOf_length 4 _

theorem encode : Statement .encode := fun _ _ => bitsOf_length 4 _

theorem flush : Statement .flush := fun _ _ => bitsOf_length 4 _

theorem rdmagic : Statement .rdmagic := fun _ _ => bitsOf_length 4 _

theorem rdtree : Statement .rdtree := fun _ _ => bitsOf_length 4 _

theorem decode : Statement .decode := fun _ _ => bitsOf_length 4 _

theorem phaseNone : Statement .phaseNone := fun _ _ => bitsOf_length 4 _

theorem magic (field : Word) : Statement (.magic field) := fun _ _ => bitsOf_length 32 _

theorem internal : Statement .internal := fun _ _ => .inl rfl

theorem leaf (sym : Sym) : Statement (.leaf sym) := fun _ _ => .inr (congrArg (· + 1) (bitsOf_length 9 sym.toNat))

theorem codeword (code : Bits) : Statement (.codeword code) := fun h _ =>
  show code.length ≤ 256 from of_decide_eq_true h

end Sys2Proof.Laws.EncodeWidth
end

