-- ==== Sys2Proof/Tests/Slice0.lean ====
section
/-!
SUPPORT. Tests: the checks of `WellFormed` with an ill-formed term each, words written out from the spec's encodings,
small cases of every instruction with results from the spec's test vectors (`95_test_vectors.md`), and for every
statement with hypotheses a concrete input that meets them.
-/

namespace Sys2Proof.Tests

open Sys2Proof.Machine

/-! ### Helpers -/

/-- A stream that presents these bits. -/
def source (b : Bits) : Source := ⟨b, 0, false, false, none⟩

/-- A run that has reached the first line of a phase, with these bits on SRC. -/
def atStart (p : Phase) (b : Bits) : State := { State.reset with state := .busy, phase := p, src := source b }

/-- The next state, if there is one. -/
def after : Out → Option State
  | .next s => some s
  | _ => none

/-- The tree of the input "AAAB" (V-B4). -/
def treeAAAB : Tree := .node (.node (.leaf 66#9) (.leaf 256#9)) (.leaf 65#9)

/-- The input "AAAB". -/
def bytesAAAB : List Byte := [0x41#8, 0x41#8, 0x41#8, 0x42#8]

/-- The header of "AAAB" (V-T3). -/
def headerAAAB : Bits :=
  [false, false, true, false, false, true, false, false, false, false, true, false, true, true, false, false,
   false, false, false, false, false, false, true, false, false, true, false, false, false, false, false, true]

/-- `NODE` as RDTREE leaves it for "AAAB" (`43_tree_header_codec.md` R125 e). -/
def nodesAAAB : Table Node :=
  [(0, mkInternal 0 (some 1) (some 4)), (1, mkInternal 0 (some 2) (some 3)), (2, mkLeaf 66#9 0), (3, mkLeaf 256#9 0),
   (4, mkLeaf 65#9 0)]

/-- The code table of "AAAB" (V-D4). -/
def codesAAAB : Table Bits := [(65, [true]), (66, [false, false]), (256, [false, true])]

/-- A run at the first line of a phase, with the tree of "AAAB" in the arena. -/
def withTree (p : Phase) (b : Bits) : State := { atStart p b with node := nodesAAAB, root := some 0, nnodes := 5 }

/-! ### WellFormed: one ill-formed term for each check -/

theorem test_wf_refuses_reserved_word_without_high_bit : (Instr.reservedHigh 0x3#32).wf = false := by decide
theorem test_wf_refuses_code_of_257_bits : (Instr.codeword (List.replicate 257 true)).wf = false := by
  rw [Instr.wf, List.length_replicate]; rfl
theorem test_wf_accepts_lowest_reserved_word : (Instr.reservedHigh 0x4#32).wf = true := by decide
theorem test_wf_accepts_code_of_256_bits : (Instr.codeword (List.replicate 256 true)).wf = true := by
  rw [Instr.wf, List.length_replicate]; rfl

/-! ### Decoding: every constructor's encoding, from `30_encoding.md` R61 to R71 -/

theorem test_decode_cmd : [0x00000000, 0x00000001, 0x00000002, 0x00000003].map (decodeTableWord 32) =
    [some .nop, some .compress, some .decompress, some .reservedOp3] := by decide
theorem test_decode_cmd_reserved_bits : [0x00000004, 0x00000101, 0x80000001].map (decodeTableWord 32) =
    [some (.reservedHigh 0x4#32), some (.reservedHigh 0x101#32), some (.reservedHigh 0x80000001#32)] := by decide
theorem test_decode_phases : (List.range 16).map (decodeTableWord 4) =
    [some .phaseNone, some .count, some .build, some .derive, some .wrmagic, some .wrtree, some .encode, some .flush,
     some .rdmagic, some .rdtree, some .decode, none, none, none, none, none] := by decide
theorem test_decode_tree_tokens :
    decodeAll .treeToken [false] = some .internal ∧
    decodeAll .treeToken [true, true, false, false, false, false, false, false, false, false] = some (.leaf 256#9) ∧
    decodeAll .treeToken [true, false, false, true, false, false, false, false, false, true] = some (.leaf 65#9) ∧
    decodeAll .treeToken [true, false, true] = none := by decide
theorem test_decode_token_words : decodeTableWord 1 0 = some .internal ∧ decodeTableWord 1 1 = none ∧
    decodeTableWord 16 0x241 = some (.leaf 65#9) ∧ decodeTableWord 16 0x600 = none := by decide
/-- V-M6. -/
theorem test_decode_magic_field : decodeAll .magicField
    [true, true, true, true, true, false, true, false, true, true, false, false, true, true, true, false,
     true, false, false, false, false, false, true, false, false, false, false, false, false, false, false, true] =
    some (.magic 0xFACE8201#32) := by decide
theorem test_decode_codeword : decodeAll (.body treeAAAB) [false, false] = some (.codeword [false, false]) ∧
    decodeAll (.body treeAAAB) [true] = some (.codeword [true]) ∧ decodeAll (.body treeAAAB) [false] = none ∧
    decodeAll (.body (.leaf 256#9)) [] = some (.codeword []) := by decide

/-! ### Streams and registers (V-M1 to V-M13) -/

theorem test_read_9_bits : bitsVal [true, false, false, false, false, false, false, false, false] = 256 := by decide
theorem test_write_low_3_bits : bitsOf 3 0b10110 = [true, true, false] := by decide
theorem test_read_of_7_bits_is_exhausted : ((source (List.replicate 7 true)).readBits 8 0).1 = .exhausted := by decide
theorem test_pad_lengths : [71, 72, 42].map padLength = [1, 0, 6] := by decide
/-- P5: 0x6B is FAULTED, DECODE, AT_INTERNAL. -/
theorem test_status_word :
    statusWord { State.reset with state := .faulted, phase := .decode, dstate := .atInternal } = 0x6B#32 := by decide

/-! ### Commands (P1, P3, P4) -/

theorem test_compress_reads_status_05 :
    (after (exec .compress State.reset)).map statusWord = some 0x05#32 := by decide
theorem test_decompress_reads_status_21 :
    (after (exec .decompress State.reset)).map statusWord = some 0x21#32 := by decide
theorem test_reserved_op3 :
    (after (exec .reservedOp3 State.reset)).map (fun s => (statusWord s, errWord s)) = some (0x3#32, 9#32) := by decide
theorem test_reserved_high_in_faulted :
    (after (exec (.reservedHigh 0x101#32) { State.reset with state := .faulted, err := some .malformedHeader })).map
      (fun s => (statusWord s, errWord s)) = some (0x3#32, 9#32) := by decide
theorem test_nop_keeps_fault :
    (after (exec .nop { State.reset with state := .faulted, err := some .malformedHeader })).map errWord =
      some 2#32 := by decide
theorem test_phase_none_waits : after (exec .phaseNone State.reset) = some State.reset := by decide

/-! ### Phases -/

/-- V-C2. -/
theorem test_count_AAAB :
    (after (exec .count (atStart .count (byteBits bytesAAAB)))).map
      (fun s => (s.len, freqAt 65 s, freqAt 66 s, freqAt 67 s, freqAt 256 s, s.srcpos)) =
    some (4, some 3, some 1, some 0, some 1, 32) := by decide
/-- V-C9: the source fails at the first read here. -/
theorem test_count_io_failure :
    (after (exec .count { atStart .count [] with src := ⟨[], 0, true, false, none⟩ })).map
      (fun s => (statusWord s, errWord s)) = some (0x07#32, 5#32) := by decide
/-- V-B4. -/
theorem test_build_AAAB :
    (after (exec .build { atStart .build [] with freq := freqOf bytesAAAB })).map
      (fun s => (s.root, s.seq, Table.read s.node 3, Table.read s.node 4)) =
    some (some 4, 5, some (mkInternal 2 (some 1) (some 2)), some (mkInternal 5 (some 3) (some 0))) := by decide +kernel
/-- V-B2: the lighter end-of-file leaf is removed first. -/
theorem test_build_two_leaves :
    (after (exec .build { atStart .build [] with freq := Table.write clearedFreq 65 1000 })).map
      (fun s => (s.root, Table.read s.node 2)) = some (some 2, some (mkInternal 1001 (some 1) (some 0))) := by decide +kernel
/-- V-D4. -/
theorem test_derive_AAAB : (after (exec .derive (withTree .derive []))).map State.code = some codesAAAB := by decide
/-- V-D1. -/
theorem test_derive_root_leaf :
    (after (exec .derive { atStart .derive [] with node := [(0, mkLeaf 256#9 1)], root := some 0 })).map State.code =
      some [(256, [])] := by decide
/-- R158. -/
theorem test_wrmagic_writes_32_bits :
    (after (exec .wrmagic (atStart .wrmagic []))).map (fun s => (s.snk.bits.length, s.snkpos, s.phase)) =
      some (32, 32, .wrtree) := by decide
/-- V-T3. -/
theorem test_wrtree_AAAB :
    (after (exec .wrtree (withTree .wrtree []))).map (fun s => s.snk.bits) = some headerAAAB := by decide
/-- V-E4: `1 1 1 00 01`. -/
theorem test_encode_AAAB :
    (after (exec .encode { atStart .encode (byteBits bytesAAAB) with code := codesAAAB })).map
      (fun s => s.snk.bits) = some [true, true, true, false, false, false, true] := by decide
/-- R134: the second pass presents a byte that was not counted. -/
theorem test_encode_missing_code :
    (after (exec .encode { atStart .encode (byteBits [0x41#8, 0x43#8]) with code := codesAAAB })).map
      (fun s => (s.err, s.snk.bits, s.srcpos)) = some (some .missingCode, [true], 16) := by decide
/-- V-M10 and R162. -/
theorem test_flush_pads_71_bits :
    (after (exec .flush { atStart .flush [] with snk := ⟨List.replicate 71 true, false, false, false⟩ })).map
      (fun s => (s.snk.bits.length, s.snk.closed, statusWord s)) = some (72, true, 2#32) := by decide +kernel
/-- V-X3. -/
theorem test_rdmagic_of_24_bits :
    (after (exec .rdmagic (atStart .rdmagic (List.replicate 24 true)))).map
      (fun s => (statusWord s, errWord s, s.errpos)) = some (0x23#32, 1#32, 0#64) := by decide
/-- `43_tree_header_codec.md` R125 e. -/
theorem test_rdtree_AAAB :
    (after (exec .rdtree (atStart .rdtree headerAAAB))).map (fun s => (s.node, s.root, s.nnodes, s.srcpos)) =
      some (nodesAAAB, some 0, 5, 32) := by decide
/-- V-T10, counted from the header. -/
theorem test_rdtree_malformed :
    (after (exec .rdtree (atStart .rdtree (headerAAAB.take 16)))).map
      (fun s => (statusWord s, errWord s, s.errpos, s.nnodes)) = some (0x27#32, 2#32, 13#64, 4) := by decide
/-- `45_decoder.md` R149 e. -/
theorem test_decode_AAAB :
    (after (exec .decode (withTree .decode [true, true, true, false, false, false, true, false]))).map
      (fun s => (s.snk.bits, s.srcpos, s.cur, s.dstate)) =
    some (byteBits bytesAAAB, 7, some 3, .accept) := by decide
/-- `45_decoder.md` R149 b. -/
theorem test_decode_root_byte_leaf :
    (after (exec .decode { atStart .decode [] with node := [(0, mkLeaf 65#9 0)], root := some 0 })).map
      (fun s => (statusWord s, errWord s)) = some (0xAB#32, 3#32) := by decide

/-! ### Wire fields -/

theorem test_magic_field_written :
    (after (exec (.magic 0xFACE8201#32) (atStart .wrmagic []))).map (fun s => s.snk.bits) =
      some (bitsOf 32 0xFACE8201) := by decide
theorem test_internal_written :
    (after (exec .internal (atStart .wrtree []))).map (fun s => s.snk.bits) = some [false] := by decide
theorem test_internal_read_opens_node :
    (after (exec .internal { atStart .rdtree [false, true] with micro := .loop })).map
      (fun s => (s.nnodes, s.stk, s.srcpos)) = some (1, [⟨0, false, none⟩], 1) := by decide
/-- V-M9. -/
theorem test_leaf_written :
    (after (exec (.leaf 256#9) (atStart .wrtree []))).map (fun s => s.snk.bits) =
      some [true, true, false, false, false, false, false, false, false, false] := by decide
theorem test_leaf_read_is_the_root :
    (after (exec (.leaf 511#9) { atStart .rdtree (List.replicate 10 true) with micro := .loop })).map
      (fun s => (s.node, s.root, s.phase)) = some ([(0, mkLeaf 511#9 0)], some 0, .decode) := by decide
theorem test_codeword_written :
    (after (exec (.codeword [false, true]) (atStart .encode []))).map (fun s => s.snk.bits) =
      some [false, true] := by decide
theorem test_codeword_read_emits_its_byte :
    (after (exec (.codeword [false, false]) { withTree .decode [false, false] with micro := .loop })).map
      (fun s => (s.snk.bits, s.srcpos, s.dstate)) = some (bitsOf 8 0x42, 2, .atRoot) := by decide

/-! ### The step, and a placed word -/

theorem test_step_runs_placed_command :
    (after (step (State.reset.withFetchWord 32 1))).map statusWord = some 0x05#32 := by decide
theorem test_step_runs_placed_phase :
    (after (step (State.reset.withFetchWord 4 10))).map (fun s => (s.phase, s.dstate)) =
      some (.flush, .accept) := by decide
theorem test_step_runs_placed_leaf :
    (after (step (State.reset.withFetchWord 10 0x241))).map (fun s => s.node) =
      some [(0, mkLeaf 65#9 0)] := by decide
theorem test_step_idles_after_reset : after (step State.reset) = some State.reset := by decide
/-- R190: a command and a write of CTRL while reset is held, and the command after the release. -/
theorem test_held_reset_ignores_host :
    ((after (step { State.reset with rst := true, inputs := [(0, .hostWrite 0 1#32)] })).map statusWord = some 0#32) ∧
    ((after (step { State.reset with rst := true, inputs := [(0, .hostWrite 5 1#32)] })).map ctrlWord = some 0#32) ∧
    ((after (step { State.reset with rst := true, inputs := [(0, .resetInput false)] })).map
      fun s => (after (exec .compress s)).map statusWord) = some (some 0x05#32) := by decide
theorem test_step_refuses_rebind_while_busy :
    after (step { atStart .count [] with inputs := [(0, .bindSnk)] }) = none := by decide

/-! ### Every statement with hypotheses: a concrete input that meets them together -/

theorem next_of_after {o : Out} {s : State} (h : after o = some s) : o = .next s := by
  cases o <;> simp_all [after]

theorem exists_next {o : Out} (h : (after o).isSome = true) : ∃ s, o = .next s := by
  cases o <;> simp_all [after]

theorem witness_DecodeEncode : (Instr.codeword [false, true]).wf = true ∧ (treeAAAB.at? [false, true]).isSome = true ∧
    (Instr.leaf 511#9).wf = true ∧ (Instr.reservedHigh 4#32).wf = true := by decide

theorem witness_EncodeDecode : decode .treeToken [false, true] = .ok (.internal, [true]) ∧
    decode (.body treeAAAB) [true, false] = .ok (.codeword [true], [false]) ∧
    decode .phase [true, false, true, false] = .ok (.decode, []) := ⟨rfl, rfl, rfl⟩

/-- Idle, and in a run with an event that is not yet due. -/
theorem witness_StepRunsPhase :
    (State.reset.inputs = [] ∧ decodePhase (phaseBits State.reset) = .ok .phaseNone) ∧
    (let s := { atStart .flush [] with inputs := [(1, .hostRead 1)] }
     s.state = .busy ∧ due s = false ∧ decodePhase (phaseBits s) = .ok .flush) := ⟨⟨rfl, rfl⟩, rfl, rfl, rfl⟩

/-- An event due in a run, and one that no run delays. -/
theorem witness_StepDeliversEvent : (atStart .count []).state = .busy ∧ State.reset.state ≠ .busy ∧
    { atStart .count [] with inputs := [(0, .hostWrite 0 2#32)] }.inputs = [(0, Event.hostWrite 0 2#32)] ∧
    { State.reset with inputs := [(7, .hostRead 1)] }.inputs = [(7, Event.hostRead 1)] ∧
    { State.reset with inputs := [(7, .hostRead 1)] }.state ≠ .busy := by decide

theorem witness_PlacedWordRuns : Phase.count ≠ .noPhase ∧ Phase.decode ≠ .noPhase := by decide

theorem witness_AcceptedCommandStartsRun : Accepting State.reset ∧
    (Instr.compress = .compress ∧ Phase.count = .count) ∧ Instr.decompress = .decompress ∧ Phase.rdmagic = .rdmagic := by
  decide

theorem witness_ReservedCommandFaults :
    Accepting { State.reset with state := .faulted } ∧ Instr.reservedOp3 = .reservedOp3 ∧
      ∃ v, Instr.reservedHigh 4#32 = .reservedHigh v := ⟨by decide, rfl, _, rfl⟩

theorem witness_BusyIgnoresCommand : (atStart .encode []).state = .busy := rfl

theorem witness_CommandAcceptance : (atStart .count []).state = .busy ∧ Accepting State.reset ∧
    { State.reset with rst := true }.rst = true ∧
    0#32 = (0 : Word) ∧ 1#32 = (1 : Word) ∧ 2#32 = (2 : Word) ∧ 2 < (3#32).toNat := by decide

theorem witness_RunOwesNothingToEarlierRuns :
    let s := { State.reset with state := .faulted, code := codesAAAB, node := nodesAAAB, srcpos := 9 }
    Accepting s ∧ Accepting State.reset ∧ (1#32 : Word) ≠ 0#32 ∧ s.ie = State.reset.ie ∧
      s.src = State.reset.src ∧ s.snk = State.reset.snk ∧ s.inputs = State.reset.inputs ∧
      s.hostData = State.reset.hostData ∧ s.draws = State.reset.draws := by decide

/-- A next state, a fault of the model (BUILD with nothing counted) and a refusal (a position counter at its end). -/
theorem witness_HostAccessesDoNotInfluenceRuns :
    (∃ t, exec .flush (atStart .flush []) = .next t) ∧
    exec .build (atStart .build []) = .fault (.unspecifiedRead .freq 0) ∧
    exec .wrmagic { atStart .wrmagic [] with snkpos := 2 ^ 64 - 1 } = .refused .positionOverflow :=
  ⟨exists_next (by decide), rfl, rfl⟩

theorem inv_atStart_count : Inv (atStart .count []) := by
  refine ⟨⟨by decide, by decide, by decide, fun _ => rfl, by decide⟩, ⟨rfl, rfl, rfl, Nat.le_refl _⟩, ?_, fun _ => ?_⟩
  · exact {
      len_le := Nat.zero_le _, seq_le := Nat.zero_le _, nnodes_le := Nat.zero_le _, trail_le := Nat.zero_le _
      srcpos_lt := by decide, snkpos_lt := by decide
      freq_le := by simp [atStart, State.reset], node_le := by simp [atStart, State.reset], pq_le := Nat.zero_le _
      code_le := by simp [atStart, State.reset], stk_le := Nat.zero_le _ }
  · exact ⟨rfl, by simp [atStart, State.reset]⟩

theorem witness_ErrRegister : State.reset.err = none ∧
    { State.reset with err := some .illegalCommand }.err = some .illegalCommand ∧ Inv (atStart .count []) :=
  ⟨rfl, rfl, inv_atStart_count⟩

/-- A block held in reset, in the middle of whatever it did before. -/
theorem inv_held : Inv { State.reset with rst := true } := resetBlock_inv inv_atStart_count true

theorem witness_CtrlRegister : exec .nop State.reset = .next State.reset ∧
    (∃ t, exec .count (atStart .count []) = .next t) ∧ (atStart .count []).rst = false ∧
    { State.reset with rst := true }.rst = true := ⟨rfl, exists_next (by decide), rfl, rfl⟩

/-- The lowest number above 5, the read-only registers, two words that differ in the reserved bits of CTRL, and two
states that differ in a working register only. -/
theorem witness_OtherRegisters : 5 < 6 ∧ (1 ≠ 0 ∧ 1 ≠ 5) ∧ (4 ≠ 0 ∧ 4 ≠ 5) ∧ (6 ≠ 0 ∧ 6 ≠ 5) ∧
    (1#32).getLsbD 0 = (0xFFFFFFFF#32).getLsbD 0 ∧
    (let s := { State.reset with len := 3 }
     s.state = State.reset.state ∧ s.phase = State.reset.phase ∧ s.dstate = State.reset.dstate ∧
       s.err = State.reset.err ∧ s.errpos = State.reset.errpos ∧ s.ie = State.reset.ie) := by decide

theorem witness_InterruptLine :
    (∃ t, deliver (.hostWrite 5 0#32) { State.reset with ie := true, state := .done } = .next t) ∧
    (∃ t, deliver (.hostWrite 5 1#32) { State.reset with state := .faulted } = .next t) ∧
    (∃ t, exec .compress { State.reset with ie := true, state := .done } = .next t) ∧
    Accepting { State.reset with ie := true, state := .done } ∧
    Inv { State.reset with rst := true } ∧ { State.reset with rst := true }.rst = true :=
  ⟨⟨_, rfl⟩, ⟨_, rfl⟩, ⟨_, rfl⟩, by decide, inv_held, rfl⟩

theorem witness_FaultedIsFinal :
    let s := { State.reset with state := .faulted, err := some .truncatedStream }
    s.state = .faulted ∧ s.inputs = [] ∧ Instr.decode ≠ .compress ∧ Instr.decode ≠ .decompress ∧
      Instr.decode ≠ .reservedOp3 ∧ (∀ v, Instr.decode ≠ .reservedHigh v) ∧
      (∃ t, deliver (.hostWrite 0 0#32) s = .next t) ∧ (∀ a, Event.hostWrite 0 0#32 ≠ .resetInput a) ∧
      ∀ v, v ≠ 0#32 → Event.hostWrite 0 0#32 ≠ .hostWrite 0 v :=
  ⟨rfl, rfl, by decide, by decide, by decide, fun _ => by simp, ⟨_, rfl⟩, fun _ => by simp,
    fun v hv h => hv (by simpa using (Event.hostWrite.inj h).2.symm)⟩

/-- A step that ends a run, one that starts a run, one of the lowest reserved command, one that faults, one that
resets. -/
theorem witness_StateTransitions :
    (∃ t, step (atStart .flush []) = .next t) ∧
    (∃ t, step { State.reset with inputs := [(0, .hostWrite 0 1#32)] } = .next t) ∧
    (∃ t, step { State.reset with inputs := [(0, .hostWrite 0 3#32)] } = .next t) ∧
    (∃ t, step (atStart .rdmagic []) = .next t) ∧
    ∃ t, step { atStart .count [] with inputs := [(0, .resetInput true)] } = .next t :=
  ⟨exists_next (by decide), exists_next (by decide), exists_next (by decide), exists_next (by decide), exists_next (by decide)⟩

theorem witness_ResetValues : freqAt 0 State.reset = none ∧ freqAt 255 State.reset = none ∧
    Table.read State.reset.node 512 = none := by decide

/-- Held in reset with a command pending, and not. -/
theorem witness_ResetAbandonsRun :
    (let s := { State.reset with rst := true, inputs := [(0, .hostWrite 0 1#32)] }
     s.rst = true ∧ resetBlock s = s ∧ ∃ t, step s = .next t) ∧ State.reset.rst = false :=
  ⟨⟨rfl, rfl, exists_next (by decide)⟩, rfl⟩

/-- An input with 7 bits left over, and the empty input. -/
theorem witness_CountCountsInput :
    (let s := atStart .count (byteBits bytesAAAB ++ List.replicate 7 true)
     AtStart .count s ∧ SrcOpen s ∧ upcoming s = byteBits bytesAAAB ++ List.replicate 7 true ∧
       (List.replicate 7 true).length < 8 ∧ bytesAAAB.length ≤ Config.lenMax ∧
       s.srcpos + 8 * bytesAAAB.length < Config.posLimit) ∧
    (let s := atStart .count []
     AtStart .count s ∧ SrcOpen s ∧ upcoming s = byteBits [] ++ [] ∧ s.src.pos ≤ s.src.bits.length) := by
  refine ⟨⟨⟨rfl, rfl, rfl, rfl⟩, ⟨rfl, rfl⟩, rfl, ?_, ?_, ?_⟩, ⟨rfl, rfl, rfl, rfl⟩, ⟨rfl, rfl⟩, rfl, ?_⟩ <;> decide

theorem witness_CountOverflow :
    let s := { atStart .count (bitsOf 8 0x41) with micro := .loop, len := Config.lenMax }
    AtPoint .count .loop s ∧ SrcOpen s ∧ 8 ≤ (upcoming s).length ∧ s.srcpos + 8 < Config.posLimit ∧
      s.len = Config.lenMax :=
  ⟨⟨rfl, rfl, rfl, rfl⟩, ⟨rfl, rfl⟩, by decide, by decide, rfl⟩

theorem witness_QueueOrder :
    (⟨1, 1, 1⟩ : PqEntry).seq ≠ (⟨1, 2, 2⟩ : PqEntry).seq ∧
    pqSorted [⟨1, 1, 1⟩, ⟨1, 2, 2⟩, ⟨3, 0, 0⟩] = true ∧
    (∀ y ∈ [(⟨1, 1, 1⟩ : PqEntry), ⟨1, 2, 2⟩, ⟨3, 0, 0⟩], (⟨1, 4, 4⟩ : PqEntry).seq ≠ y.seq) ∧
    [(⟨1, 1, 1⟩ : PqEntry)] ≠ [] := by decide

theorem freqFull_cleared : FreqFull clearedFreq := fun i hi => by rw [read_clearedFreq, if_pos hi]; rfl

/-- The counts of "AAAB", and those of the empty input. -/
theorem witness_BuildMakesHuffmanTree :
    (let s := { atStart .build [] with freq := freqOf bytesAAAB }
     AtStart .build s ∧ FreqFull s.freq) ∧
    (let s := { atStart .build [] with freq := clearedFreq }
     AtStart .build s ∧ FreqFull s.freq) := by
  refine ⟨⟨⟨rfl, rfl, rfl, rfl⟩, fun i hi => ?_⟩, ⟨rfl, rfl, rfl, rfl⟩, freqFull_cleared⟩
  have := table_read_map_range Config.alphSize (fun i => bytesAAAB.count (BitVec.ofNat 8 i)) i
  rw [if_pos hi] at this
  exact Option.isSome_iff_exists.mpr ⟨_, this⟩

theorem witness_BuildIsOptimal :
    let s := { atStart .build [] with freq := clearedFreq }
    AtStart .build s ∧ FreqFull s.freq ∧ (treeSyms (.leaf 256#9)).Perm (treeSyms (.leaf 256#9)) :=
  ⟨⟨rfl, rfl, rfl, rfl⟩, freqFull_cleared, .refl _⟩

theorem witness_DeriveWritesPaths :
    (let s := withTree .derive []
     AtStart .derive s ∧ arenaHolds s.node treeAAAB s.root = true ∧ treeAAAB.leaves ≤ Config.nsym ∧
       ∀ sym ∈ treeSyms treeAAAB, sym.toNat ≤ Config.pseudoEof) ∧
    (let s := { atStart .derive [] with node := [(0, mkLeaf 256#9 1)], root := some 0 }
     AtStart .derive s ∧ arenaHolds s.node (.leaf 256#9) s.root = true) :=
  ⟨⟨⟨rfl, rfl, rfl, rfl⟩, by decide, by decide, by decide⟩, ⟨rfl, rfl, rfl, rfl⟩, by decide⟩

theorem witness_PrefixCode :
    let s := withTree .derive []
    AtStart .derive s ∧ arenaHolds s.node treeAAAB s.root = true ∧ treeAAAB.leaves ≤ Config.nsym ∧
      (∀ sym ∈ treeSyms treeAAAB, sym.toNat ≤ Config.pseudoEof) ∧ (treeSyms treeAAAB).Nodup :=
  ⟨⟨rfl, rfl, rfl, rfl⟩, by decide, by decide, by decide, by decide⟩

theorem witness_CodedExactlyIfCounted :
    let s := { atStart .build [] with freq := clearedFreq }
    AtStart .build s ∧ FreqFull s.freq := ⟨⟨rfl, rfl, rfl, rfl⟩, freqFull_cleared⟩

/-- An open sink with the counter just below its end, a failed one and a closed one. -/
theorem witness_WrmagicWritesMagic :
    (let s := { atStart .wrmagic [] with snkpos := 2 ^ 64 - 33 }
     AtStart .wrmagic s ∧ SnkOpen s ∧ s.snkpos + 32 < Config.posLimit) ∧
    (let s := { atStart .wrmagic [] with snk := ⟨[], true, false, false⟩ }
     AtStart .wrmagic s ∧ s.snk.failed = true) ∧
    (let s := { atStart .wrmagic [] with snk := ⟨[], false, true, false⟩ }
     AtStart .wrmagic s ∧ s.snk.closed = true) :=
  ⟨⟨⟨rfl, rfl, rfl, rfl⟩, ⟨rfl, rfl, rfl⟩, by decide⟩, ⟨⟨rfl, rfl, rfl, rfl⟩, rfl⟩, ⟨rfl, rfl, rfl, rfl⟩, rfl⟩

theorem witness_WrtreeWritesHeader :
    let s := withTree .wrtree []
    AtStart .wrtree s ∧ SnkOpen s ∧ arenaHolds s.node treeAAAB s.root = true ∧ treeAAAB.leaves ≤ Config.nsym ∧
      s.snkpos + treeAAAB.ser.length < Config.posLimit :=
  ⟨⟨rfl, rfl, rfl, rfl⟩, ⟨rfl, rfl, rfl⟩, by decide, by decide, by decide⟩

/-- A second pass over the same bits, and over bits a faulty source presents. -/
theorem witness_EncodeWritesBody :
    (let s := { atStart .encode (byteBits bytesAAAB) with code := codesAAAB }
     AtStart .encode s ∧ SrcOpen s ∧ SnkOpen s ∧ s.src.reread.getD s.src.bits = byteBits bytesAAAB ++ [] ∧
       ([] : Bits).length < 8 ∧ Coded s.code bytesAAAB ∧
       Table.read s.code Config.pseudoEof = some [false, true] ∧ [false, true].length ≤ Config.codeMax ∧
       8 * bytesAAAB.length < Config.posLimit ∧
       s.snkpos + (bodyBits s.code bytesAAAB).length < Config.posLimit) ∧
    (let s := { atStart .encode [] with
                src := ⟨byteBits bytesAAAB, 32, false, false, some (bitsOf 8 0x42 ++ [true])⟩, code := codesAAAB }
     AtStart .encode s ∧ s.src.reread.getD s.src.bits = byteBits [0x42#8] ++ [true] ∧ Coded s.code [0x42#8]) := by
  refine ⟨⟨⟨rfl, rfl, rfl, rfl⟩, ⟨rfl, rfl⟩, ⟨rfl, rfl, rfl⟩, rfl, by decide, ?_, rfl, by decide, by decide,
    by decide⟩, ⟨rfl, rfl, rfl, rfl⟩, rfl, ?_⟩
  · intro b hb
    have : b = 0x41#8 ∨ b = 0x42#8 := by revert b; decide
    rcases this with rfl | rfl
    · exact ⟨_, rfl, by decide⟩
    · exact ⟨_, rfl, by decide⟩
  · intro b hb
    obtain rfl := List.mem_singleton.mp hb
    exact ⟨_, rfl, by decide⟩

theorem witness_MissingCode :
    let s := { atStart .encode (byteBits [0x41#8, 0x43#8]) with code := codesAAAB }
    AtStart .encode s ∧ SrcOpen s ∧ SnkOpen s ∧
      s.src.reread.getD s.src.bits = byteBits [0x41#8] ++ bitsOf 8 (0x43#8).toNat ++ [] ∧ Coded s.code [0x41#8] ∧
      Table.read s.code (0x43#8).toNat = none ∧ 8 * ([0x41#8].length + 1) < Config.posLimit ∧
      s.snkpos + ([0x41#8].flatMap fun x => (Table.read s.code x.toNat).getD []).length < Config.posLimit :=
  ⟨⟨rfl, rfl, rfl, rfl⟩, ⟨rfl, rfl⟩, ⟨rfl, rfl, rfl⟩, rfl,
    fun b hb => by obtain rfl := List.mem_singleton.mp hb; exact ⟨_, rfl, by decide⟩, rfl, by decide, by decide⟩

theorem witness_FlushCompletesRun :
    (let s := { atStart .flush [] with snk := ⟨[true], false, false, false⟩ }
     AtStart .flush s ∧ SnkOpen s) ∧
    (let s := { atStart .flush [] with snk := ⟨[true], true, false, false⟩ }
     AtStart .flush s ∧ s.snk.failed = true) ∧
    (let s := { atStart .flush [] with snk := ⟨[true], false, true, false⟩ }
     AtStart .flush s ∧ s.snk.closed = true) :=
  ⟨⟨⟨rfl, rfl, rfl, rfl⟩, rfl, rfl, rfl⟩, ⟨⟨rfl, rfl, rfl, rfl⟩, rfl⟩, ⟨rfl, rfl, rfl, rfl⟩, rfl⟩

/-- The magic number itself, another word of 32 bits, a stream of 31 bits, and a failed source. -/
theorem witness_RdmagicChecksMagic :
    (let s := atStart .rdmagic (bitsOf 32 Config.magic.toNat)
     AtStart .rdmagic s ∧ SrcOpen s ∧ 32 ≤ (upcoming s).length ∧ s.srcpos + 32 < Config.posLimit ∧
       bitsVal ((upcoming s).take 32) = Config.magic.toNat) ∧
    (let s := atStart .rdmagic (bitsOf 32 (Config.magic + 1#32).toNat)
     AtStart .rdmagic s ∧ SrcOpen s ∧ 32 ≤ (upcoming s).length ∧
       bitsVal ((upcoming s).take 32) ≠ Config.magic.toNat) ∧
    (let s := atStart .rdmagic (List.replicate 31 true)
     AtStart .rdmagic s ∧ SrcOpen s ∧ (upcoming s).length < 32) ∧
    (let s := { atStart .rdmagic [] with src := ⟨[], 0, true, false, none⟩ }
     AtStart .rdmagic s ∧ s.src.failed = true) := by
  have hval : ∀ m : Word, bitsVal ((upcoming (atStart .rdmagic (bitsOf 32 m.toNat))).take 32) = m.toNat := by
    intro m
    have h : (bitsOf 32 m.toNat).take 32 = bitsOf 32 m.toNat := List.take_of_length_le (by simp)
    show bitsVal ((bitsOf 32 m.toNat).take 32) = m.toNat
    rw [h, bitsVal_bitsOf]
    exact Nat.mod_eq_of_lt m.isLt
  refine ⟨⟨⟨rfl, rfl, rfl, rfl⟩, ⟨rfl, rfl⟩, Nat.le_refl 32, by decide, hval _⟩,
    ⟨⟨rfl, rfl, rfl, rfl⟩, ⟨rfl, rfl⟩, Nat.le_refl 32, ?_⟩, ⟨⟨rfl, rfl, rfl, rfl⟩, ⟨rfl, rfl⟩, by decide⟩,
    ⟨rfl, rfl, rfl, rfl⟩, rfl⟩
  show bitsVal ((upcoming (atStart .rdmagic (bitsOf 32 (Config.magic + 1#32).toNat))).take 32) ≠ Config.magic.toNat
  rw [hval]
  generalize Config.magic = m
  bv_omega

theorem witness_RdtreeBuildsTree :
    let s := atStart .rdtree (headerAAAB ++ [true])
    AtStart .rdtree s ∧ SrcOpen s ∧ upcoming s = treeAAAB.ser ++ [true] ∧ treeAAAB.size ≤ Config.nodeCap ∧
      s.srcpos + treeAAAB.ser.length < Config.posLimit :=
  ⟨⟨rfl, rfl, rfl, rfl⟩, ⟨rfl, rfl⟩, rfl, by decide, by decide⟩

theorem internal_tokens (n : Nat) :
    ∀ tok ∈ List.replicate n Instr.internal, tok = .internal ∨ ∃ sym, tok = .leaf sym :=
  fun _ h => .inl (List.eq_of_mem_replicate h)

/-- A header that stops after a token (nothing read, and the arena exactly full), and one that stops inside the field of
a leaf (no bit of it there, and 8 bits there). -/
theorem witness_MalformedHeader :
    (let s := atStart .rdtree []
     AtStart .rdtree s ∧ SrcOpen s ∧ stillOpen 1 [] = true ∧ upcoming s = [].flatMap encode ++ []) ∧
    (let toks := List.replicate 513 Instr.internal
     let s := atStart .rdtree (List.replicate 513 false)
     AtStart .rdtree s ∧ SrcOpen s ∧ (∀ tok ∈ toks, tok = .internal ∨ ∃ sym, tok = .leaf sym) ∧
       stillOpen 1 toks = true ∧ upcoming s = toks.flatMap encode ++ [] ∧
       toks.length + (([] : Bits).take 1).length ≤ Config.nodeCap ∧
       s.srcpos + (toks.flatMap encode).length + (([] : Bits).take 1).length < Config.posLimit) ∧
    (let s := atStart .rdtree [true]
     AtStart .rdtree s ∧ (∃ field : Bits, [true] = true :: field ∧ field.length < 9) ∧
       upcoming s = [].flatMap encode ++ [true]) ∧
    (let s := atStart .rdtree (false :: true :: List.replicate 8 false)
     AtStart .rdtree s ∧ SrcOpen s ∧ stillOpen 1 [.internal] = true ∧
       (∃ field : Bits, true :: List.replicate 8 false = true :: field ∧ field.length < 9) ∧
       upcoming s = [Instr.internal].flatMap encode ++ true :: List.replicate 8 false ∧
       [Instr.internal].length + ((true :: List.replicate 8 false).take 1).length ≤ Config.nodeCap) :=
  ⟨⟨⟨rfl, rfl, rfl, rfl⟩, ⟨rfl, rfl⟩, rfl, rfl⟩,
    ⟨⟨rfl, rfl, rfl, rfl⟩, ⟨rfl, rfl⟩, internal_tokens _, by decide +kernel, by decide +kernel, by decide +kernel,
      by decide +kernel⟩,
    ⟨⟨rfl, rfl, rfl, rfl⟩, ⟨_, rfl, by decide⟩, rfl⟩,
    ⟨rfl, rfl, rfl, rfl⟩, ⟨rfl, rfl⟩, rfl, ⟨_, rfl, by decide⟩, rfl, by decide⟩

theorem witness_NodeOverflow :
    let toks := List.replicate 513 Instr.internal
    let s := atStart .rdtree (List.replicate 514 false)
    AtStart .rdtree s ∧ SrcOpen s ∧ (∀ tok ∈ toks, tok = .internal ∨ ∃ sym, tok = .leaf sym) ∧
      stillOpen 1 toks = true ∧ toks.length = Config.nodeCap ∧ upcoming s = toks.flatMap encode ++ false :: [] ∧
      s.srcpos + (toks.flatMap encode).length + 1 < Config.posLimit :=
  ⟨⟨rfl, rfl, rfl, rfl⟩, ⟨rfl, rfl⟩, internal_tokens _, by decide +kernel, by decide +kernel, by decide +kernel,
    by decide +kernel⟩

/-- A body with a pad bit after it, and the empty body of a one-leaf tree. -/
theorem witness_DecodeInvertsEncode :
    (let s := withTree .decode [true, false, false, false, true, false]
     let ps : List (Byte × Bits) := [(0x41#8, [true]), (0x42#8, [false, false])]
     AtStart .decode s ∧ SrcOpen s ∧ SnkOpen s ∧ arenaHolds s.node treeAAAB s.root = true ∧ Spells treeAAAB ps ∧
       treeAAAB.at? [false, true] = some 256#9 ∧ upcoming s = ps.flatMap Prod.snd ++ [false, true] ++ [false] ∧
       s.srcpos + (ps.flatMap Prod.snd ++ [false, true]).length < Config.posLimit ∧
       s.snkpos + 8 * ps.length < Config.posLimit) ∧
    (let s := { atStart .decode [] with node := [(0, mkLeaf 256#9 0)], root := some 0 }
     AtStart .decode s ∧ arenaHolds s.node (.leaf 256#9) s.root = true ∧ Spells (.leaf 256#9) [] ∧
       (Tree.leaf 256#9).at? [] = some 256#9 ∧ upcoming s = ([] : List (Byte × Bits)).flatMap Prod.snd ++ [] ++ []) := by
  refine ⟨⟨⟨rfl, rfl, rfl, rfl⟩, ⟨rfl, rfl⟩, ⟨rfl, rfl, rfl⟩, by decide, ?_, by decide, rfl, by decide, by decide⟩,
    ⟨rfl, rfl, rfl, rfl⟩, by decide, ?_, rfl, rfl⟩
  · unfold Spells; decide
  · unfold Spells; simp

/-- A body cut inside a code, and one cut between two codes. -/
theorem witness_TruncatedStream :
    (let s := withTree .decode [true, false]
     let ps : List (Byte × Bits) := [(0x41#8, [true])]
     AtStart .decode s ∧ SrcOpen s ∧ SnkOpen s ∧ arenaHolds s.node treeAAAB s.root = true ∧ Spells treeAAAB ps ∧
       (treeAAAB.at? ([false] ++ [true])).isSome = true ∧ [true] ≠ [] ∧
       upcoming s = ps.flatMap Prod.snd ++ [false] ∧
       s.srcpos + (ps.flatMap Prod.snd ++ [false]).length < Config.posLimit ∧
       s.snkpos + 8 * ps.length < Config.posLimit) ∧
    (let s := withTree .decode []
     AtStart .decode s ∧ (treeAAAB.at? ([] ++ [true])).isSome = true ∧ upcoming s = ([] : List (Byte × Bits)).flatMap Prod.snd ++ []) := by
  refine ⟨⟨⟨rfl, rfl, rfl, rfl⟩, ⟨rfl, rfl⟩, ⟨rfl, rfl, rfl⟩, by decide, ?_, by decide, by decide, rfl, by decide,
    by decide⟩, ⟨rfl, rfl, rfl, rfl⟩, by decide, rfl⟩
  unfold Spells; decide

/-- A node without a right child; the lowest and the highest reserved symbol; the highest byte at the root. -/
theorem witness_CorruptTree :
    (let n : Node := ⟨false, Config.internalSym, 0, some 1, none⟩
     let s := { atStart .decode [true] with
                micro := .loop, dstate := .atInternal, node := [(0, n)], root := some 0, cur := some 0 }
     AtPoint .decode .loop s ∧ s.dstate = .atInternal ∧ SrcOpen s ∧ s.cur = some 0 ∧ Table.read s.node 0 = some n ∧
       (if true then n.right else n.left) = none ∧ upcoming s = true :: [] ∧ s.srcpos + 1 < Config.posLimit) ∧
    (let t : Tree := .node (.leaf 65#9) (.leaf 257#9)
     let s := { atStart .decode [false, true] with
                node := [(0, mkInternal 0 (some 1) (some 2)), (1, mkLeaf 65#9 0), (2, mkLeaf 257#9 0)]
                root := some 0 }
     let ps : List (Byte × Bits) := [(0x41#8, [false])]
     AtStart .decode s ∧ SrcOpen s ∧ SnkOpen s ∧ arenaHolds s.node t s.root = true ∧ Spells t ps ∧
       t.at? [true] = some 257#9 ∧ 256 < (257#9).toNat ∧ upcoming s = ps.flatMap Prod.snd ++ [true] ++ [] ∧
       s.srcpos + (ps.flatMap Prod.snd ++ [true]).length < Config.posLimit ∧
       s.snkpos + 8 * ps.length < Config.posLimit) ∧
    (Tree.leaf 511#9).at? [] = some 511#9 ∧ 256 < (511#9).toNat ∧
    (let s := { atStart .decode [] with node := [(0, mkLeaf 255#9 0)], root := some 0 }
     AtStart .decode s ∧ arenaHolds s.node (.leaf 255#9) s.root = true ∧ (255#9).toNat < 256) := by
  refine ⟨⟨⟨rfl, rfl, rfl, rfl⟩, rfl, ⟨rfl, rfl⟩, rfl, rfl, rfl, rfl, by decide⟩,
    ⟨⟨rfl, rfl, rfl, rfl⟩, ⟨rfl, rfl⟩, ⟨rfl, rfl, rfl⟩, by decide, ?_, by decide, by decide, rfl, by decide,
      by decide⟩, rfl, by decide, ⟨rfl, rfl, rfl, rfl⟩, by decide, by decide⟩
  unfold Spells; decide

/-- With an event not yet due, and with none. -/
theorem witness_IoFailure :
    (let s := { atStart .count [] with micro := .loop, src := ⟨[], 0, true, false, none⟩, inputs := [(1, .hostRead 1)] }
     s.state = .busy ∧ due s = false ∧ waitsOnSrc s = true ∧ s.src.failed = true) ∧
    (let s := { atStart .encode [] with micro := .emit [true] false, snk := ⟨[], true, false, false⟩ }
     s.state = .busy ∧ due s = false ∧ waitsOnSnk s = true ∧ s.snk.failed = true) ∧
    (let s := { withTree .decode [] with
                micro := .loop, dstate := .atLeaf, cur := some 2, snk := ⟨[], false, true, false⟩ }
     s.state = .busy ∧ due s = false ∧ s.inputs = [] ∧ waitsOnSnk s = true ∧ s.snk.closed = true) := by decide

theorem witness_BlockedTransactionWaits :
    (let s := { atStart .rdtree [] with micro := .leafField 0, src := ⟨[], 0, false, true, none⟩ }
     s.state = .busy ∧ s.inputs = [] ∧ waitsOnSrc s = true ∧ s.src.failed = false ∧ s.src.blocked = true) ∧
    (let s := { withTree .wrtree [] with micro := .visit (some 0), snk := ⟨[], false, false, true⟩ }
     s.state = .busy ∧ s.inputs = [] ∧ waitsOnSnk s = true ∧ s.snk.failed = false ∧ s.snk.closed = false ∧
       s.snk.blocked = true) := by decide

theorem witness_WireFieldsWritten :
    ((atStart .wrmagic []).state = .busy ∧ SnkOpen (atStart .wrmagic []) ∧ (atStart .wrmagic []).phase = .wrmagic ∧
      (atStart .wrmagic []).snkpos + 32 < Config.posLimit) ∧
    (SnkOpen (atStart .wrtree []) ∧ (atStart .wrtree []).phase = .wrtree ∧
      (atStart .wrtree []).snkpos + 10 < Config.posLimit) ∧
    (SnkOpen (atStart .encode []) ∧ (atStart .encode []).phase = .encode ∧
      (atStart .encode []).snkpos + [false, true].length < Config.posLimit) :=
  ⟨⟨rfl, ⟨rfl, rfl, rfl⟩, rfl, by decide⟩, ⟨⟨rfl, rfl, rfl⟩, rfl, by decide⟩, ⟨rfl, rfl, rfl⟩, rfl, by decide⟩

theorem witness_WireFieldsRead :
    (let s := atStart .rdmagic (bitsOf 32 0xFACE8201)
     s.state = .busy ∧ SrcOpen s ∧ s.phase = .rdmagic ∧ s.micro = .start ∧
       upcoming s = encode (.magic 0xFACE8201#32) ++ []) ∧
    (let s := { atStart .rdtree [false] with micro := .loop }
     s.state = .busy ∧ SrcOpen s ∧ s.phase = .rdtree ∧ s.micro = .loop ∧ upcoming s = encode .internal ++ []) ∧
    (let s := { atStart .rdtree (true :: List.replicate 9 true) with micro := .loop }
     s.state = .busy ∧ SrcOpen s ∧ s.phase = .rdtree ∧ s.micro = .loop ∧ upcoming s = encode (.leaf 511#9) ++ []) ∧
    (let s := { withTree .decode [false, true, true] with micro := .loop }
     s.state = .busy ∧ SrcOpen s ∧ s.phase = .decode ∧ s.micro = .loop ∧ s.dstate = .atRoot ∧
       arenaHolds s.node treeAAAB s.root = true ∧ (treeAAAB.at? [false, true]).isSome = true ∧
       upcoming s = [false, true] ++ [true]) :=
  ⟨⟨rfl, ⟨rfl, rfl⟩, rfl, rfl, rfl⟩, ⟨rfl, ⟨rfl, rfl⟩, rfl, rfl, rfl⟩, ⟨rfl, ⟨rfl, rfl⟩, rfl, rfl, rfl⟩,
    rfl, ⟨rfl, rfl⟩, rfl, rfl, rfl, by decide, by decide, rfl⟩

theorem witness_WireFieldsElsewhere :
    (let s := atStart .count []
     ¬ (s.state = .busy ∧ (s.phase = .wrmagic ∨ s.phase = .rdmagic)) ∧
       ¬ (s.state = .busy ∧ (s.phase = .wrtree ∨ s.phase = .rdtree)) ∧
       ¬ (s.state = .busy ∧ (s.phase = .encode ∨ s.phase = .decode))) ∧
    (let s := { State.reset with state := .faulted, phase := .rdtree }
     ¬ (s.state = .busy ∧ (s.phase = .wrtree ∨ s.phase = .rdtree))) := by decide

theorem witness_PhaseInstructionsHandControl : Phase.build ≠ .noPhase ∧ State.reset.state ≠ .busy ∧
    (atStart .count []).state = .busy ∧ (atStart .count []).phase ≠ .build := by decide

theorem witness_FrameOfAnalysisPhases :
    (∃ t, exec .count (atStart .count (bitsOf 8 0x41)) = .next t) ∧
    (∃ t, exec .build { atStart .build [] with freq := clearedFreq } = .next t) ∧
    ∃ t, exec .derive (withTree .derive []) = .next t :=
  ⟨exists_next (by decide), exists_next (by decide +kernel), exists_next (by decide)⟩

theorem witness_FrameOfWritingPhases :
    (∃ t, exec .wrmagic (atStart .wrmagic []) = .next t) ∧ (∃ t, exec .wrtree (withTree .wrtree []) = .next t) ∧
    ∃ t, exec .flush (atStart .flush []) = .next t :=
  ⟨exists_next (by decide), exists_next (by decide), exists_next (by decide)⟩

theorem witness_FrameOfReadingPhases :
    (∃ t, exec .rdmagic (atStart .rdmagic []) = .next t) ∧ (∃ t, exec .rdtree (atStart .rdtree headerAAAB) = .next t) ∧
    (∃ t, exec .encode { atStart .encode (byteBits bytesAAAB) with code := codesAAAB } = .next t) ∧
    ∃ t, exec .decode (withTree .decode [false, true]) = .next t :=
  ⟨exists_next (by decide), exists_next (by decide), exists_next (by decide), exists_next (by decide)⟩

theorem witness_SinkOnlyGrows :
    (∃ t, exec .internal (atStart .wrtree []) = .next t) ∧
    (let s := { atStart .flush [] with snk := ⟨[], false, true, false⟩ }
     s.snk.closed = true ∧ ∃ t, exec .flush s = .next t) :=
  ⟨exists_next (by decide), rfl, exists_next (by decide)⟩

theorem witness_StepKeepsConsistency : Inv (atStart .count []) ∧ ∃ t, step (atStart .count []) = .next t :=
  ⟨inv_atStart_count, exists_next (by decide)⟩

theorem witness_ConsistentStepNeverFaults : Inv (atStart .count []) := inv_atStart_count

/-- The input "AAAB" and the empty input, ready for COMPRESS. -/
theorem witness_CompressWritesStream : ∀ bs ∈ [bytesAAAB, []],
    let s := { State.reset with inputs := [(0, .hostWrite 0 1#32)], src := source (byteBits bs) }
    Accepting s ∧ s.inputs = [(0, .hostWrite 0 1#32)] ∧ SrcOpen s ∧ SnkOpen s ∧ s.src.pos = 0 ∧
      s.src.bits = byteBits bs ∧ s.src.reread = none ∧ s.snk.bits = [] ∧ bs.length ≤ Config.lenMax := by
  intro bs hbs
  refine ⟨⟨(by decide : RunState.idle ≠ .busy), rfl⟩, rfl, ⟨rfl, rfl⟩, ⟨rfl, rfl, rfl⟩, rfl, rfl, rfl, rfl, ?_⟩
  revert bs; decide

/-- The input "AAAB" ready for COMPRESS, and a state ready for DECOMPRESS of whatever it wrote. -/
theorem witness_RoundTrip :
    (let s := { State.reset with inputs := [(0, .hostWrite 0 1#32)], src := source (byteBits bytesAAAB) }
     Accepting s ∧ s.inputs = [(0, .hostWrite 0 1#32)] ∧ SrcOpen s ∧ SnkOpen s ∧ s.src.pos = 0 ∧
       s.src.bits = byteBits bytesAAAB ∧ s.src.reread = none ∧ s.snk.bits = [] ∧
       bytesAAAB.length ≤ Config.lenMax) ∧
    ∀ (t : State) (rest : Bits),
      let s := { State.reset with
                 inputs := [(0, .hostWrite 0 2#32)], src := source (t.snk.bits.take t.snkpos ++ rest) }
      Accepting s ∧ s.inputs = [(0, .hostWrite 0 2#32)] ∧ SrcOpen s ∧ SnkOpen s ∧ s.src.pos = 0 ∧
        s.src.bits = t.snk.bits.take t.snkpos ++ rest ∧ s.snk.bits = [] :=
  ⟨⟨by decide, rfl, ⟨rfl, rfl⟩, ⟨rfl, rfl, rfl⟩, rfl, rfl, rfl, rfl, by decide⟩,
    fun _ _ => ⟨⟨(by decide : RunState.idle ≠ .busy), rfl⟩, rfl, ⟨rfl, rfl⟩, ⟨rfl, rfl, rfl⟩, rfl, rfl, rfl⟩⟩

theorem witness_DecompressEnds :
    let s := { State.reset with inputs := [(0, .hostWrite 0 2#32)], src := source [true, false, true] }
    Accepting s ∧ s.inputs = [(0, .hostWrite 0 2#32)] ∧ SrcOpen s ∧ SnkOpen s ∧ s.src.pos = 0 ∧
      s.snk.bits = [] ∧ 8 * s.src.bits.length < Config.posLimit :=
  ⟨by decide, rfl, ⟨rfl, rfl⟩, ⟨rfl, rfl, rfl⟩, rfl, rfl, by decide⟩

end Sys2Proof.Tests
end

/-!
PROOFS. What a step does, said once: the event that lands now, or else the phase the sequencer runs. On it rest the
delivery of events and the invariant of every step.
-/

namespace Sys2Proof.Machine

/-! ### A step is an event or the running phase -/

/-- An event that is due, or that no run delays, is delivered with its entry taken off the list. -/
theorem step_delivers {s : State} {n : Nat} {e : Event} {rest : List (Nat × Event)} (hi : s.inputs = (n, e) :: rest)
    (hdue : n = 0 ∨ s.state ≠ .busy) : step s = deliver e { s with inputs := rest } := by
  simp [step, nextEvent, hi, if_pos hdue]

/-- With nothing from outside due, the sequencer runs. -/
theorem step_runs {s : State} (h : s.inputs = [] ∨ s.state = .busy ∧ due s = false) : step s = runCurrent s := by
  rcases hi : s.inputs with _ | ⟨⟨n, e⟩, rest⟩
  · simp [step, nextEvent, hi]
  · obtain ⟨hb, hd⟩ : s.state = .busy ∧ due s = false := by simpa [hi] using h
    have hn : n ≠ 0 := by rintro rfl; simp [due, hi] at hd
    simp [step, nextEvent, hi, hb, hn]

/-- Everything a step can be. -/
theorem step_cases (s : State) :
    (∃ n e rest, s.inputs = (n, e) :: rest ∧ (n = 0 ∨ s.state ≠ .busy) ∧
      step s = deliver e { s with inputs := rest }) ∨
    ((s.inputs = [] ∨ s.state = .busy ∧ due s = false) ∧ step s = runCurrent s) := by
  rcases hi : s.inputs with _ | ⟨⟨n, e⟩, rest⟩
  · exact .inr ⟨.inl rfl, step_runs (.inl hi)⟩
  · by_cases hdue : n = 0 ∨ s.state ≠ .busy
    · exact .inl ⟨n, e, rest, rfl, hdue, step_delivers hi hdue⟩
    · obtain ⟨hn, hb⟩ : n ≠ 0 ∧ s.state = .busy := by simpa using hdue
      obtain ⟨m, rfl⟩ := Nat.exists_eq_succ_of_ne_zero hn
      have hrun : s.state = .busy ∧ due s = false := ⟨hb, by simp [due, hi]⟩
      exact .inr ⟨.inr hrun, step_runs (.inr hrun)⟩

/-- The PHASE bits of a phase stand for its instruction (`30_encoding.md` R71). -/
theorem decodePhase_code (p : Phase) : decodePhase p.code = .ok p.instr := by
  cases p <;> rfl

/-- In a run the sequencer runs the instruction of the phase. -/
theorem runCurrent_busy {s : State} (hb : s.state = .busy) : runCurrent s = exec s.phase.instr s := by
  simp [runCurrent, phaseBits, hb, decodePhase_code]

/-- Outside a run the sequencer runs nothing. -/
theorem runCurrent_waits {s : State} (hb : s.state ≠ .busy) : runCurrent s = .next s := by
  simp only [runCurrent, phaseBits, if_neg hb, decodePhase_code]
  rfl

/-! ### Binding a stream -/

/-- A bind in a run is refused. -/
theorem bindStream_busy {s : State} (hb : s.state = .busy) (s' : State) :
    bindStream s s' = .refused .rebindWhileBusy := if_pos hb

/-- A bind outside a run takes effect. -/
theorem bindStream_free {s : State} (hb : s.state ≠ .busy) (s' : State) : bindStream s s' = .next s' := if_neg hb

/-- Settles O5: a step delivers what lands now, and each event of the streams is its arm of `deliver`. -/
theorem stepDeliversEvent : Obligations.StepDeliversEvent := by
  unfold Obligations.StepDeliversEvent
  refine ⟨fun s n e rest hi hdue => ⟨step_delivers hi hdue, ?_⟩, fun s => ⟨fun hb => ?_, fun hb => ?_, rfl, rfl, ?_⟩⟩
  · rintro v rfl
    exact step_delivers hi hdue
  · exact ⟨fun _ _ => bindStream_busy hb _, bindStream_busy hb _⟩
  · exact ⟨fun _ _ => bindStream_free hb _, bindStream_free hb _⟩
  · exact fun _ => ⟨rfl, rfl⟩

/-! ### Every step keeps the invariant -/

/-- The instruction of the phase the block is in keeps the invariant, since each of its turns does. -/
theorem exec_phase_meets {s : State} (h : Inv s) : OutMeets Inv (exec s.phase.instr s) := by
  cases hp : s.phase with
  | noPhase => exact h
  | count => exact runPhase_meets inv_tick (fun _ => countTurn_inv) s h fun _ => hp
  | build => exact runPhase_meets inv_tick (fun _ => buildTurn_inv) s h fun _ => hp
  | derive => exact runPhase_meets inv_tick (fun _ => deriveTurn_inv) s h fun _ => hp
  | wrmagic => exact runPhase_meets inv_tick (fun _ => wrmagicTurn_inv) s h fun _ => hp
  | wrtree => exact runPhase_meets inv_tick (fun _ => wrtreeTurn_inv) s h fun _ => hp
  | encode => exact runPhase_meets inv_tick (fun _ => encodeTurn_inv) s h fun _ => hp
  | flush => exact runPhase_meets inv_tick (fun _ => flushTurn_inv) s h fun _ => hp
  | rdmagic => exact runPhase_meets inv_tick (fun _ => rdmagicTurn_inv) s h fun _ => hp
  | rdtree => exact runPhase_meets inv_tick (fun _ => rdtreeTurn_inv) s h fun _ => hp
  | decode => exact runPhase_meets inv_tick (fun _ => decodeTurn_inv) s h fun _ => hp

/-- What the sequencer runs keeps the invariant. -/
theorem runCurrent_meets {s : State} (h : Inv s) : OutMeets Inv (runCurrent s) := by
  by_cases hb : s.state = .busy
  · rw [runCurrent_busy hb]; exact exec_phase_meets h
  · rw [runCurrent_waits hb]; exact h

/-- A command that starts a run keeps the invariant, accepted or ignored. -/
theorem startRun_meets {s : State} (h : Inv s) {p : Phase} (hp : p = .count ∨ p = .rdmagic) :
    OutMeets Inv (startRun p s) := by
  by_cases ha : Accepting s
  · rw [startRun_accepted ha]; exact startRun_inv h ha.2 hp
  · rw [startRun_ignored ha]; exact h

/-- A reserved command keeps the invariant, accepted or ignored. -/
theorem reservedCommand_meets {s : State} (h : Inv s) : OutMeets Inv (reservedCommand s) := by
  by_cases ha : Accepting s
  · rw [reservedCommand_accepted ha]; exact reserved_inv h ha.2
  · rw [reservedCommand_ignored ha]; exact h

/-- Every value the host can write to CMD keeps the invariant. -/
theorem exec_command_meets {s : State} (h : Inv s) (v : Word) : OutMeets Inv (exec (decodeCmd v) s) := by
  unfold decodeCmd
  split
  · exact h
  · exact startRun_meets h (.inl rfl)
  · exact startRun_meets h (.inr rfl)
  · exact reservedCommand_meets h
  · exact reservedCommand_meets h

/-- A write of any register keeps the invariant. -/
theorem hostWrite_meets {s : State} (h : Inv s) (n : Nat) (v : Word) : OutMeets Inv (hostWrite n v s) := by
  unfold hostWrite
  split
  · exact exec_command_meets h v
  · exact writeReg_inv h n v

/-- A bind keeps the invariant if what it binds does. -/
theorem bindStream_meets {s s' : State} (h : Inv s') : OutMeets Inv (bindStream s s') := by
  by_cases hb : s.state = .busy
  · rw [bindStream_busy hb]; exact .inr rfl
  · rw [bindStream_free hb]; exact h

/-- Every event of the outside world keeps the invariant. -/
theorem deliver_meets {s : State} (h : Inv s) (e : Event) : OutMeets Inv (deliver e s) := by
  cases e with
  | hostWrite n v => exact hostWrite_meets h n v
  | hostRead n => exact inv_world h h.tables.cursor
  | resetInput a => exact driveReset_inv h a
  | bindSrc bits reread => exact bindStream_meets (inv_world h (Nat.zero_le _))
  | bindSnk => exact bindStream_meets (inv_world h h.tables.cursor)
  | closeSrc => exact inv_world h h.tables.cursor
  | closeSnk => exact inv_world h h.tables.cursor
  | blockSrc b => exact inv_world h h.tables.cursor
  | blockSnk b => exact inv_world h h.tables.cursor

/-- A step from a consistent state answers a consistent one, or is refused where the spec gives no meaning. -/
theorem step_meets {s : State} (h : Inv s) : OutMeets Inv (step s) := by
  obtain ⟨n, e, rest, -, -, hs⟩ | ⟨-, hs⟩ := step_cases s
  · rw [hs]; exact deliver_meets (inv_world h h.tables.cursor) e
  · rw [hs]; exact runCurrent_meets h

/-- Settles O56: the events keep the invariant, and so does every turn of every phase. -/
theorem stepKeepsConsistency : Obligations.StepKeepsConsistency := by
  unfold Obligations.StepKeepsConsistency
  intro s t h ht
  have hmeets := step_meets h
  rwa [ht] at hmeets

end Sys2Proof.Machine

/-!
PROOFS. `CTRL` and the word the host last read influence no instruction: every operation of the machine commutes with
setting the two, one lemma per shared operation, then per turn, then per instruction.
-/

namespace Sys2Proof.Machine

/-! ### Another IE and another host word -/

/-- The state with another `CTRL.IE` and another word in the host's hands. -/
def setHost (ie : Bool) (w : Word) (s : State) : State := { s with ie := ie, hostData := w }

/-- A turn's answer with the next state changed. -/
def Res.mapState (f : State → State) : Res → Res
  | .go s => .go (f s)
  | .halt (.next s) => .halt (.next (f s))
  | .halt (.fault r) => .halt (.fault r)
  | .halt (.refused r) => .halt (.refused r)

/-- An instruction's answer with the next state changed. -/
def mapNext (f : State → State) : Out → Out
  | .next s => .next (f s)
  | .fault r => .fault r
  | .refused r => .refused r

/-- The turn commutes with setting IE and the host word. -/
def HostBlind (turn : State → Res) : Prop :=
  ∀ ie w s, (turn s).mapState (setHost ie w) = turn (setHost ie w s)

/-- The instruction commutes with setting IE and the host word. -/
def HostBlindOut (run : State → Out) : Prop :=
  ∀ ie w s, mapNext (setHost ie w) (run s) = run (setHost ie w s)

section
variable (ie : Bool) (w : Word) (s : State)

@[simp] theorem setHost_state : (setHost ie w s).state = s.state := rfl
@[simp] theorem setHost_phase : (setHost ie w s).phase = s.phase := rfl
@[simp] theorem setHost_dstate : (setHost ie w s).dstate = s.dstate := rfl
@[simp] theorem setHost_len : (setHost ie w s).len = s.len := rfl
@[simp] theorem setHost_nnodes : (setHost ie w s).nnodes = s.nnodes := rfl
@[simp] theorem setHost_root : (setHost ie w s).root = s.root := rfl
@[simp] theorem setHost_cur : (setHost ie w s).cur = s.cur := rfl
@[simp] theorem setHost_srcpos : (setHost ie w s).srcpos = s.srcpos := rfl
@[simp] theorem setHost_snkpos : (setHost ie w s).snkpos = s.snkpos := rfl
@[simp] theorem setHost_node : (setHost ie w s).node = s.node := rfl
@[simp] theorem setHost_pq : (setHost ie w s).pq = s.pq := rfl
@[simp] theorem setHost_stk : (setHost ie w s).stk = s.stk := rfl
@[simp] theorem setHost_micro : (setHost ie w s).micro = s.micro := rfl
@[simp] theorem setHost_src : (setHost ie w s).src = s.src := rfl
@[simp] theorem setHost_snk : (setHost ie w s).snk = s.snk := rfl
@[simp] theorem setHost_inputs : (setHost ie w s).inputs = s.inputs := rfl
@[simp] theorem setHost_draws : (setHost ie w s).draws = s.draws := rfl
@[simp] theorem codeAt_setHost (i : Nat) : codeAt i (setHost ie w s) = codeAt i s := rfl
@[simp] theorem freqAt_setHost (i : Nat) : freqAt i (setHost ie w s) = freqAt i s := rfl
@[simp] theorem due_setHost : due (setHost ie w s) = due s := rfl

theorem setHost_tick : setHost ie w (tick s) = tick (setHost ie w s) := by
  unfold tick
  rw [setHost_inputs]
  rcases s.inputs with _ | ⟨⟨_ | n, e⟩, rest⟩ <;> rfl

theorem setHost_writeFreq (i v : Nat) : setHost ie w (writeFreq i v s) = writeFreq i v (setHost ie w s) := by
  unfold writeFreq
  split_ifs <;> rfl

theorem setHost_desDone (x : Nat) : setHost ie w (desDone x s) = desDone x (setHost ie w s) := by
  unfold desDone
  rw [setHost_stk, setHost_node]
  rcases desReturn x s.stk s.node with ⟨root, _ | stk, nodes⟩ <;> rfl

end

/-! ### The shared operations -/

section
variable {ie : Bool} {w : Word} {s : State} {k : State → Res}

theorem raise_hostBlind (f : FaultCode) : HostBlind (raise f) := fun _ _ _ => rfl

/-- A turn and what follows it. -/
theorem HostBlind.bind {turn : State → Res} (ht : HostBlind turn) (hk : HostBlind k) :
    HostBlind fun s => (turn s).bind k := by
  intro ie w s
  beta_reduce
  rw [← ht ie w s]
  match turn s with
  | .go s' => exact hk ie w s'
  | .halt (.next _) => rfl
  | .halt (.fault _) => rfl
  | .halt (.refused _) => rfl

/-- An instruction that is one turn. -/
theorem HostBlind.out {turn : State → Res} (ht : HostBlind turn) : HostBlindOut fun s => (turn s).out := by
  intro ie w s
  beta_reduce
  rw [← ht ie w s]
  match turn s with
  | .go _ => rfl
  | .halt (.next _) => rfl
  | .halt (.fault _) => rfl
  | .halt (.refused _) => rfl

theorem HostBlind.rd {n : Nat} {k : Nat → State → Res} {e : State → Res} (hk : ∀ v, HostBlind (k v))
    (he : HostBlind e) : HostBlind fun s => rd n s k e := by
  intro ie w s
  beta_reduce
  unfold Machine.rd
  rw [setHost_src, setHost_draws, setHost_srcpos]
  obtain ⟨a, src⟩ := s.src.readBits n (Config.bitsExhaustedConsumes s.draws)
  cases a with
  | value v =>
    by_cases hp : s.srcpos + n < Config.posLimit
    · simp only [if_pos hp]; exact hk v ie w _
    · simp only [if_neg hp]; rfl
  | exhausted => exact he ie w _
  | ioFail => rfl
  | waits => rfl

theorem HostBlind.rewind (hk : HostBlind k) : HostBlind fun s => rewind s k := by
  intro ie w s
  beta_reduce
  unfold Machine.rewind
  rw [setHost_src]
  obtain ⟨a, src⟩ := s.src.rewind
  cases a with
  | value | exhausted => exact hk ie w _
  | ioFail | waits => rfl

theorem HostBlind.wr {n v : Nat} (hk : HostBlind k) : HostBlind fun s => wr n v s k := by
  intro ie w s
  beta_reduce
  unfold Machine.wr
  rw [setHost_snk, setHost_snkpos]
  obtain ⟨a, snk⟩ := s.snk.writeBits n v
  cases a with
  | value | exhausted =>
    by_cases hp : s.snkpos + n < Config.posLimit
    · simp only [if_pos hp]; exact hk ie w _
    · simp only [if_neg hp]; rfl
  | ioFail | waits => rfl

theorem HostBlind.emit (hk : HostBlind k) (c : Bits) : HostBlind fun s => emit c s k := by
  induction c with
  | nil => exact hk
  | cons b c ih => exact HostBlind.wr ih

theorem HostBlind.closeSink (hk : HostBlind k) : HostBlind fun s => closeSink s k := by
  intro ie w s
  dsimp only [Machine.closeSink]
  rw [setHost_snk, setHost_draws]
  obtain ⟨a, snk⟩ := s.snk.close (padBits (padLength s.snk.bits.length) s.draws)
  cases a with
  | value | exhausted => exact hk ie w _
  | ioFail | waits => rfl

theorem HostBlind.putInternal (hk : HostBlind k) : HostBlind fun s => putInternal s k := HostBlind.wr hk

theorem HostBlind.putLeafTag (hk : HostBlind k) : HostBlind fun s => putLeafTag s k := HostBlind.wr hk

theorem HostBlind.putLeafSym (sym : Sym) (hk : HostBlind k) : HostBlind fun s => putLeafSym sym s k := HostBlind.wr hk

/-- A read of a counter; each continuation may hold its own state. -/
theorem readFreq_setHost {i : Nat} {k k' : Nat → Res} (hk : ∀ v, (k v).mapState (setHost ie w) = k' v) :
    (readFreq i s k).mapState (setHost ie w) = readFreq i (setHost ie w s) k' := by
  unfold readFreq
  rw [freqAt_setHost]
  cases freqAt i s with
  | none => rfl
  | some v => exact hk v

/-- A read of a node; each continuation may hold its own state. -/
theorem readNode_setHost {h : Handle} {k k' : Node → Res} (hk : ∀ n, (k n).mapState (setHost ie w) = k' n) :
    (readNode h s k).mapState (setHost ie w) = readNode h (setHost ie w s) k' := by
  cases h with
  | none => rfl
  | some i =>
    unfold readNode
    rw [setHost_node]
    simp only
    cases Table.read s.node i with
    | none => rfl
    | some n => exact hk n

theorem writeCode_hostBlind (sym : Sym) (c : Bits) : HostBlind (writeCode sym c) := by
  intro ie w s
  unfold writeCode
  split_ifs <;> rfl

/-- The return of a walk, if what the phase does beside it commutes. -/
theorem walkBack_hostBlind {onRight onPop : State → State}
    (hr : ∀ ie w s, setHost ie w (onRight s) = onRight (setHost ie w s))
    (hp : ∀ ie w s, setHost ie w (onPop s) = onPop (setHost ie w s)) : HostBlind (walkBack onRight onPop) := by
  intro ie w s
  unfold walkBack
  rw [setHost_stk]
  rcases s.stk with _ | ⟨e, rest⟩
  · rfl
  · by_cases he : e.leftDone = true
    · simp only [if_pos he, ← hp]; rfl
    · simp only [if_neg he, ← hr]; exact readNode_setHost fun n => rfl

end

/-! ### The turns of the phases -/

theorem countByte_hostBlind (r : Nat) : HostBlind (countByte r) := by
  intro ie w s
  unfold countByte
  rw [setHost_len]
  split_ifs
  · rfl
  · exact readFreq_setHost fun v => by rw [← setHost_writeFreq]; rfl

theorem countTurn_hostBlind : HostBlind countTurn := by
  intro ie w s
  unfold countTurn
  rw [setHost_micro]
  cases s.micro with
  | loop => exact HostBlind.rd countByte_hostBlind (fun _ _ _ => rfl) ie w s
  | _ => rfl

theorem insertLeaf_hostBlind (sym : Nat) : HostBlind (insertLeaf sym) := fun _ _ _ =>
  readFreq_setHost fun v => by split_ifs <;> rfl

theorem insertLeaves_hostBlind (syms : List Nat) : HostBlind (insertLeaves syms) := by
  induction syms with
  | nil => exact fun _ _ _ => rfl
  | cons sym syms ih => exact (insertLeaf_hostBlind sym).bind ih

theorem mergeTurn_hostBlind : HostBlind mergeTurn := by
  intro ie w s
  unfold mergeTurn
  rw [setHost_pq]
  rcases s.pq with _ | ⟨a, _ | ⟨b, q⟩⟩
  · rfl
  · rfl
  · exact readNode_setHost fun na => readNode_setHost fun nb => rfl

theorem buildTurn_hostBlind : HostBlind buildTurn := by
  intro ie w s
  unfold buildTurn
  rw [setHost_micro]
  cases s.micro with
  | start => exact (insertLeaves_hostBlind _).bind (fun _ _ _ => rfl) ie w _
  | loop => exact mergeTurn_hostBlind ie w s
  | _ => rfl

theorem deriveVisit_hostBlind (h : Handle) : HostBlind (deriveVisit h) := by
  intro ie w s
  refine readNode_setHost fun n => ?_
  split_ifs
  · exact (writeCode_hostBlind n.sym s.trail).bind (fun _ _ _ => rfl) ie w s
  · cases h <;> rfl

theorem deriveTurn_hostBlind : HostBlind deriveTurn := by
  intro ie w s
  unfold deriveTurn
  rw [setHost_micro]
  cases s.micro with
  | visit h => exact deriveVisit_hostBlind h ie w s
  | back => exact walkBack_hostBlind (fun _ _ _ => rfl) (fun _ _ _ => rfl) ie w s
  | _ => rfl

theorem putMagic_hostBlind (m : Word) : HostBlind (putMagic m) := HostBlind.wr fun _ _ _ => rfl

theorem wrmagicTurn_hostBlind : HostBlind wrmagicTurn := by
  intro ie w s
  unfold wrmagicTurn
  rw [setHost_micro]
  cases s.micro with
  | start => exact putMagic_hostBlind _ ie w s
  | _ => rfl

theorem wrtreeVisit_hostBlind (h : Handle) : HostBlind (wrtreeVisit h) := by
  intro ie w s
  refine readNode_setHost fun n => ?_
  split_ifs
  · exact HostBlind.putLeafTag (fun _ _ _ => rfl) ie w s
  · cases h with
    | none => rfl
    | some i => exact HostBlind.putInternal (fun _ _ _ => rfl) ie w s

theorem wrtreeTurn_hostBlind : HostBlind wrtreeTurn := by
  intro ie w s
  unfold wrtreeTurn
  rw [setHost_micro]
  cases s.micro with
  | visit h => exact wrtreeVisit_hostBlind h ie w s
  | symField sym => exact HostBlind.putLeafSym sym (fun _ _ _ => rfl) ie w s
  | back => exact walkBack_hostBlind (fun _ _ _ => rfl) (fun _ _ _ => rfl) ie w s
  | _ => rfl

theorem encodeByte_hostBlind (b : Nat) : HostBlind (encodeByte b) := by
  intro ie w s
  unfold encodeByte
  rw [codeAt_setHost]
  cases codeAt b s <;> rfl

theorem encodeEof_hostBlind : HostBlind encodeEof := by
  intro ie w s
  unfold encodeEof
  rw [codeAt_setHost]
  cases codeAt Config.pseudoEof s <;> rfl

theorem encodeTurn_hostBlind : HostBlind encodeTurn := by
  intro ie w s
  unfold encodeTurn
  rw [setHost_micro]
  cases s.micro with
  | start => exact HostBlind.rewind (fun _ _ _ => rfl) ie w s
  | loop => exact HostBlind.rd encodeByte_hostBlind encodeEof_hostBlind ie w s
  | emit c last =>
    cases c with
    | nil => cases last <;> rfl
    | cons b c => exact HostBlind.wr (fun _ _ _ => rfl) ie w s
  | _ => rfl

theorem flushTurn_hostBlind : HostBlind flushTurn := by
  intro ie w s
  unfold flushTurn
  rw [setHost_micro]
  cases s.micro with
  | start => exact HostBlind.closeSink (fun _ _ _ => rfl) ie w s
  | _ => rfl

theorem checkMagic_hostBlind (m : Word) : HostBlind (checkMagic m) := by
  intro ie w s
  unfold checkMagic
  split_ifs <;> rfl

theorem rdmagicTurn_hostBlind : HostBlind rdmagicTurn := by
  intro ie w s
  unfold rdmagicTurn
  rw [setHost_micro]
  cases s.micro with
  | start => exact HostBlind.rd (fun _ => checkMagic_hostBlind _) (raise_hostBlind _) ie w s
  | _ => rfl

theorem desTag_hostBlind (t : Nat) : HostBlind (desTag t) := by
  intro ie w s
  unfold desTag
  rw [setHost_nnodes]
  split_ifs <;> rfl

theorem desLeaf_hostBlind (h v : Nat) : HostBlind (desLeaf h v) := fun ie w s =>
  congrArg Res.go (setHost_desDone ie w (writeNode h (mkLeaf (BitVec.ofNat 9 v) 0) s) h)

theorem rdtreeTurn_hostBlind : HostBlind rdtreeTurn := by
  intro ie w s
  unfold rdtreeTurn
  rw [setHost_micro]
  cases s.micro with
  | loop => exact HostBlind.rd desTag_hostBlind (raise_hostBlind _) ie w s
  | leafField h => exact HostBlind.rd (desLeaf_hostBlind h) (raise_hostBlind _) ie w s
  | _ => rfl

theorem arrive_hostBlind (h : Handle) : HostBlind (arrive h) := fun _ _ _ => readNode_setHost fun _ => rfl

theorem decodeRoot_hostBlind : HostBlind decodeRoot := fun ie w s => arrive_hostBlind s.root ie w s

theorem decodeBit_hostBlind (t : Nat) : HostBlind (decodeBit t) := by
  intro ie w s
  refine readNode_setHost fun n => ?_
  cases if t = 0 then n.left else n.right with
  | none => rfl
  | some h => exact arrive_hostBlind (some h) ie w s

theorem decodeLeaf_hostBlind : HostBlind decodeLeaf := by
  intro ie w s
  refine readNode_setHost fun n => ?_
  rw [setHost_cur, setHost_root]
  split_ifs
  · rfl
  · rfl
  · rfl
  · exact HostBlind.wr (fun _ _ _ => rfl) ie w s

theorem decodeTurn_hostBlind : HostBlind decodeTurn := by
  intro ie w s
  unfold decodeTurn
  rw [setHost_micro, setHost_dstate]
  cases s.micro with
  | loop =>
    cases s.dstate with
    | atRoot => exact decodeRoot_hostBlind ie w s
    | atInternal => exact HostBlind.rd decodeBit_hostBlind (raise_hostBlind _) ie w s
    | atLeaf => exact decodeLeaf_hostBlind ie w s
    | accept => rfl
  | _ => rfl

/-! ### The instructions -/

/-- Turns that commute make a phase that commutes: neither its end nor the events due depend on the two. -/
theorem runTurns_hostBlind {p : Phase} {turn : State → Res} (ht : HostBlind turn) (n : Nat) :
    HostBlindOut (runTurns p turn n) := by
  intro ie w s
  induction n generalizing s with
  | zero => rfl
  | succ n ih =>
    rw [runTurns, runTurns, setHost_state, setHost_phase, due_setHost, ← setHost_tick, ← ht]
    split_ifs
    · match turn (tick s) with
      | .go s' => exact ih s'
      | .halt (.next _) => rfl
      | .halt (.fault _) => rfl
      | .halt (.refused _) => rfl
    · rfl

theorem runPhase_hostBlind {p : Phase} {turn : State → Res} (ht : HostBlind turn) :
    HostBlindOut (runPhase p turn) := by
  intro ie w s
  unfold runPhase
  rw [setHost_state, setHost_phase]
  by_cases hb : s.state = .busy
  · simp only [if_pos hb]
    split_ifs
    · exact runTurns_hostBlind ht _ ie w s
    · exact runTurns_hostBlind ht _ ie w (enterPhase p s)
  · simp only [if_neg hb]; rfl

theorem startRun_hostBlind (p : Phase) : HostBlindOut (startRun p) := by
  intro ie w s
  by_cases ha : Accepting s
  · rw [startRun_accepted ha]; exact (startRun_accepted (s := setHost ie w s) ha).symm
  · rw [startRun_ignored ha]; exact (startRun_ignored (s := setHost ie w s) ha).symm

theorem reservedCommand_hostBlind : HostBlindOut reservedCommand := by
  intro ie w s
  by_cases ha : Accepting s
  · rw [reservedCommand_accepted ha]; exact (reservedCommand_accepted (s := setHost ie w s) ha).symm
  · rw [reservedCommand_ignored ha]; exact (reservedCommand_ignored (s := setHost ie w s) ha).symm

theorem execMagic_hostBlind (field : Word) : HostBlindOut (execMagic field) := by
  intro ie w s
  unfold execMagic
  rw [setHost_state, setHost_phase]
  cases s.state with
  | busy =>
    cases s.phase with
    | wrmagic => exact (putMagic_hostBlind field).out ie w s
    | rdmagic => exact (HostBlind.rd (fun _ => checkMagic_hostBlind field) (raise_hostBlind _)).out ie w s
    | _ => rfl
  | _ => rfl

theorem execInternal_hostBlind : HostBlindOut execInternal := by
  intro ie w s
  unfold execInternal
  rw [setHost_state, setHost_phase]
  cases s.state with
  | busy =>
    cases s.phase with
    | wrtree => exact (HostBlind.putInternal fun _ _ _ => rfl).out ie w s
    | rdtree => exact (HostBlind.rd (fun _ => desTag_hostBlind 0) (raise_hostBlind _)).out ie w s
    | _ => rfl
  | _ => rfl

theorem execLeaf_hostBlind (sym : Sym) : HostBlindOut (execLeaf sym) := by
  have hfield (h : Nat) : HostBlind fun s => rd 9 s (fun _ => desLeaf h sym.toNat) (raise .malformedHeader) :=
    HostBlind.rd (fun _ => desLeaf_hostBlind h sym.toNat) (raise_hostBlind _)
  intro ie w s
  unfold execLeaf
  rw [setHost_state, setHost_phase]
  cases s.state with
  | busy =>
    cases s.phase with
    | wrtree => exact (HostBlind.putLeafTag (HostBlind.putLeafSym sym fun _ _ _ => rfl)).out ie w s
    | rdtree =>
      refine (HostBlind.rd (fun _ ie w s => ?_) (raise_hostBlind _)).out ie w s
      exact (desTag_hostBlind 1).bind (hfield s.nnodes) ie w s
    | _ => rfl
  | _ => rfl

theorem walkBits_hostBlind (c : Bits) : HostBlind (walkBits c) := by
  induction c with
  | nil => exact fun _ _ _ => rfl
  | cons b c ih => exact (HostBlind.rd (fun _ => decodeBit_hostBlind _) (raise_hostBlind _)).bind ih

theorem codeEnd_hostBlind : HostBlind codeEnd := by
  intro ie w s
  unfold codeEnd
  rw [setHost_dstate]
  cases s.dstate with
  | atLeaf => exact decodeLeaf_hostBlind ie w s
  | _ => rfl

theorem execCodeword_hostBlind (c : Bits) : HostBlindOut (execCodeword c) := by
  intro ie w s
  unfold execCodeword
  rw [setHost_state, setHost_phase]
  cases s.state with
  | busy =>
    cases s.phase with
    | encode => exact (HostBlind.emit (fun _ _ _ => rfl) c).out ie w s
    | decode => exact ((decodeRoot_hostBlind.bind (walkBits_hostBlind c)).bind codeEnd_hostBlind).out ie w s
    | _ => rfl
  | _ => rfl

/-- No instruction looks at IE or at the host word. -/
theorem exec_hostBlind (i : Instr) : HostBlindOut (exec i) := by
  cases i with
  | nop => exact fun _ _ _ => rfl
  | compress => exact startRun_hostBlind .count
  | decompress => exact startRun_hostBlind .rdmagic
  | reservedOp3 => exact reservedCommand_hostBlind
  | reservedHigh value => exact reservedCommand_hostBlind
  | count => exact runPhase_hostBlind countTurn_hostBlind
  | build => exact runPhase_hostBlind buildTurn_hostBlind
  | derive => exact runPhase_hostBlind deriveTurn_hostBlind
  | wrmagic => exact runPhase_hostBlind wrmagicTurn_hostBlind
  | wrtree => exact runPhase_hostBlind wrtreeTurn_hostBlind
  | encode => exact runPhase_hostBlind encodeTurn_hostBlind
  | flush => exact runPhase_hostBlind flushTurn_hostBlind
  | rdmagic => exact runPhase_hostBlind rdmagicTurn_hostBlind
  | rdtree => exact runPhase_hostBlind rdtreeTurn_hostBlind
  | decode => exact runPhase_hostBlind decodeTurn_hostBlind
  | phaseNone => exact fun _ _ _ => rfl
  | magic field => exact execMagic_hostBlind field
  | internal => exact execInternal_hostBlind
  | leaf sym => exact execLeaf_hostBlind sym
  | codeword code => exact execCodeword_hostBlind code

/-- Settles O13: all three answers of an instruction commute with setting IE and the host word. -/
theorem hostAccessesDoNotInfluenceRuns : Obligations.HostAccessesDoNotInfluenceRuns := by
  unfold Obligations.HostAccessesDoNotInfluenceRuns
  intro i s ie w
  have hblind := (exec_hostBlind i ie w s).symm
  refine ⟨fun t ht => ?_, fun f hf => ?_, fun r hr => ?_⟩
  · rw [ht] at hblind; exact hblind
  · rw [hf] at hblind; exact hblind
  · rw [hr] at hblind; exact hblind

end Sys2Proof.Machine

/-!
PROOFS. The control registers a host sees, the values after reset, and what the sequencer hands control to: one lemma
per register or shared operation, then the statements.
-/

namespace Sys2Proof.Machine

open BitVec (extractLsb'_append_eq_left extractLsb'_append_eq_right extractLsb'_append_eq_of_le
  extractLsb'_append_eq_of_add_le extractLsb'_append_extractLsb'_eq_extractLsb' extractLsb'_eq_self)

/-! ### Safety of a step -/

/-- Settles O57: a step from a consistent state never faults, since it meets the invariant or is refused. -/
theorem consistentStepNeverFaults : Obligations.ConsistentStepNeverFaults := by
  unfold Obligations.ConsistentStepNeverFaults
  intro s h
  have hmeets := step_meets h
  unfold SafeStep
  cases hs : step s with
  | next t => trivial
  | fault r => rw [hs] at hmeets; exact hmeets
  | refused r => rw [hs] at hmeets; exact hmeets

/-! ### The state after reset -/

/-- Settles O55: outside a run the invariant asks only for empty tables and small registers. -/
theorem resetIsConsistent : Obligations.ResetIsConsistent := by
  unfold Obligations.ResetIsConsistent
  refine ⟨⟨by decide, by decide, by decide, nofun, nofun⟩, ⟨rfl, rfl, rfl, Nat.le_refl _⟩, ?_, nofun⟩
  exact {
    len_le := Nat.zero_le _, seq_le := Nat.zero_le _, nnodes_le := Nat.zero_le _, trail_le := Nat.zero_le _
    srcpos_lt := by decide, snkpos_lt := by decide
    freq_le := nofun, node_le := nofun, pq_le := Nat.zero_le _
    code_le := nofun, stk_le := Nat.zero_le _ }

/-- A read of an unspecified counter stops the model. -/
theorem readFreq_unspecified {i : Nat} {s : State} (h : freqAt i s = none) (k : Nat → Res) :
    readFreq i s k = modelFault (.unspecifiedRead .freq i) := by
  simp [readFreq, h]

/-- A read of an unspecified node stops the model. -/
theorem readNode_unspecified {i : Nat} {s : State} (h : Table.read s.node i = none) (k : Node → Res) :
    readNode (some i) s k = modelFault (.unspecifiedRead .node i) := by
  simp [readNode, h]

/-- Every counter but the hardwired one is unspecified after reset. -/
theorem freqAt_reset {i : Nat} (h : i ≠ 256) : freqAt i State.reset = none := if_neg h

/-- Settles O23: the values of R33 stand in `State.reset`, and per-run initialisation writes the same. -/
theorem resetValues : Obligations.ResetValues := by
  unfold Obligations.ResetValues
  refine ⟨fun _ => rfl, fun _ _ k h => readFreq_unspecified h k, fun _ _ k h => readNode_unspecified h k, ?_⟩
  exact ⟨rfl, rfl, rfl, rfl, rfl, rfl, rfl, rfl, rfl, rfl, rfl, rfl, rfl, rfl, rfl, rfl, rfl,
    fun _ => freqAt_reset, fun _ => rfl, fun _ => rfl, fun _ => rfl⟩

/-! ### Handing control to a phase -/

/-- The turn of a phase, as the instruction of the phase runs it; `noPhase` has no turn of its own. -/
def Phase.turn : Phase → State → Res
  | .noPhase => .go
  | .count => countTurn
  | .build => buildTurn
  | .derive => deriveTurn
  | .wrmagic => wrmagicTurn
  | .wrtree => wrtreeTurn
  | .encode => encodeTurn
  | .flush => flushTurn
  | .rdmagic => rdmagicTurn
  | .rdtree => rdtreeTurn
  | .decode => decodeTurn

/-- A phase instruction runs the turns of its phase. -/
theorem exec_phase_instr {p : Phase} (hp : p ≠ .noPhase) (s : State) : exec p.instr s = runPhase p p.turn s := by
  cases p with
  | noPhase => exact absurd rfl hp
  | _ => rfl

section
variable {p : Phase} {turn : State → Res} {s : State}

/-- Outside a run no phase runs. -/
theorem runPhase_waits (hb : s.state ≠ .busy) : runPhase p turn s = .next s := if_neg hb

/-- A phase that is running goes on with its turns. -/
theorem runPhase_goes_on (hb : s.state = .busy) (hp : s.phase = p) :
    runPhase p turn s = runTurns p turn (turnBound s) s := by
  simp [runPhase, hb, hp]

/-- A phase that is not running starts at its first line. -/
theorem runPhase_enters (hb : s.state = .busy) (hp : s.phase ≠ p) :
    runPhase p turn s = runPhase p turn (enterPhase p s) := by
  rw [runPhase_goes_on (p := p) (s := enterPhase p s) hb rfl]
  simp only [runPhase, if_pos hb, if_neg hp]

end

/-- Settles O50: a phase instruction is `runPhase` of its phase, which does nothing outside a run. -/
theorem phaseInstructionsHandControl : Obligations.PhaseInstructionsHandControl := by
  unfold Obligations.PhaseInstructionsHandControl
  refine fun s => ⟨rfl, fun p hp => ⟨fun hb => ?_, fun hb hne => ?_⟩⟩
  · rw [exec_phase_instr hp, runPhase_waits hb]
  · rw [exec_phase_instr hp, exec_phase_instr hp, runPhase_enters hb hne]

/-- Settles O4: with nothing due a step is `runCurrent`, which runs what the PHASE bits stand for. -/
theorem stepRunsPhase : Obligations.StepRunsPhase := by
  unfold Obligations.StepRunsPhase
  refine fun s h => ⟨fun i hi => ?_, fun hb => ?_, fun hb => ?_⟩
  · simp only [step_runs h, runCurrent, hi]
  · have hbits : phaseBits s = s.phase.code := if_pos hb
    exact ⟨hbits, hbits ▸ decodePhase_code s.phase⟩
  · have hbits : phaseBits s = Phase.noPhase.code := if_neg hb
    exact hbits ▸ decodePhase_code .noPhase

/-! ### Control registers -/

/-- A write of a register that is neither CMD nor CTRL changes nothing (`10_state.md` R12 to R16). -/
theorem deliver_write_readOnly {n : Nat} (h0 : n ≠ 0) (h5 : n ≠ 5) (v : Word) (s : State) :
    deliver (.hostWrite n v) s = .next s := by
  have hw : writeReg n v s = s := by
    unfold writeReg
    split
    · contradiction
    · rfl
  simp only [deliver, hostWrite, if_neg h0, hw]

/-- Out of reset a write of CTRL sets IE from bit 0 (R15). -/
theorem deliver_write_ctrl {s : State} (hr : s.rst = false) (v : Word) :
    deliver (.hostWrite 5 v) s = .next { s with ie := v.getLsbD 0 } := by
  simp [deliver, hostWrite, writeReg, hr]

/-- Held in reset the block takes no write of CTRL (`70_reset_and_hazards.md` R190). -/
theorem deliver_write_ctrl_held {s : State} (hr : s.rst = true) (v : Word) :
    deliver (.hostWrite 5 v) s = .next s := congrArg _ (writeReg_held hr 5 v)

/-- The fields of STATUS (R12). -/
theorem statusWord_fields (s : State) :
    (statusWord s).extractLsb' 0 2 = s.state.code ∧ (statusWord s).extractLsb' 2 4 = s.phase.code ∧
      (statusWord s).extractLsb' 6 2 = s.dstate.code ∧ (statusWord s).extractLsb' 8 24 = 0#24 := by
  have hphase : (statusWord s).extractLsb' 2 4 = s.phase.code :=
    (extractLsb'_append_eq_of_le (by decide)).trans extractLsb'_append_eq_right
  have hdstate : (statusWord s).extractLsb' 6 2 = s.dstate.code :=
    (extractLsb'_append_eq_of_le (by decide)).trans
      ((extractLsb'_append_eq_of_le (by decide)).trans extractLsb'_append_eq_right)
  have hrest : (statusWord s).extractLsb' 8 24 = 0#24 :=
    (extractLsb'_append_eq_of_le (by decide)).trans
      ((extractLsb'_append_eq_of_le (by decide)).trans extractLsb'_append_eq_left)
  exact ⟨extractLsb'_append_eq_right, hphase, hdstate, hrest⟩

/-- Settles O14: register 1 is the word of the three fields, and no write reaches it. -/
theorem statusRegister : Obligations.StatusRegister := by
  unfold Obligations.StatusRegister
  refine ⟨fun s => ?_, rfl, rfl, rfl, rfl⟩
  obtain ⟨hstate, hphase, hdstate, hrest⟩ := statusWord_fields s
  exact ⟨hstate, hphase, hdstate, hrest, fun v => deliver_write_readOnly (by decide) (by decide) v s⟩

/-- The fields of ERR (R13). -/
theorem errWord_fields (s : State) :
    (errWord s).extractLsb' 0 4 = errCode s ∧ (errWord s).extractLsb' 4 28 = 0#28 :=
  ⟨extractLsb'_append_eq_right, extractLsb'_append_eq_left⟩

/-- No fault has the code 0 (`30_encoding.md` R73). -/
theorem faultCode_code_ne_zero (f : FaultCode) : f.code ≠ 0 := by cases f <;> decide

/-- With no fault ERR reads 0. -/
theorem errWord_of_none {s : State} (h : s.err = none) : errWord s = 0#32 := by
  simp [errWord, errCode, h]

/-- With a fault the code of ERR is the fault's. -/
theorem errCode_of_some {s : State} {f : FaultCode} (h : s.err = some f) : errCode s = f.code := by
  simp [errCode, h]

/-- ERR reads 0 exactly when there is no fault. -/
theorem errWord_ne_zero_iff (s : State) : errWord s ≠ 0#32 ↔ s.err.isSome = true := by
  cases he : s.err with
  | none => simp [errWord_of_none he]
  | some f =>
    refine iff_of_true (fun hz => faultCode_code_ne_zero f ?_) rfl
    rw [← errCode_of_some he, ← (errWord_fields s).1, hz]
    rfl

/-- Settles O15: register 2 shows the fault, and in a consistent state a fault is there exactly when FAULTED. -/
theorem errRegister : Obligations.ErrRegister := by
  unfold Obligations.ErrRegister
  refine ⟨fun s => ⟨errWord_of_none, fun f hf => ?_, ?_⟩, rfl, fun s h => ?_⟩
  · obtain ⟨hcode, hrest⟩ := errWord_fields s
    exact ⟨hcode.trans (errCode_of_some hf), hrest⟩
  · exact fun v => deliver_write_readOnly (by decide) (by decide) v s
  · exact (errWord_ne_zero_iff s).trans h.control.err_iff

/-- Settles O16: registers 4 and 3 are the halves of ERRPOS, and no write reaches them. -/
theorem errposRegister : Obligations.ErrposRegister := by
  unfold Obligations.ErrposRegister
  refine fun s => ⟨?_, fun v => ⟨?_, ?_⟩, fun _ => rfl, rfl, rfl, rfl⟩
  · exact (extractLsb'_append_extractLsb'_eq_extractLsb' rfl).trans extractLsb'_eq_self
  · exact deliver_write_readOnly (by decide) (by decide) v s
  · exact deliver_write_readOnly (by decide) (by decide) v s

/-- The fields of CTRL (R15). -/
theorem ctrlWord_fields (s : State) :
    (ctrlWord s).getLsbD 0 = s.ie ∧ (ctrlWord s).extractLsb' 1 31 = 0#31 :=
  ⟨by unfold ctrlWord; cases s.ie <;> rfl, extractLsb'_append_eq_left⟩

/-- No instruction changes IE: setting IE to the value it has changes nothing before the instruction, so it changes
nothing after it. -/
theorem exec_keeps_ie {i : Instr} {s t : State} (h : exec i s = .next t) : t.ie = s.ie := by
  have hblind : mapNext (setHost s.ie s.hostData) (exec i s) = exec i s := exec_hostBlind i s.ie s.hostData s
  rw [h] at hblind
  have hset : setHost s.ie s.hostData t = t := Host.Outcome.next.inj hblind
  exact (congrArg State.ie hset).symm

/-- Settles O17: CTRL is written by the host alone, and not while it is held in reset. -/
theorem ctrlRegister : Obligations.CtrlRegister := by
  unfold Obligations.CtrlRegister
  refine ⟨fun s => ?_, fun _ _ _ => exec_keeps_ie, rfl⟩
  obtain ⟨hie, hrest⟩ := ctrlWord_fields s
  exact ⟨hie, hrest, fun v hr => deliver_write_ctrl hr v, fun v hr => deliver_write_ctrl_held hr v, fun _ => rfl⟩

/-- Numbers above 5 read 0. -/
theorem readReg_above {n : Nat} (h : 5 < n) (s : State) : readReg n s = 0#32 := by
  obtain ⟨m, rfl⟩ := Nat.exists_eq_add_of_le' (show 6 ≤ n from h)
  rfl

/-- A read shows the control registers and nothing else. -/
theorem readReg_congr {s s' : State} (n : Nat) (hstate : s.state = s'.state) (hphase : s.phase = s'.phase)
    (hdstate : s.dstate = s'.dstate) (herr : s.err = s'.err) (herrpos : s.errpos = s'.errpos) (hie : s.ie = s'.ie) :
    readReg n s = readReg n s' := by
  simp only [readReg, statusWord, errWord, errCode, ctrlWord, hstate, hphase, hdstate, herr, herrpos, hie]

/-- Settles O18: what reads and writes of the other numbers do. -/
theorem otherRegisters : Obligations.OtherRegisters := by
  unfold Obligations.OtherRegisters
  refine ⟨fun s n h => readReg_above h s, fun s n v h0 h5 => deliver_write_readOnly h0 h5 v s, fun s v w hvw => ?_,
    fun s s' n => readReg_congr n, fun s => ⟨rfl, fun _ => rfl⟩⟩
  cases hr : s.rst with
  | false => rw [deliver_write_ctrl hr, deliver_write_ctrl hr, hvw]
  | true => rw [deliver_write_ctrl_held hr, deliver_write_ctrl_held hr]

end Sys2Proof.Machine

/-!
PROOFS. The transitions of STATE: what a turn of a run may do to STATE, one lemma per shared operation, then per turn,
then for a whole phase; the commands and the other events beside it.
-/

namespace Sys2Proof.Machine

/-! ### What every next state of a turn has -/

/-- Every next state a turn answers has the property `P`; of the model's faults and refusals it says nothing. -/
def Res.Yields (P : State → Prop) : Res → Prop
  | .go s => P s
  | .halt (.next s) => P s
  | .halt _ => True

/-- A turn and what follows it: a `.halt` of the first is the answer of both. -/
theorem Res.Yields.bind {P Q : State → Prop} {r : Res} {k : State → Res} (h : r.Yields P)
    (hk : ∀ s, P s → (k s).Yields Q) (hpq : ∀ s, P s → Q s) : (r.bind k).Yields Q := by
  match r, h with
  | .go s, h => exact hk s h
  | .halt (.next s), h => exact hpq s h
  | .halt (.fault _), _ => trivial
  | .halt (.refused _), _ => trivial

theorem readFreq_yields {P : State → Prop} {i : Nat} {s : State} {k : Nat → Res} (hk : ∀ w, (k w).Yields P) :
    (readFreq i s k).Yields P := by
  unfold readFreq
  cases freqAt i s with
  | none => trivial
  | some w => exact hk w

theorem readNode_yields {P : State → Prop} {h : Handle} {s : State} {k : Node → Res} (hk : ∀ n, (k n).Yields P) :
    (readNode h s k).Yields P := by
  cases h with
  | none => trivial
  | some i =>
    simp only [readNode]
    cases Table.read s.node i with
    | none => trivial
    | some n => exact hk n

/-! ### What a turn of a run may do to STATE -/

/-- The run stands in phase `p`. -/
def Running (p : Phase) (s : State) : Prop := s.state = .busy ∧ s.phase = p

/-- What a turn in phase `p` leaves: the run goes on, or FLUSH has completed it, or a fault has ended it in `p`
(`10_state.md` R17). -/
def RunOutcome (p : Phase) (t : State) : Prop :=
  t.state = .busy ∨ (t.state = .done ∧ p = .flush) ∨ (t.state = .faulted ∧ t.phase = p ∧ t.err.isSome = true)

/-- Every turn in phase `p` leaves the run as `RunOutcome` says. -/
def KeepsRun (p : Phase) (turn : State → Res) : Prop := ∀ s, Running p s → (turn s).Yields (RunOutcome p)

section
variable {p : Phase} {s : State} {k : State → Res}

theorem runOutcome_of_busy (hb : s.state = .busy) : RunOutcome p s := .inl hb

/-- Completion ends the run from FLUSH. -/
theorem runOutcome_complete : RunOutcome .flush (complete s) := .inr (.inl ⟨rfl, rfl⟩)

theorem Running.outcome (hs : Running p s) : RunOutcome p s := .inl hs.1

/-- A fault ends the run in its phase. -/
theorem Running.fault (hs : Running p s) (f : FaultCode) : RunOutcome p (faultEntry f s) :=
  .inr (.inr ⟨rfl, hs.2, rfl⟩)

theorem raise_keepsRun (f : FaultCode) : KeepsRun p (raise f) := fun _ hs => hs.fault f

/-- A turn that leaves STATE alone and hands on. -/
theorem Running.go {t : State} (hs : Running p s) (ht : t.state = s.state) : (Res.go t).Yields (RunOutcome p) :=
  runOutcome_of_busy (ht.trans hs.1)

theorem Running.rd {n : Nat} {k : Nat → State → Res} {e : State → Res} (hs : Running p s)
    (hk : ∀ v, KeepsRun p (k v)) (he : KeepsRun p e) : (rd n s k e).Yields (RunOutcome p) := by
  dsimp only [Machine.rd]
  obtain ⟨a, src⟩ := s.src.readBits n (Config.bitsExhaustedConsumes s.draws)
  cases a with
  | value v =>
    by_cases hp : s.srcpos + n < Config.posLimit
    · simp only [if_pos hp]; exact hk v _ hs
    · simp only [if_neg hp]; trivial
  | exhausted => exact he _ hs
  | ioFail => exact hs.fault _
  | waits => exact hs.outcome

theorem Running.rewind (hs : Running p s) (hk : KeepsRun p k) : (rewind s k).Yields (RunOutcome p) := by
  dsimp only [Machine.rewind]
  obtain ⟨a, src⟩ := s.src.rewind
  cases a with
  | value | exhausted => exact hk _ hs
  | ioFail => exact hs.fault _
  | waits => exact hs.outcome

theorem Running.wr {n v : Nat} (hs : Running p s) (hk : KeepsRun p k) : (wr n v s k).Yields (RunOutcome p) := by
  dsimp only [Machine.wr]
  obtain ⟨a, snk⟩ := s.snk.writeBits n v
  cases a with
  | value | exhausted =>
    by_cases hp : s.snkpos + n < Config.posLimit
    · simp only [if_pos hp]; exact hk _ hs
    · simp only [if_neg hp]; trivial
  | ioFail => exact hs.fault _
  | waits => exact hs.outcome

theorem Running.closeSink (hs : Running p s) (hk : KeepsRun p k) : (closeSink s k).Yields (RunOutcome p) := by
  dsimp only [Machine.closeSink]
  obtain ⟨a, snk⟩ := s.snk.close (padBits (padLength s.snk.bits.length) s.draws)
  cases a with
  | value | exhausted => exact hk _ hs
  | ioFail => exact hs.fault _
  | waits => exact hs.outcome

theorem walkBack_keepsRun {onRight onPop : State → State} (hr : ∀ s, (onRight s).state = s.state)
    (hp : ∀ s, (onPop s).state = s.state) : KeepsRun p (walkBack onRight onPop) := by
  intro s hs
  unfold walkBack
  rcases s.stk with _ | ⟨e, rest⟩
  · exact hs.go rfl
  · by_cases he : e.leftDone = true
    · simp only [if_pos he]; exact hs.go (hp s)
    · simp only [if_neg he]; exact readNode_yields fun n => hs.go (hr s)

/-! ### The turns of the phases -/

theorem countByte_keepsRun (r : Nat) : KeepsRun p (countByte r) := by
  intro s hs
  unfold countByte
  split_ifs
  · exact hs.fault _
  · exact readFreq_yields fun w => hs.go (writeFreq_state r (w + 1) s)

theorem countTurn_keepsRun : KeepsRun p countTurn := by
  intro s hs
  unfold countTurn
  cases s.micro with
  | start => exact hs.go rfl
  | loop => exact hs.rd countByte_keepsRun fun _ hs => hs.go rfl
  | _ => trivial

theorem insertLeaf_running (sym : Nat) (hs : Running p s) : (insertLeaf sym s).Yields (Running p) :=
  readFreq_yields fun w => by split_ifs <;> exact hs

theorem insertLeaves_running (syms : List Nat) (hs : Running p s) : (insertLeaves syms s).Yields (Running p) := by
  induction syms generalizing s with
  | nil => exact hs
  | cons sym syms ih => exact (insertLeaf_running sym hs).bind (fun _ => ih) fun _ => id

theorem mergeTurn_keepsRun : KeepsRun p mergeTurn := by
  intro s hs
  unfold mergeTurn
  rcases s.pq with _ | ⟨a, _ | ⟨b, q⟩⟩
  · trivial
  · exact hs.go rfl
  · exact readNode_yields fun na => readNode_yields fun nb => hs.go rfl

theorem buildTurn_keepsRun : KeepsRun p buildTurn := by
  intro s hs
  unfold buildTurn
  cases s.micro with
  | start => exact Res.Yields.bind (insertLeaves_running _ hs) (fun _ hs => hs.go rfl) fun _ => Running.outcome
  | loop => exact mergeTurn_keepsRun s hs
  | _ => trivial

theorem writeCode_running (sym : Sym) (c : Bits) (hs : Running p s) : (writeCode sym c s).Yields (Running p) := by
  unfold writeCode
  split_ifs
  · exact hs
  · trivial

theorem deriveVisit_keepsRun (h : Handle) : KeepsRun p (deriveVisit h) := by
  refine fun s hs => readNode_yields fun n => ?_
  split_ifs
  · exact (writeCode_running n.sym s.trail hs).bind (fun _ hs => hs.go rfl) fun _ => Running.outcome
  · cases h with
    | none => trivial
    | some i => exact hs.go rfl

theorem deriveTurn_keepsRun : KeepsRun p deriveTurn := by
  intro s hs
  unfold deriveTurn
  cases s.micro with
  | start => exact hs.go rfl
  | visit h => exact deriveVisit_keepsRun h s hs
  | back => exact walkBack_keepsRun trailRight_state trailPop_state s hs
  | _ => trivial

theorem wrmagicTurn_keepsRun : KeepsRun p wrmagicTurn := by
  intro s hs
  unfold wrmagicTurn
  cases s.micro with
  | start => exact hs.wr fun _ hs => hs.go rfl
  | _ => trivial

theorem wrtreeVisit_keepsRun (h : Handle) : KeepsRun p (wrtreeVisit h) := by
  refine fun s hs => readNode_yields fun n => ?_
  split_ifs
  · exact hs.wr fun _ hs => hs.go rfl
  · cases h with
    | none => trivial
    | some i => exact hs.wr fun _ hs => hs.go rfl

theorem wrtreeTurn_keepsRun : KeepsRun p wrtreeTurn := by
  intro s hs
  unfold wrtreeTurn
  cases s.micro with
  | start => exact hs.go rfl
  | visit h => exact wrtreeVisit_keepsRun h s hs
  | symField sym => exact hs.wr fun _ hs => hs.go rfl
  | back => exact walkBack_keepsRun (fun _ => rfl) (fun _ => rfl) s hs
  | _ => trivial

theorem encodeByte_keepsRun (b : Nat) : KeepsRun p (encodeByte b) := by
  intro s hs
  unfold encodeByte
  cases codeAt b s with
  | none => exact hs.fault _
  | some c => exact hs.go rfl

theorem encodeEof_keepsRun : KeepsRun p encodeEof := by
  intro s hs
  unfold encodeEof
  cases codeAt Config.pseudoEof s with
  | none => trivial
  | some c => exact hs.go rfl

theorem encodeTurn_keepsRun : KeepsRun p encodeTurn := by
  intro s hs
  unfold encodeTurn
  cases s.micro with
  | start => exact hs.rewind fun _ hs => hs.go rfl
  | loop => exact hs.rd encodeByte_keepsRun encodeEof_keepsRun
  | emit c last =>
    cases c with
    | nil => cases last <;> exact hs.go rfl
    | cons b c => exact hs.wr fun _ hs => hs.go rfl
  | _ => trivial

/-- The one turn that completes a run. -/
theorem flushTurn_keepsRun : KeepsRun .flush flushTurn := by
  intro s hs
  unfold flushTurn
  cases s.micro with
  | start => exact hs.closeSink fun _ _ => runOutcome_complete
  | _ => trivial

theorem checkMagic_keepsRun (m : Word) : KeepsRun p (checkMagic m) := by
  intro s hs
  unfold checkMagic
  split_ifs
  · exact hs.go rfl
  · exact hs.fault _

theorem rdmagicTurn_keepsRun : KeepsRun p rdmagicTurn := by
  intro s hs
  unfold rdmagicTurn
  cases s.micro with
  | start => exact hs.rd (fun _ => checkMagic_keepsRun _) (raise_keepsRun _)
  | _ => trivial

theorem desTag_keepsRun (t : Nat) : KeepsRun p (desTag t) := by
  intro s hs
  unfold desTag
  split_ifs
  · exact hs.fault _
  · exact hs.go rfl
  · exact hs.go rfl

theorem desDone_state (x : Nat) (s : State) : (desDone x s).state = s.state := by
  unfold desDone
  rcases desReturn x s.stk s.node with ⟨root, _ | stk, nodes⟩ <;> rfl

theorem desLeaf_keepsRun (h v : Nat) : KeepsRun p (desLeaf h v) := fun _ hs => hs.go (desDone_state h _)

theorem rdtreeTurn_keepsRun : KeepsRun p rdtreeTurn := by
  intro s hs
  unfold rdtreeTurn
  cases s.micro with
  | start => exact hs.go rfl
  | loop => exact hs.rd desTag_keepsRun (raise_keepsRun _)
  | leafField h => exact hs.rd (desLeaf_keepsRun h) (raise_keepsRun _)
  | _ => trivial

theorem arrive_keepsRun (h : Handle) : KeepsRun p (arrive h) := fun _ hs =>
  readNode_yields fun _ => hs.go rfl

theorem decodeBit_keepsRun (t : Nat) : KeepsRun p (decodeBit t) := by
  refine fun s hs => readNode_yields fun n => ?_
  cases if t = 0 then n.left else n.right with
  | none => exact hs.fault _
  | some h => exact arrive_keepsRun (some h) s hs

theorem decodeLeaf_keepsRun : KeepsRun p decodeLeaf := by
  refine fun s hs => readNode_yields fun n => ?_
  split_ifs
  · exact hs.go rfl
  · exact hs.fault _
  · exact hs.fault _
  · exact hs.wr fun _ hs => hs.go rfl

theorem decodeTurn_keepsRun : KeepsRun p decodeTurn := by
  intro s hs
  unfold decodeTurn
  cases s.micro with
  | start => exact hs.go rfl
  | loop =>
    cases s.dstate with
    | atRoot => exact arrive_keepsRun s.root s hs
    | atInternal => exact hs.rd decodeBit_keepsRun (raise_keepsRun _)
    | atLeaf => exact decodeLeaf_keepsRun s hs
    | accept => exact hs.go rfl
  | _ => trivial

end

/-! ### A phase, a command, an event, a step -/

theorem phase_turn_keepsRun (p : Phase) : KeepsRun p p.turn := by
  cases p with
  | noPhase => exact fun _ hs => hs.go rfl
  | count => exact countTurn_keepsRun
  | build => exact buildTurn_keepsRun
  | derive => exact deriveTurn_keepsRun
  | wrmagic => exact wrmagicTurn_keepsRun
  | wrtree => exact wrtreeTurn_keepsRun
  | encode => exact encodeTurn_keepsRun
  | flush => exact flushTurn_keepsRun
  | rdmagic => exact rdmagicTurn_keepsRun
  | rdtree => exact rdtreeTurn_keepsRun
  | decode => exact decodeTurn_keepsRun

/-- What a turn may do to STATE, the turns of a phase may do: they stop as soon as the run is not BUSY in the phase. -/
theorem runTurns_outcome {p : Phase} {turn : State → Res} (hturn : KeepsRun p turn) {n : Nat} {s t : State}
    (hs : RunOutcome p s) (h : runTurns p turn n s = .next t) : RunOutcome p t := by
  induction n generalizing s with
  | zero => cases h; exact hs
  | succ n ih =>
    by_cases hc : s.state = .busy ∧ s.phase = p ∧ due s = false
    · obtain ⟨hb, hp, hd⟩ := hc
      have hyields := hturn (tick s) ⟨(tick_state s).trans hb, (tick_phase s).trans hp⟩
      cases hr : turn (tick s) with
      | go s' =>
        rw [hr] at hyields
        rw [runTurns_go hb hp hd hr] at h
        exact ih hyields h
      | halt o =>
        rw [runTurns_halt hb hp hd hr] at h
        rw [hr, h] at hyields
        exact hyields
    · rw [runTurns_stop hc] at h
      cases h; exact hs

/-- What the running phase may do to STATE. -/
theorem exec_phase_outcome {s t : State} (hb : s.state = .busy) (h : exec s.phase.instr s = .next t) :
    RunOutcome s.phase t := by
  by_cases hp : s.phase = .noPhase
  · rw [hp] at h
    cases h; exact runOutcome_of_busy hb
  · rw [exec_phase_instr hp, runPhase_goes_on hb rfl] at h
    exact runTurns_outcome (phase_turn_keepsRun s.phase) (runOutcome_of_busy hb) h

/-- The command a word written to CMD stands for (`30_encoding.md` R69). -/
theorem decodeCmd_cases (v : Word) :
    (v = 0#32 ∧ decodeCmd v = .nop) ∨ (v = 1#32 ∧ decodeCmd v = .compress) ∨
      (v = 2#32 ∧ decodeCmd v = .decompress) ∨
      (2 < v.toNat ∧ (decodeCmd v = .reservedOp3 ∨ decodeCmd v = .reservedHigh v)) := by
  match hv : v.toNat with
  | 0 => exact .inl ⟨BitVec.eq_of_toNat_eq hv, by simp only [decodeCmd, hv]⟩
  | 1 => exact .inr (.inl ⟨BitVec.eq_of_toNat_eq hv, by simp only [decodeCmd, hv]⟩)
  | 2 => exact .inr (.inr (.inl ⟨BitVec.eq_of_toNat_eq hv, by simp only [decodeCmd, hv]⟩))
  | 3 => exact .inr (.inr (.inr ⟨by omega, .inl (by simp only [decodeCmd, hv])⟩))
  | n + 4 => exact .inr (.inr (.inr ⟨by omega, .inr (by simp only [decodeCmd, hv])⟩))

/-- In a run, and held in reset, a write of CMD changes nothing (`46_sequencer.md` R165). -/
theorem exec_command_ignored {s : State} (ha : ¬ Accepting s) (v : Word) : exec (decodeCmd v) s = .next s := by
  obtain ⟨-, hd⟩ | ⟨-, hd⟩ | ⟨-, hd⟩ | ⟨-, hd | hd⟩ := decodeCmd_cases v <;> rw [hd]
  · rfl
  · exact startRun_ignored ha
  · exact startRun_ignored ha
  · exact reservedCommand_ignored ha
  · exact reservedCommand_ignored ha

/-- Everything a write of CMD can do: nothing, the start of a run, or the fault of a reserved command
(`46_sequencer.md` R155 to R165). -/
theorem exec_command_cases (v : Word) (s : State) :
    exec (decodeCmd v) s = .next s ∨
    (Accepting s ∧
      ((v = 1#32 ∧ exec (decodeCmd v) s = .next (enterPhase .count (perRunInit s))) ∨
       (v = 2#32 ∧ exec (decodeCmd v) s = .next (enterPhase .rdmagic (perRunInit s))) ∨
       (2 < v.toNat ∧ exec (decodeCmd v) s = .next (faultEntry .illegalCommand (perRunInit s))))) := by
  by_cases ha : Accepting s
  · obtain ⟨-, hd⟩ | ⟨hv, hd⟩ | ⟨hv, hd⟩ | ⟨hv, hd | hd⟩ := decodeCmd_cases v <;> rw [hd]
    · exact .inl rfl
    · exact .inr ⟨ha, .inl ⟨hv, startRun_accepted ha⟩⟩
    · exact .inr ⟨ha, .inr (.inl ⟨hv, startRun_accepted ha⟩)⟩
    · exact .inr ⟨ha, .inr (.inr ⟨hv, reservedCommand_accepted ha⟩)⟩
    · exact .inr ⟨ha, .inr (.inr ⟨hv, reservedCommand_accepted ha⟩)⟩
  · exact .inl (exec_command_ignored ha v)

theorem writeReg_state (n : Nat) (v : Word) (s : State) : (writeReg n v s).state = s.state := by
  unfold writeReg
  split
  · split_ifs <;> rfl
  · rfl

theorem driveReset_state (a : Bool) (s : State) :
    (driveReset a s).state = .idle ∨ (driveReset a s).state = s.state := by
  unfold driveReset
  split_ifs
  · exact .inl rfl
  · exact .inr rfl

/-- A bind leaves STATE alone, if what it binds does. -/
theorem bindStream_state {s s' t : State} (h : bindStream s s' = .next t) (hs' : s'.state = s.state) :
    t.state = s.state := by
  by_cases hb : s.state = .busy
  · rw [bindStream_busy hb] at h; cases h
  · rw [bindStream_free hb] at h; cases h; exact hs'

/-- What an event does to STATE: nothing, but for an accepted command and for reset. -/
theorem deliver_state {e : Event} {s t : State} (h : deliver e s = .next t) :
    t.state = s.state ∨
    (Accepting s ∧ ∃ v, e = .hostWrite 0 v ∧
      (t.state = .busy ∧ (v = 1#32 ∨ v = 2#32) ∨ t.state = .faulted ∧ 2 < v.toNat)) ∨
    (t.state = .idle ∧ ∃ a, e = .resetInput a) := by
  cases e with
  | hostWrite n v =>
    by_cases hn : n = 0
    · subst hn
      change exec (decodeCmd v) s = .next t at h
      obtain hx | ⟨ha, ⟨hv, hx⟩ | ⟨hv, hx⟩ | ⟨hv, hx⟩⟩ := exec_command_cases v s <;> rw [hx] at h <;> cases h
      · exact .inl rfl
      · exact .inr (.inl ⟨ha, v, rfl, .inl ⟨rfl, .inl hv⟩⟩)
      · exact .inr (.inl ⟨ha, v, rfl, .inl ⟨rfl, .inr hv⟩⟩)
      · exact .inr (.inl ⟨ha, v, rfl, .inr ⟨rfl, hv⟩⟩)
    · simp only [deliver, hostWrite, if_neg hn] at h
      cases h; exact .inl (writeReg_state n v s)
  | resetInput a =>
    cases h
    exact (driveReset_state a s).elim (fun hidle => .inr (.inr ⟨hidle, a, rfl⟩)) .inl
  | bindSrc bits reread => exact .inl (bindStream_state h rfl)
  | bindSnk => exact .inl (bindStream_state h rfl)
  | hostRead | closeSrc | closeSnk | blockSrc | blockSnk => cases h; exact .inl rfl

/-- Settles O22: a step is an event, which moves STATE by a command or by reset only, or the running phase, which ends
the run by FLUSH or by a fault only. -/
theorem stateTransitions : Obligations.StateTransitions := by
  unfold Obligations.StateTransitions
  intro s t h
  obtain ⟨n, e, rest, hi, -, hs⟩ | ⟨-, hs⟩ := step_cases s <;> rw [hs] at h
  · obtain hsame | ⟨ha, v, rfl, hv⟩ | ⟨hidle, a, rfl⟩ := deliver_state h
    · exact .inl hsame
    · exact .inr (.inl ⟨ha, n, v, rest, hi, hv⟩)
    · exact .inr (.inr (.inr (.inr ⟨hidle, n, a, rest, hi⟩)))
  · by_cases hb : s.state = .busy
    · rw [runCurrent_busy hb] at h
      obtain hbusy | ⟨hdone, hp⟩ | ⟨hfault, hp, herr⟩ := exec_phase_outcome hb h
      · exact .inl (hbusy.trans hb.symm)
      · exact .inr (.inr (.inl ⟨hb, hdone, hp⟩))
      · exact .inr (.inr (.inr (.inl ⟨hb, hfault, hp, herr⟩)))
    · rw [runCurrent_waits hb] at h
      cases h; exact .inl rfl

end Sys2Proof.Machine

/-!
PROOFS. The streams (`20_memory.md`): a program point whose next transaction waits leaves the state as it is, and no
instruction takes back a bit of SNK, writes a closed sink or drops a pending event.
-/

namespace Sys2Proof.Machine

/-! ### The transaction a run stands before -/

/-- Where a run stands before a transaction on SRC, its turn is that transaction: a read, or the rewind of ENCODE. -/
theorem turn_of_waitsOnSrc {s : State} (h : waitsOnSrc s = true) :
    (∃ n k e, s.phase.turn s = rd n s k e) ∨ ∃ k, s.phase.turn s = rewind s k := by
  unfold waitsOnSrc at h
  split at h <;> rename_i hp hm
  · exact .inl ⟨8, countByte, _, by simp only [hp, Phase.turn, countTurn, hm]; rfl⟩
  · exact .inl ⟨32, _, _, by simp only [hp, Phase.turn, rdmagicTurn, hm]; rfl⟩
  · exact .inl ⟨1, desTag, _, by simp only [hp, Phase.turn, rdtreeTurn, hm]; rfl⟩
  · exact .inl ⟨9, desLeaf _, _, by simp only [hp, Phase.turn, rdtreeTurn, hm]; rfl⟩
  · exact .inr ⟨_, by simp only [hp, Phase.turn, encodeTurn, hm]; rfl⟩
  · exact .inl ⟨8, encodeByte, encodeEof, by simp only [hp, Phase.turn, encodeTurn, hm]⟩
  · have hd : s.dstate = .atInternal := of_decide_eq_true h
    exact .inl ⟨1, decodeBit, _, by simp only [hp, Phase.turn, decodeTurn, hm, hd]; rfl⟩
  · cases h

/-- `ser(h)` at a node that is held writes the tag of that node. -/
theorem wrtreeVisit_writes {s : State} {i : Nat} (h : (Table.read s.node i).isSome = true) :
    ∃ v k, wrtreeVisit (some i) s = wr 1 v s k := by
  obtain ⟨n, hn⟩ := Option.isSome_iff_exists.mp h
  simp only [wrtreeVisit, readNode, hn, putLeafTag, putInternal]
  split_ifs
  · exact ⟨1, _, rfl⟩
  · exact ⟨0, _, rfl⟩

/-- AT_LEAF on a byte symbol below the root writes that byte. -/
theorem decodeLeaf_writes {s : State} {n : Node} (hn : s.cur.bind (Table.read s.node) = some n)
    (hsym : n.sym.toNat < Config.pseudoEof) (hroot : s.cur ≠ s.root) :
    ∃ k, decodeLeaf s = wr 8 n.sym.toNat s k := by
  obtain ⟨i, hi, hread⟩ := Option.bind_eq_some_iff.mp hn
  rw [hi] at hroot
  simp only [decodeLeaf, readNode, hi, hread, if_neg hsym.ne, if_neg hsym.not_gt, if_neg hroot]
  exact ⟨_, rfl⟩

/-- Where a run stands before a transaction on SNK, its turn is that transaction: a write, or the close of FLUSH. -/
theorem turn_of_waitsOnSnk {s : State} (h : waitsOnSnk s = true) :
    (∃ n v k, s.phase.turn s = wr n v s k) ∨ ∃ k, s.phase.turn s = closeSink s k := by
  unfold waitsOnSnk at h
  split at h <;> rename_i hp hm
  · exact .inl ⟨32, Config.magic.toNat, _, by simp only [hp, Phase.turn, wrmagicTurn, hm, putMagic]; rfl⟩
  · exact .inl ⟨9, _, _, by simp only [hp, Phase.turn, wrtreeTurn, hm, putLeafSym]; rfl⟩
  · exact .inl ⟨1, _, _, by simp only [hp, Phase.turn, encodeTurn, hm]; rfl⟩
  · exact .inr ⟨_, by simp only [hp, Phase.turn, flushTurn, hm]; rfl⟩
  · obtain ⟨v, k, hv⟩ := wrtreeVisit_writes h
    exact .inl ⟨1, v, k, by simp only [hp, Phase.turn, wrtreeTurn, hm, hv]⟩
  · simp only [Bool.and_eq_true, decide_eq_true_eq] at h
    obtain ⟨⟨hd, hroot⟩, hsym⟩ := h
    split at hsym
    · rename_i n hn
      obtain ⟨k, hk⟩ := decodeLeaf_writes hn (of_decide_eq_true hsym) hroot
      exact .inl ⟨8, n.sym.toNat, k, by simp only [hp, Phase.turn, decodeTurn, hm, hd, hk]⟩
    · cases hsym
  · cases h

/-! ### Waiting -/

/-- The next transaction of the run is on a stream that does not answer (`20_memory.md` R53). -/
def Stalled (s : State) : Prop :=
  waitsOnSrc s = true ∧ s.src.failed = false ∧ s.src.blocked = true ∨
    waitsOnSnk s = true ∧ s.snk.failed = false ∧ s.snk.closed = false ∧ s.snk.blocked = true

/-- A turn that waits for its transaction changes nothing. -/
theorem turn_stalled {s : State} (h : Stalled s) : s.phase.turn s = .halt (.next s) := by
  obtain ⟨hw, hf, hb⟩ | ⟨hw, hf, hc, hb⟩ := h
  · obtain ⟨n, k, e, ht⟩ | ⟨k, ht⟩ := turn_of_waitsOnSrc hw <;> rw [ht]
    · exact rd_blocked hf hb
    · exact rewind_blocked hf hb
  · obtain ⟨n, v, k, ht⟩ | ⟨k, ht⟩ := turn_of_waitsOnSnk hw <;> rw [ht]
    · exact wr_blocked hf hc hb
    · exact close_blocked hf hc hb

/-- No run waits in phase NONE. -/
theorem Stalled.phase_ne {s : State} (h : Stalled s) : s.phase ≠ .noPhase := by
  intro hp
  obtain ⟨hw, -⟩ | ⟨hw, -⟩ := h
  · simp [waitsOnSrc, hp] at hw
  · simp [waitsOnSnk, hp] at hw

/-- A step of a run that waits, with nothing pending, changes nothing. -/
theorem step_stalled {s : State} (hb : s.state = .busy) (hq : s.inputs = []) (h : Stalled s) : step s = .next s := by
  have hpos : turnBound s = (turnBound s - 1) + 1 := by unfold turnBound; omega
  rw [step_runs (.inl hq), runCurrent_busy hb, exec_phase_instr h.phase_ne, runPhase_goes_on hb rfl, hpos,
    runTurns_quiet hb rfl hq, turn_stalled h]

/-- A state that one step leaves as it is, any number of steps leaves as it is. -/
theorem run_of_step_same {s : State} (h : step s = .next s) (n : Nat) : core.run n s = .next s := by
  induction n with
  | zero => rfl
  | succ n ih =>
    have hstep : core.step s = .next s := h
    simp only [Host.Core.run, hstep, ih]

/-- Settles O46: the turn of a run that waits is the waiting transaction, which leaves the state as it is. -/
theorem blockedTransactionWaits : Obligations.BlockedTransactionWaits := by
  unfold Obligations.BlockedTransactionWaits
  exact fun s hb hq h n => run_of_step_same (step_stalled hb hq h) n


/-! ### SNK only grows -/

/-- From `s` to `t` SNK has only gained bits, a sink the core had closed is as it was, and every pending event is still
pending (`20_memory.md` R46, R47). -/
structure SinkGrown (s t : State) : Prop where
  bits : s.snk.bits <+: t.snk.bits
  closed : s.snk.closed = true → t.snk = s.snk
  events : s.inputs.map Prod.snd = t.inputs.map Prod.snd

/-- Every next state a turn answers has SNK only grown. -/
def GrowsSink (turn : State → Res) : Prop := ∀ s, (turn s).Yields (SinkGrown s)

/-- Every next state an instruction answers has SNK only grown. -/
def GrowsSinkOut (f : State → Out) : Prop := ∀ s t, f s = .next t → SinkGrown s t

section
variable {s t u : State} {turn k : State → Res}

/-- What touches neither SNK nor the outside world. -/
theorem SinkGrown.of_same (hsnk : t.snk = s.snk) (hin : t.inputs = s.inputs) : SinkGrown s t :=
  ⟨by rw [hsnk], fun _ => hsnk, by rw [hin]⟩

theorem SinkGrown.trans (h : SinkGrown s t) (h' : SinkGrown t u) : SinkGrown s u where
  bits := h.bits.trans h'.bits
  closed hc := by
    have ht : t.snk = s.snk := h.closed hc
    exact (h'.closed (by rw [ht]; exact hc)).trans ht
  events := h.events.trans h'.events

/-- Bits appended to a sink the core has not closed. -/
theorem SinkGrown.of_append {b : Bits} (hopen : s.snk.closed = false) (hbits : t.snk.bits = s.snk.bits ++ b)
    (hin : t.inputs = s.inputs) : SinkGrown s t where
  bits := ⟨b, hbits.symm⟩
  closed hc := by rw [hopen] at hc; cases hc
  events := by rw [hin]

/-- A turn takes its time off the next event and leaves the event. -/
theorem tick_sinkGrown (s : State) : SinkGrown s (tick s) where
  bits := by rw [tick_snk]
  closed _ := tick_snk s
  events := by unfold tick; split <;> simp [*]

/-! ### The shared operations -/

/-- What follows after SNK has grown from `s` to `t`. -/
theorem SinkGrown.yields (h : SinkGrown s t) (hk : GrowsSink k) : (k t).Yields (SinkGrown s) :=
  match k t, hk t with
  | .go _, h' => h.trans h'
  | .halt (.next _), h' => h.trans h'
  | .halt (.fault _), _ => trivial
  | .halt (.refused _), _ => trivial

/-- A turn and what follows it. -/
theorem GrowsSink.bind {r : Res} (hk : GrowsSink k) (hr : r.Yields (SinkGrown s)) :
    (r.bind k).Yields (SinkGrown s) := Res.Yields.bind hr (fun _ h => h.yields hk) fun _ => id

/-- What every next state of a turn has, its outcome has. -/
theorem Res.Yields.out {P : State → Prop} {r : Res} (hr : r.Yields P) (h : r.out = .next t) : P t := by
  cases r with
  | go u => cases h; exact hr
  | halt o => rw [out_halt] at h; subst h; exact hr

/-- A turn that touches neither SNK nor the outside world and hands on. -/
theorem sinkGrown_go (hsnk : t.snk = s.snk) (hin : t.inputs = s.inputs) : (Res.go t).Yields (SinkGrown s) :=
  .of_same hsnk hin

theorem go_growsSink : GrowsSink .go := fun _ => sinkGrown_go rfl rfl

theorem raise_growsSink (f : FaultCode) : GrowsSink (raise f) := fun _ => .of_same rfl rfl

theorem GrowsSink.rd {n : Nat} {k : Nat → State → Res} {e : State → Res} (hk : ∀ v, GrowsSink (k v))
    (he : GrowsSink e) : (rd n s k e).Yields (SinkGrown s) := by
  dsimp only [Machine.rd]
  obtain ⟨a, src⟩ := s.src.readBits n (Config.bitsExhaustedConsumes s.draws)
  cases a with
  | value v =>
    by_cases hp : s.srcpos + n < Config.posLimit
    · simp only [if_pos hp]
      exact SinkGrown.yields (.of_same rfl rfl) (hk v)
    · simp only [if_neg hp]; trivial
  | exhausted => exact SinkGrown.yields (.of_same rfl rfl) he
  | ioFail => exact raise_growsSink _ s
  | waits => exact .of_same rfl rfl

theorem GrowsSink.rewind (hk : GrowsSink k) : (rewind s k).Yields (SinkGrown s) := by
  dsimp only [Machine.rewind]
  obtain ⟨a, src⟩ := s.src.rewind
  cases a with
  | value | exhausted => exact SinkGrown.yields (.of_same rfl rfl) hk
  | ioFail => exact raise_growsSink _ s
  | waits => exact .of_same rfl rfl

/-- What a transaction on SNK finds: a sink that fails, one that does not answer, or an open one. -/
theorem snk_cases (s : State) :
    (s.snk.failed = true ∨ s.snk.closed = true) ∨
      (s.snk.failed = false ∧ s.snk.closed = false ∧ s.snk.blocked = true) ∨ SnkOpen s := by
  by_cases hfail : s.snk.failed = true ∨ s.snk.closed = true
  · exact .inl hfail
  · obtain ⟨hf, hc⟩ : s.snk.failed = false ∧ s.snk.closed = false := by simpa using hfail
    cases hb : s.snk.blocked with
    | true => exact .inr (.inl ⟨hf, hc, rfl⟩)
    | false => exact .inr (.inr ⟨hf, hc, hb⟩)

theorem GrowsSink.wr {n v : Nat} (hk : GrowsSink k) : (wr n v s k).Yields (SinkGrown s) := by
  obtain hf | ⟨hf, hc, hb⟩ | ho := snk_cases s
  · rw [wr_failed hf]; exact raise_growsSink _ s
  · rw [wr_blocked hf hc hb]; exact .of_same rfl rfl
  · by_cases hp : s.snkpos + n < Config.posLimit
    · rw [wr_ok ho hp]
      exact SinkGrown.yields (.of_append ho.2.1 rfl rfl) hk
    · rw [wr_overflow ho hp]; trivial

theorem GrowsSink.emit (hk : GrowsSink k) (c : Bits) : (emit c s k).Yields (SinkGrown s) := by
  induction c generalizing s with
  | nil => exact hk s
  | cons b c ih => exact GrowsSink.wr fun _ => ih

/-- The close of a sink appends its pad; a sink closed before is not closed again. -/
theorem GrowsSink.closeSink (hk : GrowsSink k) : (closeSink s k).Yields (SinkGrown s) := by
  obtain hf | ⟨hf, hc, hb⟩ | ho := snk_cases s
  · rw [close_failed hf]; exact raise_growsSink _ s
  · rw [close_blocked hf hc hb]; exact .of_same rfl rfl
  · rw [close_ok ho]
    exact SinkGrown.yields (.of_append ho.2.1 rfl rfl) hk

theorem walkBack_growsSink {onRight onPop : State → State} (hr : ∀ s, SinkGrown s (onRight s))
    (hp : ∀ s, SinkGrown s (onPop s)) : GrowsSink (walkBack onRight onPop) := by
  intro s
  unfold walkBack
  rcases s.stk with _ | ⟨e, rest⟩
  · exact .of_same rfl rfl
  · by_cases he : e.leftDone = true
    · simp only [if_pos he]
      exact (hp s).trans (.of_same rfl rfl)
    · simp only [if_neg he]
      exact readNode_yields fun n => (hr s).trans (.of_same rfl rfl)

/-! ### The turns of the phases -/

theorem countByte_growsSink (r : Nat) : GrowsSink (countByte r) := by
  intro s
  unfold countByte
  split_ifs
  · exact raise_growsSink _ s
  · exact readFreq_yields fun w => sinkGrown_go (writeFreq_snk r (w + 1) s) (writeFreq_inputs r (w + 1) s)

theorem countTurn_growsSink : GrowsSink countTurn := by
  intro s
  unfold countTurn
  cases s.micro with
  | start => exact sinkGrown_go rfl rfl
  | loop => exact GrowsSink.rd countByte_growsSink (fun _ => sinkGrown_go rfl rfl)
  | _ => trivial

theorem insertLeaf_growsSink (sym : Nat) : GrowsSink (insertLeaf sym) := fun s =>
  readFreq_yields fun w => by split_ifs <;> exact sinkGrown_go rfl rfl

theorem insertLeaves_growsSink (syms : List Nat) : GrowsSink (insertLeaves syms) := by
  induction syms with
  | nil => exact go_growsSink
  | cons sym syms ih => exact fun s => ih.bind (insertLeaf_growsSink sym s)

theorem mergeTurn_growsSink : GrowsSink mergeTurn := by
  intro s
  unfold mergeTurn
  rcases s.pq with _ | ⟨a, _ | ⟨b, q⟩⟩
  · trivial
  · exact sinkGrown_go rfl rfl
  · exact readNode_yields fun na => readNode_yields fun nb => sinkGrown_go rfl rfl

theorem buildTurn_growsSink : GrowsSink buildTurn := by
  intro s
  unfold buildTurn
  cases s.micro with
  | start =>
    exact GrowsSink.bind (fun _ => sinkGrown_go rfl rfl)
      (SinkGrown.yields (SinkGrown.of_same rfl rfl) (insertLeaves_growsSink _))
  | loop => exact mergeTurn_growsSink s
  | _ => trivial

theorem writeCode_growsSink (sym : Sym) (c : Bits) : GrowsSink (writeCode sym c) := by
  intro s
  unfold writeCode
  split_ifs
  · exact sinkGrown_go rfl rfl
  · trivial

theorem deriveVisit_growsSink (h : Handle) : GrowsSink (deriveVisit h) := by
  refine fun s => readNode_yields fun n => ?_
  split_ifs
  · exact GrowsSink.bind (fun _ => sinkGrown_go rfl rfl) (writeCode_growsSink n.sym s.trail s)
  · cases h with
    | none => trivial
    | some i => exact sinkGrown_go rfl rfl

theorem trailRight_sinkGrown (s : State) : SinkGrown s (trailRight s) := .of_same rfl rfl

theorem trailPop_sinkGrown (s : State) : SinkGrown s (trailPop s) := .of_same rfl rfl

theorem deriveTurn_growsSink : GrowsSink deriveTurn := by
  intro s
  unfold deriveTurn
  cases s.micro with
  | start => exact sinkGrown_go rfl rfl
  | visit h => exact deriveVisit_growsSink h s
  | back => exact walkBack_growsSink trailRight_sinkGrown trailPop_sinkGrown s
  | _ => trivial

theorem putMagic_growsSink (m : Word) : GrowsSink (putMagic m) := fun _ =>
  GrowsSink.wr fun _ => sinkGrown_go rfl rfl

theorem wrmagicTurn_growsSink : GrowsSink wrmagicTurn := by
  intro s
  unfold wrmagicTurn
  cases s.micro with
  | start => exact putMagic_growsSink _ s
  | _ => trivial

theorem wrtreeVisit_growsSink (h : Handle) : GrowsSink (wrtreeVisit h) := by
  refine fun s => readNode_yields fun n => ?_
  split_ifs
  · exact GrowsSink.wr (fun _ => sinkGrown_go rfl rfl)
  · cases h with
    | none => trivial
    | some i => exact GrowsSink.wr (fun _ => sinkGrown_go rfl rfl)

theorem wrtreeTurn_growsSink : GrowsSink wrtreeTurn := by
  intro s
  unfold wrtreeTurn
  cases s.micro with
  | start => exact sinkGrown_go rfl rfl
  | visit h => exact wrtreeVisit_growsSink h s
  | symField sym => exact GrowsSink.wr (fun _ => sinkGrown_go rfl rfl)
  | back => exact walkBack_growsSink (fun _ => .of_same rfl rfl) (fun _ => .of_same rfl rfl) s
  | _ => trivial

theorem encodeByte_growsSink (b : Nat) : GrowsSink (encodeByte b) := by
  intro s
  unfold encodeByte
  cases codeAt b s with
  | none => exact raise_growsSink _ s
  | some c => exact sinkGrown_go rfl rfl

theorem encodeEof_growsSink : GrowsSink encodeEof := by
  intro s
  unfold encodeEof
  cases codeAt Config.pseudoEof s with
  | none => trivial
  | some c => exact sinkGrown_go rfl rfl

theorem encodeTurn_growsSink : GrowsSink encodeTurn := by
  intro s
  unfold encodeTurn
  cases s.micro with
  | start => exact GrowsSink.rewind (fun _ => sinkGrown_go rfl rfl)
  | loop => exact GrowsSink.rd encodeByte_growsSink encodeEof_growsSink
  | emit c last =>
    cases c with
    | nil => cases last <;> exact sinkGrown_go rfl rfl
    | cons b c => exact GrowsSink.wr (fun _ => sinkGrown_go rfl rfl)
  | _ => trivial

theorem flushTurn_growsSink : GrowsSink flushTurn := by
  intro s
  unfold flushTurn
  cases s.micro with
  | start => exact GrowsSink.closeSink (fun _ => sinkGrown_go rfl rfl)
  | _ => trivial

theorem checkMagic_growsSink (m : Word) : GrowsSink (checkMagic m) := by
  intro s
  unfold checkMagic
  split_ifs
  · exact sinkGrown_go rfl rfl
  · exact raise_growsSink _ s

theorem rdmagicTurn_growsSink : GrowsSink rdmagicTurn := by
  intro s
  unfold rdmagicTurn
  cases s.micro with
  | start => exact GrowsSink.rd (fun _ => checkMagic_growsSink _) (raise_growsSink _)
  | _ => trivial

theorem desTag_growsSink (t : Nat) : GrowsSink (desTag t) := by
  intro s
  unfold desTag
  split_ifs
  · exact raise_growsSink _ s
  · exact sinkGrown_go rfl rfl
  · exact sinkGrown_go rfl rfl

theorem desDone_sinkGrown (x : Nat) (s : State) : SinkGrown s (desDone x s) := by
  unfold desDone
  rcases desReturn x s.stk s.node with ⟨root, _ | stk, nodes⟩ <;> exact .of_same rfl rfl

theorem desLeaf_growsSink (h v : Nat) : GrowsSink (desLeaf h v) := fun s =>
  SinkGrown.trans (t := writeNode h (mkLeaf (BitVec.ofNat 9 v) 0) s) (.of_same rfl rfl) (desDone_sinkGrown h _)

theorem rdtreeTurn_growsSink : GrowsSink rdtreeTurn := by
  intro s
  unfold rdtreeTurn
  cases s.micro with
  | start => exact sinkGrown_go rfl rfl
  | loop => exact GrowsSink.rd desTag_growsSink (raise_growsSink _)
  | leafField h => exact GrowsSink.rd (desLeaf_growsSink h) (raise_growsSink _)
  | _ => trivial

theorem arrive_growsSink (h : Handle) : GrowsSink (arrive h) := fun _ => readNode_yields fun _ => sinkGrown_go rfl rfl

theorem decodeRoot_growsSink : GrowsSink decodeRoot := fun s => arrive_growsSink s.root s

theorem decodeBit_growsSink (t : Nat) : GrowsSink (decodeBit t) := by
  refine fun s => readNode_yields fun n => ?_
  cases if t = 0 then n.left else n.right with
  | none => exact raise_growsSink _ s
  | some h => exact arrive_growsSink (some h) s

theorem decodeLeaf_growsSink : GrowsSink decodeLeaf := by
  refine fun s => readNode_yields fun n => ?_
  split_ifs
  · exact sinkGrown_go rfl rfl
  · exact raise_growsSink _ s
  · exact raise_growsSink _ s
  · exact GrowsSink.wr (fun _ => sinkGrown_go rfl rfl)

theorem decodeTurn_growsSink : GrowsSink decodeTurn := by
  intro s
  unfold decodeTurn
  cases s.micro with
  | start => exact sinkGrown_go rfl rfl
  | loop =>
    cases s.dstate with
    | atRoot => exact decodeRoot_growsSink s
    | atInternal => exact GrowsSink.rd decodeBit_growsSink (raise_growsSink _)
    | atLeaf => exact decodeLeaf_growsSink s
    | accept => exact sinkGrown_go rfl rfl
  | _ => trivial

/-! ### The instructions -/

theorem phase_turn_growsSink (p : Phase) : GrowsSink p.turn := by
  cases p with
  | noPhase => exact go_growsSink
  | count => exact countTurn_growsSink
  | build => exact buildTurn_growsSink
  | derive => exact deriveTurn_growsSink
  | wrmagic => exact wrmagicTurn_growsSink
  | wrtree => exact wrtreeTurn_growsSink
  | encode => exact encodeTurn_growsSink
  | flush => exact flushTurn_growsSink
  | rdmagic => exact rdmagicTurn_growsSink
  | rdtree => exact rdtreeTurn_growsSink
  | decode => exact decodeTurn_growsSink

theorem runTurns_growsSink {p : Phase} (ht : GrowsSink turn) (n : Nat) : GrowsSinkOut (runTurns p turn n) := by
  intro s t h
  induction n generalizing s with
  | zero => cases h; exact .of_same rfl rfl
  | succ n ih =>
    by_cases hc : s.state = .busy ∧ s.phase = p ∧ due s = false
    · obtain ⟨hb, hp, hd⟩ := hc
      have hturn := (tick_sinkGrown s).yields ht
      cases hr : turn (tick s) with
      | go s' =>
        rw [hr] at hturn
        rw [runTurns_go hb hp hd hr] at h
        exact hturn.trans (ih s' h)
      | halt o =>
        rw [runTurns_halt hb hp hd hr] at h
        rw [hr, h] at hturn
        exact hturn
    · rw [runTurns_stop hc] at h
      cases h; exact .of_same rfl rfl

theorem runPhase_growsSink {p : Phase} (ht : GrowsSink turn) : GrowsSinkOut (runPhase p turn) := by
  intro s t h
  by_cases hb : s.state = .busy
  · by_cases hp : s.phase = p
    · rw [runPhase_goes_on hb hp] at h
      exact runTurns_growsSink ht _ s t h
    · rw [runPhase_enters hb hp, runPhase_goes_on (p := p) (s := enterPhase p s) hb rfl] at h
      exact SinkGrown.trans (t := enterPhase p s) (.of_same rfl rfl) (runTurns_growsSink ht _ _ t h)
  · rw [runPhase_waits hb] at h
    cases h; exact .of_same rfl rfl

theorem next_growsSink : GrowsSinkOut .next := fun _ _ h => by cases h; exact .of_same rfl rfl

/-- A phase instruction, NONE included. -/
theorem exec_phase_growsSink (p : Phase) : GrowsSinkOut (exec p.instr) := by
  intro s t h
  by_cases hp : p = .noPhase
  · subst hp; exact next_growsSink s t h
  · rw [exec_phase_instr hp] at h
    exact runPhase_growsSink (phase_turn_growsSink p) s t h

/-- Starting a run touches no stream (`46_sequencer.md` R156). -/
theorem startRun_growsSink (p : Phase) : GrowsSinkOut (startRun p) := by
  intro s t h
  by_cases ha : Accepting s
  · rw [startRun_accepted ha] at h; cases h; exact .of_same rfl rfl
  · rw [startRun_ignored ha] at h; cases h; exact .of_same rfl rfl

theorem reservedCommand_growsSink : GrowsSinkOut reservedCommand := by
  intro s t h
  by_cases ha : Accepting s
  · rw [reservedCommand_accepted ha] at h; cases h; exact .of_same rfl rfl
  · rw [reservedCommand_ignored ha] at h; cases h; exact .of_same rfl rfl

theorem execMagic_growsSink (field : Word) : GrowsSinkOut (execMagic field) := by
  intro s t h
  unfold execMagic at h
  split at h
  · exact (putMagic_growsSink field s).out h
  · exact (GrowsSink.rd (fun _ => checkMagic_growsSink field) (raise_growsSink _)).out h
  · exact next_growsSink s t h

theorem execInternal_growsSink : GrowsSinkOut execInternal := by
  intro s t h
  unfold execInternal at h
  split at h
  · exact (GrowsSink.wr go_growsSink).out h
  · exact (GrowsSink.rd (fun _ => desTag_growsSink 0) (raise_growsSink _)).out h
  · exact next_growsSink s t h

theorem execLeaf_growsSink (sym : Sym) : GrowsSinkOut (execLeaf sym) := by
  intro s t h
  unfold execLeaf at h
  split at h
  · exact (GrowsSink.wr fun _ => GrowsSink.wr go_growsSink).out h
  · have hfield (x : Nat) : GrowsSink fun s => rd 9 s (fun _ => desLeaf x sym.toNat) (raise .malformedHeader) :=
      fun _ => GrowsSink.rd (fun _ => desLeaf_growsSink x sym.toNat) (raise_growsSink _)
    exact (GrowsSink.rd (fun _ u => (hfield u.nnodes).bind (desTag_growsSink 1 u)) (raise_growsSink _)).out h
  · exact next_growsSink s t h

theorem walkBits_growsSink (c : Bits) : GrowsSink (walkBits c) := by
  induction c with
  | nil => exact go_growsSink
  | cons b c ih =>
    exact fun s => ih.bind (GrowsSink.rd (fun _ => decodeBit_growsSink b.toNat) (raise_growsSink _))

theorem codeEnd_growsSink : GrowsSink codeEnd := by
  intro s
  unfold codeEnd
  split
  · exact decodeLeaf_growsSink s
  · exact go_growsSink s

theorem execCodeword_growsSink (c : Bits) : GrowsSinkOut (execCodeword c) := by
  intro s t h
  unfold execCodeword at h
  split at h
  · exact (go_growsSink.emit c).out h
  · exact (codeEnd_growsSink.bind ((walkBits_growsSink c).bind (decodeRoot_growsSink s))).out h
  · exact next_growsSink s t h

end

/-- Whatever an instruction answers as a next state, SNK has only grown. -/
theorem exec_growsSink (i : Instr) : GrowsSinkOut (exec i) := by
  cases i with
  | nop => exact next_growsSink
  | compress => exact startRun_growsSink .count
  | decompress => exact startRun_growsSink .rdmagic
  | reservedOp3 => exact reservedCommand_growsSink
  | reservedHigh value => exact reservedCommand_growsSink
  | count => exact exec_phase_growsSink .count
  | build => exact exec_phase_growsSink .build
  | derive => exact exec_phase_growsSink .derive
  | wrmagic => exact exec_phase_growsSink .wrmagic
  | wrtree => exact exec_phase_growsSink .wrtree
  | encode => exact exec_phase_growsSink .encode
  | flush => exact exec_phase_growsSink .flush
  | rdmagic => exact exec_phase_growsSink .rdmagic
  | rdtree => exact exec_phase_growsSink .rdtree
  | decode => exact exec_phase_growsSink .decode
  | phaseNone => exact exec_phase_growsSink .noPhase
  | magic field => exact execMagic_growsSink field
  | internal => exact execInternal_growsSink
  | leaf sym => exact execLeaf_growsSink sym
  | codeword code => exact execCodeword_growsSink code

/-- Settles O54: an instruction is its transactions and turns in sequence, and each of them leaves SNK grown. -/
theorem sinkOnlyGrows : Obligations.SinkOnlyGrows := by
  unfold Obligations.SinkOnlyGrows
  intro i s t h
  obtain ⟨hbits, hclosed, hevents⟩ := exec_growsSink i s t h
  exact ⟨hbits, hclosed, hevents⟩

end Sys2Proof.Machine

/-!
PROOFS. The encodings (`30_encoding.md` R60 to R74): for each place of an encoding, one lemma says which bit strings the
decoder accepts there and what it answers. Both directions of the round trip are read off these lemmas.
-/

namespace Sys2Proof

/-! ### Fields of a fixed width -/

/-- A field of n bits is read exactly where the n bits of a word stand. -/
theorem takeField_eq_ok_iff {n v : Nat} {b rest : Bits} :
    takeField n b = .ok (v, rest) ↔ ∃ w : BitVec n, v = w.toNat ∧ b = bitsOf n w.toNat ++ rest := by
  constructor
  · intro h
    unfold takeField at h
    split at h
    · cases h
    · rename_i hlen
      have htake : (b.take n).length = n := List.length_take_of_le (by omega)
      cases h
      refine ⟨⟨bitsVal (b.take n), ?_⟩, rfl, ?_⟩
      · simpa only [htake] using bitsVal_lt (b.take n)
      · simp [bitsOf_bitsVal' htake]
  · rintro ⟨w, rfl, rfl⟩
    simp [takeField, bitsVal_bitsOf, Nat.mod_eq_of_lt w.isLt]

/-- What is made of the word of a field of n bits. -/
theorem takeField_map_eq_ok_iff {n : Nat} {b rest : Bits} {f : BitVec n → Instr} {i : Instr} :
    (takeField n b).map (fun p => (f (BitVec.ofNat n p.1), p.2)) = .ok (i, rest) ↔
      ∃ w : BitVec n, i = f w ∧ b = bitsOf n w.toNat ++ rest := by
  constructor
  · intro h
    match hfield : takeField n b with
    | .error e => rw [hfield] at h; cases h
    | .ok (v, rest') =>
      obtain ⟨w, rfl, rfl⟩ := takeField_eq_ok_iff.mp hfield
      rw [hfield] at h
      cases h
      exact ⟨w, by simp, rfl⟩
  · rintro ⟨w, rfl, rfl⟩
    simp [takeField_eq_ok_iff.mpr ⟨w, rfl, rfl⟩, Except.map]

/-! ### Commands (`30_encoding.md` R69) -/

/-- A word with one of bits[31:2] set is above 3. -/
theorem reservedHigh_wf_iff (v : Word) : (Instr.reservedHigh v).wf = true ↔ 3 < v.toNat := by
  have hhigh : v.extractLsb' 2 30 = 0#30 ↔ v.toNat / 4 = 0 := by
    rw [← BitVec.toNat_inj, BitVec.extractLsb'_toNat, Nat.shiftRight_eq_div_pow]
    simp only [BitVec.toNat_ofNat]
    omega
  simp only [Instr.wf, bne_iff_ne, ne_eq, hhigh]
  omega

/-- The four exact rows take priority; any other word is itself the reserved command. -/
theorem decodeCmd_reservedHigh {v : Word} (h : 3 < v.toNat) : decodeCmd v = .reservedHigh v := by
  match hv : v.toNat with
  | 0 | 1 | 2 | 3 => omega
  | n + 4 => simp only [decodeCmd, hv]

/-- A CMD word is decoded to a well-formed command that has it as its encoding. -/
theorem decodeCmd_spec (v : Word) (t : Tree) :
    (decodeCmd v).wf = true ∧ encode (decodeCmd v) = bitsOf 32 v.toNat ∧ placeOf t (decodeCmd v) = .cmd := by
  by_cases hhigh : 3 < v.toNat
  · rw [decodeCmd_reservedHigh hhigh]
    exact ⟨(reservedHigh_wf_iff v).mpr hhigh, rfl, rfl⟩
  · have hcases : v = 0#32 ∨ v = 1#32 ∨ v = 2#32 ∨ v = 3#32 := by bv_omega
    rcases hcases with rfl | rfl | rfl | rfl <;> exact ⟨rfl, rfl, rfl⟩

theorem decode_cmd (b : Bits) :
    decode .cmd b = (takeField 32 b).map fun p => (decodeCmd (BitVec.ofNat 32 p.1), p.2) := by
  simp only [decode]
  cases takeField 32 b <;> rfl

theorem decode_cmd_eq_ok_iff {b rest : Bits} {i : Instr} :
    decode .cmd b = .ok (i, rest) ↔ ∃ v : Word, i = decodeCmd v ∧ b = bitsOf 32 v.toNat ++ rest := by
  rw [decode_cmd, takeField_map_eq_ok_iff]

/-! ### The magic field and the tree tokens (`30_encoding.md` R61 to R63) -/

theorem decode_magic (b : Bits) :
    decode .magicField b = (takeField 32 b).map fun p => (.magic (BitVec.ofNat 32 p.1), p.2) := by
  simp only [decode]
  cases takeField 32 b <;> rfl

theorem decode_magic_eq_ok_iff {b rest : Bits} {i : Instr} :
    decode .magicField b = .ok (i, rest) ↔ ∃ m : Word, i = .magic m ∧ b = encode (.magic m) ++ rest := by
  rw [decode_magic, takeField_map_eq_ok_iff]
  rfl

theorem decode_token_leaf (b : Bits) :
    decode .treeToken (true :: b) = (takeField 9 b).map fun p => (.leaf (BitVec.ofNat 9 p.1), p.2) := by
  simp only [decode, decodeTreeToken]
  cases takeField 9 b <;> rfl

/-- The first bit of a tree token tells its kind. -/
theorem decode_token_eq_ok_iff {b rest : Bits} {i : Instr} :
    decode .treeToken b = .ok (i, rest) ↔
      (i = .internal ∨ ∃ sym, i = .leaf sym) ∧ b = encode i ++ rest := by
  match b with
  | [] =>
    constructor
    · intro h; cases h
    · rintro ⟨rfl | ⟨sym, rfl⟩, h⟩ <;> cases h
  | false :: b =>
    constructor
    · intro h; cases h; exact ⟨.inl rfl, rfl⟩
    · rintro ⟨rfl | ⟨sym, rfl⟩, h⟩ <;> cases h
      rfl
  | true :: b =>
    rw [decode_token_leaf, takeField_map_eq_ok_iff]
    constructor
    · rintro ⟨sym, rfl, rfl⟩
      exact ⟨.inr ⟨sym, rfl⟩, rfl⟩
    · rintro ⟨rfl | ⟨sym, rfl⟩, h⟩ <;> cases h
      exact ⟨sym, rfl, rfl⟩

/-! ### Code words (`30_encoding.md` R67, R68) -/

theorem at?_node_cons (l r : Tree) (x : Bool) (c : Bits) : (Tree.node l r).at? (x :: c) = (cond x r l).at? c := by
  cases x <;> rfl

/-- A bit string splits after a code word exactly where the code word is a path to a leaf of that symbol. -/
theorem split?_eq_some_iff {t : Tree} {b c rest : Bits} {sym : Sym} :
    t.split? b = some (c, sym, rest) ↔ t.at? c = some sym ∧ b = c ++ rest := by
  induction t generalizing b c with
  | leaf s => cases c <;> simp [Tree.split?, Tree.at?, eq_comm]
  | node l r ihl ihr =>
    cases b with
    | nil => cases c <;> simp [Tree.split?, Tree.at?]
    | cons x b =>
      cases c with
      | nil => cases x <;> simp [Tree.split?, Tree.at?]
      | cons y c => cases x <;> cases y <;> simp [Tree.split?, Tree.at?, ihl, ihr]

theorem decode_body_eq_ok_iff {t : Tree} {b rest : Bits} {i : Instr} :
    decode (.body t) b = .ok (i, rest) ↔
      ∃ c, i = .codeword c ∧ i.wf = true ∧ (t.at? c).isSome = true ∧ b = c ++ rest := by
  constructor
  · intro h
    simp only [decode] at h
    split at h
    · cases h
    · rename_i c sym _ hsplit
      obtain ⟨hpath, rfl⟩ := split?_eq_some_iff.mp hsplit
      split at h
      · rename_i hlen
        cases h
        exact ⟨c, rfl, decide_eq_true hlen, by simp [hpath], rfl⟩
      · cases h
  · rintro ⟨c, rfl, hwf, hpath, rfl⟩
    obtain ⟨sym, hsym⟩ := Option.isSome_iff_exists.mp hpath
    have hlen : c.length ≤ Config.codeMax := of_decide_eq_true hwf
    simp [decode, split?_eq_some_iff.mpr ⟨hsym, rfl⟩, hlen]

end Sys2Proof

namespace Sys2Proof.Machine

/-! ### Phases (`30_encoding.md` R71) -/

theorem encode_phase_instr (p : Phase) : encode p.instr = bitsOf 4 p.code.toNat := by cases p <;> rfl

theorem phase_instr_placed (p : Phase) (t : Tree) : p.instr.wf = true ∧ placeOf t p.instr = .phase := by
  cases p <;> exact ⟨rfl, rfl⟩

/-- Only the codes of the eleven phases are accepted. -/
theorem decodePhase_eq_ok_iff {v : BitVec 4} {i : Instr} :
    decodePhase v = .ok i ↔ ∃ p : Phase, v = p.code ∧ i = p.instr := by
  have hvalues : ∀ v : BitVec 4, decodePhase v = .error .reservedPhase ∨
      ∃ p ∈ [Phase.noPhase, .count, .build, .derive, .wrmagic, .wrtree, .encode, .flush, .rdmagic, .rdtree,
        .decode], v = p.code := by decide
  constructor
  · intro h
    obtain hbad | ⟨p, -, rfl⟩ := hvalues v
    · rw [hbad] at h; cases h
    · rw [decodePhase_code] at h
      cases h
      exact ⟨p, rfl, rfl⟩
  · rintro ⟨p, rfl, rfl⟩
    exact decodePhase_code p

theorem decode_phase_eq_ok_iff {b rest : Bits} {i : Instr} :
    decode .phase b = .ok (i, rest) ↔ ∃ p : Phase, i = p.instr ∧ b = encode p.instr ++ rest := by
  constructor
  · intro h
    simp only [decode] at h
    split at h
    · cases h
    · rename_i hfield
      obtain ⟨v, rfl, rfl⟩ := takeField_eq_ok_iff.mp hfield
      split at h
      · cases h
      · rename_i hphase
        obtain ⟨p, hv, rfl⟩ := decodePhase_eq_ok_iff.mp hphase
        cases h
        have hv : v = p.code := by simpa using hv
        exact ⟨p, rfl, by rw [hv, encode_phase_instr]⟩
  · rintro ⟨p, rfl, rfl⟩
    rw [encode_phase_instr]
    simp [decode, takeField_eq_ok_iff.mpr ⟨p.code, rfl, rfl⟩, decodePhase_code]

/-! ### The round trip -/

/-- Settles O1: the place of the instruction accepts its encoding. -/
theorem decodeEncode : Obligations.DecodeEncode := by
  unfold Obligations.DecodeEncode
  intro t i rest hwf hpath
  have hcmd (v : Word) : decode .cmd (bitsOf 32 v.toNat ++ rest) = .ok (decodeCmd v, rest) :=
    decode_cmd_eq_ok_iff.mpr ⟨v, rfl, rfl⟩
  have hphase (p : Phase) : decode .phase (encode p.instr ++ rest) = .ok (p.instr, rest) :=
    decode_phase_eq_ok_iff.mpr ⟨p, rfl, rfl⟩
  cases i with
  | nop => exact hcmd 0#32
  | compress => exact hcmd 1#32
  | decompress => exact hcmd 2#32
  | reservedOp3 => exact hcmd 3#32
  | reservedHigh v =>
    have hdec := hcmd v
    rwa [decodeCmd_reservedHigh ((reservedHigh_wf_iff v).mp hwf)] at hdec
  | count => exact hphase .count
  | build => exact hphase .build
  | derive => exact hphase .derive
  | wrmagic => exact hphase .wrmagic
  | wrtree => exact hphase .wrtree
  | encode => exact hphase .encode
  | flush => exact hphase .flush
  | rdmagic => exact hphase .rdmagic
  | rdtree => exact hphase .rdtree
  | decode => exact hphase .decode
  | phaseNone => exact hphase .noPhase
  | magic m => exact decode_magic_eq_ok_iff.mpr ⟨m, rfl, rfl⟩
  | internal => exact decode_token_eq_ok_iff.mpr ⟨.inl rfl, rfl⟩
  | leaf sym => exact decode_token_eq_ok_iff.mpr ⟨.inr ⟨sym, rfl⟩, rfl⟩
  | codeword c => exact decode_body_eq_ok_iff.mpr ⟨c, rfl, hwf, hpath c rfl, rfl⟩

/-- Settles O2: what a place accepts is one of its own encodings. -/
theorem encodeDecode : Obligations.EncodeDecode := by
  unfold Obligations.EncodeDecode
  intro p b rest i h
  cases p with
  | cmd =>
    obtain ⟨v, rfl, rfl⟩ := decode_cmd_eq_ok_iff.mp h
    obtain ⟨hwf, henc, hplace⟩ := decodeCmd_spec v (.leaf 0)
    exact ⟨hwf, by rw [henc], _, hplace⟩
  | phase =>
    obtain ⟨p, rfl, rfl⟩ := decode_phase_eq_ok_iff.mp h
    obtain ⟨hwf, hplace⟩ := phase_instr_placed p (.leaf 0)
    exact ⟨hwf, rfl, _, hplace⟩
  | magicField =>
    obtain ⟨m, rfl, rfl⟩ := decode_magic_eq_ok_iff.mp h
    exact ⟨rfl, rfl, .leaf 0, rfl⟩
  | treeToken =>
    obtain ⟨rfl | ⟨sym, rfl⟩, rfl⟩ := decode_token_eq_ok_iff.mp h
    · exact ⟨rfl, rfl, .leaf 0, rfl⟩
    · exact ⟨rfl, rfl, .leaf 0, rfl⟩
  | body t =>
    obtain ⟨c, rfl, hwf, -, rfl⟩ := decode_body_eq_ok_iff.mp h
    exact ⟨hwf, rfl, t, rfl⟩

/-- Settles O3: the words of the encoding tables, run through the decoder. -/
theorem decodesSpecWords : Obligations.DecodesSpecWords := by
  unfold Obligations.DecodesSpecWords
  decide

end Sys2Proof.Machine

/-!
PROOFS. The wire fields as operations (the model's convention, log entries 8 and 30): in the phase that writes a field
it is one append of its encoding, in the phase that reads it the turns of that phase, elsewhere nothing.
-/

namespace Sys2Proof.Machine

/-! ### The two phases of a wire field -/

/-- What a wire field does in a run whose phase writes it, in one whose phase reads it, and elsewhere (log entry 8). -/
def wireField (writer reader : Phase) (written read : Out) (s : State) : Out :=
  if s.state = .busy ∧ s.phase = writer then written
  else if s.state = .busy ∧ s.phase = reader then read
  else .next s

section
variable {writer reader : Phase} {written read : Out} {s : State}

theorem wireField_written (hb : s.state = .busy) (hp : s.phase = writer) :
    wireField writer reader written read s = written := if_pos ⟨hb, hp⟩

theorem wireField_read (hb : s.state = .busy) (hp : s.phase = reader) (hne : reader ≠ writer) :
    wireField writer reader written read s = read := by
  simp [wireField, hb, hp, hne]

theorem wireField_elsewhere (h : ¬ (s.state = .busy ∧ (s.phase = writer ∨ s.phase = reader))) :
    wireField writer reader written read s = .next s := by
  rw [and_or_left, not_or] at h
  obtain ⟨hwriter, hreader⟩ := h
  rw [wireField, if_neg hwriter, if_neg hreader]

end

theorem exec_magic (m : Word) (s : State) :
    exec (.magic m) s = wireField .wrmagic .rdmagic (putMagic m s).out
      (rd 32 s (fun _ => checkMagic m) (raise .badMagicNumber)).out s := by
  simp only [exec, execMagic, wireField]
  cases s.state with
  | busy => cases s.phase <;> rfl
  | _ => rfl

theorem exec_internal (s : State) :
    exec .internal s = wireField .wrtree .rdtree (putInternal s .go).out
      (rd 1 s (fun _ => desTag 0) (raise .malformedHeader)).out s := by
  simp only [exec, execInternal, wireField]
  cases s.state with
  | busy => cases s.phase <;> rfl
  | _ => rfl

/-- The symbol field of a leaf after its tag has been read: leaf `h` of symbol `sym` is stored. -/
def readLeafField (h : Nat) (sym : Sym) (s : State) : Res :=
  rd 9 s (fun _ => desLeaf h sym.toNat) (raise .malformedHeader)

theorem exec_leaf (sym : Sym) (s : State) :
    exec (.leaf sym) s = wireField .wrtree .rdtree (putLeafTag s fun s => putLeafSym sym s .go).out
      (rd 1 s (fun _ s => (desTag 1 s).bind (readLeafField s.nnodes sym)) (raise .malformedHeader)).out s := by
  simp only [exec, execLeaf, wireField]
  cases s.state with
  | busy => cases s.phase <;> rfl
  | _ => rfl

theorem exec_codeword (c : Bits) (s : State) :
    exec (.codeword c) s = wireField .encode .decode (emit c s .go).out
      (((decodeRoot s).bind (walkBits c)).bind codeEnd).out s := by
  simp only [exec, execCodeword, wireField]
  cases s.state with
  | busy => cases s.phase <;> rfl
  | _ => rfl

/-- Settles O49: a wire field acts in its two phases only. -/
theorem wireFieldsElsewhere : Obligations.WireFieldsElsewhere := by
  unfold Obligations.WireFieldsElsewhere
  refine fun s => ⟨fun h m => ?_, fun h => ⟨?_, fun sym => ?_⟩, fun h c => ?_⟩
  · rw [exec_magic, wireField_elsewhere h]
  · rw [exec_internal, wireField_elsewhere h]
  · rw [exec_leaf, wireField_elsewhere h]
  · rw [exec_codeword, wireField_elsewhere h]

/-! ### Written -/

section
variable {s : State}

theorem magic_written (m : Word) (hb : s.state = .busy) (hp : s.phase = .wrmagic) (ho : SnkOpen s)
    (hpos : s.snkpos + 32 < Config.posLimit) :
    exec (.magic m) s = .next
      { s with snk := snkAfter (encode (.magic m)) s, snkpos := s.snkpos + 32, phase := .wrtree, micro := .start } := by
  rw [exec_magic, wireField_written hb hp, putMagic, wr_ok ho hpos]
  simp [endPhase, enterPhase, hp, Phase.next, encode]

theorem internal_written (hb : s.state = .busy) (hp : s.phase = .wrtree) (ho : SnkOpen s)
    (hpos : s.snkpos + 1 < Config.posLimit) :
    exec .internal s = .next { s with snk := snkAfter (encode .internal) s, snkpos := s.snkpos + 1 } := by
  rw [exec_internal, wireField_written hb hp, putInternal, wr_ok ho hpos]
  rfl

/-- The tag and the symbol field are two appends, which make one of ten bits. -/
theorem leaf_written (sym : Sym) (hb : s.state = .busy) (hp : s.phase = .wrtree) (ho : SnkOpen s)
    (hpos : s.snkpos + 10 < Config.posLimit) :
    exec (.leaf sym) s = .next { s with snk := snkAfter (encode (.leaf sym)) s, snkpos := s.snkpos + 10 } := by
  have htag : bitsOf 1 1 = [true] := rfl
  have hfield : s.snkpos + 1 + 9 < Config.posLimit := hpos
  rw [exec_leaf, wireField_written hb hp, putLeafTag, wr_ok ho (by omega), putLeafSym,
    wr_ok (snkOpen_write.mpr ho) hfield]
  simp [snkAfter, encode, htag]

theorem codeword_written (c : Bits) (hb : s.state = .busy) (hp : s.phase = .encode) (ho : SnkOpen s)
    (hpos : s.snkpos + c.length < Config.posLimit) :
    exec (.codeword c) s =
      .next { s with snk := snkAfter (encode (.codeword c)) s, snkpos := s.snkpos + c.length } := by
  rw [exec_codeword, wireField_written hb hp, emit_ok ho hpos]
  rfl

end

/-- Settles O47: the writing arm of each field is one transaction after another on an open SNK. -/
theorem wireFieldsWritten : Obligations.WireFieldsWritten := by
  unfold Obligations.WireFieldsWritten
  intro s hb ho
  exact ⟨fun m hp hpos => magic_written m hb hp ho hpos, fun hp hpos => internal_written hb hp ho hpos,
    fun sym hp hpos => leaf_written sym hb hp ho hpos, fun c hp hpos => codeword_written c hb hp ho hpos⟩

/-! ### Turns in sequence -/

@[simp] theorem bind_go_right (r : Res) : r.bind .go = r := by cases r <;> rfl

@[simp] theorem raise_bind (f : FaultCode) (s : State) (k : State → Res) : (raise f s).bind k = raise f s := rfl

section
variable {s : State} {rest : Bits} {turn : State → Res}

theorem turns_succ (n : Nat) : turns turn (n + 1) s = (turn s).bind (turns turn n) := rfl

@[simp] theorem turns_one : turns turn 1 = turn := funext fun _ => bind_go_right _

/-- What follows a read follows each of its answers. -/
theorem rd_bind {n : Nat} {k : Nat → State → Res} {e f : State → Res} :
    (rd n s k e).bind f = rd n s (fun v s => (k v s).bind f) fun s => (e s).bind f := by
  unfold rd
  split
  · rfl
  · rfl
  · rfl
  · split_ifs <;> rfl

/-! ### Reading a field that SRC presents -/

theorem srcOpen_congr {s' : State} (h : s'.src = s.src) : SrcOpen s' ↔ SrcOpen s := by rw [SrcOpen, h, SrcOpen]

theorem upcoming_congr {s' : State} (h : s'.src = s.src) : upcoming s' = upcoming s := by rw [upcoming, h, upcoming]

/-- The state after a read of n bits. -/
def afterRead (n : Nat) (s : State) : State := { s with src := srcAfter n s, srcpos := s.srcpos + n }

theorem srcOpen_afterRead {n : Nat} : SrcOpen (afterRead n s) ↔ SrcOpen s := Iff.rfl

theorem upcoming_afterRead {n v : Nat} (hup : upcoming s = bitsOf n v ++ rest) : upcoming (afterRead n s) = rest := by
  have hdrop : upcoming (afterRead n s) = (upcoming s).drop n := List.drop_drop.symm
  rw [hdrop, hup, List.drop_left' (bitsOf_length n v)]

/-- Where SRC answers and presents the n bits of v, a read of n bits answers v or is refused: what the reader would do
with any other answer does not matter. -/
theorem rd_congr {n v : Nat} {k k' : Nat → State → Res} {e e' : State → Res} (ho : SrcOpen s) (hv : v < 2 ^ n)
    (hup : upcoming s = bitsOf n v ++ rest) (hk : k v (afterRead n s) = k' v (afterRead n s)) :
    rd n s k e = rd n s k' e' := by
  have hlen : n ≤ (upcoming s).length := by simp [hup]
  have hval : bitsVal ((upcoming s).take n) = v := by
    rw [hup, List.take_left' (bitsOf_length n v), bitsVal_bitsOf, Nat.mod_eq_of_lt hv]
  by_cases hp : s.srcpos + n < Config.posLimit
  · rw [rd_value ho hlen hp, rd_value ho hlen hp, hval]
    exact hk
  · rw [rd_overflow ho hlen hp, rd_overflow ho hlen hp]

/-! ### Read in RDMAGIC and RDTREE -/

theorem magic_read (m : Word) (hb : s.state = .busy) (hp : s.phase = .rdmagic) (hm : s.micro = .start)
    (ho : SrcOpen s) (hup : upcoming s = encode (.magic m) ++ rest) :
    exec (.magic m) s = (rdmagicTurn s).out := by
  rw [exec_magic, wireField_read hb hp (by decide)]
  simp only [rdmagicTurn, hm]
  exact congrArg Res.out (rd_congr ho m.isLt hup (by simp))

theorem internal_read (hb : s.state = .busy) (hp : s.phase = .rdtree) (hm : s.micro = .loop) (ho : SrcOpen s)
    (hup : upcoming s = encode .internal ++ rest) : exec .internal s = (rdtreeTurn s).out := by
  rw [exec_internal, wireField_read hb hp (by decide)]
  simp only [rdtreeTurn, hm]
  exact congrArg Res.out (rd_congr (v := 0) ho (by decide) hup rfl)

/-- The tag of a leaf and the turn after it: the field that SRC presents is the leaf's symbol. -/
theorem desTag_leaf_turn (sym : Sym) (ho : SrcOpen s) (hup : upcoming s = bitsOf 9 sym.toNat ++ rest) :
    (desTag 1 s).bind (readLeafField s.nnodes sym) = (desTag 1 s).bind rdtreeTurn := by
  by_cases hfull : s.nnodes = Config.nodeCap
  · simp only [desTag, if_pos hfull, raise_bind]
  · simp only [desTag, if_neg hfull, if_true, bind_go]
    exact rd_congr (s := { s with nnodes := s.nnodes + 1, micro := .leafField s.nnodes }) ho sym.isLt hup rfl

theorem leaf_read (sym : Sym) (hb : s.state = .busy) (hp : s.phase = .rdtree) (hm : s.micro = .loop) (ho : SrcOpen s)
    (hup : upcoming s = encode (.leaf sym) ++ rest) : exec (.leaf sym) s = (turns rdtreeTurn 2 s).out := by
  have htag : upcoming s = bitsOf 1 1 ++ (bitsOf 9 sym.toNat ++ rest) := hup
  rw [exec_leaf, wireField_read hb hp (by decide), turns_succ]
  simp only [rdtreeTurn, hm, rd_bind]
  refine congrArg Res.out (rd_congr ho (by decide) htag ?_)
  rw [turns_one]
  exact desTag_leaf_turn sym (srcOpen_afterRead.mpr ho) (upcoming_afterRead htag)

/-! ### Read in DECODE: the walk of a code word -/

/-- The DSTATE in which DECODE stands at the root of a tree (`45_decoder.md` R142, R143). -/
def walkStop : Tree → DState
  | .leaf _ => .atLeaf
  | .node _ _ => .atInternal

/-- DECODE has arrived at the node the tree t hangs from. -/
structure StandsAt (t : Tree) (s : State) : Prop where
  loop : s.micro = .loop
  stop : s.dstate = walkStop t
  holds : arenaHolds s.node t s.cur = true

/-- The pointer arrives where a tree hangs, and SRC is as it was. -/
theorem arrive_stands {t : Tree} {h : Handle} (hm : s.micro = .loop) (ht : arenaHolds s.node t h = true) :
    ∃ s', arrive h s = .go s' ∧ StandsAt t s' ∧ s'.src = s.src := by
  obtain ⟨i, n, rfl, hn, ⟨sym, rfl, hl, -⟩ | ⟨l, r, rfl, hl, -⟩⟩ := arenaHolds_inv ht
  · exact ⟨_, readNode_some hn, ⟨hm, by simp [hl, walkStop], ht⟩, rfl⟩
  · exact ⟨_, readNode_some hn, ⟨hm, by simp [hl, walkStop], ht⟩, rfl⟩

/-- A bit takes the pointer from a node to the child it selects. -/
theorem decodeBit_stands {l r : Tree} (hs : StandsAt (.node l r) s) (b : Bool) :
    ∃ s', decodeBit b.toNat s = .go s' ∧ StandsAt (cond b r l) s' ∧ s'.src = s.src := by
  obtain ⟨i, n, hcur, hn, -, hleft, hright⟩ := arenaHolds_inv_node hs.holds
  have hchild : arenaHolds s.node (cond b r l) (cond b n.right n.left) = true := by cases b <;> assumption
  obtain ⟨j, -, hj, -⟩ := arenaHolds_inv hchild
  have hbit : decodeBit b.toNat s = arrive (cond b n.right n.left) s := by
    rw [decodeBit, hcur, readNode_some hn]
    cases b <;> simp_all
  rw [hbit]
  exact arrive_stands hs.loop hchild

/-- From where DECODE stands, a path to a leaf is one turn a bit and one for the leaf. -/
theorem walk_eq_turns {t : Tree} {c : Bits} (hs : StandsAt t s) (ho : SrcOpen s) (hpath : (t.at? c).isSome = true)
    (hup : upcoming s = c ++ rest) : (walkBits c s).bind codeEnd = turns decodeTurn (c.length + 1) s := by
  induction c generalizing t s with
  | nil =>
    cases t with
    | leaf sym =>
      have hd : s.dstate = .atLeaf := hs.stop
      simp [walkBits, codeEnd, decodeTurn, hs.loop, hd]
    | node l r => simp [Tree.at?] at hpath
  | cons b c ih =>
    cases t with
    | leaf sym => simp [Tree.at?] at hpath
    | node l r =>
      have hd : s.dstate = .atInternal := hs.stop
      have hbit : upcoming s = bitsOf 1 b.toNat ++ (c ++ rest) := by cases b <;> exact hup
      rw [at?_node_cons] at hpath
      have hs1 : StandsAt (.node l r) (afterRead 1 s) := ⟨hs.loop, hs.stop, hs.holds⟩
      obtain ⟨s', hgo, hs', hsrc⟩ := decodeBit_stands hs1 b
      have ho' : SrcOpen s' := (srcOpen_congr hsrc).mpr (srcOpen_afterRead.mpr ho)
      have hup' : upcoming s' = c ++ rest := (upcoming_congr hsrc).trans (upcoming_afterRead hbit)
      rw [walkBits, List.length_cons, turns_succ]
      simp only [decodeTurn, hs.loop, hd, rd_bind]
      refine rd_congr ho (by cases b <;> decide) hbit ?_
      simpa only [hgo, bind_go] using ih hs' ho' hpath hup'

theorem codeword_read {t : Tree} {c : Bits} (hb : s.state = .busy) (hp : s.phase = .decode) (hm : s.micro = .loop)
    (hd : s.dstate = .atRoot) (ht : arenaHolds s.node t s.root = true) (hpath : (t.at? c).isSome = true)
    (ho : SrcOpen s) (hup : upcoming s = c ++ rest) :
    exec (.codeword c) s = (turns decodeTurn (c.length + 2) s).out := by
  obtain ⟨s', hgo, hs', hsrc⟩ := arrive_stands hm ht
  have hroot : decodeTurn s = decodeRoot s := by simp only [decodeTurn, hm, hd]
  rw [exec_codeword, wireField_read hb hp (by decide), turns_succ, hroot, decodeRoot, hgo, bind_go, bind_go,
    walk_eq_turns hs' ((srcOpen_congr hsrc).mpr ho) hpath ((upcoming_congr hsrc).trans hup)]

end

/-- Settles O48: a field that SRC presents gives the reader the value the phase's own turns read. -/
theorem wireFieldsRead : Obligations.WireFieldsRead := by
  unfold Obligations.WireFieldsRead
  intro s rest hb ho
  exact ⟨fun m hp hm hup => magic_read m hb hp hm ho hup, fun hp hm hup => internal_read hb hp hm ho hup,
    fun sym hp hm hup => leaf_read sym hb hp hm ho hup,
    fun c t hp hm hd ht hpath hup => codeword_read hb hp hm hd ht hpath ho hup⟩

end Sys2Proof.Machine

/-!
PROOFS. COUNT as a whole (`40_frequency_counter.md` R80 to R83): where it stands after each byte of its input, and what
it makes of the end of it.
-/

namespace Sys2Proof.Machine

/-! ### Reads and what SRC presents -/

/-- Where SRC presents the n bits of v, a read of n bits answers v. -/
theorem rd_presented {s : State} {rest : Bits} {n v : Nat} {k : Nat → State → Res} {e : State → Res}
    (ho : SrcOpen s) (hv : v < 2 ^ n) (hup : upcoming s = bitsOf n v ++ rest)
    (hp : s.srcpos + n < Config.posLimit) :
    rd n s k e = k v (afterRead n s) := by
  rw [rd_value ho (by simp [hup]) hp, hup, List.take_left' (bitsOf_length n v), bitsVal_bitsOf, Nat.mod_eq_of_lt hv]
  rfl

/-- The state after an `EXHAUSTED` answer. -/
def afterExhausted (s : State) : State := { s with src := srcExhausted s.src s.draws, draws := s.draws + 1 }

theorem srcExhausted_pos_ge (src : Source) (draws : Nat) : src.pos ≤ (srcExhausted src draws).pos :=
  Nat.le_add_right _ _

/-- With no bit left the cursor stays at the end (`20_memory.md` R41, R43). -/
theorem srcExhausted_pos_end {src : Source} (h : src.pos = src.bits.length) (draws : Nat) :
    (srcExhausted src draws).pos = src.bits.length := by
  simp [srcExhausted, h]

theorem byteBits_length (bs : List Byte) : (byteBits bs).length = 8 * bs.length := by
  simp [byteBits, Nat.mul_comm]

theorem byteBits_cons (b : Byte) (bs : List Byte) : byteBits (b :: bs) = bitsOf 8 b.toNat ++ byteBits bs := rfl

theorem byteBits_append (bs cs : List Byte) : byteBits (bs ++ cs) = byteBits bs ++ byteBits cs :=
  List.flatMap_append

/-- The bits of SRC after the cursor, where it presents bytes and `rest`. -/
theorem srcLeft_of_upcoming {s : State} {bs : List Byte} {rest : Bits} (hup : upcoming s = byteBits bs ++ rest) :
    s.src.bits.length - s.src.pos = 8 * bs.length + rest.length := by
  rw [← List.length_drop, ← upcoming, hup, List.length_append, byteBits_length]

/-! ### The Frequency Table of the bytes so far -/

theorem read_freqOf (bs : List Byte) (i : Nat) :
    Table.read (freqOf bs) i = if i < Config.alphSize then some (bs.count (BitVec.ofNat 8 i)) else none :=
  table_read_map_range _ _ _

theorem read_freqOf_byte (bs : List Byte) (b : Byte) : Table.read (freqOf bs) b.toNat = some (bs.count b) := by
  have hlt : b.toNat < Config.alphSize := b.isLt
  rw [read_freqOf, if_pos hlt, BitVec.ofNat_toNat, BitVec.setWidth_eq]

/-- One more byte adds 1 to its counter (R82). -/
theorem write_freqOf (bs : List Byte) (b : Byte) :
    Table.write (freqOf bs) b.toNat (bs.count b + 1) = freqOf (bs ++ [b]) := by
  refine table_ext (table_wf_write _ _ (table_wf_map_range _ _)) (table_wf_map_range _ _) fun i => ?_
  by_cases hi : i = b.toNat
  · rw [hi, table_read_write_same, read_freqOf_byte, List.count_append, List.count_singleton_self]
  · rw [table_read_write_other _ _ hi, read_freqOf, read_freqOf]
    by_cases hlt : i < Config.alphSize
    · have hne : b ≠ BitVec.ofNat 8 i := by
        rintro rfl
        exact hi (Nat.mod_eq_of_lt hlt).symm
      rw [if_pos hlt, if_pos hlt, List.count_append, List.count_singleton, if_neg (by simpa using hne), Nat.add_zero]
    · rw [if_neg hlt, if_neg hlt]

/-! ### COUNT between two bytes -/

/-- COUNT at the head of its loop, the bytes `bs` counted since its first line in `s`. -/
def counted (bs : List Byte) (s : State) : State :=
  { s with
    freq := freqOf bs, len := bs.length, src := srcAfter (8 * bs.length) s, srcpos := s.srcpos + 8 * bs.length
    micro := .loop }

section
variable {s : State} {bs : List Byte} {rest : Bits}

theorem srcOpen_counted : SrcOpen (counted bs s) ↔ SrcOpen s := Iff.rfl

theorem upcoming_counted (hup : upcoming s = byteBits bs ++ rest) : upcoming (counted bs s) = rest := by
  have hdrop : upcoming (counted bs s) = (upcoming s).drop (8 * bs.length) := List.drop_drop.symm
  rw [hdrop, hup, List.drop_left' (byteBits_length bs)]

theorem counted_snoc (b : Byte) : counted (bs ++ [b]) s =
    { afterRead 8 (counted bs s) with freq := freqOf (bs ++ [b]), len := bs.length + 1 } := by
  simp [counted, afterRead, srcAfter, Nat.mul_add, Nat.add_assoc]

/-- The first lines of COUNT (R81). -/
theorem countTurn_start (hm : s.micro = .start) : countTurn s = .go (counted [] s) := by
  unfold countTurn
  rw [hm]
  rfl

/-- A byte within the length bound is counted (R82). -/
theorem countByte_counts {b : Byte} {w : Nat} (hlen : s.len ≠ Config.lenMax)
    (hw : Table.read s.freq b.toNat = some w) :
    countByte b.toNat s = .go { s with freq := Table.write s.freq b.toNat (w + 1), len := s.len + 1 } := by
  have hne : b.toNat ≠ Config.pseudoEof := Nat.ne_of_lt b.isLt
  simp only [countByte, if_neg hlen, readFreq, freqAt, writeFreq, if_neg hne, hw]

/-- A turn of the loop counts the next byte. -/
theorem countTurn_byte {b : Byte} (ho : SrcOpen s) (hup : upcoming s = byteBits bs ++ (bitsOf 8 b.toNat ++ rest))
    (hlen : bs.length < Config.lenMax) (hp : s.srcpos + 8 * bs.length + 8 < Config.posLimit) :
    countTurn (counted bs s) = .go (counted (bs ++ [b]) s) := by
  calc countTurn (counted bs s)
      = rd 8 (counted bs s) countByte fun s => .go (endPhase s) := rfl
    _ = countByte b.toNat (afterRead 8 (counted bs s)) :=
        rd_presented (srcOpen_counted.mpr ho) b.isLt (upcoming_counted hup) hp
    _ = .go { afterRead 8 (counted bs s) with
          freq := Table.write (freqOf bs) b.toNat (bs.count b + 1), len := bs.length + 1 } :=
        countByte_counts hlen.ne (read_freqOf_byte bs b)
    _ = .go (counted (bs ++ [b]) s) := by rw [write_freqOf, counted_snoc]

/-- A turn of the loop that finds no further byte ends the phase (R83). -/
theorem countTurn_end (ho : SrcOpen s) (hup : upcoming s = byteBits bs ++ rest) (hrest : rest.length < 8) :
    countTurn (counted bs s) = .go (endPhase (afterExhausted (counted bs s))) :=
  rd_exhausted (n := 8) (s := counted bs s) (k := countByte) (e := fun s => .go (endPhase s))
    (srcOpen_counted.mpr ho) (by rwa [upcoming_counted hup])

/-- The loop of COUNT, one turn a byte. -/
theorem runTurns_count (hb : s.state = .busy) (hph : s.phase = .count) (hq : s.inputs = []) (ho : SrcOpen s)
    (n : Nat) (cs : List Byte) (hup : upcoming s = byteBits (bs ++ cs) ++ rest)
    (hlen : (bs ++ cs).length ≤ Config.lenMax) (hp : s.srcpos + 8 * (bs ++ cs).length < Config.posLimit) :
    runTurns .count countTurn (cs.length + n) (counted bs s) = runTurns .count countTurn n (counted (bs ++ cs) s) := by
  induction cs generalizing bs with
  | nil => rw [List.append_nil, List.length_nil, Nat.zero_add]
  | cons b cs ih =>
    have hnext : upcoming s = byteBits bs ++ (bitsOf 8 b.toNat ++ (byteBits cs ++ rest)) := by
      rw [hup, byteBits_append, byteBits_cons, List.append_assoc, List.append_assoc]
    have hsplit : bs ++ b :: cs = (bs ++ [b]) ++ cs := List.append_cons bs b cs
    have hturn : countTurn (counted bs s) = .go (counted (bs ++ [b]) s) := by
      rw [List.length_append, List.length_cons] at hlen hp
      exact countTurn_byte ho hnext (by omega) (by omega)
    have hcount : (b :: cs).length + n = cs.length + n + 1 := Nat.add_right_comm _ _ _
    rw [hcount, runTurns_quiet (s := counted bs s) hb hph hq, hturn]
    rw [hsplit] at hup hlen hp ⊢
    exact ih hup hlen hp

/-- COUNT takes one turn for its first lines, one a byte and one for the end of the input. -/
theorem exec_count (hs : AtStart .count s) (ho : SrcOpen s) (hup : upcoming s = byteBits bs ++ rest)
    (hrest : rest.length < 8) (hlen : bs.length ≤ Config.lenMax)
    (hp : s.srcpos + 8 * bs.length < Config.posLimit) :
    exec .count s = .next (endPhase (afterExhausted (counted bs s))) := by
  obtain ⟨hb, hph, hm, hq⟩ := hs
  obtain ⟨n, hn⟩ : ∃ n, turnBound s = bs.length + (n + 1) + 1 := by
    have hleft := srcLeft_of_upcoming hup
    exact ⟨turnBound s - bs.length - 2, by unfold turnBound; omega⟩
  calc exec .count s
      = runTurns .count countTurn (bs.length + (n + 1) + 1) s := by
        rw [← hn]; exact runPhase_goes_on hb hph
    _ = runTurns .count countTurn (bs.length + (n + 1)) (counted [] s) := by
        rw [runTurns_quiet hb hph hq, countTurn_start hm]
    _ = runTurns .count countTurn (n + 1) (counted bs s) :=
        runTurns_count hb hph hq ho (n + 1) bs hup hlen hp
    _ = runTurns .count countTurn n _ := by
        rw [runTurns_quiet (s := counted bs s) hb hph hq, countTurn_end ho hup hrest]
    _ = _ := runTurns_stop fun hc => by
        have hnext : s.phase.next = .count := hc.2.1
        rw [hph] at hnext
        cases hnext

end

/-- Settles O25: after its first lines COUNT takes the bytes one a turn, and the turn that finds fewer than 8 bits ends
it. -/
theorem countCountsInput : Obligations.CountCountsInput := by
  unfold Obligations.CountCountsInput
  intro s bs tail hs ho hup htail hlen hp
  refine ⟨?_, srcExhausted_pos_ge (srcAfter (8 * bs.length) s) s.draws, fun hnil hpos => ?_⟩
  · have hph : s.phase = .count := hs.2.1
    rw [exec_count hs ho hup htail hlen hp]
    simp only [endPhase, enterPhase, afterExhausted, counted, hph, Phase.next]
  · have hend : s.src.pos + 8 * bs.length = s.src.bits.length := by
      have hleft := srcLeft_of_upcoming hup
      rw [hnil, List.length_nil] at hleft
      omega
    exact srcExhausted_pos_end (src := srcAfter (8 * bs.length) s) hend s.draws

end Sys2Proof.Machine

/-!
PROOFS. Frames: a phase changes at most the fields its turns may change. A frame is given by a function: `frame r s` is
the state `s` with those fields taken from `r`. A turn keeps the frame if, for every `r`, `frame r` of the state it leaves
is `frame r` of the state it found.
Here COUNT, BUILD and DERIVE (`40_frequency_counter.md` R80, `41_tree_builder.md` R90, `42_code_table_deriver.md` R105).
-/

namespace Sys2Proof.Machine

/-! ### From the turns of a phase to the phase -/

/-- What every turn of a phase keeps, every next state of the phase has; of faults and refusals it says nothing. -/
theorem runTurns_yields {P : State → Prop} {p : Phase} {turn : State → Res} (htick : ∀ s, P s → P (tick s))
    (hturn : ∀ s, P s → (turn s).Yields P) {n : Nat} {s t : State} (hs : P s)
    (h : runTurns p turn n s = .next t) : P t := by
  induction n generalizing s with
  | zero => cases h; exact hs
  | succ n ih =>
    by_cases hc : s.state = .busy ∧ s.phase = p ∧ due s = false
    · obtain ⟨hb, hp, hd⟩ := hc
      have hyields := hturn (tick s) (htick s hs)
      cases hr : turn (tick s) with
      | go s' =>
        rw [hr] at hyields
        rw [runTurns_go hb hp hd hr] at h
        exact ih hyields h
      | halt o =>
        rw [runTurns_halt hb hp hd hr] at h
        rw [hr, h] at hyields
        exact hyields
    · rw [runTurns_stop hc] at h
      cases h; exact hs

theorem runPhase_yields {P : State → Prop} {p : Phase} {turn : State → Res} (htick : ∀ s, P s → P (tick s))
    (henter : ∀ s, P s → P (enterPhase p s)) (hturn : ∀ s, P s → (turn s).Yields P) {s t : State} (hs : P s)
    (h : runPhase p turn s = .next t) : P t := by
  by_cases hb : s.state = .busy
  · by_cases hp : s.phase = p
    · rw [runPhase_goes_on hb hp] at h
      exact runTurns_yields htick hturn hs h
    · rw [runPhase_enters hb hp, runPhase_goes_on (p := p) (s := enterPhase p s) hb rfl] at h
      exact runTurns_yields htick hturn (henter s hs) h
  · rw [runPhase_waits hb] at h
    cases h; exact hs

/-- Every next state of a turn is as the state before it but for the fields `frame` takes from its first argument. -/
def ChangesOnly (frame : State → State → State) (turn : State → Res) : Prop :=
  ∀ r s, (turn s).Yields fun t => frame r t = frame r s

section
variable {frame : State → State → State} {turn k : State → Res} {r s : State}

/-- A turn and what follows it. -/
theorem ChangesOnly.bind {o : Res} (hk : ChangesOnly frame k) (ho : o.Yields fun t => frame r t = frame r s) :
    (o.bind k).Yields fun t => frame r t = frame r s :=
  Res.Yields.bind ho (fun t ht => ht ▸ hk r t) fun _ => id

/-- A phase changes what its turns may, if the frame allows the passing of a turn and the entry into the phase. -/
theorem runPhase_changesOnly {p : Phase} (ht : ChangesOnly frame turn) (hself : ∀ t, frame t t = t)
    (htick : ∀ r s, frame r (tick s) = frame r s) (henter : ∀ r s, frame r (enterPhase p s) = frame r s) {t : State}
    (h : runPhase p turn s = .next t) : t = frame t s := by
  have hframe : frame t t = frame t s :=
    runPhase_yields (P := fun u => frame t u = frame t s) (fun u hu => (htick t u).trans hu)
      (fun u hu => (henter t u).trans hu) (fun u hu => hu ▸ ht t u) rfl h
  rwa [hself] at hframe

end

/-! ### The shared operations -/

section
variable {P : State → Prop} {s : State}

/-- Everything a read can leave: a fault, the state as it was, or SRC with its cursor moved and what follows. -/
theorem rd_yields {n : Nat} {k : Nat → State → Res} {e : State → Res} (hfault : P (faultEntry .ioFailure s))
    (hwait : P s) (hex : (e (afterExhausted s)).Yields P) (hval : ∀ v, (k v (afterRead n s)).Yields P) :
    (rd n s k e).Yields P := by
  cases hf : s.src.failed with
  | true => rw [rd_failed hf]; exact hfault
  | false =>
    cases hb : s.src.blocked with
    | true => rw [rd_blocked hf hb]; exact hwait
    | false =>
      by_cases hl : (upcoming s).length < n
      · rw [rd_exhausted ⟨hf, hb⟩ hl]; exact hex
      · by_cases hp : s.srcpos + n < Config.posLimit
        · rw [rd_value ⟨hf, hb⟩ (Nat.le_of_not_lt hl) hp]; exact hval _
        · rw [rd_overflow ⟨hf, hb⟩ (Nat.le_of_not_lt hl) hp]; trivial

/-- Everything the return of a walk can leave: the end of the phase, the entry popped, or the right subtree next. -/
theorem walkBack_yields {onRight onPop : State → State} (hend : P (endPhase s))
    (hpop : ∀ stk, P { onPop s with stk := stk, micro := .back })
    (hright : ∀ stk h, P { onRight s with stk := stk, micro := .visit h }) :
    (walkBack onRight onPop s).Yields P := by
  unfold walkBack
  rcases s.stk with _ | ⟨e, rest⟩
  · exact hend
  · by_cases he : e.leftDone = true
    · simp only [if_pos he]; exact hpop rest
    · simp only [if_neg he]; exact readNode_yields fun n => hright _ n.right

end

/-! ### COUNT -/

/-- The state `s` with the fields COUNT may change taken from `r`. -/
def countFrame (r s : State) : State :=
  { s with
    freq := r.freq, len := r.len, src := { s.src with pos := r.src.pos }, srcpos := r.srcpos, draws := r.draws
    state := r.state, phase := r.phase, err := r.err, errpos := r.errpos, micro := r.micro
    inputs := r.inputs }

theorem countFrame_tick (r s : State) : countFrame r (tick s) = countFrame r s := by
  unfold tick; split <;> rfl

theorem countFrame_writeFreq (r : State) (i w : Nat) (s : State) :
    countFrame r (writeFreq i w s) = countFrame r s := by
  unfold writeFreq; split <;> rfl

theorem countByte_changesOnly (v : Nat) : ChangesOnly countFrame (countByte v) := by
  intro r s
  unfold countByte
  split_ifs
  · rfl
  · exact readFreq_yields fun w => countFrame_writeFreq r v (w + 1) s

theorem countTurn_changesOnly : ChangesOnly countFrame countTurn := by
  intro r s
  unfold countTurn
  cases s.micro with
  | start => rfl
  | loop => exact rd_yields rfl rfl rfl fun v => countByte_changesOnly v r (afterRead 8 s)
  | _ => trivial

/-! ### BUILD -/

/-- The state `s` with the fields BUILD may change taken from `r`. -/
def buildFrame (r s : State) : State :=
  { s with
    node := r.node, pq := r.pq, seq := r.seq, root := r.root, phase := r.phase, micro := r.micro
    inputs := r.inputs }

theorem buildFrame_tick (r s : State) : buildFrame r (tick s) = buildFrame r s := by
  unfold tick; split <;> rfl

theorem insertLeaf_changesOnly (sym : Nat) : ChangesOnly buildFrame (insertLeaf sym) := fun _ _ =>
  readFreq_yields fun w => by split_ifs <;> rfl

theorem insertLeaves_changesOnly (syms : List Nat) : ChangesOnly buildFrame (insertLeaves syms) := by
  induction syms with
  | nil => exact fun _ _ => rfl
  | cons sym syms ih => exact fun r s => ih.bind (insertLeaf_changesOnly sym r s)

theorem mergeTurn_changesOnly : ChangesOnly buildFrame mergeTurn := by
  intro r s
  unfold mergeTurn
  rcases s.pq with _ | ⟨a, _ | ⟨b, q⟩⟩
  · trivial
  · rfl
  · exact readNode_yields fun na => readNode_yields fun nb => rfl

theorem buildTurn_changesOnly : ChangesOnly buildFrame buildTurn := by
  intro r s
  unfold buildTurn
  cases s.micro with
  | start =>
    exact ChangesOnly.bind (fun _ _ => rfl) (insertLeaves_changesOnly (List.range Config.nsym) r _)
  | loop => exact mergeTurn_changesOnly r s
  | _ => trivial

/-! ### DERIVE -/

/-- The state `s` with the fields DERIVE may change taken from `r`. -/
def deriveFrame (r s : State) : State :=
  { s with
    code := r.code, trail := r.trail, stk := r.stk, phase := r.phase, micro := r.micro, inputs := r.inputs }

theorem deriveFrame_tick (r s : State) : deriveFrame r (tick s) = deriveFrame r s := by
  unfold tick; split <;> rfl

theorem writeCode_changesOnly (sym : Sym) (c : Bits) : ChangesOnly deriveFrame (writeCode sym c) := by
  intro r s
  unfold writeCode
  split_ifs
  · rfl
  · trivial

theorem deriveVisit_changesOnly (h : Handle) : ChangesOnly deriveFrame (deriveVisit h) := by
  refine fun r s => readNode_yields fun n => ?_
  split_ifs
  · exact ChangesOnly.bind (fun _ _ => rfl) (writeCode_changesOnly n.sym s.trail r s)
  · cases h with
    | none => trivial
    | some i => rfl

theorem deriveTurn_changesOnly : ChangesOnly deriveFrame deriveTurn := by
  intro r s
  unfold deriveTurn
  cases s.micro with
  | start => rfl
  | visit h => exact deriveVisit_changesOnly h r s
  | back => exact walkBack_yields rfl (fun _ => rfl) fun _ _ => rfl
  | _ => trivial

/-- Settles O51: no turn of the three phases changes a field outside its frame. -/
theorem frameOfAnalysisPhases : Obligations.FrameOfAnalysisPhases := by
  unfold Obligations.FrameOfAnalysisPhases
  refine fun s t => ⟨fun h => ?_, fun h => ?_, fun h => ?_⟩
  · exact runPhase_changesOnly countTurn_changesOnly (fun _ => rfl) countFrame_tick (fun _ _ => rfl) h
  · exact runPhase_changesOnly buildTurn_changesOnly (fun _ => rfl) buildFrame_tick (fun _ _ => rfl) h
  · exact runPhase_changesOnly deriveTurn_changesOnly (fun _ => rfl) deriveFrame_tick (fun _ _ => rfl) h

end Sys2Proof.Machine

/-!
PROOFS. The queue of BUILD (`41_tree_builder.md` R92, R93): its order, and what an insert adds.
-/

namespace Sys2Proof.Machine

theorem before_iff {x y : PqEntry} :
    x.before y = true ↔ x.weight < y.weight ∨ x.weight = y.weight ∧ x.seq < y.seq := by
  simp [PqEntry.before]

/-- Of two entries of different sequence numbers exactly one comes before the other. -/
theorem before_iff_not_before {x y : PqEntry} (h : x.seq ≠ y.seq) : x.before y = true ↔ y.before x = false := by
  refine ⟨fun hxy => Bool.eq_false_iff.mpr fun hyx => ?_, before_total h.symm⟩
  rw [before_iff] at hxy hyx
  omega

theorem pqInsert_perm (e : PqEntry) (q : List PqEntry) : (pqInsert e q).Perm (e :: q) := by
  induction q with
  | nil => rfl
  | cons x q ih =>
    rw [pqInsert]
    split_ifs
    · rfl
    · exact (ih.cons x).trans (.swap e x q)

/-- The first entry of an ordered queue is the one `removeMin` takes. -/
theorem removeMin_takes_first {q : List PqEntry} (hq : pqSorted q = true) (hne : q ≠ []) :
    ∃ x rest, removeMin q = some (x, rest) ∧ q = x :: rest ∧ pqSorted rest = true ∧
      ∀ y ∈ rest, x.before y = true := by
  obtain ⟨x, rest, rfl⟩ := List.exists_cons_of_ne_nil hne
  obtain ⟨hfirst, hrest⟩ := pqSorted_cons.mp hq
  exact ⟨x, rest, rfl, rfl, hrest, hfirst⟩

/-- Settles O27: the order of keys is total, an insert goes to its place in it, and the least entry is the first. -/
theorem queueOrder : Obligations.QueueOrder := by
  unfold Obligations.QueueOrder
  exact ⟨fun _ _ => before_iff, fun _ _ => before_iff_not_before,
    fun e q hq hseq => ⟨pqSorted_insert hq hseq, pqInsert_perm e q⟩, fun _ => removeMin_takes_first⟩

end Sys2Proof.Machine

/-!
PROOFS. BUILD as a whole (`41_tree_builder.md` R90 to R96): the leaves it makes of the counted symbols, then the merges,
each turn of the loop one merge of the construction on values.
-/

namespace Sys2Proof.Machine

/-! ### Nodes numbered one after another -/

/-- The arena with the nodes `ns` written at handle `i` and those after it. -/
def writeNodes (nodes : Table Node) : Nat → List Node → Table Node
  | _, [] => nodes
  | i, n :: ns => writeNodes (Table.write nodes i n) (i + 1) ns

theorem read_writeNodes_outside {nodes : Table Node} {i k : Nat} {ns : List Node} (h : k < i ∨ i + ns.length ≤ k) :
    Table.read (writeNodes nodes i ns) k = Table.read nodes k := by
  induction ns generalizing nodes i with
  | nil => rfl
  | cons n ns ih =>
    rw [List.length_cons] at h
    rw [writeNodes, ih (by omega), table_read_write_other _ _ (by omega)]

theorem read_writeNodes {nodes : Table Node} {i j : Nat} {ns : List Node} {n : Node} (h : ns[j]? = some n) :
    Table.read (writeNodes nodes i ns) (i + j) = some n := by
  induction ns generalizing nodes i j with
  | nil => simp at h
  | cons m ns ih =>
    cases j with
    | zero =>
      obtain rfl : m = n := by simpa using h
      rw [writeNodes, read_writeNodes_outside (by omega), Nat.add_zero, table_read_write_same]
    | succ j =>
      rw [writeNodes, show i + (j + 1) = i + 1 + j by omega]
      exact ih (by simpa using h)

/-- One `newNode` after another. -/
def newNodes (ns : List Node) (s : State) : State := ns.foldl (fun s n => newNode n s) s

theorem newNodes_cons (n : Node) (ns : List Node) (s : State) : newNodes (n :: ns) s = newNodes ns (newNode n s) := rfl

/-- `newNodes` writes the arena, counts `SEQ` up and fills the queue. -/
theorem newNodes_eq (ns : List Node) (s : State) :
    newNodes ns s = { s with
      node := writeNodes s.node s.seq ns, seq := s.seq + ns.length, pq := (newNodes ns s).pq } := by
  induction ns generalizing s with
  | nil => rfl
  | cons n ns ih =>
    rw [newNodes_cons, ih (newNode n s), List.length_cons, Nat.add_comm ns.length 1, ← Nat.add_assoc]
    rfl

/-! ### The leaves (R91) -/

/-- The weight of the leaf of symbol `i`: its count, and 1 for PSEUDO_EOF. -/
def leafCount (freq : Table Nat) (i : Nat) : Nat :=
  if i = Config.pseudoEof then 1 else (Table.read freq i).getD 0

/-- Those of the symbols `syms` that have a count other than 0, with their counts. -/
def countedIn (freq : Table Nat) (syms : List Nat) : List (Nat × Nat) :=
  syms.filterMap fun i => if leafCount freq i = 0 then none else some (i, leafCount freq i)

theorem countedSyms_eq (freq : Table Nat) : countedSyms freq = countedIn freq (List.range Config.nsym) := rfl

/-- The leaf of a symbol and its count. -/
def leafNode (c : Nat × Nat) : Node := mkLeaf (BitVec.ofNat 9 c.1) c.2

/-- The counted symbols as leaves of the construction, numbered from `i` on. -/
def sproutsFrom (i : Nat) (cs : List (Nat × Nat)) : List Sprout :=
  (cs.zipIdx i).map fun p => ⟨p.1.2, p.2, .leaf (BitVec.ofNat 9 p.1.1)⟩

theorem sprouts_eq (freq : Table Nat) : sprouts freq = sproutsFrom 0 (countedSyms freq) := rfl

@[simp] theorem sproutsFrom_length (i : Nat) (cs : List (Nat × Nat)) : (sproutsFrom i cs).length = cs.length := by
  simp [sproutsFrom]

theorem sproutsFrom_cons (i : Nat) (c : Nat × Nat) (cs : List (Nat × Nat)) :
    sproutsFrom i (c :: cs) = ⟨c.2, i, .leaf (BitVec.ofNat 9 c.1)⟩ :: sproutsFrom (i + 1) cs := rfl

theorem sproutsFrom_weights (i : Nat) (cs : List (Nat × Nat)) :
    (sproutsFrom i cs).map Sprout.weight = cs.map Prod.snd := by
  induction cs generalizing i with
  | nil => rfl
  | cons c cs ih => rw [sproutsFrom_cons, List.map_cons, ih (i + 1), List.map_cons]

/-- The end-of-file symbol is counted, and it is the last. -/
theorem countedSyms_snoc (freq : Table Nat) :
    countedSyms freq = countedIn freq (List.range Config.alphSize) ++ [(Config.pseudoEof, 1)] := by
  have hrange : List.range Config.nsym = List.range Config.alphSize ++ [Config.pseudoEof] := List.range_succ
  rw [countedSyms_eq, hrange, countedIn, List.filterMap_append]
  rfl

theorem countedSyms_length_le (freq : Table Nat) : (countedSyms freq).length ≤ Config.pqCap :=
  (List.length_filterMap_le _ _).trans_eq List.length_range

theorem countedIn_weights (freq : Table Nat) (syms : List Nat) :
    ((countedIn freq syms).map Prod.snd).sum = (syms.map (leafCount freq)).sum := by
  induction syms with
  | nil => rfl
  | cons i syms ih =>
    rw [countedIn, List.map_cons, List.sum_cons, ← ih]
    by_cases h : leafCount freq i = 0
    · rw [List.filterMap_cons_none (by rw [if_pos h]), h, Nat.zero_add]; rfl
    · rw [List.filterMap_cons_some (by rw [if_neg h]), List.map_cons, List.sum_cons]; rfl

/-- The leaves weigh as much as the input and its end (R95). -/
theorem countedSyms_weights (freq : Table Nat) : ((countedSyms freq).map Prod.snd).sum = freqSum freq + 1 := by
  have hbytes : (List.range Config.alphSize).map (leafCount freq) =
      (List.range Config.alphSize).map fun i => (Table.read freq i).getD 0 :=
    List.map_congr_left fun i hi => if_neg (ne_eof_of_lt (List.mem_range.mp hi))
  rw [countedSyms_snoc, List.map_append, List.sum_append, countedIn_weights, hbytes]
  rfl

/-- With every byte counter written, every symbol has its count. -/
theorem freqAt_full {s : State} (hfull : FreqFull s.freq) {i : Nat} (hi : i < Config.nsym) :
    freqAt i s = some (leafCount s.freq i) := by
  by_cases heof : i = Config.pseudoEof
  · rw [freqAt, leafCount, if_pos heof, if_pos heof]
  · have hlt : i < Config.alphSize := by
      simp only [Config.nsym, Config.pseudoEof, Config.alphSize] at *
      omega
    obtain ⟨w, hw⟩ := Option.isSome_iff_exists.mp (hfull i hlt)
    rw [freqAt, leafCount, if_neg heof, if_neg heof, hw, Option.getD_some]

/-- The leaves of a list of symbols are those of the counted ones among them, in order. -/
theorem insertLeaves_eq {syms : List Nat} {s : State} (hf : ∀ i ∈ syms, freqAt i s = some (leafCount s.freq i)) :
    insertLeaves syms s = .go (newNodes ((countedIn s.freq syms).map leafNode) s) := by
  induction syms generalizing s with
  | nil => rfl
  | cons i syms ih =>
    have hi := hf i List.mem_cons_self
    have hrest : ∀ j ∈ syms, freqAt j s = some (leafCount s.freq j) := fun j hj => hf j (List.mem_cons_of_mem i hj)
    rw [insertLeaves, insertLeaf, readFreq, hi, countedIn]
    by_cases h : leafCount s.freq i = 0
    · rw [List.filterMap_cons_none (by rw [if_pos h])]
      simp only [if_pos h, bind_go]
      exact ih hrest
    · rw [List.filterMap_cons_some (by rw [if_neg h])]
      simp only [if_neg h, bind_go]
      exact ih (s := newNode (leafNode (i, leafCount s.freq i)) s) hrest

/-- BUILD at the head of its loop, all leaves made. -/
def leavesBuilt (s : State) : State :=
  { newNodes ((countedSyms s.freq).map leafNode) { s with seq := 0, pq := [] } with micro := .loop }

theorem buildTurn_start {s : State} (hm : s.micro = .start) (hfull : FreqFull s.freq) :
    buildTurn s = .go (leavesBuilt s) := by
  calc buildTurn s
      = (insertLeaves (List.range Config.nsym) { s with seq := 0, pq := [] }).bind
          fun s => .go { s with micro := .loop } := by simp only [buildTurn, hm]
    _ = .go (leavesBuilt s) := by
      rw [insertLeaves_eq fun i hi => freqAt_full (s := { s with seq := 0, pq := [] }) hfull (List.mem_range.mp hi)]
      rfl

theorem leavesBuilt_eq (s : State) : leavesBuilt s = { s with
    node := writeNodes s.node 0 ((countedSyms s.freq).map leafNode), seq := (countedSyms s.freq).length
    pq := (leavesBuilt s).pq, micro := .loop } := by
  unfold leavesBuilt
  rw [newNodes_eq]
  simp only [List.length_map, Nat.zero_add]

theorem leavesBuilt_seq (s : State) : (leavesBuilt s).seq = (countedSyms s.freq).length :=
  congrArg State.seq (leavesBuilt_eq s)

theorem leavesBuilt_node (s : State) :
    (leavesBuilt s).node = writeNodes s.node 0 ((countedSyms s.freq).map leafNode) :=
  congrArg State.node (leavesBuilt_eq s)

/-! ### Trees among the entries below a handle -/

/-- The tree `t` hangs from `h` by entries below handle `b` alone: in every arena that has the same entries there. -/
def HangsBelow (b : Nat) (nodes : Table Node) (t : Tree) (h : Handle) : Prop :=
  ∀ nodes', (∀ i < b, Table.read nodes' i = Table.read nodes i) → arenaHolds nodes' t h = true

section
variable {b : Nat} {nodes : Table Node} {t l r : Tree} {h hl hr : Handle}

theorem HangsBelow.write (ht : HangsBelow b nodes t h) (n : Node) :
    HangsBelow (b + 1) (Table.write nodes b n) t h := fun _ hsame =>
  ht _ fun i hi => (hsame i (by omega)).trans (table_read_write_other _ _ hi.ne)

theorem hangsBelow_leaf (sym : Sym) (w : Nat) :
    HangsBelow (b + 1) (Table.write nodes b (mkLeaf sym w)) (.leaf sym) (some b) := fun _ hsame =>
  arenaHolds_leaf ((hsame b (by omega)).trans (table_read_write_same _ _ _)) rfl rfl

theorem hangsBelow_node (w : Nat) (h₁ : HangsBelow b nodes l hl) (h₂ : HangsBelow b nodes r hr) :
    HangsBelow (b + 1) (Table.write nodes b (mkInternal w hl hr)) (.node l r) (some b) := fun nodes' hsame =>
  arenaHolds_node ((hsame b (by omega)).trans (table_read_write_same _ _ _)) rfl
    (h₁.write _ nodes' hsame) (h₂.write _ nodes' hsame)

end

/-- An entry of the construction stands in the arena below handle `b`: its node has its number and weight, and its tree
hangs from it. -/
structure Planted (b : Nat) (nodes : Table Node) (x : Sprout) : Prop where
  numbered : x.seq < b
  weighed : ∃ n, Table.read nodes x.seq = some n ∧ n.weight = x.weight
  hangs : HangsBelow b nodes x.tree (some x.seq)

theorem Planted.write {b : Nat} {nodes : Table Node} {x : Sprout} (h : Planted b nodes x) (n : Node) :
    Planted (b + 1) (Table.write nodes b n) x where
  numbered := Nat.lt_succ_of_lt h.numbered
  weighed := by rw [table_read_write_other _ _ h.numbered.ne]; exact h.weighed
  hangs := h.hangs.write n

/-! ### The queue and the entries of the construction -/

/-- The queue entry of an entry of the construction. -/
def Sprout.entry (x : Sprout) : PqEntry := ⟨x.weight, x.seq, x.seq⟩

theorem entry_before_iff {x y : Sprout} : x.entry.before y.entry = true ↔ x.precedes y := before_iff

/-- The queue of BUILD holds these entries of the construction, in this order, and they stand in the arena. -/
structure Forest (all : List Sprout) (s : State) : Prop where
  queue : s.pq = all.map Sprout.entry
  sorted : pqSorted (all.map Sprout.entry) = true
  planted : ∀ x ∈ all, Planted s.seq s.node x

section
variable {s : State} {all rest : List Sprout} {a b x : Sprout}

/-- An insert of an entry of the construction puts it among the others. -/
theorem pqInsert_entries (x : Sprout) (all : List Sprout) :
    ∃ all' : List Sprout, pqInsert x.entry (all.map Sprout.entry) = all'.map Sprout.entry ∧ all'.Perm (x :: all) :=
  (congrFun₂ (List.eq_map_comp_perm Sprout.entry) (pqInsert x.entry (all.map Sprout.entry)) (x :: all)).mpr
    (pqInsert_perm _ _)

/-- A new node enters the queue among the others. -/
theorem Forest.newNode {n : Node} {t : Tree} (hf : Forest all s)
    (ht : HangsBelow (s.seq + 1) (Table.write s.node s.seq n) t (some s.seq)) :
    ∃ all', all'.Perm (⟨n.weight, s.seq, t⟩ :: all) ∧ Forest all' (newNode n s) := by
  obtain ⟨all', hqueue, hperm⟩ := pqInsert_entries ⟨n.weight, s.seq, t⟩ all
  refine ⟨all', hperm, ?_, ?_, fun y hy => ?_⟩
  · rw [newNode_pq, hf.queue]
    exact hqueue
  · rw [← hqueue]
    refine pqSorted_insert hf.sorted fun e he => ?_
    obtain ⟨y, hy, rfl⟩ := List.mem_map.mp he
    exact (hf.planted y hy).numbered.ne'
  · rcases List.mem_cons.mp (hperm.mem_iff.mp hy) with rfl | hy
    · exact ⟨Nat.lt_succ_self _, ⟨n, table_read_write_same _ _ _, rfl⟩, ht⟩
    · exact (hf.planted y hy).write n

/-- The first entry leaves the queue. -/
theorem Forest.tail (hf : Forest (a :: rest) s) : Forest rest { s with pq := rest.map Sprout.entry } where
  queue := rfl
  sorted := (pqSorted_cons.mp hf.sorted).2
  planted x hx := hf.planted x (List.mem_cons_of_mem a hx)

/-- The first entry comes before all others. -/
theorem Forest.first (hf : Forest (a :: rest) s) (hx : x ∈ rest) : a.precedes x :=
  entry_before_iff.mp ((pqSorted_cons.mp hf.sorted).1 _ (List.mem_map_of_mem hx))

/-- The leaves of the counted symbols enter the queue. -/
theorem Forest.leaves (hf : Forest all s) (cs : List (Nat × Nat)) :
    ∃ all', all'.Perm (sproutsFrom s.seq cs ++ all) ∧ Forest all' (newNodes (cs.map leafNode) s) := by
  induction cs generalizing s all with
  | nil => exact ⟨all, .refl _, hf⟩
  | cons c cs ih =>
    obtain ⟨all₁, hperm₁, hf₁⟩ := hf.newNode (hangsBelow_leaf (BitVec.ofNat 9 c.1) c.2)
    obtain ⟨all₂, hperm₂, hf₂⟩ := ih hf₁
    refine ⟨all₂, hperm₂.trans ((hperm₁.append_left _).trans ?_), hf₂⟩
    rw [sproutsFrom_cons, List.cons_append]
    exact List.perm_middle

/-! ### The merges (R94, R95) -/

/-- The construction does not see the order of its entries. -/
theorem huffman_perm {next : Nat} {all all' : List Sprout} {made : List Node} {t : Tree}
    (h : Huffman next all made t) (hperm : all.Perm all') : Huffman next all' made t := by
  cases h with
  | last next x => rw [List.perm_singleton.mp hperm.symm]; exact .last next x
  | merge next all rest a b made t hall hab hrest h =>
    exact .merge next all' rest a b made t (hperm.symm.trans hall) hab hrest h

/-- The turn that finds one entry in the queue ends the phase. -/
theorem buildTurn_last (hm : s.micro = .loop) (hf : Forest [x] s) :
    buildTurn s = .go (endPhase { s with root := some x.seq, pq := [] }) := by
  simp only [buildTurn, hm, mergeTurn, hf.queue, List.map_cons, List.map_nil, removeMin]
  rfl

/-- The node a merge makes. -/
def merged (a b : Sprout) : Node := mkInternal (a.weight + b.weight) (some a.seq) (some b.seq)

/-- A turn that finds more merges the first two. -/
theorem buildTurn_merge (hm : s.micro = .loop) (hf : Forest (a :: b :: rest) s) :
    buildTurn s = .go (newNode (merged a b) { s with pq := rest.map Sprout.entry }) := by
  obtain ⟨na, hna, hwa⟩ := (hf.planted a (by simp)).weighed
  obtain ⟨nb, hnb, hwb⟩ := (hf.planted b (by simp)).weighed
  simp only [buildTurn, hm, mergeTurn, hf.queue, List.map_cons, removeMin]
  rw [readNode_some (i := a.entry.handle) hna, readNode_some (i := b.entry.handle) hnb, hwa, hwb]
  rfl

/-- A merge is one of the construction on values. -/
theorem Forest.merge (hf : Forest (a :: b :: rest) s) :
    ∃ all', all'.Perm (⟨a.weight + b.weight, s.seq, .node a.tree b.tree⟩ :: rest) ∧
      Forest all' (Machine.newNode (merged a b) { s with pq := rest.map Sprout.entry }) :=
  Forest.newNode (s := { s with pq := rest.map Sprout.entry }) hf.tail.tail
    (hangsBelow_node _ (hf.planted a (by simp)).hangs (hf.planted b (by simp)).hangs)

/-- BUILD over, with the nodes `made` since the state `s`. -/
def treeMade (made : List Node) (s : State) : State :=
  { s with
    node := writeNodes s.node s.seq made, pq := [], seq := s.seq + made.length
    root := some (s.seq + made.length - 1), phase := .derive, micro := .start }

/-- With one entry in the queue, the newest node, the next turn is the last. -/
theorem runTurns_build_last (n : Nat) (hb : s.state = .busy) (hp : s.phase = .build) (hq : s.inputs = [])
    (hm : s.micro = .loop) (hf : Forest [x] s) (hseq : x.seq = s.seq - 1) :
    runTurns .build buildTurn (n + 1) s = .next (treeMade [] s) := by
  rw [runTurns_quiet hb hp hq, buildTurn_last hm hf, hseq, endPhase, hp]
  exact runTurns_stop fun hc => nomatch hc.2.1

/-- The loop of BUILD makes the construction on the entries of the queue, one merge a turn. The newest node is always
among the entries, so the last one has the last number. -/
theorem runTurns_build (n : Nat) (hb : s.state = .busy) (hp : s.phase = .build) (hq : s.inputs = [])
    (hm : s.micro = .loop) (hf : Forest all s) (hnew : ∃ x ∈ all, x.seq + 1 = s.seq) :
    ∃ made t, Huffman s.seq all made t ∧ all.length = made.length + 1 ∧
      runTurns .build buildTurn (all.length + n) s = .next (treeMade made s) ∧
      Planted (s.seq + made.length) (writeNodes s.node s.seq made)
        ⟨(all.map Sprout.weight).sum, s.seq + made.length - 1, t⟩ := by
  induction hlen : all.length generalizing s all with
  | zero =>
    obtain ⟨x, hx, -⟩ := hnew
    rw [List.length_eq_zero_iff.mp hlen] at hx
    cases hx
  | succ k ih =>
    match all with
    | [x] =>
      obtain rfl : k = 0 := by simpa using hlen.symm
      have hseq : x.seq = s.seq - 1 := by
        obtain ⟨y, hy, hlast⟩ := hnew
        rw [List.mem_singleton.mp hy] at hlast
        omega
      refine ⟨[], x.tree, .last _ x, rfl, ?_, ?_⟩
      · rw [Nat.add_right_comm, Nat.zero_add]
        exact runTurns_build_last n hb hp hq hm hf hseq
      · have hroot : (⟨([x].map Sprout.weight).sum, s.seq - 1, x.tree⟩ : Sprout) = x := by rw [← hseq]; rfl
        rw [List.length_nil, Nat.add_zero, hroot]
        exact hf.planted x List.mem_cons_self
    | a :: b :: rest =>
      obtain ⟨all', hperm, hf'⟩ := hf.merge
      have hlen' : all'.length = k := by rw [hperm.length_eq]; simpa using hlen
      obtain ⟨made, t, hhuff, hmade, hrun, hroot⟩ :=
        ih (s := Machine.newNode (merged a b) { s with pq := rest.map Sprout.entry }) hb hp hq hm hf'
          ⟨_, hperm.mem_iff.mpr List.mem_cons_self, rfl⟩ hlen'
      have hcount : s.seq + (merged a b :: made).length = s.seq + 1 + made.length := by
        rw [List.length_cons]; omega
      have hweight : ((a :: b :: rest).map Sprout.weight).sum = (all'.map Sprout.weight).sum := by
        rw [(hperm.map Sprout.weight).sum_eq]
        simp [Nat.add_assoc]
      refine ⟨merged a b :: made, t, ?_, by rw [hmade, List.length_cons], ?_, ?_⟩
      · exact .merge _ _ rest a b made t (.refl _) (hf.first List.mem_cons_self)
          (fun x hx => hf.tail.first hx) (huffman_perm hhuff hperm)
      · rw [Nat.add_right_comm, runTurns_quiet hb hp hq, buildTurn_merge hm hf]
        refine hrun.trans ?_
        rw [treeMade, treeMade, hcount]
        rfl
      · rw [hcount, hweight]
        exact hroot

end

/-! ### The phase -/

/-- The leaves are the entries of the construction, the end-of-file leaf the newest. -/
theorem forest_leavesBuilt (s : State) : ∃ all, all.Perm (sprouts s.freq) ∧ Forest all (leavesBuilt s) ∧
    ∃ x ∈ all, x.seq + 1 = (leavesBuilt s).seq := by
  obtain ⟨all, hperm, hf⟩ := Forest.leaves (all := []) (s := { s with seq := 0, pq := [] })
    ⟨rfl, rfl, fun _ h => nomatch h⟩ (countedSyms s.freq)
  rw [List.append_nil] at hperm
  refine ⟨all, hperm, ⟨hf.queue, hf.sorted, hf.planted⟩, ?_⟩
  refine ⟨⟨1, (countedIn s.freq (List.range Config.alphSize)).length, .leaf (BitVec.ofNat 9 Config.pseudoEof)⟩,
    hperm.mem_iff.mpr ?_, ?_⟩
  · rw [countedSyms_snoc, sproutsFrom, List.zipIdx_append, List.map_append]
    simp
  · rw [leavesBuilt_seq, countedSyms_snoc, List.length_append, List.length_singleton]

/-- BUILD makes the leaves in its first turn and then takes one turn for each. -/
theorem exec_build {s : State} (hs : AtStart .build s) (hfull : FreqFull s.freq) :
    ∃ made t, HuffmanNodes s.freq made t ∧ (countedSyms s.freq).length = made.length + 1 ∧
      exec .build s = .next (treeMade made (leavesBuilt s)) ∧
      Planted ((leavesBuilt s).seq + made.length) (writeNodes (leavesBuilt s).node (leavesBuilt s).seq made)
        ⟨freqSum s.freq + 1, (leavesBuilt s).seq + made.length - 1, t⟩ := by
  obtain ⟨hb, hp, hm, hq⟩ := hs
  obtain ⟨all, hperm, hf, hnew⟩ := forest_leavesBuilt s
  have heq := leavesBuilt_eq s
  have hseq : (leavesBuilt s).seq = (sprouts s.freq).length := by
    rw [leavesBuilt_seq, sprouts_eq, sproutsFrom_length]
  have hlen : all.length = (countedSyms s.freq).length := by
    rw [hperm.length_eq, sprouts_eq, sproutsFrom_length]
  have hweight : (all.map Sprout.weight).sum = freqSum s.freq + 1 := by
    rw [(hperm.map Sprout.weight).sum_eq, sprouts_eq, sproutsFrom_weights, countedSyms_weights]
  obtain ⟨n, hn⟩ : ∃ n, turnBound s = all.length + n + 1 := by
    have hle : all.length ≤ 257 := hlen ▸ countedSyms_length_le s.freq
    exact ⟨turnBound s - all.length - 1, by unfold turnBound; omega⟩
  obtain ⟨made, t, hhuff, hmade, hrun, hroot⟩ := runTurns_build (s := leavesBuilt s) n
    ((congrArg State.state heq).trans hb) ((congrArg State.phase heq).trans hp) ((congrArg State.inputs heq).trans hq)
    rfl hf hnew
  rw [hweight] at hroot
  refine ⟨made, t, ?_, hlen.symm.trans hmade, ?_, hroot⟩
  · rw [HuffmanNodes, ← hseq]
    exact huffman_perm hhuff hperm
  · calc exec .build s
        = runTurns .build buildTurn (all.length + n + 1) s := by rw [← hn]; exact runPhase_goes_on hb hp
      _ = runTurns .build buildTurn (all.length + n) (leavesBuilt s) := by
          rw [runTurns_quiet hb hp hq, buildTurn_start hm hfull]
      _ = .next (treeMade made (leavesBuilt s)) := hrun

/-- Settles O28: BUILD is the construction on values, whose entry number i is `NODE[i]`. -/
theorem buildMakesHuffmanTree : Obligations.BuildMakesHuffmanTree := by
  unfold Obligations.BuildMakesHuffmanTree
  intro s hs hfull
  obtain ⟨made, t, hhuff, hmade, hexec, hroot⟩ := exec_build hs hfull
  set k := (countedSyms s.freq).length with hk
  have hseq : (leavesBuilt s).seq = k := leavesBuilt_seq s
  have hend : k + made.length = 2 * k - 1 := by omega
  have hlast : 2 * k - 1 - 1 = 2 * k - 2 := by omega
  rw [hseq, hend, hlast] at hroot
  refine ⟨writeNodes (leavesBuilt s).node k made, made, t, k, rfl, by omega, countedSyms_length_le s.freq, ?_, hhuff,
    by omega, hroot.hangs _ fun _ _ => rfl, fun j n hj => read_writeNodes hj, fun j sym w hj => ?_, hroot.weighed,
    fun i hi => ?_⟩
  · rw [hexec, treeMade, hseq, hend, hlast, leavesBuilt_eq]
  · have hj' : j < k := (List.getElem?_eq_some_iff.mp hj).1
    have hleaf : ((countedSyms s.freq).map leafNode)[j]? = some (leafNode (sym, w)) := by
      rw [List.getElem?_map, hj]; rfl
    have hread := read_writeNodes (nodes := s.node) (i := 0) hleaf
    rw [Nat.zero_add] at hread
    rw [read_writeNodes_outside (.inl hj'), leavesBuilt_node]
    exact hread
  · rw [read_writeNodes_outside (.inr (by omega)), leavesBuilt_node,
      read_writeNodes_outside (.inr (by rw [List.length_map]; omega))]

end Sys2Proof.Machine

/-!
PROOFS. The tree of the construction has the least weighted depth (`41_tree_builder.md` R99). Its cost is the sum of the
weights of the merges. Any other tree is taken as the pairs (weight, depth) of its leaves: giving the two least weights
the two greatest depths does not raise the cost, and merging these two leaves is the first merge of the construction.
-/

namespace Sys2Proof.Machine

/-! ### The cost of a tree -/

/-- The sum of the counts of the leaves of a tree. -/
def treeWeight (freq : Table Nat) (t : Tree) : Nat := ((treeSyms t).map fun sym => leafCount freq sym.toNat).sum

theorem codes_syms (t : Tree) : t.codes.map Prod.fst = treeSyms t := by
  induction t with
  | leaf sym => rfl
  | node l r ihl ihr =>
    rw [Tree.codes, List.map_append, List.map_map, List.map_map, treeSyms, ← ihl, ← ihr]
    rfl

theorem treeCost_eq (freq : Table Nat) (t : Tree) :
    treeCost freq t = (t.codes.map fun p => leafCount freq p.1.toNat * p.2.length).sum := rfl

theorem treeWeight_eq (freq : Table Nat) (t : Tree) :
    treeWeight freq t = (t.codes.map fun p => leafCount freq p.1.toNat).sum := by
  rw [treeWeight, ← codes_syms, List.map_map]; rfl

theorem treeCost_leaf (freq : Table Nat) (sym : Sym) : treeCost freq (.leaf sym) = 0 := by
  simp [treeCost_eq, Tree.codes]

theorem treeWeight_leaf (freq : Table Nat) (sym : Sym) : treeWeight freq (.leaf sym) = leafCount freq sym.toNat := by
  simp [treeWeight, treeSyms]

theorem treeWeight_node (freq : Table Nat) (l r : Tree) :
    treeWeight freq (.node l r) = treeWeight freq l + treeWeight freq r := by
  simp [treeWeight, treeSyms]

/-- Under a new root every leaf is one deeper. -/
theorem treeCost_node (freq : Table Nat) (l r : Tree) :
    treeCost freq (.node l r) = treeCost freq l + treeCost freq r + (treeWeight freq l + treeWeight freq r) := by
  have hdeeper (t : Tree) : (t.codes.map fun p => leafCount freq p.1.toNat * (p.2.length + 1)).sum =
      treeCost freq t + treeWeight freq t := by
    rw [treeCost_eq, treeWeight_eq, ← List.sum_map_add]
    rfl
  rw [Nat.add_add_add_comm, ← hdeeper l, ← hdeeper r, treeCost_eq, Tree.codes, List.map_append, List.sum_append,
    List.map_map, List.map_map]
  rfl

/-! ### The construction on values -/

section
variable {next : Nat} {all : List Sprout} {made : List Node} {t : Tree}

/-- The leaves of the tree are those of the entries. -/
theorem huffman_syms (h : Huffman next all made t) : (treeSyms t).Perm (all.flatMap fun x => treeSyms x.tree) := by
  induction h with
  | last next x => simp
  | merge next all rest a b made t hall _ _ _ ih =>
    refine ih.trans (.trans (.of_eq ?_) (hall.flatMap_right _).symm)
    simp [treeSyms]

/-- The cost of the tree is that of the entries' trees and the weights of the merges. -/
theorem huffman_cost {freq : Table Nat} (h : Huffman next all made t)
    (hw : ∀ x ∈ all, x.weight = treeWeight freq x.tree) :
    treeCost freq t = (all.map fun x => treeCost freq x.tree).sum + (made.map Node.weight).sum := by
  induction h with
  | last next x => simp
  | merge next all rest a b made t hall _ _ _ ih =>
    have ha := hw a (hall.mem_iff.mpr (by simp))
    have hb := hw b (hall.mem_iff.mpr (by simp))
    have hnew : ∀ x ∈ (⟨a.weight + b.weight, next, .node a.tree b.tree⟩ : Sprout) :: rest,
        x.weight = treeWeight freq x.tree := by
      intro x hx
      rcases List.mem_cons.mp hx with rfl | hx
      · rw [treeWeight_node, ← ha, ← hb]
      · exact hw x (hall.mem_iff.mpr (by simp [hx]))
    rw [ih hnew, (hall.map _).sum_eq]
    simp only [List.map_cons, List.sum_cons, treeCost_node, ← ha, ← hb, mkInternal]
    omega

end

/-! ### The depths of a tree's leaves -/

/-- The depths of the leaves of some tree: a leaf alone, or a leaf split into two one deeper. -/
inductive Depths : Multiset Nat → Prop where
  | root : Depths {0}
  | split {d : Nat} {ds : Multiset Nat} : Depths (d ::ₘ ds) → Depths ((d + 1) ::ₘ (d + 1) ::ₘ ds)

/-- A tree in the place of a leaf. -/
theorem depths_graft (t : Tree) {c : Nat} {ds : Multiset Nat} (h : Depths (c ::ₘ ds)) :
    Depths (↑(t.codes.map fun p => p.2.length + c) + ds) := by
  induction t generalizing c ds with
  | leaf sym => simpa [Tree.codes] using h
  | node l r ihl ihr =>
    have hl := ihl h.split
    rw [Multiset.add_cons] at hl
    have hr := ihr hl
    have hcodes : ((Tree.node l r).codes.map fun p => p.2.length + c) =
        (l.codes.map fun p => p.2.length + (c + 1)) ++ r.codes.map fun p => p.2.length + (c + 1) := by
      rw [Tree.codes, List.map_append, List.map_map, List.map_map]
      simp only [Function.comp_def, List.length_cons, Nat.add_assoc, Nat.add_comm 1 c]
    rwa [hcodes, ← Multiset.coe_add, add_comm (Multiset.ofList _), add_assoc]

theorem depths_codes (t : Tree) : Depths (t.codes.map fun p => p.2.length : List Nat) := by
  simpa using depths_graft t (c := 0) (ds := 0) .root

/-- Of two leaves or more, two have the greatest depth, and they can be taken as one split. -/
theorem Depths.deepest {ds : Multiset Nat} (h : Depths ds) :
    ds = {0} ∨ ∃ m rest, ds = (m + 1) ::ₘ (m + 1) ::ₘ rest ∧ (∀ d ∈ rest, d ≤ m + 1) ∧ Depths (m ::ₘ rest) := by
  induction h with
  | root => exact .inl rfl
  | @split d ds h ih =>
    right
    obtain h0 | ⟨m, rest, hds, hle, hmerge⟩ := ih
    · obtain ⟨rfl, rfl⟩ := (Multiset.cons_eq_cons.mp h0).resolve_right (by simp)
      exact ⟨0, 0, rfl, by simp, .root⟩
    · by_cases hd : d = m + 1
      · subst hd
        rw [Multiset.cons_inj_right] at hds
        subst hds
        refine ⟨m + 1, _, rfl, fun d hd => ?_, h⟩
        rcases Multiset.mem_cons.mp hd with rfl | hd
        · exact Nat.le_succ _
        · exact (hle d hd).trans (Nat.le_succ _)
      · have hmem : d ∈ (m + 1) ::ₘ (m + 1) ::ₘ rest := hds ▸ Multiset.mem_cons_self d ds
        obtain ⟨rest', rfl⟩ := Multiset.exists_cons_of_mem (by simpa [hd] using hmem : d ∈ rest)
        have hds' : ds = (m + 1) ::ₘ (m + 1) ::ₘ rest' := by
          rwa [Multiset.cons_swap _ d, Multiset.cons_swap _ d, Multiset.cons_inj_right] at hds
        have hdm : d ≤ m := by have := hle d (Multiset.mem_cons_self d rest'); omega
        refine ⟨m, (d + 1) ::ₘ (d + 1) ::ₘ rest', ?_, fun e he => ?_, ?_⟩
        · rw [hds']
          simp only [Multiset.cons_swap (d + 1) (m + 1)]
        · rcases Multiset.mem_cons.mp he with rfl | he
          · omega
          · rcases Multiset.mem_cons.mp he with rfl | he
            · omega
            · exact hle e (Multiset.mem_cons_of_mem he)
        · rw [Multiset.cons_swap m, Multiset.cons_swap m]
          rw [Multiset.cons_swap] at hmerge
          exact hmerge.split

/-! ### Pairing weights with depths -/

/-- The sum of weight times depth. -/
def pairCost (ps : Multiset (Nat × Nat)) : Nat := (ps.map fun p => p.1 * p.2).sum

@[simp] theorem pairCost_cons (p : Nat × Nat) (ps : Multiset (Nat × Nat)) :
    pairCost (p ::ₘ ps) = p.1 * p.2 + pairCost ps := by
  simp [pairCost]

/-- Giving the greatest depth to the least weight does not raise the cost. -/
theorem pairCost_exchange {ps : Multiset (Nat × Nat)} {w m : Nat} {ws ds : Multiset Nat}
    (hws : ps.map Prod.fst = w ::ₘ ws) (hw : ∀ x ∈ ws, w ≤ x) (hds : ps.map Prod.snd = m ::ₘ ds)
    (hm : ∀ d ∈ ds, d ≤ m) :
    ∃ qs : Multiset (Nat × Nat), qs.map Prod.fst = ws ∧ qs.map Prod.snd = ds ∧ w * m + pairCost qs ≤ pairCost ps := by
  obtain ⟨⟨w', d⟩, hwd, rfl⟩ : ∃ p ∈ ps, p.1 = w := Multiset.mem_map.mp (hws ▸ Multiset.mem_cons_self w ws)
  obtain ⟨qs, rfl⟩ := Multiset.exists_cons_of_mem hwd
  rw [Multiset.map_cons, Multiset.cons_inj_right] at hws
  by_cases hd : d = m
  · subst hd
    rw [Multiset.map_cons, Multiset.cons_inj_right] at hds
    exact ⟨qs, hws, hds, by rw [pairCost_cons]⟩
  · have hmem : m ∈ qs.map Prod.snd := by
      have := hds ▸ Multiset.mem_cons_self m ds
      simpa [Ne.symm hd] using this
    obtain ⟨⟨x, m'⟩, hxm, rfl⟩ := Multiset.mem_map.mp hmem
    obtain ⟨rs, rfl⟩ := Multiset.exists_cons_of_mem hxm
    rw [Multiset.map_cons, Multiset.map_cons, Multiset.cons_swap, Multiset.cons_inj_right] at hds
    have hwx : w' ≤ x := hw x (by rw [← hws]; simp)
    have hdm : d ≤ m' := hm d (by rw [← hds]; simp)
    refine ⟨(x, d) ::ₘ rs, by simpa using hws, by simpa using hds, ?_⟩
    simp only [pairCost_cons]
    nlinarith

/-- Merging the two least weights at the greatest depth does not raise the cost. -/
theorem pairCost_merge {ps : Multiset (Nat × Nat)} {v w : Nat} {ws : Multiset Nat}
    (hws : ps.map Prod.fst = v ::ₘ w ::ₘ ws) (hvw : v ≤ w) (hw : ∀ x ∈ ws, w ≤ x) (hds : Depths (ps.map Prod.snd)) :
    ∃ m qs, qs.map Prod.fst = ws ∧ Depths (m ::ₘ qs.map Prod.snd) ∧ (v + w) * (m + 1) + pairCost qs ≤ pairCost ps := by
  obtain hone | ⟨m, ds, hdeep, hle, hmerge⟩ := hds.deepest
  · have hcard := congrArg Multiset.card hws
    have hcard' := congrArg Multiset.card hone
    simp at hcard hcard'
    omega
  · have hv : ∀ x ∈ w ::ₘ ws, v ≤ x := Multiset.forall_mem_cons.mpr ⟨hvw, fun x hx => hvw.trans (hw x hx)⟩
    obtain ⟨rs, hrws, hrds, hcost⟩ := pairCost_exchange hws hv hdeep (Multiset.forall_mem_cons.mpr ⟨le_rfl, hle⟩)
    obtain ⟨qs, hqws, hqds, hcost'⟩ := pairCost_exchange hrws hw hrds hle
    refine ⟨m, qs, hqws, by rwa [hqds], ?_⟩
    rw [Nat.add_mul]
    omega

/-! ### The construction is optimal -/

theorem Sprout.precedes.weight_le {x y : Sprout} (h : x.precedes y) : x.weight ≤ y.weight :=
  h.elim Nat.le_of_lt fun he => he.1.le

/-- Where the weights of the entries are paired with the depths of a tree, the merges weigh no more than the cost. -/
theorem huffman_merges_le {next : Nat} {all : List Sprout} {made : List Node} {t : Tree}
    (h : Huffman next all made t) {ps : Multiset (Nat × Nat)} (hws : ps.map Prod.fst = all.map Sprout.weight)
    (hds : Depths (ps.map Prod.snd)) : (made.map Node.weight).sum ≤ pairCost ps := by
  induction h generalizing ps with
  | last next x => exact Nat.zero_le _
  | merge next all rest a b made t hall hab hrest _ ih =>
    have hws' : ps.map Prod.fst = a.weight ::ₘ b.weight ::ₘ (rest.map Sprout.weight : List Nat) :=
      hws.trans (Multiset.coe_eq_coe.mpr (hall.map Sprout.weight))
    have hleast : ∀ w ∈ (rest.map Sprout.weight : Multiset Nat), b.weight ≤ w := by
      intro w hw
      obtain ⟨x, hx, rfl⟩ := List.mem_map.mp (Multiset.mem_coe.mp hw)
      exact (hrest x hx).weight_le
    obtain ⟨m, qs, hqws, hqds, hcost⟩ := pairCost_merge hws' hab.weight_le hleast hds
    have hmade := ih (ps := (a.weight + b.weight, m) ::ₘ qs) (by rw [Multiset.map_cons, hqws]; rfl)
      (by rwa [Multiset.map_cons])
    calc (a.weight + b.weight) + (made.map Node.weight).sum
        ≤ (a.weight + b.weight) + ((a.weight + b.weight) * m + pairCost qs) := by
          rw [pairCost_cons] at hmade; exact Nat.add_le_add_left hmade _
      _ = (a.weight + b.weight) * (m + 1) + pairCost qs := by ring
      _ ≤ pairCost ps := hcost

theorem mem_countedIn {freq : Table Nat} {syms : List Nat} {c : Nat × Nat} (hc : c ∈ countedIn freq syms) :
    c.1 ∈ syms ∧ c.2 = leafCount freq c.1 := by
  obtain ⟨i, hi, hsome⟩ := List.mem_filterMap.mp hc
  split_ifs at hsome
  cases hsome
  exact ⟨hi, rfl⟩

theorem mem_sproutsFrom {i : Nat} {cs : List (Nat × Nat)} {x : Sprout} (hx : x ∈ sproutsFrom i cs) :
    ∃ c ∈ cs, x.weight = c.2 ∧ x.tree = .leaf (BitVec.ofNat 9 c.1) := by
  obtain ⟨p, hp, rfl⟩ := List.mem_map.mp hx
  exact ⟨p.1, List.fst_mem_of_mem_zipIdx hp, rfl, rfl⟩

/-- The entries the construction starts with are leaves that weigh their counts. -/
theorem sprout_leaf {freq : Table Nat} {x : Sprout} (hx : x ∈ sprouts freq) :
    ∃ sym, x.tree = .leaf sym ∧ x.weight = leafCount freq sym.toNat := by
  obtain ⟨c, hc, hweight, htree⟩ := mem_sproutsFrom (i := 0) (cs := countedSyms freq) hx
  obtain ⟨hsym, hcount⟩ := mem_countedIn (syms := List.range Config.nsym) hc
  have hlt : c.1 < 2 ^ 9 := (List.mem_range.mp hsym).trans (by decide)
  exact ⟨_, htree, by rw [hweight, hcount, BitVec.toNat_ofNat, Nat.mod_eq_of_lt hlt]⟩

/-- The leaves of the tree of the construction weigh what its first entries do. -/
theorem huffman_leaf_weights {freq : Table Nat} {made : List Node} {t : Tree} (h : HuffmanNodes freq made t) :
    ((treeSyms t).map fun sym => leafCount freq sym.toNat).Perm ((sprouts freq).map Sprout.weight) := by
  refine ((huffman_syms h).map _).trans (.of_eq ?_)
  rw [List.map_flatMap, List.map_eq_flatMap]
  refine List.flatMap_congr fun x hx => ?_
  obtain ⟨sym, htree, hweight⟩ := sprout_leaf hx
  rw [htree, hweight]
  rfl

/-- The tree of the construction costs the weights of its merges. -/
theorem huffman_cost_merges {freq : Table Nat} {made : List Node} {t : Tree} (h : HuffmanNodes freq made t) :
    treeCost freq t = (made.map Node.weight).sum := by
  have hstart : ∀ x ∈ sprouts freq, x.weight = treeWeight freq x.tree ∧ treeCost freq x.tree = 0 := by
    intro x hx
    obtain ⟨sym, htree, hweight⟩ := sprout_leaf hx
    rw [htree, treeWeight_leaf, treeCost_leaf]
    exact ⟨hweight, rfl⟩
  have hzero : ((sprouts freq).map fun x => treeCost freq x.tree).sum = 0 :=
    List.sum_eq_zero fun _ hc => by
      obtain ⟨x, hx, rfl⟩ := List.mem_map.mp hc
      exact (hstart x hx).2
  rw [huffman_cost h fun x hx => (hstart x hx).1, hzero, Nat.zero_add]

/-- The leaves of a tree as pairs of weight and depth. -/
def leafPairs (freq : Table Nat) (t : Tree) : Multiset (Nat × Nat) :=
  t.codes.map fun p => (leafCount freq p.1.toNat, p.2.length)

theorem pairCost_leafPairs (freq : Table Nat) (t : Tree) : pairCost (leafPairs freq t) = treeCost freq t := by
  simp [pairCost, leafPairs, treeCost_eq, Function.comp_def]

theorem leafPairs_weights (freq : Table Nat) (t : Tree) :
    (leafPairs freq t).map Prod.fst = (treeSyms t).map fun sym => leafCount freq sym.toNat := by
  simp [leafPairs, ← codes_syms, Function.comp_def]

theorem leafPairs_depths (freq : Table Nat) (t : Tree) : Depths ((leafPairs freq t).map Prod.snd) := by
  simpa [leafPairs, Function.comp_def] using depths_codes t

/-- The tree of the construction costs no more than any with its leaves (R99). -/
theorem huffman_optimal {freq : Table Nat} {made : List Node} {t t' : Tree} (h : HuffmanNodes freq made t)
    (hperm : (treeSyms t').Perm (treeSyms t)) : treeCost freq t ≤ treeCost freq t' := by
  have hweights : (leafPairs freq t').map Prod.fst = (sprouts freq).map Sprout.weight := by
    rw [leafPairs_weights]
    exact Multiset.coe_eq_coe.mpr ((hperm.map _).trans (huffman_leaf_weights h))
  calc treeCost freq t
      = (made.map Node.weight).sum := huffman_cost_merges h
    _ ≤ pairCost (leafPairs freq t') := huffman_merges_le h hweights (leafPairs_depths freq t')
    _ = treeCost freq t' := pairCost_leafPairs freq t'

/-- Settles O29: the tree BUILD makes is that of the construction, which is optimal. -/
theorem buildIsOptimal : Obligations.BuildIsOptimal := by
  unfold Obligations.BuildIsOptimal
  intro s hs hfull
  obtain ⟨node, made, t, k, -, -, -, hexec, hhuff, -, hroot, -⟩ := buildMakesHuffmanTree s hs hfull
  exact ⟨_, t, hexec, hroot, fun t' hperm => huffman_optimal hhuff hperm⟩

end Sys2Proof.Machine

/-!
PROOFS. DERIVE as a whole (`42_code_table_deriver.md` R105 to R107): the walk of a subtree writes the paths to its
leaves, from left to right, and comes back with the trail and the stack it began with.
-/

namespace Sys2Proof.Machine

/-! ### The paths below a trail -/

/-- The leaves of a tree with the paths to them, the tree hanging at the end of a trail. -/
def pathsBelow (trail : Bits) (t : Tree) : List (Sym × Bits) := t.codes.map fun p => (p.1, trail ++ p.2)

theorem pathsBelow_nil (t : Tree) : pathsBelow [] t = t.codes := List.map_id _

theorem pathsBelow_leaf (trail : Bits) (sym : Sym) : pathsBelow trail (.leaf sym) = [(sym, trail)] := by
  simp [pathsBelow, Tree.codes]

theorem pathsBelow_node (trail : Bits) (l r : Tree) :
    pathsBelow trail (.node l r) = pathsBelow (trail ++ [false]) l ++ pathsBelow (trail ++ [true]) r := by
  simp [pathsBelow, Tree.codes, Function.comp_def]

/-- The Code Table with these codes written one after another. -/
def writeCodes (code : Table Bits) (ps : List (Sym × Bits)) : Table Bits :=
  ps.foldl (fun tab p => Table.write tab p.1.toNat p.2) code

theorem codeTable_eq (t : Tree) : codeTable t = writeCodes [] t.codes := rfl

theorem writeCodes_append (code : Table Bits) (ps qs : List (Sym × Bits)) :
    writeCodes code (ps ++ qs) = writeCodes (writeCodes code ps) qs := List.foldl_append

/-! ### The return of a recursive walk (`10_state.md` R30) -/

section
variable {onRight onPop : State → State} {s : State} {e : StkEntry} {rest : List StkEntry}

/-- Into the right subtree of the top entry. -/
theorem walkBack_right {n : Node} (hstk : s.stk = e :: rest) (hdone : e.leftDone = false)
    (hn : Table.read s.node e.handle = some n) :
    walkBack onRight onPop s =
      .go { onRight s with stk := { e with leftDone := true } :: rest, micro := .visit n.right } := by
  rw [walkBack, hstk]
  simp only [hdone, Bool.false_eq_true, if_false]
  exact readNode_some hn

/-- Out of the top entry. -/
theorem walkBack_out (hstk : s.stk = e :: rest) (hdone : e.leftDone = true) :
    walkBack onRight onPop s = .go { onPop s with stk := rest, micro := .back } := by
  rw [walkBack, hstk]
  exact if_pos hdone

/-- With no entry left the phase ends. -/
theorem walkBack_end (hstk : s.stk = []) : walkBack onRight onPop s = .go (endPhase s) := by
  rw [walkBack, hstk]

end

/-! ### The turns of the walk -/

/-- DERIVE at the program point `m`, with what it has written so far. -/
def deriveAt (m : Micro) (code : Table Bits) (trail : Bits) (stk : List StkEntry) (s : State) : State :=
  { s with code := code, trail := trail, stk := stk, micro := m }

section
variable {s : State} {code : Table Bits} {trail : Bits} {stk : List StkEntry}

theorem deriveTurn_start (hm : s.micro = .start) : deriveTurn s = .go (deriveAt (.visit s.root) [] [] [] s) := by
  simp only [deriveTurn, hm]
  rfl

theorem deriveTurn_visit (h : Handle) :
    deriveTurn (deriveAt (.visit h) code trail stk s) = deriveVisit h (deriveAt (.visit h) code trail stk s) := rfl

theorem deriveTurn_back : deriveTurn (deriveAt .back code trail stk s) =
    walkBack trailRight trailPop (deriveAt .back code trail stk s) := rfl

/-- A leaf takes the trail as its code (R106). -/
theorem deriveTurn_leaf {h : Handle} {sym : Sym} (ht : arenaHolds s.node (.leaf sym) h = true)
    (hsym : sym.toNat ≤ Config.pseudoEof) :
    deriveTurn (deriveAt (.visit h) code trail stk s) =
      .go (deriveAt .back (Table.write code sym.toNat trail) trail stk s) := by
  obtain ⟨i, n, rfl, hn, hleaf, rfl⟩ := arenaHolds_inv_leaf ht
  rw [deriveTurn_visit, deriveVisit, readNode_some (s := deriveAt _ code trail stk s) hn, if_pos hleaf, writeCode,
    if_pos hsym]
  rfl

/-- An internal node sends the walk into its left subtree. -/
theorem deriveTurn_left {i : Nat} {n : Node} (hn : Table.read s.node i = some n) (hleaf : n.leaf = false) :
    deriveTurn (deriveAt (.visit (some i)) code trail stk s) =
      .go (deriveAt (.visit n.left) code (trail ++ [false]) (⟨i, false, none⟩ :: stk) s) := by
  rw [deriveTurn_visit, deriveVisit, readNode_some (s := deriveAt _ code trail stk s) hn, hleaf]
  rfl

/-- The walk comes back from a left subtree and goes into the right one. -/
theorem deriveTurn_right {i : Nat} {n : Node} (hn : Table.read s.node i = some n) :
    deriveTurn (deriveAt .back code (trail ++ [false]) (⟨i, false, none⟩ :: stk) s) =
      .go (deriveAt (.visit n.right) code (trail ++ [true]) (⟨i, true, none⟩ :: stk) s) := by
  rw [deriveTurn_back, walkBack_right rfl rfl hn, trailRight]
  simp only [deriveAt, List.dropLast_concat]

/-- The walk comes back from a right subtree and leaves the node. -/
theorem deriveTurn_out (i : Nat) :
    deriveTurn (deriveAt .back code (trail ++ [true]) (⟨i, true, none⟩ :: stk) s) =
      .go (deriveAt .back code trail stk s) := by
  rw [deriveTurn_back, walkBack_out rfl rfl, trailPop]
  simp only [deriveAt, List.dropLast_concat]

/-- The walk comes back from the root. -/
theorem deriveTurn_end :
    deriveTurn (deriveAt .back code trail [] s) = .go (endPhase (deriveAt .back code trail [] s)) :=
  deriveTurn_back.trans (walkBack_end rfl)

/-! ### The walk -/

/-- One turn of the walk. -/
theorem runTurns_deriveAt (hb : s.state = .busy) (hp : s.phase = .derive) (hq : s.inputs = []) {m : Micro} {s' : State}
    {n : Nat} (hgo : deriveTurn (deriveAt m code trail stk s) = .go s') :
    runTurns .derive deriveTurn (n + 1) (deriveAt m code trail stk s) = runTurns .derive deriveTurn n s' := by
  rw [runTurns_quiet (s := deriveAt m code trail stk s) hb hp hq, hgo]

/-- The walk of a subtree: two turns a node, of which the last, out of its root, is still to come. -/
theorem runTurns_derive (hb : s.state = .busy) (hp : s.phase = .derive) (hq : s.inputs = []) (n : Nat) {t : Tree}
    {h : Handle} (ht : arenaHolds s.node t h = true) (hsyms : ∀ sym ∈ treeSyms t, sym.toNat ≤ Config.pseudoEof) :
    runTurns .derive deriveTurn (2 * t.size + n) (deriveAt (.visit h) code trail stk s) =
      runTurns .derive deriveTurn (n + 1) (deriveAt .back (writeCodes code (pathsBelow trail t)) trail stk s) := by
  induction t generalizing h code trail stk n with
  | leaf sym =>
    have hcount : 2 * (Tree.leaf sym).size + n = n + 1 + 1 := by rw [Tree.size]; omega
    rw [hcount, runTurns_deriveAt hb hp hq (deriveTurn_leaf ht (hsyms sym (List.mem_singleton.mpr rfl))),
      pathsBelow_leaf]
    rfl
  | node l r ihl ihr =>
    obtain ⟨i, nd, rfl, hn, hleaf, hl, hr⟩ := arenaHolds_inv_node ht
    have hcount : 2 * (Tree.node l r).size + n = 2 * l.size + (2 * r.size + (n + 1)) + 1 := by rw [Tree.size]; omega
    rw [hcount, runTurns_deriveAt hb hp hq (deriveTurn_left hn hleaf),
      ihl _ hl fun sym hsym => hsyms sym (List.mem_append_left _ hsym),
      runTurns_deriveAt hb hp hq (deriveTurn_right hn),
      ihr _ hr fun sym hsym => hsyms sym (List.mem_append_right _ hsym),
      runTurns_deriveAt hb hp hq (deriveTurn_out i), pathsBelow_node, writeCodes_append]

end

theorem size_add_one (t : Tree) : t.size + 1 = 2 * t.leaves := by
  induction t with
  | leaf => rfl
  | node l r ihl ihr => rw [Tree.size, Tree.leaves]; omega

/-- Settles O30: DERIVE takes one turn for its first lines and two for each node of the tree, the last of them the end
of the phase. -/
theorem deriveWritesPaths : Obligations.DeriveWritesPaths := by
  unfold Obligations.DeriveWritesPaths
  intro s t ⟨hb, hp, hm, hq⟩ ht hleaves hsyms
  obtain ⟨n, hn⟩ : ∃ n, turnBound s = 2 * t.size + n + 1 := by
    have hsize := size_add_one t
    simp only [Config.nsym] at hleaves
    exact ⟨turnBound s - 2 * t.size - 1, by unfold turnBound; omega⟩
  calc exec .derive s
      = runTurns .derive deriveTurn (2 * t.size + n + 1) s := by rw [← hn]; exact runPhase_goes_on hb hp
    _ = runTurns .derive deriveTurn (2 * t.size + n) (deriveAt (.visit s.root) [] [] [] s) := by
        rw [runTurns_quiet hb hp hq, deriveTurn_start hm]
    _ = runTurns .derive deriveTurn (n + 1) (deriveAt .back (codeTable t) [] [] s) := by
        rw [runTurns_derive hb hp hq n ht hsyms, pathsBelow_nil, codeTable_eq]
    _ = runTurns .derive deriveTurn n (endPhase (deriveAt .back (codeTable t) [] [] s)) := by
        rw [runTurns_deriveAt hb hp hq deriveTurn_end]
    _ = .next (endPhase (deriveAt .back (codeTable t) [] [] s)) := runTurns_stop fun hc => by
        have hnext : s.phase.next = .derive := hc.2.1
        rw [hp] at hnext
        cases hnext
    _ = .next { s with code := codeTable t, trail := [], stk := [], phase := .wrmagic, micro := .start } := by
        rw [endPhase, deriveAt, hp]
        rfl

end Sys2Proof.Machine

/-!
PROOFS. The Code Table of a tree (`42_code_table_deriver.md` R106, R108, R110, R111): what it holds, that no code begins
another and the code is complete, and which symbols have one after BUILD.
-/

namespace Sys2Proof.Machine

/-! ### What the table holds -/

/-- The table holds the code written last. -/
theorem read_writeCodes (ps : List (Sym × Bits)) (i : Nat) :
    Table.read (writeCodes [] ps) i = (ps.reverse.find? fun p => p.1.toNat = i).map Prod.snd := by
  induction ps using List.reverseRecOn with
  | nil => rfl
  | append_singleton ps p ih =>
    have hlast : writeCodes [] (ps ++ [p]) = Table.write (writeCodes [] ps) p.1.toNat p.2 :=
      writeCodes_append [] ps [p]
    rw [hlast, List.reverse_concat, table_read_write]
    by_cases hi : p.1.toNat = i
    · rw [if_pos hi.symm, List.find?_cons_of_pos (by simpa using hi), Option.map_some]
    · rw [if_neg (Ne.symm hi), List.find?_cons_of_neg (by simpa using hi), ih]

section
variable {t : Tree} {i : Nat} {c : Bits}

/-- A code of the table is the path to a leaf. -/
theorem mem_codes_of_read (h : Table.read (codeTable t) i = some c) : ∃ sym, sym.toNat = i ∧ (sym, c) ∈ t.codes := by
  rw [codeTable_eq, read_writeCodes, Option.map_eq_some_iff] at h
  obtain ⟨⟨sym, _⟩, hfind, rfl⟩ := h
  exact ⟨sym, by simpa using List.find?_some hfind, List.mem_reverse.mp (List.mem_of_find?_eq_some hfind)⟩

/-- A symbol has a code if it has a leaf (R111). -/
theorem read_codeTable_isSome_iff : (Table.read (codeTable t) i).isSome = true ↔ ∃ sym ∈ treeSyms t, sym.toNat = i := by
  rw [codeTable_eq, read_writeCodes, Option.isSome_map, List.find?_isSome, ← codes_syms]
  simp

/-- With one leaf a symbol the table holds the path to each leaf (R106). -/
theorem read_codeTable_of_mem (hnd : (treeSyms t).Nodup) {p : Sym × Bits} (hp : p ∈ t.codes) :
    Table.read (codeTable t) p.1.toNat = some p.2 := by
  rw [← codes_syms] at hnd
  have hsome : (Table.read (codeTable t) p.1.toNat).isSome = true :=
    read_codeTable_isSome_iff.mpr ⟨p.1, codes_syms t ▸ List.mem_map_of_mem hp, rfl⟩
  obtain ⟨c, hc⟩ := Option.isSome_iff_exists.mp hsome
  obtain ⟨sym, hsym, hmem⟩ := mem_codes_of_read hc
  have hsame : (sym, c) = p := List.inj_on_of_nodup_map hnd hmem hp (BitVec.eq_of_toNat_eq hsym)
  rw [hc, ← hsame]

/-! ### No code begins another (R108) -/

/-- The leaves with their paths are the walks that end on a leaf. -/
theorem mem_codes_iff {sym : Sym} : (sym, c) ∈ t.codes ↔ t.at? c = some sym := by
  induction t generalizing c with
  | leaf sym' => cases c <;> simp [Tree.codes, Tree.at?, eq_comm]
  | node l r ihl ihr =>
    match c with
    | [] => simp [Tree.codes, Tree.at?]
    | false :: c => simp [Tree.codes, Tree.at?, ihl]
    | true :: c => simp [Tree.codes, Tree.at?, ihr]

/-- A path to a leaf that begins another is that path: a bit string splits after the first leaf in one way. -/
theorem eq_of_prefix_path {d : Bits} {x y : Sym} (hc : t.at? c = some x) (hd : t.at? d = some y) (hcd : c <+: d) :
    x = y := by
  obtain ⟨e, rfl⟩ := hcd
  have hafter : t.split? (c ++ e) = some (c, x, e) := split?_eq_some_iff.mpr ⟨hc, rfl⟩
  have hend : t.split? (c ++ e) = some (c ++ e, y, []) := split?_eq_some_iff.mpr ⟨hd, (List.append_nil _).symm⟩
  exact congrArg (fun p => p.2.1) (Option.some.inj (hafter.symm.trans hend))

theorem codeTable_prefixFree {j : Nat} {d : Bits} (hij : i ≠ j) (hi : Table.read (codeTable t) i = some c)
    (hj : Table.read (codeTable t) j = some d) : ¬ c <+: d := by
  intro hcd
  obtain ⟨x, rfl, hx⟩ := mem_codes_of_read hi
  obtain ⟨y, rfl, hy⟩ := mem_codes_of_read hj
  exact hij (congrArg BitVec.toNat (eq_of_prefix_path (mem_codes_iff.mp hx) (mem_codes_iff.mp hy) hcd))

end

/-! ### The lengths of the codes (R108, R110) -/

theorem leaves_pos (t : Tree) : 0 < t.leaves := by
  induction t with
  | leaf => exact Nat.one_pos
  | node l r ihl _ => exact Nat.add_pos_left ihl _

/-- A path is shorter than the tree has leaves (R110). -/
theorem path_length_lt {t : Tree} {p : Sym × Bits} (hp : p ∈ t.codes) : p.2.length < t.leaves := by
  induction t generalizing p with
  | leaf sym => rw [List.mem_singleton.mp hp]; exact Nat.one_pos
  | node l r ihl ihr =>
    have hl := leaves_pos l
    have hr := leaves_pos r
    rw [Tree.leaves]
    rcases List.mem_append.mp hp with hp | hp
    · obtain ⟨q, hq, rfl⟩ := List.mem_map.mp hp
      have := ihl hq
      rw [List.length_cons]
      omega
    · obtain ⟨q, hq, rfl⟩ := List.mem_map.mp hp
      have := ihr hq
      rw [List.length_cons]
      omega

/-- The paths of a tree make a complete code: each edge down a level halves the share of what hangs from it. -/
theorem path_shares {t : Tree} {n : Nat} (hn : t.leaves ≤ n + 1) :
    (t.codes.map fun p => 2 ^ (n - p.2.length)).sum = 2 ^ n := by
  induction t generalizing n with
  | leaf sym => simp [Tree.codes]
  | node l r ihl ihr =>
    have hl := leaves_pos l
    have hr := leaves_pos r
    rw [Tree.leaves] at hn
    obtain ⟨m, rfl⟩ : ∃ m, n = m + 1 := ⟨n - 1, by omega⟩
    have hl' := ihl (n := m) (by omega)
    have hr' := ihr (n := m) (by omega)
    simp only [Tree.codes, List.map_append, List.map_map, List.sum_append, Function.comp_def, List.length_cons,
      Nat.add_sub_add_right, hl', hr']
    omega

/-- The share of all bit strings of `CODE_MAX` bits that begin with the code, and nothing where there is none. -/
def codeShare (code : Option Bits) : Nat :=
  match code with
  | some c => 2 ^ (Config.codeMax - c.length)
  | none => 0

/-- With one leaf a symbol, the sum over the table is the sum over the leaves. -/
theorem codeTable_shares {t : Tree} (hnd : (treeSyms t).Nodup)
    (hsyms : ∀ sym ∈ treeSyms t, sym.toNat ≤ Config.pseudoEof) :
    ((List.range Config.nsym).map fun i => codeShare (Table.read (codeTable t) i)).sum =
      (t.codes.map fun p => 2 ^ (Config.codeMax - p.2.length)).sum := by
  have hnd' : ((treeSyms t).map BitVec.toNat).Nodup := hnd.map fun _ _ => BitVec.eq_of_toNat_eq
  have hsub : ((treeSyms t).map BitVec.toNat).toFinset ⊆ (List.range Config.nsym).toFinset := by
    intro i hi
    obtain ⟨sym, hsym, rfl⟩ := List.mem_map.mp (List.mem_toFinset.mp hi)
    exact List.mem_toFinset.mpr (List.mem_range.mpr (Nat.lt_succ_of_le (hsyms sym hsym)))
  have habsent : ∀ i ∈ (List.range Config.nsym).toFinset, i ∉ ((treeSyms t).map BitVec.toNat).toFinset →
      codeShare (Table.read (codeTable t) i) = 0 := by
    intro i _ hi
    have hnone : Table.read (codeTable t) i = none := by
      rw [← Option.not_isSome_iff_eq_none, read_codeTable_isSome_iff, ← List.mem_map, ← List.mem_toFinset]
      exact hi
    rw [hnone, codeShare]
  calc ((List.range Config.nsym).map fun i => codeShare (Table.read (codeTable t) i)).sum
      = ∑ i ∈ (List.range Config.nsym).toFinset, codeShare (Table.read (codeTable t) i) :=
        (List.sum_toFinset _ List.nodup_range).symm
    _ = ∑ i ∈ ((treeSyms t).map BitVec.toNat).toFinset, codeShare (Table.read (codeTable t) i) :=
        (Finset.sum_subset hsub habsent).symm
    _ = (((treeSyms t).map BitVec.toNat).map fun i => codeShare (Table.read (codeTable t) i)).sum :=
        List.sum_toFinset _ hnd'
    _ = (t.codes.map fun p => codeShare (Table.read (codeTable t) p.1.toNat)).sum := by
        rw [← codes_syms, List.map_map, List.map_map]
        rfl
    _ = (t.codes.map fun p => 2 ^ (Config.codeMax - p.2.length)).sum := by
        rw [List.map_congr_left fun p hp => congrArg codeShare (read_codeTable_of_mem hnd hp)]
        rfl

/-- Settles O31: the codes are the paths to the leaves, and of these no one passes through another leaf. -/
theorem prefixCode : Obligations.PrefixCode := by
  unfold Obligations.PrefixCode
  intro s t hs ht hleaves hsyms hnd
  refine ⟨_, deriveWritesPaths s t hs ht hleaves hsyms, fun i j c d hij hi hj => codeTable_prefixFree hij hi hj, ?_⟩
  exact (codeTable_shares hnd hsyms).trans (path_shares hleaves)

/-! ### The symbols with a code after BUILD (R111) -/

theorem treeSyms_length (t : Tree) : (treeSyms t).length = t.leaves := by
  induction t with
  | leaf => rfl
  | node l r ihl ihr => rw [treeSyms, List.length_append, ihl, ihr, Tree.leaves]

theorem sproutsFrom_syms (i : Nat) (cs : List (Nat × Nat)) :
    ((sproutsFrom i cs).flatMap fun x => treeSyms x.tree) = cs.map fun c => BitVec.ofNat 9 c.1 := by
  induction cs generalizing i with
  | nil => rfl
  | cons c cs ih => rw [sproutsFrom_cons, List.flatMap_cons, ih, List.map_cons]; rfl

/-- The symbols `countedIn` keeps are those of a count other than 0. -/
theorem mem_countedIn_fst {freq : Table Nat} {syms : List Nat} {i : Nat} :
    i ∈ (countedIn freq syms).map Prod.fst ↔ i ∈ syms ∧ leafCount freq i ≠ 0 := by
  simp [countedIn, and_assoc]

section
variable {freq : Table Nat} {made : List Node} {t : Tree}

/-- The leaves of the tree BUILD makes are the counted symbols. -/
theorem huffmanNodes_syms (h : HuffmanNodes freq made t) :
    (treeSyms t).Perm (((countedSyms freq).map Prod.fst).map (BitVec.ofNat 9)) := by
  refine (huffman_syms h).trans (.of_eq ?_)
  rw [sprouts_eq, sproutsFrom_syms, List.map_map]
  rfl

theorem huffmanNodes_leaves (h : HuffmanNodes freq made t) : t.leaves ≤ Config.nsym := by
  rw [← treeSyms_length, (huffmanNodes_syms h).length_eq, List.length_map, List.length_map]
  exact countedSyms_length_le freq

/-- The numbers of the leaf symbols are the symbols of a count other than 0. -/
theorem huffmanNodes_sym_iff (h : HuffmanNodes freq made t) {i : Nat} :
    (∃ sym ∈ treeSyms t, sym.toNat = i) ↔ i < Config.nsym ∧ leafCount freq i ≠ 0 := by
  have hfits : ∀ j ∈ (countedSyms freq).map Prod.fst, (BitVec.ofNat 9 j).toNat = j := by
    intro j hj
    have hlt : j < 257 := List.mem_range.mp (mem_countedIn_fst.mp hj).1
    exact Nat.mod_eq_of_lt (by omega)
  have hnums :
      ((countedSyms freq).map Prod.fst).map (BitVec.toNat ∘ BitVec.ofNat 9) = (countedSyms freq).map Prod.fst :=
    (List.map_congr_left hfits).trans (List.map_id _)
  rw [← List.mem_map, ((huffmanNodes_syms h).map _).mem_iff, List.map_map, hnums, countedSyms_eq, mem_countedIn_fst,
    List.mem_range]

theorem huffmanNodes_sym_le (h : HuffmanNodes freq made t) : ∀ sym ∈ treeSyms t, sym.toNat ≤ Config.pseudoEof :=
  fun sym hsym => Nat.le_of_lt_succ ((huffmanNodes_sym_iff h).mp ⟨sym, hsym, rfl⟩).1

end

/-- Settles O32: the leaves of the tree BUILD makes are the counted symbols, and DERIVE gives each leaf a code. -/
theorem codedExactlyIfCounted : Obligations.CodedExactlyIfCounted := by
  unfold Obligations.CodedExactlyIfCounted
  intro s hs hfull
  obtain ⟨hb, -, -, hq⟩ := id hs
  obtain ⟨node, made, t, k, -, -, -, hexec, hhuff, -, hroot, -⟩ := buildMakesHuffmanTree s hs hfull
  have hleaves := huffmanNodes_leaves hhuff
  have hcoded {i : Nat} (hi : i ≤ Config.pseudoEof) :
      (Table.read (codeTable t) i).isSome = true ↔ freqAt i s ≠ some 0 := by
    have hlt : i < Config.nsym := Nat.lt_succ_of_le hi
    rw [read_codeTable_isSome_iff, huffmanNodes_sym_iff hhuff, freqAt_full hfull hlt,
      (Option.some_injective Nat).ne_iff]
    exact and_iff_right hlt
  refine ⟨_, _, hexec, deriveWritesPaths _ t ⟨hb, rfl, rfl, hq⟩ hroot hleaves (huffmanNodes_sym_le hhuff),
    fun i hi => hcoded hi, (hcoded le_rfl).mpr ?_, fun i c hc => ?_⟩
  · rw [freqAt, if_pos rfl]
    exact fun h => nomatch h
  · obtain ⟨sym, -, hmem⟩ := mem_codes_of_read hc
    exact Nat.le_of_lt_succ ((path_length_lt hmem).trans_le hleaves)

end Sys2Proof.Machine

/-!
PROOFS. Frames of the phases that write: WRMAGIC, WRTREE and FLUSH (`43_tree_header_codec.md` R115, `46_sequencer.md`
R158, R159), in the terms of the frames of COUNT, BUILD and DERIVE above.
-/

namespace Sys2Proof.Machine

/-! ### The transactions on SNK -/

section
variable {P : State → Prop} {s : State} {k : State → Res}

/-- Everything a write can leave: a fault, the state as it was, or SNK with the bits appended and what follows. -/
theorem wr_yields {n v : Nat} (hfault : P (faultEntry .ioFailure s)) (hwait : P s)
    (hok : (k { s with snk := snkAfter (bitsOf n v) s, snkpos := s.snkpos + n }).Yields P) :
    (wr n v s k).Yields P := by
  obtain hf | ⟨hf, hc, hb⟩ | ho := snk_cases s
  · rw [wr_failed hf]; exact hfault
  · rw [wr_blocked hf hc hb]; exact hwait
  · by_cases hp : s.snkpos + n < Config.posLimit
    · rw [wr_ok ho hp]; exact hok
    · rw [wr_overflow ho hp]; trivial

/-- Everything a close can leave: a fault, the state as it was, or SNK padded and closed and what follows. -/
theorem closeSink_yields (hfault : P (faultEntry .ioFailure s)) (hwait : P s)
    (hok : (k { s with
      snk := { snkAfter (padBits (padLength s.snk.bits.length) s.draws) s with closed := true }
      draws := s.draws + padLength s.snk.bits.length }).Yields P) :
    (closeSink s k).Yields P := by
  obtain hf | ⟨hf, hc, hb⟩ | ho := snk_cases s
  · rw [close_failed hf]; exact hfault
  · rw [close_blocked hf hc hb]; exact hwait
  · rw [close_ok ho]; exact hok

end

/-! ### WRMAGIC -/

/-- The state `s` with the fields WRMAGIC may change taken from `r`. -/
def wrmagicFrame (r s : State) : State :=
  { s with
    snk := { s.snk with bits := r.snk.bits }, snkpos := r.snkpos, state := r.state, phase := r.phase
    err := r.err, errpos := r.errpos, micro := r.micro, inputs := r.inputs }

theorem wrmagicFrame_tick (r s : State) : wrmagicFrame r (tick s) = wrmagicFrame r s := by
  unfold tick; split <;> rfl

theorem wrmagicTurn_changesOnly : ChangesOnly wrmagicFrame wrmagicTurn := by
  intro r s
  unfold wrmagicTurn
  cases s.micro with
  | start => exact wr_yields rfl rfl rfl
  | _ => trivial

/-! ### WRTREE -/

/-- The state `s` with the fields WRTREE may change taken from `r`. -/
def wrtreeFrame (r s : State) : State :=
  { s with
    snk := { s.snk with bits := r.snk.bits }, snkpos := r.snkpos, stk := r.stk, state := r.state
    phase := r.phase, err := r.err, errpos := r.errpos, micro := r.micro, inputs := r.inputs }

theorem wrtreeFrame_tick (r s : State) : wrtreeFrame r (tick s) = wrtreeFrame r s := by
  unfold tick; split <;> rfl

theorem wrtreeVisit_changesOnly (h : Handle) : ChangesOnly wrtreeFrame (wrtreeVisit h) := by
  refine fun r s => readNode_yields fun n => ?_
  split_ifs
  · exact wr_yields rfl rfl rfl
  · cases h with
    | none => trivial
    | some i => exact wr_yields rfl rfl rfl

theorem wrtreeTurn_changesOnly : ChangesOnly wrtreeFrame wrtreeTurn := by
  intro r s
  unfold wrtreeTurn
  cases s.micro with
  | start => rfl
  | visit h => exact wrtreeVisit_changesOnly h r s
  | symField sym => exact wr_yields rfl rfl rfl
  | back => exact walkBack_yields rfl (fun _ => rfl) fun _ _ => rfl
  | _ => trivial

/-! ### FLUSH -/

/-- The state `s` with the fields FLUSH may change taken from `r`. -/
def flushFrame (r s : State) : State :=
  { s with
    snk := { s.snk with bits := r.snk.bits, closed := r.snk.closed }, draws := r.draws, state := r.state
    phase := r.phase, err := r.err, errpos := r.errpos, micro := r.micro, inputs := r.inputs }

theorem flushFrame_tick (r s : State) : flushFrame r (tick s) = flushFrame r s := by
  unfold tick; split <;> rfl

theorem flushTurn_changesOnly : ChangesOnly flushFrame flushTurn := by
  intro r s
  unfold flushTurn
  cases s.micro with
  | start => exact closeSink_yields rfl rfl rfl
  | _ => trivial

/-- Settles O52: no turn of the three phases changes a field outside its frame. -/
theorem frameOfWritingPhases : Obligations.FrameOfWritingPhases := by
  unfold Obligations.FrameOfWritingPhases
  refine fun s t => ⟨fun h => ?_, fun h => ?_, fun h => ?_⟩
  · exact runPhase_changesOnly wrmagicTurn_changesOnly (fun _ => rfl) wrmagicFrame_tick (fun _ _ => rfl) h
  · exact runPhase_changesOnly wrtreeTurn_changesOnly (fun _ => rfl) wrtreeFrame_tick (fun _ _ => rfl) h
  · exact runPhase_changesOnly flushTurn_changesOnly (fun _ => rfl) flushFrame_tick (fun _ _ => rfl) h

end Sys2Proof.Machine

/-!
PROOFS. WRTREE as a whole (`43_tree_header_codec.md` R115 to R118): the walk of a subtree appends its serialization and
comes back with the stack it began with.
-/

namespace Sys2Proof.Machine

/-! ### The first and the last turn of a phase -/

section
variable {p : Phase} {turn : State → Res} {s s' : State}

theorem exists_turnBound_eq {n : Nat} (hn : n < 2048) : ∃ m, turnBound s = n + m + 1 :=
  ⟨turnBound s - n - 1, by unfold turnBound; omega⟩

/-- The turn of the first line. -/
theorem runPhase_start {n : Nat} (hs : AtStart p s) (hn : turnBound s = n + 1) (hgo : turn s = .go s') :
    runPhase p turn s = runTurns p turn n s' := by
  obtain ⟨hb, hp, -, hq⟩ := hs
  rw [runPhase_goes_on hb hp, hn, runTurns_quiet hb hp hq, hgo]

/-- After its last turn a phase that is not its own successor takes none. -/
theorem runTurns_endPhase (n : Nat) (hp : s.phase = p) (hne : p.next ≠ p) :
    runTurns p turn n (endPhase s) = .next (endPhase s) :=
  runTurns_stop fun ⟨_, hnext, _⟩ => hne (hp ▸ hnext)

end

/-! ### The turns of the walk -/

/-- WRTREE at the program point `m`, the bits `b` appended since its first line in `s`. -/
def wrtreeAt (m : Micro) (stk : List StkEntry) (b : Bits) (s : State) : State :=
  { s with snk := snkAfter b s, snkpos := s.snkpos + b.length, stk := stk, micro := m }

section
variable {s : State} {m : Micro} {stk : List StkEntry} {b : Bits}

theorem wrtreeTurn_start (hm : s.micro = .start) : wrtreeTurn s = .go (wrtreeAt (.visit s.root) [] [] s) := by
  simp [wrtreeTurn, hm, wrtreeAt, snkAfter]

theorem wrtreeTurn_visit (h : Handle) :
    wrtreeTurn (wrtreeAt (.visit h) stk b s) = wrtreeVisit h (wrtreeAt (.visit h) stk b s) := rfl

theorem wrtreeTurn_back :
    wrtreeTurn (wrtreeAt .back stk b s) = walkBack id id (wrtreeAt .back stk b s) := rfl

/-- A write appends to what WRTREE has written. -/
theorem wr_wrtreeAt {n v : Nat} {k : State → Res} (ho : SnkOpen s)
    (hpos : s.snkpos + b.length + n < Config.posLimit) :
    wr n v (wrtreeAt m stk b s) k = k (wrtreeAt m stk (b ++ bitsOf n v) s) := by
  rw [wr_ok (s := wrtreeAt m stk b s) ho hpos]
  simp [wrtreeAt, snkAfter, Nat.add_assoc]

/-- The tag of a leaf (R117). -/
theorem wrtreeTurn_leaf {h : Handle} {sym : Sym} (ho : SnkOpen s) (ht : arenaHolds s.node (.leaf sym) h = true)
    (hpos : s.snkpos + b.length + 1 < Config.posLimit) :
    wrtreeTurn (wrtreeAt (.visit h) stk b s) = .go (wrtreeAt (.symField sym) stk (b ++ [true]) s) := by
  obtain ⟨i, n, rfl, hn, hleaf, rfl⟩ := arenaHolds_inv_leaf ht
  rw [wrtreeTurn_visit, wrtreeVisit, readNode_some (s := wrtreeAt _ stk b s) hn, if_pos hleaf, putLeafTag,
    wr_wrtreeAt ho hpos]
  rfl

/-- The symbol field of a leaf (R117). -/
theorem wrtreeTurn_symField (sym : Sym) (ho : SnkOpen s) (hpos : s.snkpos + b.length + 9 < Config.posLimit) :
    wrtreeTurn (wrtreeAt (.symField sym) stk b s) = .go (wrtreeAt .back stk (b ++ bitsOf 9 sym.toNat) s) :=
  wr_wrtreeAt (m := .symField sym) (k := fun s => .go { s with micro := .back }) ho hpos

/-- The tag of an internal node, which sends the walk into its left subtree (R116). -/
theorem wrtreeTurn_left {i : Nat} {n : Node} (ho : SnkOpen s) (hn : Table.read s.node i = some n)
    (hleaf : n.leaf = false) (hpos : s.snkpos + b.length + 1 < Config.posLimit) :
    wrtreeTurn (wrtreeAt (.visit (some i)) stk b s) =
      .go (wrtreeAt (.visit n.left) (⟨i, false, none⟩ :: stk) (b ++ [false]) s) := by
  rw [wrtreeTurn_visit, wrtreeVisit, readNode_some (s := wrtreeAt _ stk b s) hn, hleaf]
  exact wr_wrtreeAt (k := fun s => .go { pushLeft i s with micro := .visit n.left }) ho hpos

/-- The walk comes back from a left subtree and goes into the right one. -/
theorem wrtreeTurn_right {i : Nat} {n : Node} (hn : Table.read s.node i = some n) :
    wrtreeTurn (wrtreeAt .back (⟨i, false, none⟩ :: stk) b s) =
      .go (wrtreeAt (.visit n.right) (⟨i, true, none⟩ :: stk) b s) := by
  rw [wrtreeTurn_back, walkBack_right rfl rfl hn]
  rfl

/-- The walk comes back from a right subtree and leaves the node. -/
theorem wrtreeTurn_out (i : Nat) :
    wrtreeTurn (wrtreeAt .back (⟨i, true, none⟩ :: stk) b s) = .go (wrtreeAt .back stk b s) :=
  wrtreeTurn_back.trans (walkBack_out rfl rfl)

/-- The walk comes back from the root. -/
theorem wrtreeTurn_end : wrtreeTurn (wrtreeAt .back [] b s) = .go (endPhase (wrtreeAt .back [] b s)) :=
  wrtreeTurn_back.trans (walkBack_end rfl)

/-! ### The walk -/

/-- One turn of the walk. -/
theorem runTurns_wrtreeAt (hb : s.state = .busy) (hp : s.phase = .wrtree) (hq : s.inputs = []) {s' : State} {n : Nat}
    (hgo : wrtreeTurn (wrtreeAt m stk b s) = .go s') :
    runTurns .wrtree wrtreeTurn (n + 1) (wrtreeAt m stk b s) = runTurns .wrtree wrtreeTurn n s' := by
  rw [runTurns_quiet (s := wrtreeAt m stk b s) hb hp hq, hgo]

/-- The walk of a subtree appends its serialization: two turns a leaf and three an internal node, so three less than five
for each leaf. -/
theorem runTurns_wrtree (hb : s.state = .busy) (hp : s.phase = .wrtree) (hq : s.inputs = []) (ho : SnkOpen s) (n : Nat)
    {t : Tree} {h : Handle} (ht : arenaHolds s.node t h = true)
    (hpos : s.snkpos + b.length + t.ser.length < Config.posLimit) :
    runTurns .wrtree wrtreeTurn (5 * t.leaves + n) (wrtreeAt (.visit h) stk b s) =
      runTurns .wrtree wrtreeTurn (n + 3) (wrtreeAt .back stk (b ++ t.ser) s) := by
  induction t generalizing h stk b n with
  | leaf sym =>
    have hcount : 5 * (Tree.leaf sym).leaves + n = n + 3 + 1 + 1 := by rw [Tree.leaves]; omega
    have hser : (Tree.leaf sym).ser = [true] ++ bitsOf 9 sym.toNat := rfl
    simp only [hser, List.length_append, List.length_singleton, bitsOf_length] at hpos
    rw [hcount, runTurns_wrtreeAt hb hp hq (wrtreeTurn_leaf ho ht (by omega)),
      runTurns_wrtreeAt hb hp hq (wrtreeTurn_symField sym ho (by simp; omega)), hser, List.append_assoc]
  | node l r ihl ihr =>
    obtain ⟨i, nd, rfl, hn, hleaf, hl, hr⟩ := arenaHolds_inv_node ht
    have hleaves := leaves_pos r
    have hcount : 5 * (Tree.node l r).leaves + n = 5 * l.leaves + (5 * r.leaves - 1 + n) + 1 := by
      rw [Tree.leaves]; omega
    have hright : 5 * r.leaves - 1 + n + 3 = 5 * r.leaves + (n + 1) + 1 := by omega
    have hser : (Tree.node l r).ser = [false] ++ (l.ser ++ r.ser) := rfl
    simp only [hser, List.length_append, List.length_singleton] at hpos
    rw [hcount, runTurns_wrtreeAt hb hp hq (wrtreeTurn_left ho hn hleaf (by omega)),
      ihl _ hl (by simp; omega), hright,
      runTurns_wrtreeAt hb hp hq (wrtreeTurn_right hn),
      ihr _ hr (by simp; omega),
      runTurns_wrtreeAt hb hp hq (wrtreeTurn_out i), hser, List.append_assoc, List.append_assoc]

end

/-- The length of a header (R118). -/
theorem ser_length_add_one (t : Tree) : t.ser.length + 1 = 11 * t.leaves := by
  induction t with
  | leaf sym => simp [Tree.ser, Tree.leaves]
  | node l r ihl ihr =>
    simp only [Tree.ser, Tree.leaves, List.length_cons, List.length_append]
    omega

/-- Settles O34: WRTREE takes one turn for its first line, the walk from the root, and one turn for the end of the
phase. -/
theorem wrtreeWritesHeader : Obligations.WrtreeWritesHeader := by
  unfold Obligations.WrtreeWritesHeader
  intro s t hs ho ht hleaves hpos
  refine ⟨?_, by have := ser_length_add_one t; omega⟩
  obtain ⟨hb, hp, hm, hq⟩ := id hs
  obtain ⟨n, hn⟩ : ∃ n, turnBound s = 5 * t.leaves + n + 1 :=
    exists_turnBound_eq (by simp only [Config.nsym] at hleaves; omega)
  calc exec .wrtree s
      = runTurns .wrtree wrtreeTurn (5 * t.leaves + n) (wrtreeAt (.visit s.root) [] [] s) :=
        runPhase_start hs hn (wrtreeTurn_start hm)
    _ = runTurns .wrtree wrtreeTurn (n + 3) (wrtreeAt .back [] t.ser s) :=
        runTurns_wrtree hb hp hq ho n ht hpos
    _ = runTurns .wrtree wrtreeTurn (n + 2) (endPhase (wrtreeAt .back [] t.ser s)) :=
        runTurns_wrtreeAt hb hp hq wrtreeTurn_end
    _ = .next (endPhase (wrtreeAt .back [] t.ser s)) := runTurns_endPhase _ hp (by decide)
    _ = _ := by rw [endPhase, wrtreeAt, hp]; rfl

end Sys2Proof.Machine

/-!
PROOFS. RDTREE on a whole header (`43_tree_header_codec.md` R119, R120, R123, R124): reading the serialization of a tree
takes the next handles in pre-order for its nodes, and is one return of `des()`.
-/

namespace Sys2Proof.Machine

/-! ### The turns of `des()` -/

/-- RDTREE at the program point `m`, `used` bits read since its first line in `s`: `k` handles are taken, the arena is
`nodes`, and `stk` are the open nodes. -/
def rdtreeAt (m : Micro) (k : Nat) (nodes : Table Node) (stk : List StkEntry) (used : Nat) (s : State) : State :=
  { s with
    src := srcAfter used s, srcpos := s.srcpos + used, nnodes := k, node := nodes, stk := stk, micro := m }

/-- What SRC presents after one more part of it has been read. -/
theorem drop_add_length {up b rest : Bits} {used : Nat} (h : up.drop used = b ++ rest) :
    up.drop (used + b.length) = rest := by
  rw [← List.drop_drop, h, List.drop_left]

section
variable {s : State} {m : Micro} {k x : Nat} {nodes : Table Node} {stk : List StkEntry} {used : Nat} {rest : Bits}

theorem upcoming_rdtreeAt : upcoming (rdtreeAt m k nodes stk used s) = (upcoming s).drop used := List.drop_drop.symm

theorem afterRead_rdtreeAt (n : Nat) :
    afterRead n (rdtreeAt m k nodes stk used s) = rdtreeAt m k nodes stk (used + n) s := by
  simp [afterRead, rdtreeAt, srcAfter, Nat.add_assoc]

/-- RDTREE reads a field that SRC presents. -/
theorem rd_rdtreeAt {n v : Nat} {onValue : Nat → State → Res} {onExhausted : State → Res} (ho : SrcOpen s)
    (hv : v < 2 ^ n) (hup : (upcoming s).drop used = bitsOf n v ++ rest) (hpos : s.srcpos + used + n < Config.posLimit) :
    rd n (rdtreeAt m k nodes stk used s) onValue onExhausted = onValue v (rdtreeAt m k nodes stk (used + n) s) := by
  rw [rd_presented (s := rdtreeAt m k nodes stk used s) ho hv (upcoming_rdtreeAt.trans hup) hpos, afterRead_rdtreeAt]

theorem rdtreeTurn_start (hm : s.micro = .start) : rdtreeTurn s = .go (rdtreeAt .loop 0 s.node [] 0 s) := by
  simp only [rdtreeTurn, hm]
  rfl

theorem rdtreeTurn_loop : rdtreeTurn (rdtreeAt .loop k nodes stk used s) =
    rd 1 (rdtreeAt .loop k nodes stk used s) desTag (raise .malformedHeader) := rfl

theorem rdtreeTurn_leafField : rdtreeTurn (rdtreeAt (.leafField x) k nodes stk used s) =
    rd 9 (rdtreeAt (.leafField x) k nodes stk used s) (desLeaf x) (raise .malformedHeader) := rfl

/-- The tag of an internal node opens it at the next handle. -/
theorem rdtreeTurn_internal (ho : SrcOpen s) (hup : (upcoming s).drop used = false :: rest)
    (hcap : k < Config.nodeCap) (hpos : s.srcpos + used + 1 < Config.posLimit) :
    rdtreeTurn (rdtreeAt .loop k nodes stk used s) =
      .go (rdtreeAt .loop (k + 1) nodes (⟨k, false, none⟩ :: stk) (used + 1) s) := by
  have htag : (upcoming s).drop used = bitsOf 1 0 ++ rest := hup
  rw [rdtreeTurn_loop, rd_rdtreeAt ho (by decide) htag hpos, desTag]
  exact if_neg (c := k = Config.nodeCap) hcap.ne

/-- The tag of a leaf takes the next handle for it. -/
theorem rdtreeTurn_leafTag (ho : SrcOpen s) (hup : (upcoming s).drop used = true :: rest)
    (hcap : k < Config.nodeCap) (hpos : s.srcpos + used + 1 < Config.posLimit) :
    rdtreeTurn (rdtreeAt .loop k nodes stk used s) = .go (rdtreeAt (.leafField k) (k + 1) nodes stk (used + 1) s) := by
  have htag : (upcoming s).drop used = bitsOf 1 1 ++ rest := hup
  rw [rdtreeTurn_loop, rd_rdtreeAt ho (by decide) htag hpos, desTag]
  exact if_neg (c := k = Config.nodeCap) hcap.ne

/-- Where a return of `des()` leads does not depend on the program point it comes from. -/
theorem desDone_micro : desDone x { s with micro := m } = desDone x s := by
  dsimp only [desDone]
  rcases desReturn x s.stk s.node with ⟨root, _ | stk, nodes⟩ <;> rfl

/-- The symbol field of a leaf writes it, and the call of `des()` returns its handle. -/
theorem rdtreeTurn_sym (ho : SrcOpen s) {sym : Sym} (hup : (upcoming s).drop used = bitsOf 9 sym.toNat ++ rest)
    (hpos : s.srcpos + used + 9 < Config.posLimit) :
    rdtreeTurn (rdtreeAt (.leafField x) k nodes stk used s) =
      .go (desDone x (rdtreeAt .loop k (Table.write nodes x (mkLeaf sym 0)) stk (used + 9) s)) := by
  rw [rdtreeTurn_leafField, rd_rdtreeAt ho sym.isLt hup hpos, desLeaf, BitVec.ofNat_toNat, BitVec.setWidth_eq]
  exact congrArg Res.go
    (desDone_micro (m := .leafField x) (s := rdtreeAt .loop k (Table.write nodes x (mkLeaf sym 0)) stk (used + 9) s))

/-! ### The returns of `des()` -/

/-- A return from a left subtree goes on to the right one. -/
theorem desDone_left {h : Nat} {left : Handle} :
    desDone x (rdtreeAt .loop k nodes (⟨h, false, left⟩ :: stk) used s) =
      rdtreeAt .loop k nodes (⟨h, true, some x⟩ :: stk) used s := rfl

/-- A return from a right subtree writes the node that is now complete, and its own call returns. -/
theorem desDone_right {h : Nat} {left : Handle} :
    desDone x (rdtreeAt .loop k nodes (⟨h, true, left⟩ :: stk) used s) =
      desDone h (rdtreeAt .loop k (Table.write nodes h (mkInternal 0 left (some x))) stk used s) := rfl

/-- The outermost return names the root and ends the phase. -/
theorem desDone_root : desDone x (rdtreeAt .loop k nodes [] used s) =
    endPhase { rdtreeAt .loop k nodes [] used s with root := some x } := rfl

/-! ### The nodes of a tree -/

/-- The arena with the nodes RDTREE makes of a tree, the first at handle `h`: an internal node is written after its two
subtrees. -/
def desTree (nodes : Table Node) (h : Nat) : Tree → Table Node
  | .leaf sym => Table.write nodes h (mkLeaf sym 0)
  | .node l r =>
    Table.write (desTree (desTree nodes (h + 1) l) (h + 1 + l.size) r) h
      (mkInternal 0 (some (h + 1)) (some (h + 1 + l.size)))

theorem preNodes_length (h : Nat) (t : Tree) : (preNodes h t).length = t.size := by
  induction t generalizing h with
  | leaf => rfl
  | node l r ihl ihr => simp [preNodes, Tree.size, ihl, ihr]

theorem preNodes_node_left {h i : Nat} {l r : Tree} (hi : i < l.size) :
    (preNodes h (.node l r))[i + 1]? = (preNodes (h + 1) l)[i]? := by
  rw [preNodes, List.getElem?_cons_succ, List.getElem?_append_left (by rwa [preNodes_length])]

theorem preNodes_node_right (h i : Nat) (l r : Tree) :
    (preNodes h (.node l r))[l.size + i + 1]? = (preNodes (h + 1 + l.size) r)[i]? := by
  rw [preNodes, List.getElem?_cons_succ, List.getElem?_append_right (by simp [preNodes_length]), preNodes_length,
    Nat.add_sub_cancel_left]

theorem read_desTree_outside {h i : Nat} {t : Tree} (hi : i < h ∨ h + t.size ≤ i) :
    Table.read (desTree nodes h t) i = Table.read nodes i := by
  induction t generalizing nodes h with
  | leaf => rw [Tree.size] at hi; exact table_read_write_other _ _ (by omega)
  | node l r ihl ihr =>
    rw [Tree.size] at hi
    rw [desTree, table_read_write_other _ _ (by omega), ihr (by omega), ihl (by omega)]

/-- The nodes stand in pre-order from handle `h` on (R120). -/
theorem read_desTree {h i : Nat} {t : Tree} (hi : i < t.size) :
    Table.read (desTree nodes h t) (h + i) = (preNodes h t)[i]? := by
  induction t generalizing nodes h i with
  | leaf =>
    obtain rfl : i = 0 := Nat.lt_one_iff.mp hi
    exact table_read_write_same _ _ _
  | node l r ihl ihr =>
    rw [Tree.size] at hi
    rw [desTree]
    obtain _ | j := i
    · exact table_read_write_same _ _ _
    · rw [table_read_write_other _ _ (by omega)]
      by_cases hj : j < l.size
      · rw [read_desTree_outside (by omega), show h + (j + 1) = h + 1 + j by omega, ihl hj, preNodes_node_left hj]
      · obtain ⟨d, rfl⟩ := Nat.exists_eq_add_of_le (Nat.le_of_not_lt hj)
        rw [show h + (l.size + d + 1) = h + 1 + l.size + d by omega, ihr (by omega), preNodes_node_right]

/-- Where the nodes of a tree stand in pre-order from handle `h` on, the tree hangs from `h`. -/
theorem arenaHolds_of_preNodes {h : Nat} {t : Tree}
    (hread : ∀ i < t.size, Table.read nodes (h + i) = (preNodes h t)[i]?) : arenaHolds nodes t (some h) = true := by
  induction t generalizing h with
  | leaf sym => exact arenaHolds_leaf (hread 0 Nat.one_pos) rfl rfl
  | node l r ihl ihr =>
    simp only [Tree.size] at hread
    refine arenaHolds_node (hread 0 (Nat.succ_pos _)) rfl (ihl fun i hi => ?_) (ihr fun i hi => ?_)
    · rw [Nat.add_assoc, Nat.add_comm 1, hread (i + 1) (by omega), preNodes_node_left hi]
    · rw [show h + 1 + l.size + i = h + (l.size + i + 1) by omega, hread _ (by omega), preNodes_node_right]

/-! ### The reading of a tree -/

/-- One turn of RDTREE. -/
theorem runTurns_rdtreeAt (hb : s.state = .busy) (hp : s.phase = .rdtree) (hq : s.inputs = []) {s' : State} {n : Nat}
    (hgo : rdtreeTurn (rdtreeAt m k nodes stk used s) = .go s') :
    runTurns .rdtree rdtreeTurn (n + 1) (rdtreeAt m k nodes stk used s) = runTurns .rdtree rdtreeTurn n s' := by
  rw [runTurns_quiet (s := rdtreeAt m k nodes stk used s) hb hp hq, hgo]

/-- The last turn of RDTREE, if it raises a fault. -/
theorem runTurns_rdtreeAt_raise (hb : s.state = .busy) (hp : s.phase = .rdtree) (hq : s.inputs = []) {s' : State}
    {f : FaultCode} {n : Nat} (hraise : rdtreeTurn (rdtreeAt m k nodes stk used s) = raise f s') :
    runTurns .rdtree rdtreeTurn (n + 1) (rdtreeAt m k nodes stk used s) = .next (faultEntry f s') := by
  rw [runTurns_quiet (s := rdtreeAt m k nodes stk used s) hb hp hq, hraise]
  rfl

/-- The token LEAF takes two turns, its tag and its field. -/
theorem runTurns_rdtree_leaf (hb : s.state = .busy) (hp : s.phase = .rdtree) (hq : s.inputs = []) (ho : SrcOpen s)
    (n : Nat) {sym : Sym} (hup : (upcoming s).drop used = encode (.leaf sym) ++ rest) (hcap : k < Config.nodeCap)
    (hpos : s.srcpos + used + 10 < Config.posLimit) :
    runTurns .rdtree rdtreeTurn (n + 2) (rdtreeAt .loop k nodes stk used s) =
      runTurns .rdtree rdtreeTurn n
        (desDone k (rdtreeAt .loop (k + 1) (Table.write nodes k (mkLeaf sym 0)) stk (used + 10) s)) := by
  have hfield : (upcoming s).drop (used + 1) = bitsOf 9 sym.toNat ++ rest := drop_add_length (b := [true]) hup
  rw [runTurns_rdtreeAt hb hp hq (rdtreeTurn_leafTag ho hup hcap (by omega)),
    runTurns_rdtreeAt hb hp hq (rdtreeTurn_sym ho hfield (by omega))]

/-- The reading of a subtree: one turn an internal node and two a leaf, so one less than three for each leaf. -/
theorem runTurns_rdtree (hb : s.state = .busy) (hp : s.phase = .rdtree) (hq : s.inputs = []) (ho : SrcOpen s) (n : Nat)
    {t : Tree} (hup : (upcoming s).drop used = t.ser ++ rest) (hcap : k + t.size ≤ Config.nodeCap)
    (hpos : s.srcpos + used + t.ser.length < Config.posLimit) :
    runTurns .rdtree rdtreeTurn (3 * t.leaves + n) (rdtreeAt .loop k nodes stk used s) =
      runTurns .rdtree rdtreeTurn (n + 1)
        (desDone k (rdtreeAt .loop (k + t.size) (desTree nodes k t) stk (used + t.ser.length) s)) := by
  induction t generalizing k nodes stk used rest n with
  | leaf sym =>
    have hlen : (Tree.leaf sym).ser.length = 10 := by simp [Tree.ser]
    have hcount : 3 * (Tree.leaf sym).leaves + n = n + 1 + 2 := by rw [Tree.leaves]; omega
    rw [hlen] at hpos ⊢
    rw [hcount, runTurns_rdtree_leaf hb hp hq ho _ hup hcap hpos]
    rfl
  | node l r ihl ihr =>
    have hleaves := leaves_pos r
    have hcount : 3 * (Tree.node l r).leaves + n = 3 * l.leaves + (3 * r.leaves - 1 + n) + 1 := by
      rw [Tree.leaves]; omega
    have hright : 3 * r.leaves - 1 + n + 1 = 3 * r.leaves + n := by omega
    have hser : (Tree.node l r).ser = [false] ++ l.ser ++ r.ser := rfl
    have hlen : (Tree.node l r).ser.length = 1 + l.ser.length + r.ser.length := by simp [hser]; omega
    rw [Tree.size] at hcap ⊢
    rw [hlen] at hpos ⊢
    rw [hser, List.append_assoc, List.append_assoc] at hup
    have hupl : (upcoming s).drop (used + 1) = l.ser ++ (r.ser ++ rest) := drop_add_length hup
    have hupr : (upcoming s).drop (used + 1 + l.ser.length) = r.ser ++ rest := drop_add_length hupl
    rw [hcount, runTurns_rdtreeAt hb hp hq (rdtreeTurn_internal ho hup (by omega) (by omega)),
      ihl _ hupl (by omega) (by omega), desDone_left, hright, ihr _ hupr (by omega) (by omega), desDone_right, desTree,
      ← Nat.add_assoc used, ← Nat.add_assoc used, show k + (l.size + r.size + 1) = k + 1 + l.size + r.size by omega]

end

/-- Settles O39: RDTREE takes one turn for its first line and reads the tree, whose last bit returns from the outermost
call of `des()`. -/
theorem rdtreeBuildsTree : Obligations.RdtreeBuildsTree := by
  unfold Obligations.RdtreeBuildsTree
  intro s t rest hs ho hup hsize hpos
  obtain ⟨hb, hp, hm, hq⟩ := id hs
  have hread (i : Nat) (hi : i < t.size) : Table.read (desTree s.node 0 t) i = (preNodes 0 t)[i]? := by
    simpa using read_desTree (nodes := s.node) (h := 0) hi
  refine ⟨desTree s.node 0 t, ?_, arenaHolds_of_preNodes fun i hi => by rw [Nat.zero_add, hread i hi], hread,
    fun i hi => read_desTree_outside (by omega)⟩
  obtain ⟨n, hn⟩ : ∃ n, turnBound s = 3 * t.leaves + n + 1 := exists_turnBound_eq (by
    have := size_add_one t
    simp only [Config.nodeCap] at hsize
    omega)
  calc exec .rdtree s
      = runTurns .rdtree rdtreeTurn (3 * t.leaves + n) (rdtreeAt .loop 0 s.node [] 0 s) :=
        runPhase_start hs hn (rdtreeTurn_start hm)
    _ = runTurns .rdtree rdtreeTurn (n + 1)
          (desDone 0 (rdtreeAt .loop (0 + t.size) (desTree s.node 0 t) [] (0 + t.ser.length) s)) :=
        runTurns_rdtree hb hp hq ho n hup (by omega) hpos
    _ = .next (desDone 0 (rdtreeAt .loop (0 + t.size) (desTree s.node 0 t) [] (0 + t.ser.length) s)) :=
        runTurns_endPhase _ hp (by decide)
    _ = _ := by
        rw [desDone_root, endPhase, rdtreeAt, hp, Nat.zero_add, Nat.zero_add]
        rfl

end Sys2Proof.Machine

/-!
PROOFS. RDTREE on a header that stops before its tree is complete (`43_tree_header_codec.md` R121, `60_exceptions.md`
R172): each token leaves as many subtrees owed as `owedAfter` says, and where some are owed RDTREE stands at the head of
`des()`.
-/

namespace Sys2Proof.Machine

/-! ### The subtrees a header owes -/

/-- The right subtrees that the open nodes on the stack still owe. -/
def owedRight (stk : List StkEntry) : Nat := stk.countP fun e => !e.leftDone

@[simp] theorem owedRight_false (h : Nat) (left : Handle) (stk : List StkEntry) :
    owedRight (⟨h, false, left⟩ :: stk) = owedRight stk + 1 := by simp [owedRight]

@[simp] theorem owedRight_true (h : Nat) (left : Handle) (stk : List StkEntry) :
    owedRight (⟨h, true, left⟩ :: stk) = owedRight stk := by simp [owedRight]

theorem stillOpen_pos {n : Nat} {toks : List Instr} (h : stillOpen n toks = true) : 0 < n := by
  cases toks <;> simp_all [stillOpen]

theorem stillOpen_cons {n : Nat} {tok : Instr} {toks : List Instr} (h : stillOpen n (tok :: toks) = true) :
    stillOpen (owedAfter n tok) toks = true := by
  rw [stillOpen, Bool.and_eq_true] at h
  exact h.2

section
variable {s : State} {k : Nat} {nodes : Table Node} {stk : List StkEntry} {used : Nat} {rest : Bits}

/-- Where a right subtree is owed, a return of `des()` leads to it. -/
theorem desDone_owed (x : Nat) (howed : 0 < owedRight stk) :
    ∃ nodes' stk', desDone x (rdtreeAt .loop k nodes stk used s) = rdtreeAt .loop k nodes' stk' used s ∧
      owedRight stk' + 1 = owedRight stk := by
  induction stk generalizing x nodes with
  | nil => exact absurd howed (Nat.lt_irrefl 0)
  | cons e stk ih =>
    obtain ⟨h, done, left⟩ := e
    cases done with
    | false => exact ⟨_, _, desDone_left, by simp⟩
    | true =>
      rw [owedRight_true] at howed ⊢
      rw [desDone_right]
      exact ih h howed

/-! ### The reading of tokens -/

/-- One token that does not complete the tree: one turn or two, after which RDTREE is at the head of `des()` again. -/
theorem runTurns_rdtree_token (hb : s.state = .busy) (hp : s.phase = .rdtree) (hq : s.inputs = []) (ho : SrcOpen s)
    {tok : Instr} (htok : tok = .internal ∨ ∃ sym, tok = .leaf sym) (howed : 0 < owedAfter (owedRight stk + 1) tok)
    (hup : (upcoming s).drop used = encode tok ++ rest) (hcap : k < Config.nodeCap)
    (hpos : s.srcpos + used + (encode tok).length < Config.posLimit) :
    ∃ nodes' stk' m, owedRight stk' + 1 = owedAfter (owedRight stk + 1) tok ∧ m ≤ 2 ∧
      ∀ n, runTurns .rdtree rdtreeTurn (n + m) (rdtreeAt .loop k nodes stk used s) =
        runTurns .rdtree rdtreeTurn n (rdtreeAt .loop (k + 1) nodes' stk' (used + (encode tok).length) s) := by
  obtain rfl | ⟨sym, rfl⟩ := htok
  · exact ⟨nodes, ⟨k, false, none⟩ :: stk, 1, by simp [owedAfter], by omega, fun n =>
      runTurns_rdtreeAt hb hp hq (rdtreeTurn_internal ho hup hcap hpos)⟩
  · have hlen : (encode (.leaf sym)).length = 10 := congrArg (· + 1) (bitsOf_length 9 sym.toNat)
    rw [hlen] at hpos ⊢
    obtain ⟨nodes', stk', hdone, howed'⟩ := desDone_owed (s := s) (k := k + 1) (used := used + 10)
      (nodes := Table.write nodes k (mkLeaf sym 0)) k howed
    exact ⟨nodes', stk', 2, howed', Nat.le_refl 2, fun n => by
      rw [runTurns_rdtree_leaf hb hp hq ho n hup hcap hpos, hdone]⟩

/-- Tokens that never complete the tree, at most two turns each. -/
theorem runTurns_rdtree_tokens (hb : s.state = .busy) (hp : s.phase = .rdtree) (hq : s.inputs = []) (ho : SrcOpen s)
    {toks : List Instr} (htoks : ∀ tok ∈ toks, tok = .internal ∨ ∃ sym, tok = .leaf sym)
    (hopen : stillOpen (owedRight stk + 1) toks = true) (hup : (upcoming s).drop used = toks.flatMap encode ++ rest)
    (hcap : k + toks.length ≤ Config.nodeCap)
    (hpos : s.srcpos + used + (toks.flatMap encode).length < Config.posLimit) :
    ∃ nodes' stk' m, m ≤ 2 * toks.length ∧
      ∀ n, runTurns .rdtree rdtreeTurn (n + m) (rdtreeAt .loop k nodes stk used s) =
        runTurns .rdtree rdtreeTurn n
          (rdtreeAt .loop (k + toks.length) nodes' stk' (used + (toks.flatMap encode).length) s) := by
  induction toks generalizing k nodes stk used with
  | nil => exact ⟨nodes, stk, 0, Nat.le_refl 0, fun n => rfl⟩
  | cons tok toks ih =>
    have hrest := stillOpen_cons hopen
    rw [List.flatMap_cons, List.append_assoc] at hup
    simp only [List.flatMap_cons, List.length_append, List.length_cons] at hpos hcap ⊢
    obtain ⟨nodes₁, stk₁, m₁, howed, hm₁, hrun₁⟩ := runTurns_rdtree_token (k := k) (nodes := nodes)
      hb hp hq ho (htoks tok List.mem_cons_self) (stillOpen_pos hrest) hup (by omega) (by omega)
    rw [← howed] at hrest
    obtain ⟨nodes₂, stk₂, m₂, hm₂, hrun₂⟩ := ih (k := k + 1) (nodes := nodes₁)
      (fun tok' htok' => htoks tok' (List.mem_cons_of_mem _ htok')) hrest (drop_add_length hup) (by omega) (by omega)
    refine ⟨nodes₂, stk₂, m₂ + m₁, by omega, fun n => ?_⟩
    rw [← Nat.add_assoc, hrun₁, hrun₂]
    simp only [Nat.add_assoc, Nat.add_comm 1]

/-! ### The end of the source -/

/-- No further tag. -/
theorem rdtreeTurn_noTag (ho : SrcOpen s) (hup : (upcoming s).drop used = []) :
    rdtreeTurn (rdtreeAt .loop k nodes stk used s) =
      raise .malformedHeader (afterExhausted (rdtreeAt .loop k nodes stk used s)) :=
  rdtreeTurn_loop.trans (rd_exhausted (s := rdtreeAt .loop k nodes stk used s) ho (by simp [upcoming_rdtreeAt, hup]))

/-- A symbol field of fewer than 9 bits. -/
theorem rdtreeTurn_cutField {x : Nat} (ho : SrcOpen s) (hup : ((upcoming s).drop used).length < 9) :
    rdtreeTurn (rdtreeAt (.leafField x) k nodes stk used s) =
      raise .malformedHeader (afterExhausted (rdtreeAt (.leafField x) k nodes stk used s)) :=
  rdtreeTurn_leafField.trans
    (rd_exhausted (s := rdtreeAt (.leafField x) k nodes stk used s) ho (by rwa [upcoming_rdtreeAt]))

/-- What stands after the last whole token, nothing or the tag of a leaf and less than its field, ends in
`MalformedHeader` after the tag. -/
theorem runTurns_rdtree_cut (hb : s.state = .busy) (hp : s.phase = .rdtree) (hq : s.inputs = []) (ho : SrcOpen s)
    {cut : Bits} (hcut : cut = [] ∨ ∃ field : Bits, cut = true :: field ∧ field.length < 9)
    (hup : (upcoming s).drop used = cut) (hcap : k + (cut.take 1).length ≤ Config.nodeCap)
    (hpos : s.srcpos + used + (cut.take 1).length < Config.posLimit) (n : Nat) :
    ∃ micro, runTurns .rdtree rdtreeTurn (n + 2) (rdtreeAt .loop k nodes stk used s) =
      .next (faultEntry .malformedHeader (afterExhausted
        (rdtreeAt micro (k + (cut.take 1).length) nodes stk (used + (cut.take 1).length) s))) := by
  obtain rfl | ⟨field, rfl, hfield⟩ := hcut
  · exact ⟨.loop, runTurns_rdtreeAt_raise hb hp hq (rdtreeTurn_noTag ho hup)⟩
  · have hleft : (upcoming s).drop (used + 1) = field := drop_add_length (b := [true]) hup
    have htag : ((true :: field).take 1).length = 1 := rfl
    rw [htag] at hcap hpos ⊢
    refine ⟨.leafField k, ?_⟩
    rw [runTurns_rdtreeAt hb hp hq (rdtreeTurn_leafTag ho hup hcap hpos),
      runTurns_rdtreeAt_raise hb hp hq (rdtreeTurn_cutField ho (hleft ▸ hfield))]

end

/-- Settles O40: RDTREE takes one turn for its first line, reads the tokens, and finds the source at its end. -/
theorem malformedHeader : Obligations.MalformedHeader := by
  unfold Obligations.MalformedHeader
  intro s toks cut hs ho htoks hopen hcut hup hcap hpos
  obtain ⟨hb, hp, hm, hq⟩ := id hs
  obtain ⟨nodes, stk, m, hlen, htokens⟩ := runTurns_rdtree_tokens (k := 0) (nodes := s.node) (stk := []) (used := 0)
    hb hp hq ho htoks hopen hup (by omega) (by omega)
  obtain ⟨n, hn⟩ : ∃ n, turnBound s = m + 2 + n + 1 :=
    exists_turnBound_eq (by simp only [Config.nodeCap] at hcap; omega)
  rw [Nat.zero_add, Nat.zero_add] at htokens
  obtain ⟨micro, hfault⟩ := runTurns_rdtree_cut (nodes := nodes) (stk := stk) hb hp hq ho hcut
    (by rw [hup, List.drop_left]) hcap hpos n
  refine ⟨nodes, stk, micro, ?_⟩
  calc exec .rdtree s
      = runTurns .rdtree rdtreeTurn (m + 2 + n) (rdtreeAt .loop 0 s.node [] 0 s) :=
        runPhase_start hs hn (rdtreeTurn_start hm)
    _ = runTurns .rdtree rdtreeTurn (n + 2) (rdtreeAt .loop toks.length nodes stk (toks.flatMap encode).length s) := by
        rw [← htokens]
        congr 1
        omega
    _ = _ := hfault

end Sys2Proof.Machine

/-!
PROOFS. ENCODE as a whole (`44_encoder.md` R130 to R133): where it stands after each byte of the second pass, one turn
for the read, one for each bit of the code and one for the end of the code, and what it makes of the end of the input.
-/

namespace Sys2Proof.Machine

/-! ### The codes of a byte sequence -/

/-- The codes of the bytes, one after another (R132). -/
def codeBits (code : Table Bits) (bs : List Byte) : Bits := bs.flatMap fun b => (Table.read code b.toNat).getD []

section
variable {code : Table Bits} {bs : List Byte}

@[simp] theorem codeBits_nil : codeBits code [] = [] := rfl

theorem codeBits_append (cs : List Byte) : codeBits code (bs ++ cs) = codeBits code bs ++ codeBits code cs :=
  List.flatMap_append

theorem codeBits_cons {b : Byte} {c : Bits} (hc : Table.read code b.toNat = some c) :
    codeBits code (b :: bs) = c ++ codeBits code bs := by
  rw [codeBits, List.flatMap_cons, hc, Option.getD_some, codeBits]

theorem bodyBits_eq_codeBits {eof : Bits} (heof : Table.read code Config.pseudoEof = some eof) :
    bodyBits code bs = codeBits code bs ++ eof := by
  rw [bodyBits, heof, Option.getD_some, codeBits]

theorem codeBits_length_le (h : Coded code bs) : (codeBits code bs).length ≤ Config.codeMax * bs.length := by
  induction bs with
  | nil => exact Nat.le_refl 0
  | cons b bs ih =>
    obtain ⟨⟨c, hc, hlen⟩, hrest⟩ := List.forall_mem_cons.mp h
    rw [codeBits_cons hc, List.length_append, List.length_cons, Nat.mul_succ, Nat.add_comm]
    exact Nat.add_le_add (ih hrest) hlen

end

/-! ### The emission of a code -/

/-- The state after the bits `b` have been written. -/
def afterWrite (b : Bits) (s : State) : State := { s with snk := snkAfter b s, snkpos := s.snkpos + b.length }

/-- ENCODE with the bits `c` of a code left to write. -/
def emitting (c : Bits) (last : Bool) (s : State) : State := { s with micro := .emit c last }

section
variable {s : State}

theorem afterWrite_nil : afterWrite [] s = s := by simp [afterWrite, snkAfter]

theorem afterWrite_append (b c : Bits) : afterWrite (b ++ c) s = afterWrite c (afterWrite b s) := by
  simp [afterWrite, snkAfter, Nat.add_assoc]

/-- One turn of a quiet phase that hands on. -/
theorem runTurns_quiet_go {p : Phase} {turn : State → Res} {s' : State} {n : Nat} (hb : s.state = .busy)
    (hp : s.phase = p) (hq : s.inputs = []) (hgo : turn s = .go s') :
    runTurns p turn (n + 1) s = runTurns p turn n s' := by
  rw [runTurns_quiet hb hp hq, hgo]

theorem encodeByte_coded {b : Nat} {c : Bits} (hc : codeAt b s = some c) :
    encodeByte b s = .go (emitting c false s) := by
  rw [encodeByte, hc]
  rfl

theorem encodeEof_coded {eof : Bits} (heof : codeAt Config.pseudoEof s = some eof) :
    encodeEof s = .go (emitting eof true s) := by
  rw [encodeEof, heof]
  rfl

/-- A turn writes the next bit of the code. -/
theorem encodeTurn_bit {x : Bool} {c : Bits} {last : Bool} (ho : SnkOpen s) (hpos : s.snkpos + 1 < Config.posLimit) :
    encodeTurn (emitting (x :: c) last s) = .go (emitting c last (afterWrite [x] s)) := by
  have hbit : bitsOf 1 x.toNat = [x] := by cases x <;> rfl
  calc encodeTurn (emitting (x :: c) last s)
      = wr 1 x.toNat (emitting (x :: c) last s) fun s => .go (emitting c last s) := rfl
    _ = .go (emitting c last (afterWrite (bitsOf 1 x.toNat) s)) := wr_ok (s := emitting _ last s) ho hpos
    _ = .go (emitting c last (afterWrite [x] s)) := by rw [hbit]

/-- The turns that emit a code append it, one turn a bit. -/
theorem runTurns_emitting (hb : s.state = .busy) (hp : s.phase = .encode) (hq : s.inputs = []) (ho : SnkOpen s)
    (n : Nat) {c : Bits} {last : Bool} (hpos : s.snkpos + c.length < Config.posLimit) :
    runTurns .encode encodeTurn (c.length + n) (emitting c last s) =
      runTurns .encode encodeTurn n (emitting [] last (afterWrite c s)) := by
  induction c generalizing s with
  | nil => rw [afterWrite_nil, List.length_nil, Nat.zero_add]
  | cons x c ih =>
    rw [List.length_cons] at hpos
    have hcount : (x :: c).length + n = c.length + n + 1 := Nat.add_right_comm _ _ _
    have happend : afterWrite (x :: c) s = afterWrite c (afterWrite [x] s) := afterWrite_append [x] c
    rw [hcount, runTurns_quiet_go (s := emitting _ last s) hb hp hq (encodeTurn_bit ho (by omega)), happend]
    exact ih (s := afterWrite [x] s) hb hp hq ho (by simp only [afterWrite, List.length_singleton]; omega)

theorem encodeTurn_emitted_eof : encodeTurn (emitting [] true s) = .go (endPhase s) := rfl

theorem encodeTurn_emitted_byte : encodeTurn (emitting [] false s) = .go { s with micro := .loop } := rfl

/-- After the code of a byte, which one more turn ends, the second pass goes on (R132). -/
theorem runTurns_emitting_byte (hb : s.state = .busy) (hp : s.phase = .encode) (hq : s.inputs = []) (ho : SnkOpen s)
    (n : Nat) {c : Bits} (hpos : s.snkpos + c.length < Config.posLimit) :
    runTurns .encode encodeTurn (c.length + (n + 1)) (emitting c false s) =
      runTurns .encode encodeTurn n { afterWrite c s with micro := .loop } := by
  rw [runTurns_emitting hb hp hq ho (n + 1) hpos]
  exact runTurns_quiet_go (s := emitting [] false (afterWrite c s)) hb hp hq encodeTurn_emitted_byte

/-- After the code of PSEUDO_EOF, which one more turn ends, the phase is over (R133). -/
theorem runTurns_emitting_eof (hb : s.state = .busy) (hp : s.phase = .encode) (hq : s.inputs = []) (ho : SnkOpen s)
    (n : Nat) {c : Bits} (hpos : s.snkpos + c.length < Config.posLimit) :
    runTurns .encode encodeTurn (c.length + (n + 1)) (emitting c true s) = .next (endPhase (afterWrite c s)) := by
  rw [runTurns_emitting hb hp hq ho (n + 1) hpos,
    runTurns_quiet_go (s := emitting [] true (afterWrite c s)) hb hp hq encodeTurn_emitted_eof,
    runTurns_endPhase (s := afterWrite c s) n hp (by decide)]

end

/-! ### ENCODE between two bytes -/

/-- ENCODE at the head of its loop, the bytes `bs` of the rewound SRC encoded since its first line in `s`. -/
def encodedTo (bs : List Byte) (s : State) : State :=
  { afterWrite (codeBits s.code bs) s with
    src := { srcRewound s with pos := 8 * bs.length }, srcpos := 8 * bs.length, micro := .loop }

section
variable {s : State} {bs : List Byte} {rest : Bits}

theorem srcOpen_encodedTo : SrcOpen (encodedTo bs s) ↔ SrcOpen s := Iff.rfl

theorem upcoming_encodedTo (hup : s.src.reread.getD s.src.bits = byteBits bs ++ rest) :
    upcoming (encodedTo bs s) = rest := by
  have hdrop : upcoming (encodedTo bs s) = (s.src.reread.getD s.src.bits).drop (8 * bs.length) := rfl
  rw [hdrop, hup, List.drop_left' (byteBits_length bs)]

theorem encodedTo_snoc {b : Byte} {c : Bits} (hc : Table.read s.code b.toNat = some c) :
    { afterWrite c (afterRead 8 (encodedTo bs s)) with micro := .loop } = encodedTo (bs ++ [b]) s := by
  have hcode : codeBits s.code (bs ++ [b]) = codeBits s.code bs ++ c := by
    rw [codeBits_append, codeBits_cons hc, codeBits_nil, List.append_nil]
  rw [encodedTo, encodedTo, hcode, afterWrite_append, List.length_append, List.length_singleton, Nat.mul_succ]
  rfl

/-- The first line of ENCODE (R131). -/
theorem encodeTurn_start (hm : s.micro = .start) (ho : SrcOpen s) : encodeTurn s = .go (encodedTo [] s) := by
  unfold encodeTurn
  rw [hm]
  dsimp only
  rw [rewind_ok ho, encodedTo, codeBits_nil, afterWrite_nil]
  rfl

theorem encodeTurn_loop : encodeTurn (encodedTo bs s) = rd 8 (encodedTo bs s) encodeByte encodeEof := rfl

/-- A turn of the loop reads the next byte and finds its code (R132). -/
theorem encodeTurn_byte {b : Byte} {c : Bits} (ho : SrcOpen s)
    (hup : s.src.reread.getD s.src.bits = byteBits bs ++ (bitsOf 8 b.toNat ++ rest))
    (hc : Table.read s.code b.toNat = some c) (hpos : 8 * bs.length + 8 < Config.posLimit) :
    encodeTurn (encodedTo bs s) = .go (emitting c false (afterRead 8 (encodedTo bs s))) :=
  encodeTurn_loop.trans <| (rd_presented (srcOpen_encodedTo.mpr ho) b.isLt (upcoming_encodedTo hup) hpos).trans <|
    encodeByte_coded hc

/-- A turn of the loop that finds no further byte turns to the code of PSEUDO_EOF (R133). -/
theorem encodeTurn_eof {eof : Bits} (ho : SrcOpen s) (hup : s.src.reread.getD s.src.bits = byteBits bs ++ rest)
    (hrest : rest.length < 8) (heof : Table.read s.code Config.pseudoEof = some eof) :
    encodeTurn (encodedTo bs s) = .go (emitting eof true (afterExhausted (encodedTo bs s))) :=
  encodeTurn_loop.trans <| (rd_exhausted (srcOpen_encodedTo.mpr ho) (by rwa [upcoming_encodedTo hup])).trans <|
    encodeEof_coded (s := afterExhausted (encodedTo bs s)) heof

/-! ### The turns of the second pass -/

/-- A byte takes one turn for the read, one for each bit of its code and one for the end of the code. -/
theorem runTurns_encode_byte (hb : s.state = .busy) (hp : s.phase = .encode) (hq : s.inputs = []) (hsrc : SrcOpen s)
    (hsnk : SnkOpen s) (n : Nat) {b : Byte} {c : Bits}
    (hup : s.src.reread.getD s.src.bits = byteBits bs ++ (bitsOf 8 b.toNat ++ rest))
    (hc : Table.read s.code b.toNat = some c) (hread : 8 * bs.length + 8 < Config.posLimit)
    (hwrite : s.snkpos + (codeBits s.code bs).length + c.length < Config.posLimit) :
    runTurns .encode encodeTurn (c.length + (n + 1) + 1) (encodedTo bs s) =
      runTurns .encode encodeTurn n (encodedTo (bs ++ [b]) s) := by
  calc runTurns .encode encodeTurn (c.length + (n + 1) + 1) (encodedTo bs s)
      = runTurns .encode encodeTurn (c.length + (n + 1)) (emitting c false (afterRead 8 (encodedTo bs s))) :=
        runTurns_quiet_go (s := encodedTo bs s) hb hp hq (encodeTurn_byte hsrc hup hc hread)
    _ = runTurns .encode encodeTurn n { afterWrite c (afterRead 8 (encodedTo bs s)) with micro := .loop } :=
        runTurns_emitting_byte (s := afterRead 8 (encodedTo bs s)) hb hp hq hsnk n hwrite
    _ = runTurns .encode encodeTurn n (encodedTo (bs ++ [b]) s) := by rw [encodedTo_snoc hc]

/-- The loop of ENCODE: two turns a byte and one for each bit of the codes. -/
theorem runTurns_encode (hb : s.state = .busy) (hp : s.phase = .encode) (hq : s.inputs = []) (hsrc : SrcOpen s)
    (hsnk : SnkOpen s) (n : Nat) {cs : List Byte}
    (hup : s.src.reread.getD s.src.bits = byteBits (bs ++ cs) ++ rest) (hcoded : Coded s.code cs)
    (hread : 8 * (bs ++ cs).length < Config.posLimit)
    (hwrite : s.snkpos + (codeBits s.code (bs ++ cs)).length < Config.posLimit) :
    runTurns .encode encodeTurn (2 * cs.length + (codeBits s.code cs).length + n) (encodedTo bs s) =
      runTurns .encode encodeTurn n (encodedTo (bs ++ cs) s) := by
  induction cs generalizing bs with
  | nil => simp
  | cons b cs ih =>
    obtain ⟨⟨c, hc, -⟩, hrest⟩ := List.forall_mem_cons.mp hcoded
    have hnext : s.src.reread.getD s.src.bits = byteBits bs ++ (bitsOf 8 b.toNat ++ (byteBits cs ++ rest)) := by
      rw [hup, byteBits_append, byteBits_cons, List.append_assoc, List.append_assoc]
    have hsplit : bs ++ b :: cs = (bs ++ [b]) ++ cs := List.append_cons bs b cs
    have hcount : 2 * (b :: cs).length + (codeBits s.code (b :: cs)).length + n =
        c.length + (2 * cs.length + (codeBits s.code cs).length + n + 1) + 1 := by
      rw [codeBits_cons hc, List.length_append, List.length_cons]
      omega
    obtain ⟨hreadByte, hwriteCode⟩ : 8 * bs.length + 8 < Config.posLimit ∧
        s.snkpos + (codeBits s.code bs).length + c.length < Config.posLimit := by
      rw [codeBits_append, codeBits_cons hc] at hwrite
      simp only [List.length_append, List.length_cons] at hread hwrite
      omega
    rw [hcount, runTurns_encode_byte hb hp hq hsrc hsnk _ hnext hc hreadByte hwriteCode]
    rw [hsplit] at hup hread hwrite ⊢
    exact ih hup hrest hread hwrite

/-- The end of the input takes one turn for the read, one for each bit of the code of PSEUDO_EOF and one for the end of
the code, which ends the phase. -/
theorem runTurns_encode_eof (hb : s.state = .busy) (hp : s.phase = .encode) (hq : s.inputs = []) (hsrc : SrcOpen s)
    (hsnk : SnkOpen s) (n : Nat) {eof : Bits} (hup : s.src.reread.getD s.src.bits = byteBits bs ++ rest)
    (hrest : rest.length < 8) (heof : Table.read s.code Config.pseudoEof = some eof)
    (hwrite : s.snkpos + (codeBits s.code bs).length + eof.length < Config.posLimit) :
    runTurns .encode encodeTurn (eof.length + (n + 1) + 1) (encodedTo bs s) =
      .next (endPhase (afterWrite eof (afterExhausted (encodedTo bs s)))) := by
  calc runTurns .encode encodeTurn (eof.length + (n + 1) + 1) (encodedTo bs s)
      = runTurns .encode encodeTurn (eof.length + (n + 1)) (emitting eof true (afterExhausted (encodedTo bs s))) :=
        runTurns_quiet_go (s := encodedTo bs s) hb hp hq (encodeTurn_eof hsrc hup hrest heof)
    _ = _ := runTurns_emitting_eof (s := afterExhausted (encodedTo bs s)) hb hp hq hsnk n hwrite

/-- A phase may take 512 turns for each bit SRC presents after a rewind, so 4096 for each byte. -/
theorem exists_turnBound_eq_of_rewound {n : Nat} (hup : s.src.reread.getD s.src.bits = byteBits bs ++ rest)
    (hn : n < 2048 + 4096 * bs.length) : ∃ m, turnBound s = n + m + 1 := by
  have hlen : (s.src.reread.getD s.src.bits).length = 8 * bs.length + rest.length := by
    rw [hup, List.length_append, byteBits_length]
  have hpresented : (s.src.reread.getD s.src.bits).length ≤ s.src.bits.length + (s.src.reread.getD []).length := by
    cases s.src.reread with
    | none => exact Nat.le_add_right _ _
    | some bits => exact Nat.le_add_left _ _
  exact ⟨turnBound s - n - 1, by unfold turnBound; omega⟩

end

/-- Settles O35: ENCODE takes one turn for the rewind, passes over the bytes and emits the code of PSEUDO_EOF. -/
theorem encodeWritesBody : Obligations.EncodeWritesBody := by
  unfold Obligations.EncodeWritesBody
  intro s bs tail eof hs hsrc hsnk hup htail hcoded heof heofLen hread hwrite
  obtain ⟨hb, hp, hm, hq⟩ := id hs
  have hbody := bodyBits_eq_codeBits (bs := bs) heof
  have hcodeLen := codeBits_length_le hcoded
  rw [hbody, List.length_append, ← Nat.add_assoc] at hwrite
  obtain ⟨n, hn⟩ : ∃ n, turnBound s = 2 * bs.length + (codeBits s.code bs).length + (eof.length + 2) + n + 1 :=
    exists_turnBound_eq_of_rewound hup (by simp only [Config.codeMax] at heofLen hcodeLen; omega)
  calc exec .encode s
      = runTurns .encode encodeTurn (2 * bs.length + (codeBits s.code bs).length + (eof.length + 2) + n)
          (encodedTo [] s) := runPhase_start hs hn (encodeTurn_start hm hsrc)
    _ = runTurns .encode encodeTurn (eof.length + 2 + n) (encodedTo bs s) := by
        rw [Nat.add_assoc]
        exact runTurns_encode (bs := []) hb hp hq hsrc hsnk _ hup hcoded hread (Nat.lt_of_add_right_lt hwrite)
    _ = .next (endPhase (afterWrite eof (afterExhausted (encodedTo bs s)))) := by
        rw [Nat.add_right_comm]
        exact runTurns_encode_eof hb hp hq hsrc hsnk n hup htail heof hwrite
    _ = _ := by
        rw [hbody, ← hup]
        simp only [endPhase, enterPhase, afterWrite, afterExhausted, encodedTo, srcRewound, snkAfter, hp, Phase.next,
          List.append_assoc, List.length_append, Nat.add_assoc]

end Sys2Proof.Machine

/-!
PROOFS. DECODE on a body (`45_decoder.md` R140 to R147): where it stands after each bit and each byte, one turn for the
root, one for each bit of the path and one for the leaf.
-/

namespace Sys2Proof.Machine

/-! ### Paths in a tree -/

section
variable {nodes : Table Node} {t : Tree} {c : Bits} {sym x y : Sym} {h r : Handle}

/-- Where a path leads to a leaf of another symbol, the walk to a leaf takes at least one bit. -/
theorem path_ne_nil {d : Bits} (hd : t.at? d = some x) (hc : t.at? c = some y) (hne : y ≠ x) : c ≠ [] := by
  rintro rfl
  exact hne (eq_of_prefix_path hc hd d.nil_prefix)

theorem byte_ne_eof (b : Byte) : b.setWidth 9 ≠ 256#9 := by
  intro h
  have hval : b.toNat = 256 := (BitVec.toNat_setWidth_of_le (by decide)).symm.trans (congrArg BitVec.toNat h)
  exact b.isLt.ne hval

theorem eq_leaf_of_at?_nil (h : t.at? [] = some sym) : t = .leaf sym := by
  cases t with
  | leaf s => exact congrArg Tree.leaf (Option.some.inj h)
  | node l r => cases h

/-- A leaf does not hang from the root of a tree that has a path of one bit or more. -/
theorem leaf_ne_root (hl : arenaHolds nodes (.leaf sym) h = true) (ht : arenaHolds nodes t r = true)
    (hc : (t.at? c).isSome = true) (hne : c ≠ []) : h ≠ r := by
  rintro rfl
  obtain ⟨b, c, rfl⟩ := List.exists_cons_of_ne_nil hne
  cases t with
  | leaf s => cases hc
  | node l r =>
    obtain ⟨i, n, rfl, hn, hleaf, -⟩ := arenaHolds_inv_leaf hl
    obtain ⟨_, n', ⟨⟩, hn', hnode, -⟩ := arenaHolds_inv_node ht
    obtain rfl : n = n' := Option.some.inj (hn.symm.trans hn')
    exact Bool.false_ne_true (hnode.symm.trans hleaf)

/-- Paths of one bit or more are no fewer bits than paths. -/
theorem length_le_length_flatMap {ps : List (Byte × Bits)} (h : ∀ p ∈ ps, p.2 ≠ []) :
    ps.length ≤ (ps.flatMap Prod.snd).length := by
  induction ps with
  | nil => exact Nat.le_refl 0
  | cons p ps ih =>
    obtain ⟨hp, hps⟩ := List.forall_mem_cons.mp h
    have hpos := List.length_pos_iff.mpr hp
    have hrest := ih hps
    rw [List.flatMap_cons, List.length_append, List.length_cons]
    omega

end

/-! ### The turns of DECODE -/

/-- DECODE in DSTATE `d` with the pointer at `cur`, `used` bits read and the bytes `bs` written since its first line
in `s`. -/
def decoding (d : DState) (cur : Handle) (used : Nat) (bs : List Byte) (s : State) : State :=
  { s with
    src := srcAfter used s, srcpos := s.srcpos + used, snk := snkAfter (byteBits bs) s
    snkpos := s.snkpos + 8 * bs.length, cur := cur, dstate := d, micro := .loop }

section
variable {s : State} {d : DState} {cur : Handle} {used : Nat} {bs : List Byte} {t : Tree} {rest : Bits}

theorem upcoming_decoding : upcoming (decoding d cur used bs s) = (upcoming s).drop used := List.drop_drop.symm

theorem afterRead_decoding (n : Nat) :
    afterRead n (decoding d cur used bs s) = decoding d cur (used + n) bs s := by
  simp [afterRead, decoding, srcAfter, Nat.add_assoc]

/-- The first line of DECODE (R141). -/
theorem decodeTurn_start (hm : s.micro = .start) : decodeTurn s = .go (decoding .atRoot s.cur 0 [] s) := by
  simp only [decodeTurn, hm]
  simp [decoding, srcAfter, snkAfter, byteBits]

/-- The pointer arrives at the node a tree hangs from (R142, R143). -/
theorem arrive_decoding {h : Handle} (ht : arenaHolds s.node t h = true) :
    arrive h (decoding d cur used bs s) = .go (decoding (walkStop t) h used bs s) := by
  obtain ⟨i, n, rfl, hn, ⟨sym, rfl, hl, -⟩ | ⟨l, r, rfl, hl, -⟩⟩ := arenaHolds_inv ht
  all_goals
    rw [arrive, readNode_some (s := decoding d cur used bs s) hn, hl]
    rfl

/-- AT_ROOT takes no bit (R142). -/
theorem decodeTurn_root (ht : arenaHolds s.node t s.root = true) :
    decodeTurn (decoding .atRoot cur used bs s) = .go (decoding (walkStop t) s.root used bs s) :=
  arrive_decoding ht

/-- The bit selects the child (R143). -/
theorem decodeBit_child {b : Bool} {i j : Nat} {n : Node} (hcur : s.cur = some i) (hn : Table.read s.node i = some n)
    (hj : cond b n.right n.left = some j) : decodeBit b.toNat s = arrive (some j) s := by
  have hchild : (if b.toNat = 0 then n.left else n.right) = some j := by cases b <;> exact hj
  rw [decodeBit, hcur, readNode_some hn, hchild]

/-- AT_INTERNAL takes the pointer to the child the next bit selects (R143). -/
theorem decodeTurn_bit {l r : Tree} {b : Bool} (ho : SrcOpen s) (ht : arenaHolds s.node (.node l r) cur = true)
    (hup : (upcoming s).drop used = b :: rest) (hpos : s.srcpos + used + 1 < Config.posLimit) :
    ∃ h, arenaHolds s.node (cond b r l) h = true ∧
      decodeTurn (decoding .atInternal cur used bs s) = .go (decoding (walkStop (cond b r l)) h (used + 1) bs s) := by
  obtain ⟨i, n, rfl, hn, -, hleft, hright⟩ := arenaHolds_inv_node ht
  have hchild : arenaHolds s.node (cond b r l) (cond b n.right n.left) = true := by cases b <;> assumption
  have hbit : (upcoming s).drop used = bitsOf 1 b.toNat ++ rest := by cases b <;> exact hup
  obtain ⟨j, -, hj, -⟩ := arenaHolds_inv hchild
  rw [hj] at hchild
  refine ⟨some j, hchild, ?_⟩
  calc decodeTurn (decoding .atInternal (some i) used bs s)
      = decodeBit b.toNat (afterRead 1 (decoding .atInternal (some i) used bs s)) :=
        rd_presented (s := decoding .atInternal (some i) used bs s) ho b.toNat_lt (upcoming_decoding.trans hbit) hpos
    _ = arrive (some j) (decoding .atInternal (some i) (used + 1) bs s) := by
        rw [afterRead_decoding]
        exact decodeBit_child (s := decoding .atInternal (some i) (used + 1) bs s) rfl hn hj
    _ = _ := arrive_decoding hchild

/-- AT_LEAF on the end-of-file symbol accepts (R144). -/
theorem decodeTurn_eof (ht : arenaHolds s.node (.leaf 256#9) cur = true) :
    decodeTurn (decoding .atLeaf cur used bs s) = .go (decoding .accept cur used bs s) := by
  obtain ⟨i, n, rfl, hn, -, hsym⟩ := arenaHolds_inv_leaf ht
  have heof : n.sym.toNat = Config.pseudoEof := congrArg BitVec.toNat hsym
  exact (readNode_some (s := decoding .atLeaf (some i) used bs s) hn).trans (if_pos heof)

/-- AT_LEAF on the symbol of a byte, below the root, writes the byte (R144). -/
theorem decodeTurn_byte {b : Byte} (ho : SnkOpen s) (ht : arenaHolds s.node (.leaf (b.setWidth 9)) cur = true)
    (hroot : cur ≠ s.root) (hpos : s.snkpos + 8 * bs.length + 8 < Config.posLimit) :
    decodeTurn (decoding .atLeaf cur used bs s) = .go (decoding .atRoot cur used (bs ++ [b]) s) := by
  obtain ⟨i, n, rfl, hn, -, hsym⟩ := arenaHolds_inv_leaf ht
  have hval : n.sym.toNat = b.toNat := (congrArg BitVec.toNat hsym).trans (BitVec.toNat_setWidth_of_le (by decide))
  have hlt : n.sym.toNat < Config.pseudoEof := hval ▸ b.isLt
  calc decodeTurn (decoding .atLeaf (some i) used bs s)
      = wr 8 n.sym.toNat (decoding .atLeaf (some i) used bs s) fun s => .go { s with dstate := .atRoot } := by
        refine (readNode_some (s := decoding .atLeaf (some i) used bs s) hn).trans ?_
        rw [if_neg hlt.ne, if_neg hlt.not_gt]
        exact if_neg hroot
    _ = .go (decoding .atRoot (some i) used (bs ++ [b]) s) := by
        rw [wr_ok (s := decoding .atLeaf (some i) used bs s) ho hpos, hval]
        simp [decoding, snkAfter, byteBits, Nat.mul_add, Nat.add_assoc]

/-- ACCEPT ends the phase (R145). -/
theorem decodeTurn_accept :
    decodeTurn (decoding .accept cur used bs s) = .go (endPhase (decoding .accept cur used bs s)) := rfl

/-! ### The walk of a code -/

theorem runTurns_decoding (hb : s.state = .busy) (hp : s.phase = .decode) (hq : s.inputs = []) {s' : State} {n : Nat}
    (hgo : decodeTurn (decoding d cur used bs s) = .go s') :
    runTurns .decode decodeTurn (n + 1) (decoding d cur used bs s) = runTurns .decode decodeTurn n s' :=
  runTurns_quiet_go (s := decoding d cur used bs s) hb hp hq hgo

/-- The first bits `c` of a path to a leaf take one turn each, to the node from which the rest of the path leads on. -/
theorem runTurns_decode_walk (hb : s.state = .busy) (hp : s.phase = .decode) (hq : s.inputs = []) (ho : SrcOpen s)
    {c more : Bits} {sym : Sym} (ht : arenaHolds s.node t cur = true) (hpath : t.at? (c ++ more) = some sym)
    (hup : (upcoming s).drop used = c ++ rest) (hpos : s.srcpos + used + c.length < Config.posLimit) :
    ∃ t' h, arenaHolds s.node t' h = true ∧ t'.at? more = some sym ∧
      ∀ n, runTurns .decode decodeTurn (c.length + n) (decoding (walkStop t) cur used bs s) =
        runTurns .decode decodeTurn n (decoding (walkStop t') h (used + c.length) bs s) := by
  induction c generalizing t cur used with
  | nil => exact ⟨t, cur, ht, hpath, fun n => by rw [List.length_nil, Nat.zero_add, Nat.add_zero]⟩
  | cons b c ih =>
    cases t with
    | leaf s => cases hpath
    | node l r =>
      rw [List.length_cons] at hpos
      rw [List.cons_append, at?_node_cons] at hpath
      obtain ⟨h, hchild, hturn⟩ := decodeTurn_bit (bs := bs) ho ht hup (by omega)
      obtain ⟨t', h', ht', hpath', hrun⟩ :=
        ih (used := used + 1) hchild hpath (drop_add_length (b := [b]) hup) (by omega)
      refine ⟨t', h', ht', hpath', fun n => ?_⟩
      have hcount : (b :: c).length + n = c.length + n + 1 := Nat.add_right_comm _ _ _
      have hused : used + (b :: c).length = used + 1 + c.length := by rw [List.length_cons]; omega
      rw [hcount, hused, ← hrun]
      exact runTurns_decoding hb hp hq hturn

/-- From the root a path to a leaf is one turn for the root and one for each bit. -/
theorem runTurns_decode_path (hb : s.state = .busy) (hp : s.phase = .decode) (hq : s.inputs = []) (ho : SrcOpen s)
    {c : Bits} {sym : Sym} (ht : arenaHolds s.node t s.root = true) (hpath : t.at? c = some sym)
    (hup : (upcoming s).drop used = c ++ rest) (hpos : s.srcpos + used + c.length < Config.posLimit) :
    ∃ h, arenaHolds s.node (.leaf sym) h = true ∧
      ∀ n, runTurns .decode decodeTurn (c.length + n + 1) (decoding .atRoot cur used bs s) =
        runTurns .decode decodeTurn n (decoding .atLeaf h (used + c.length) bs s) := by
  rw [← List.append_nil c] at hpath
  obtain ⟨t', h, ht', hend, hrun⟩ := runTurns_decode_walk (bs := bs) hb hp hq ho ht hpath hup hpos
  obtain rfl := eq_leaf_of_at?_nil hend
  exact ⟨h, ht', fun n => by rw [runTurns_decoding hb hp hq (decodeTurn_root ht), hrun, walkStop]⟩

/-- The codes of bytes: two turns a byte and one for each bit, with the bytes written (R144). -/
theorem runTurns_decode (hb : s.state = .busy) (hp : s.phase = .decode) (hq : s.inputs = []) (hsrc : SrcOpen s)
    (hsnk : SnkOpen s) {ps : List (Byte × Bits)} (ht : arenaHolds s.node t s.root = true) (hspells : Spells t ps)
    (hne : ∀ p ∈ ps, p.2 ≠ []) (hup : (upcoming s).drop used = ps.flatMap Prod.snd ++ rest)
    (hread : s.srcpos + used + (ps.flatMap Prod.snd).length < Config.posLimit)
    (hwrite : s.snkpos + 8 * (bs.length + ps.length) < Config.posLimit) :
    ∃ h, ∀ n, runTurns .decode decodeTurn (2 * ps.length + (ps.flatMap Prod.snd).length + n)
        (decoding .atRoot cur used bs s) =
      runTurns .decode decodeTurn n
        (decoding .atRoot h (used + (ps.flatMap Prod.snd).length) (bs ++ ps.map Prod.fst) s) := by
  induction ps generalizing cur used bs with
  | nil => exact ⟨cur, fun n => by simp⟩
  | cons p ps ih =>
    obtain ⟨b, c⟩ := p
    obtain ⟨hc, hspells⟩ := List.forall_mem_cons.mp hspells
    obtain ⟨hcne, hne⟩ := List.forall_mem_cons.mp hne
    rw [List.flatMap_cons, List.append_assoc] at hup
    rw [List.flatMap_cons, List.length_append] at hread
    rw [List.length_cons] at hwrite
    dsimp only at hc hcne hup hread
    obtain ⟨leaf, hleaf, hpath⟩ :=
      runTurns_decode_path (cur := cur) (bs := bs) hb hp hq hsrc ht hc hup (by omega)
    have hroot : leaf ≠ s.root := leaf_ne_root hleaf ht (Option.isSome_of_eq_some hc) hcne
    obtain ⟨h, hrun⟩ := ih (cur := leaf) (used := used + c.length) (bs := bs ++ [b]) hspells hne
      (drop_add_length hup) (by omega) (by rw [List.length_append, List.length_singleton]; omega)
    refine ⟨h, fun n => ?_⟩
    have hcount : 2 * ((b, c) :: ps).length + (((b, c) :: ps).flatMap Prod.snd).length + n =
        c.length + (2 * ps.length + (ps.flatMap Prod.snd).length + n + 1) + 1 := by
      rw [List.flatMap_cons, List.length_append, List.length_cons]
      dsimp only
      omega
    have hbytes : bs ++ ((b, c) :: ps).map Prod.fst = bs ++ [b] ++ ps.map Prod.fst := List.append_cons _ _ _
    rw [hcount, hpath, runTurns_decoding hb hp hq (decodeTurn_byte hsnk hleaf hroot (by omega)), hrun, hbytes,
      List.flatMap_cons, List.length_append, Nat.add_assoc used]

/-- The code of PSEUDO_EOF ends the phase, two turns after its leaf (R144, R145). -/
theorem runTurns_decode_eof (hb : s.state = .busy) (hp : s.phase = .decode) (hq : s.inputs = []) (ho : SrcOpen s)
    (n : Nat) {eof : Bits} (ht : arenaHolds s.node t s.root = true) (hpath : t.at? eof = some 256#9)
    (hup : (upcoming s).drop used = eof ++ rest) (hpos : s.srcpos + used + eof.length < Config.posLimit) :
    ∃ h, arenaHolds s.node (.leaf 256#9) h = true ∧
      runTurns .decode decodeTurn (eof.length + (n + 2) + 1) (decoding .atRoot cur used bs s) =
        .next (endPhase (decoding .accept h (used + eof.length) bs s)) := by
  obtain ⟨h, hleaf, hrun⟩ := runTurns_decode_path (cur := cur) (bs := bs) hb hp hq ho ht hpath hup hpos
  refine ⟨h, hleaf, ?_⟩
  rw [hrun, runTurns_decoding hb hp hq (decodeTurn_eof hleaf), runTurns_decoding hb hp hq decodeTurn_accept]
  exact runTurns_endPhase n hp (by decide)

/-- A phase may take 512 turns for each bit that SRC presents. -/
theorem exists_turnBound_eq_of_upcoming {n : Nat} (hn : n < 2048 + 512 * (upcoming s).length) :
    ∃ m, turnBound s = n + m + 1 := by
  rw [upcoming, List.length_drop] at hn
  exact ⟨turnBound s - n - 1, by unfold turnBound; omega⟩

end

/-- Settles O42: DECODE takes one turn for its first line, passes over the codes of the bytes, and ends on the code of
PSEUDO_EOF. -/
theorem decodeInvertsEncode : Obligations.DecodeInvertsEncode := by
  unfold Obligations.DecodeInvertsEncode
  intro s t ps eof rest hs hsrc hsnk ht hspells heof hup hread hwrite
  obtain ⟨hb, hp, hm, hq⟩ := id hs
  have hne : ∀ p ∈ ps, p.2 ≠ [] := fun p hpmem => path_ne_nil heof (hspells p hpmem) (byte_ne_eof p.1)
  have hlen := length_le_length_flatMap hne
  rw [List.length_append] at hread ⊢
  obtain ⟨n, hn⟩ : ∃ n, turnBound s = 2 * ps.length + (ps.flatMap Prod.snd).length + (eof.length + 3) + n + 1 :=
    exists_turnBound_eq_of_upcoming (by rw [hup, List.length_append, List.length_append]; omega)
  obtain ⟨h, hbytes⟩ := runTurns_decode (cur := s.cur) (used := 0) (bs := []) hb hp hq hsrc hsnk ht hspells hne
    (hup.trans (List.append_assoc _ _ _)) (by omega) (by rwa [List.length_nil, Nat.zero_add])
  obtain ⟨leaf, hleaf, hend⟩ := runTurns_decode_eof (cur := h) (used := (ps.flatMap Prod.snd).length)
    (bs := ps.map Prod.fst) hb hp hq hsrc n ht heof (by rw [hup, List.append_assoc, List.drop_left]) (by omega)
  refine ⟨leaf, hleaf, ?_⟩
  calc exec .decode s
      = runTurns .decode decodeTurn (2 * ps.length + (ps.flatMap Prod.snd).length + (eof.length + 3) + n)
          (decoding .atRoot s.cur 0 [] s) := runPhase_start hs hn (decodeTurn_start hm)
    _ = runTurns .decode decodeTurn (eof.length + (n + 2) + 1)
          (decoding .atRoot h (ps.flatMap Prod.snd).length (ps.map Prod.fst) s) := by
        rw [Nat.add_assoc, hbytes, Nat.zero_add, List.nil_append]
        congr 1
        omega
    _ = .next (endPhase (decoding .accept leaf ((ps.flatMap Prod.snd).length + eof.length) (ps.map Prod.fst) s)) := hend
    _ = _ := by
        simp only [endPhase, enterPhase, decoding, hp, Phase.next, List.length_map]

end Sys2Proof.Machine

/-!
PROOFS. The commands (`46_sequencer.md` R155, R156, R163 to R165), by what `exec_command_cases` says a write of CMD can
do, and the word that is placed where the next step runs it.
-/

namespace Sys2Proof.Machine

/-- A command outside a run and out of reset, by its value. -/
theorem exec_command_accepted {s : State} (ha : Accepting s) (v : Word) :
    (v = 0#32 → exec (decodeCmd v) s = .next s) ∧
    (v = 1#32 → exec (decodeCmd v) s = .next (enterPhase .count (perRunInit s))) ∧
    (v = 2#32 → exec (decodeCmd v) s = .next (enterPhase .rdmagic (perRunInit s))) ∧
    (2 < v.toNat → exec (decodeCmd v) s = .next (faultEntry .illegalCommand (perRunInit s))) := by
  refine ⟨?_, ?_, ?_, fun hv => ?_⟩
  · rintro rfl; rfl
  · rintro rfl; exact startRun_accepted ha
  · rintro rfl; exact startRun_accepted ha
  · obtain ⟨rfl, -⟩ | ⟨rfl, -⟩ | ⟨rfl, -⟩ | ⟨-, hd | hd⟩ := decodeCmd_cases v
    · exact absurd hv (by decide)
    · exact absurd hv (by decide)
    · exact absurd hv (by decide)
    all_goals rw [hd]; exact reservedCommand_accepted ha

/-- Per-run initialisation keeps of a state only CTRL, the reset input, the streams and the outside world. -/
theorem perRunInit_congr {s s' : State} (hie : s.ie = s'.ie) (hrst : s.rst = s'.rst) (hsrc : s.src = s'.src)
    (hsnk : s.snk = s'.snk) (hinputs : s.inputs = s'.inputs) (hhost : s.hostData = s'.hostData)
    (hdraws : s.draws = s'.draws) : perRunInit s = perRunInit s' := by
  simp only [perRunInit, hie, hrst, hsrc, hsnk, hinputs, hhost, hdraws]

/-- Settles O7: NOP answers the state it finds. -/
theorem nopChangesNothing : Obligations.NopChangesNothing := by
  unfold Obligations.NopChangesNothing
  exact fun _ => rfl

/-- Settles O8: an accepted command is `enterPhase` of the first phase after `perRunInit`. -/
theorem acceptedCommandStartsRun : Obligations.AcceptedCommandStartsRun := by
  unfold Obligations.AcceptedCommandStartsRun
  rintro s i p ha (⟨rfl, rfl⟩ | ⟨rfl, rfl⟩)
  · exact startRun_accepted ha
  · exact startRun_accepted ha

/-- Settles O9: a reserved command is fault entry after `perRunInit`, whose SRCPOS is 0. -/
theorem reservedCommandFaults : Obligations.ReservedCommandFaults := by
  unfold Obligations.ReservedCommandFaults
  rintro s i ha (rfl | ⟨v, rfl⟩)
  · exact ⟨reservedCommand_accepted ha, rfl⟩
  · exact ⟨reservedCommand_accepted ha, rfl⟩

/-- Settles O10: a BUSY block accepts no command. -/
theorem busyIgnoresCommand : Obligations.BusyIgnoresCommand := by
  unfold Obligations.BusyIgnoresCommand
  intro s v hb
  have hignored := exec_command_ignored (fun ha : Accepting s => ha.1 hb) v
  exact ⟨hignored, hignored⟩

/-- Settles O11: BUSY and reset rule acceptance out, and an accepted command goes by its value. -/
theorem commandAcceptance : Obligations.CommandAcceptance := by
  unfold Obligations.CommandAcceptance
  refine fun s v => ⟨fun hb => ?_, fun hr => ?_, fun ha => exec_command_accepted ha v⟩
  · exact exec_command_ignored (fun ha => ha.1 hb) v
  · exact exec_command_ignored (fun ha => Bool.false_ne_true (ha.2.symm.trans hr)) v

/-- Settles O12: every accepted command but NOP goes through `perRunInit`, which forgets what earlier runs left. -/
theorem runOwesNothingToEarlierRuns : Obligations.RunOwesNothingToEarlierRuns := by
  unfold Obligations.RunOwesNothingToEarlierRuns
  intro s s' v ha ha' hv hie hsrc hsnk hinputs hhost hdraws
  have hinit := perRunInit_congr hie (ha.2.trans ha'.2.symm) hsrc hsnk hinputs hhost hdraws
  obtain ⟨-, hcompress, hdecompress, hreserved⟩ := exec_command_accepted ha v
  obtain ⟨-, hcompress', hdecompress', hreserved'⟩ := exec_command_accepted ha' v
  change exec (decodeCmd v) s = exec (decodeCmd v) s'
  obtain ⟨h0, -⟩ | ⟨h1, -⟩ | ⟨h2, -⟩ | ⟨h3, -⟩ := decodeCmd_cases v
  · exact absurd h0 hv
  · rw [hcompress h1, hcompress' h1, hinit]
  · rw [hdecompress h2, hdecompress' h2, hinit]
  · rw [hreserved h3, hreserved' h3, hinit]

/-! ### A placed word -/

/-- In a run that nothing from outside disturbs, a step runs the phase. -/
theorem step_phase {p : Phase} {s : State} (hs : AtStart p s) : step s = exec p.instr s := by
  obtain ⟨hb, rfl, -, hq⟩ := hs
  rw [step_runs (.inl hq), runCurrent_busy hb]

theorem phaseOf_code (p : Phase) : phaseOf p.code.toNat = some p := by
  cases p <;> rfl

theorem decodeTableWord_code (p : Phase) : decodeTableWord 4 p.code.toNat = some p.instr := by
  cases p <;> rfl

/-- A PHASE value other than NONE places the run that has reached the phase. -/
theorem withFetchWord_phase {p : Phase} (hp : p ≠ .noPhase) (s : State) :
    s.withFetchWord 4 p.code.toNat = reachPhase p s := by
  simp only [State.withFetchWord, placeWord, phaseOf_code]

theorem emptyRunTables_state (p : Phase) (s : State) : (emptyRunTables p s).state = s.state := by
  cases p <;> rfl

theorem atStart_reachPhase (p : Phase) (s : State) : AtStart p (reachPhase p s) := by
  unfold reachPhase
  split_ifs with hb
  · exact ⟨hb, rfl, rfl, rfl⟩
  · exact ⟨emptyRunTables_state p (perRunInit s), rfl, rfl, rfl⟩

/-- Settles O6: a placed CMD value is the event due next, and a placed PHASE value is the phase of the run. -/
theorem placedWordRuns : Obligations.PlacedWordRuns := by
  unfold Obligations.PlacedWordRuns
  refine ⟨fun s v => ?_, fun s p hp => ⟨decodeTableWord_code p, ?_, atStart_reachPhase p s⟩⟩
  · have hcmd : BitVec.ofNat 32 v.toNat = v := (BitVec.ofNat_toNat 32 v).trans (BitVec.setWidth_eq v)
    rw [step_delivers (s := s.withFetchWord 32 v.toNat) rfl (.inl rfl), hcmd]
    rfl
  · rw [withFetchWord_phase hp, step_phase (atStart_reachPhase p s)]

end Sys2Proof.Machine

/-!
PROOFS. The phases of one turn: WRMAGIC, RDMAGIC and FLUSH (`46_sequencer.md` R158, R159, R161, R162). Each is its one
transaction and what follows it.
-/

namespace Sys2Proof.Machine

section
variable {p : Phase} {turn : State → Res} {s s' : State}

/-- A phase whose first turn halts. -/
theorem runPhase_halts {o : Out} (hs : AtStart p s) (hhalt : turn s = .halt o) : runPhase p turn s = o := by
  obtain ⟨m, hm⟩ : ∃ m, turnBound s = 0 + m + 1 := exists_turnBound_eq (by decide)
  obtain ⟨hb, hp, -, hq⟩ := hs
  rw [runPhase_goes_on hb hp, hm, runTurns_quiet hb hp hq, hhalt]

/-- A phase that its first turn takes the run out of. -/
theorem runPhase_leaves (hs : AtStart p s) (hgo : turn s = .go s') (hover : s'.phase ≠ p) :
    runPhase p turn s = .next s' := by
  obtain ⟨m, hm⟩ : ∃ m, turnBound s = 0 + m + 1 := exists_turnBound_eq (by decide)
  rw [runPhase_start hs hm hgo, runTurns_stop fun h => hover h.2.1]

end

variable {s : State}

/-! ### WRMAGIC -/

theorem wrmagicTurn_start (hm : s.micro = .start) : wrmagicTurn s = putMagic Config.magic s := by
  rw [wrmagicTurn, hm]

/-- Settles O33: the one transaction of WRMAGIC appends the constant or fails. -/
theorem wrmagicWritesMagic : Obligations.WrmagicWritesMagic := by
  unfold Obligations.WrmagicWritesMagic
  intro s hs
  obtain ⟨-, hp, hm, -⟩ := id hs
  have hturn := wrmagicTurn_start hm
  refine ⟨fun ho hpos => ?_, fun hfail => ?_⟩
  · have hgo : wrmagicTurn s = .go (endPhase
        { s with snk := snkAfter (bitsOf 32 Config.magic.toNat) s, snkpos := s.snkpos + 32 }) :=
      hturn.trans (wr_ok ho hpos)
    refine (runPhase_leaves hs hgo (by simp [hp, Phase.next])).trans ?_
    simp only [endPhase, enterPhase, hp, Phase.next]
  · exact runPhase_halts hs (hturn.trans (wr_failed hfail))

/-! ### FLUSH -/

theorem flushTurn_start (hm : s.micro = .start) : flushTurn s = closeSink s fun s => .go (complete s) := by
  rw [flushTurn, hm]

/-- Settles O37: the one transaction of FLUSH closes the sink with the pad of a byte boundary or fails. -/
theorem flushCompletesRun : Obligations.FlushCompletesRun := by
  unfold Obligations.FlushCompletesRun
  intro s hs
  obtain ⟨-, -, hm, -⟩ := id hs
  have hturn := flushTurn_start hm
  refine ⟨fun ho => ?_, fun hfail => runPhase_halts hs (hturn.trans (close_failed hfail))⟩
  have hpad := padLength_spec s.snk.bits.length
  have hgo := hturn.trans (close_ok ho)
  have hnext : Phase.noPhase ≠ .flush := nofun
  refine ⟨padBits (padLength s.snk.bits.length) s.draws, _, ?_, ?_, runPhase_leaves hs hgo hnext, ?_, ?_⟩
  · rw [padBits_length]; exact hpad.1
  · rw [padBits_length]; exact hpad.2
  · exact Bool.and_true s.ie
  · rw [padBits_length]; rfl

/-! ### RDMAGIC -/

theorem rdmagicTurn_start (hm : s.micro = .start) : rdmagicTurn s =
    rd 32 s (fun v s => checkMagic (BitVec.ofNat 32 v) s) (raise .badMagicNumber) := by
  rw [rdmagicTurn, hm]

/-- Of 32 bits, read as a number, the word is MAGIC exactly if the number is. -/
theorem ofNat_bitsVal_eq_magic_iff {b : Bits} (hlen : 32 ≤ b.length) :
    BitVec.ofNat 32 (bitsVal (b.take 32)) = Config.magic ↔ bitsVal (b.take 32) = Config.magic.toNat := by
  have hlt := bitsVal_lt (b.take 32)
  rw [List.length_take_of_le hlen] at hlt
  rw [← BitVec.toNat_inj, BitVec.toNat_ofNat, Nat.mod_eq_of_lt hlt]

/-- Settles O38: the one transaction of RDMAGIC fails, finds too few bits, or reads the word it compares. -/
theorem rdmagicChecksMagic : Obligations.RdmagicChecksMagic := by
  unfold Obligations.RdmagicChecksMagic
  intro s hs
  obtain ⟨-, hp, hm, -⟩ := id hs
  have hturn := rdmagicTurn_start hm
  refine ⟨fun hfail => ?_, fun ho hlen hpos => ?_, fun ho hlen => ?_⟩
  · exact runPhase_halts hs (hturn.trans (rd_failed hfail))
  · have hread := hturn.trans (rd_value ho hlen hpos)
    have hmagic := ofNat_bitsVal_eq_magic_iff hlen
    refine ⟨fun heq => ?_, fun hne => ?_⟩
    · rw [checkMagic, if_pos (hmagic.mpr heq)] at hread
      refine (runPhase_leaves hs hread (by simp [hp, Phase.next])).trans ?_
      simp only [endPhase, enterPhase, hp, Phase.next]
    · rw [checkMagic, if_neg (hne ∘ hmagic.mp)] at hread
      exact runPhase_halts hs hread
  · exact runPhase_halts hs (hturn.trans (rd_exhausted ho hlen))

end Sys2Proof.Machine

/-!
PROOFS. Frames of the phases that read: RDMAGIC, RDTREE, ENCODE and DECODE (`46_sequencer.md` R161,
`43_tree_header_codec.md` R119, `44_encoder.md` R130, `45_decoder.md` R140), in the terms of the frames above.
-/

namespace Sys2Proof.Machine

/-- Everything a rewind can leave: a fault, the state as it was, or SRC rewound and what follows. -/
theorem rewind_yields {P : State → Prop} {s : State} {k : State → Res} (hfault : P (faultEntry .ioFailure s))
    (hwait : P s) (hok : (k { s with src := srcRewound s, srcpos := 0 }).Yields P) : (rewind s k).Yields P := by
  cases hf : s.src.failed with
  | true => rw [rewind_failed hf]; exact hfault
  | false =>
    cases hb : s.src.blocked with
    | true => rw [rewind_blocked hf hb]; exact hwait
    | false => rw [rewind_ok ⟨hf, hb⟩]; exact hok

/-! ### RDMAGIC -/

/-- The state `s` with the fields RDMAGIC may change taken from `r`. -/
def rdmagicFrame (r s : State) : State :=
  { s with
    src := { s.src with pos := r.src.pos }, srcpos := r.srcpos, draws := r.draws, state := r.state
    phase := r.phase, err := r.err, errpos := r.errpos, micro := r.micro, inputs := r.inputs }

theorem rdmagicFrame_tick (r s : State) : rdmagicFrame r (tick s) = rdmagicFrame r s := by
  unfold tick; split <;> rfl

theorem checkMagic_changesOnly (m : Word) : ChangesOnly rdmagicFrame (checkMagic m) := by
  intro r s
  unfold checkMagic
  split_ifs <;> rfl

theorem rdmagicTurn_changesOnly : ChangesOnly rdmagicFrame rdmagicTurn := by
  intro r s
  unfold rdmagicTurn
  cases s.micro with
  | start => exact rd_yields rfl rfl rfl fun v => checkMagic_changesOnly _ r (afterRead 32 s)
  | _ => trivial

/-! ### RDTREE -/

/-- The state `s` with the fields RDTREE may change taken from `r`. -/
def rdtreeFrame (r s : State) : State :=
  { s with
    src := { s.src with pos := r.src.pos }, srcpos := r.srcpos, draws := r.draws, node := r.node
    nnodes := r.nnodes, stk := r.stk, root := r.root, state := r.state, phase := r.phase, err := r.err
    errpos := r.errpos, micro := r.micro, inputs := r.inputs }

theorem rdtreeFrame_tick (r s : State) : rdtreeFrame r (tick s) = rdtreeFrame r s := by
  unfold tick; split <;> rfl

theorem rdtreeFrame_desDone (r : State) (x : Nat) (s : State) : rdtreeFrame r (desDone x s) = rdtreeFrame r s := by
  unfold desDone; split <;> rfl

theorem desTag_changesOnly (v : Nat) : ChangesOnly rdtreeFrame (desTag v) := by
  intro r s
  unfold desTag
  split_ifs <;> rfl

theorem rdtreeTurn_changesOnly : ChangesOnly rdtreeFrame rdtreeTurn := by
  intro r s
  unfold rdtreeTurn
  cases s.micro with
  | start => rfl
  | loop => exact rd_yields rfl rfl rfl fun v => desTag_changesOnly v r (afterRead 1 s)
  | leafField h => exact rd_yields rfl rfl rfl fun v => rdtreeFrame_desDone r h _
  | _ => trivial

/-! ### ENCODE -/

/-- The state `s` with the fields ENCODE may change taken from `r`. -/
def encodeFrame (r s : State) : State :=
  { s with
    src := { s.src with bits := r.src.bits, pos := r.src.pos }, srcpos := r.srcpos, draws := r.draws
    snk := { s.snk with bits := r.snk.bits }, snkpos := r.snkpos, state := r.state, phase := r.phase
    err := r.err, errpos := r.errpos, micro := r.micro, inputs := r.inputs }

theorem encodeFrame_tick (r s : State) : encodeFrame r (tick s) = encodeFrame r s := by
  unfold tick; split <;> rfl

theorem encodeByte_changesOnly (b : Nat) : ChangesOnly encodeFrame (encodeByte b) := by
  intro r s
  unfold encodeByte
  split <;> rfl

theorem encodeEof_changesOnly : ChangesOnly encodeFrame encodeEof := by
  intro r s
  unfold encodeEof
  split
  · trivial
  · rfl

theorem encodeTurn_changesOnly : ChangesOnly encodeFrame encodeTurn := by
  intro r s
  unfold encodeTurn
  cases s.micro with
  | start => exact rewind_yields rfl rfl rfl
  | loop =>
    exact rd_yields rfl rfl (encodeEof_changesOnly r (afterExhausted s))
      fun v => encodeByte_changesOnly v r (afterRead 8 s)
  | emit c last =>
    cases c with
    | nil => cases last <;> rfl
    | cons b c => exact wr_yields rfl rfl rfl
  | _ => trivial

/-! ### DECODE -/

/-- The state `s` with the fields DECODE may change taken from `r`. -/
def decodeFrame (r s : State) : State :=
  { s with
    src := { s.src with pos := r.src.pos }, srcpos := r.srcpos, draws := r.draws
    snk := { s.snk with bits := r.snk.bits }, snkpos := r.snkpos, cur := r.cur, dstate := r.dstate
    state := r.state, phase := r.phase, err := r.err, errpos := r.errpos, micro := r.micro
    inputs := r.inputs }

theorem decodeFrame_tick (r s : State) : decodeFrame r (tick s) = decodeFrame r s := by
  unfold tick; split <;> rfl

theorem arrive_changesOnly (h : Handle) : ChangesOnly decodeFrame (arrive h) := fun _ _ => readNode_yields fun _ => rfl

theorem decodeBit_changesOnly (v : Nat) : ChangesOnly decodeFrame (decodeBit v) := by
  refine fun r s => readNode_yields fun n => ?_
  split
  · rfl
  · exact arrive_changesOnly _ r s

theorem decodeLeaf_changesOnly : ChangesOnly decodeFrame decodeLeaf := by
  refine fun r s => readNode_yields fun n => ?_
  split_ifs
  · rfl
  · rfl
  · rfl
  · exact wr_yields rfl rfl rfl

theorem decodeTurn_changesOnly : ChangesOnly decodeFrame decodeTurn := by
  intro r s
  unfold decodeTurn
  cases s.micro with
  | start => rfl
  | loop =>
    cases s.dstate with
    | atRoot => exact arrive_changesOnly s.root r s
    | atInternal => exact rd_yields rfl rfl rfl fun v => decodeBit_changesOnly v r (afterRead 1 s)
    | atLeaf => exact decodeLeaf_changesOnly r s
    | accept => rfl
  | _ => trivial

/-- Settles O53: no turn of the four phases changes a field outside its frame. -/
theorem frameOfReadingPhases : Obligations.FrameOfReadingPhases := by
  unfold Obligations.FrameOfReadingPhases
  refine fun s t => ⟨fun h => ?_, fun h => ?_, fun h => ?_, fun h => ?_⟩
  · exact runPhase_changesOnly rdmagicTurn_changesOnly (fun _ => rfl) rdmagicFrame_tick (fun _ _ => rfl) h
  · exact runPhase_changesOnly rdtreeTurn_changesOnly (fun _ => rfl) rdtreeFrame_tick (fun _ _ => rfl) h
  · exact runPhase_changesOnly encodeTurn_changesOnly (fun _ => rfl) encodeFrame_tick (fun _ _ => rfl) h
  · exact runPhase_changesOnly decodeTurn_changesOnly (fun _ => rfl) decodeFrame_tick (fun _ _ => rfl) h

end Sys2Proof.Machine

/-!
PROOFS. The code of the tree BUILD makes for the counts of a byte sequence (`41_tree_builder.md` R91,
`42_code_table_deriver.md` R109 to R111): every byte has one, and the body is as long as the tree costs.
-/

namespace Sys2Proof.Machine

/-! ### The leaves of the tree -/

section
variable {freq : Table Nat} {made : List Node} {t : Tree}

theorem countedIn_fst (freq : Table Nat) (syms : List Nat) :
    (countedIn freq syms).map Prod.fst = syms.filter fun i => leafCount freq i ≠ 0 := by
  induction syms with
  | nil => rfl
  | cons i syms ih =>
    rw [countedIn] at ih ⊢
    by_cases h : leafCount freq i = 0 <;> simp [h, ih]

/-- The tree has one leaf for each counted symbol. -/
theorem huffmanNodes_nodup (h : HuffmanNodes freq made t) : (treeSyms t).Nodup := by
  rw [(huffmanNodes_syms h).nodup_iff, countedSyms_eq, countedIn_fst]
  refine (List.nodup_range.filter _).map_on fun i hi j hj hij => ?_
  have hlt {k : Nat} (hk : k ∈ (List.range Config.nsym).filter fun i => leafCount freq i ≠ 0) : k < 2 ^ 9 :=
    (List.mem_range.mp (List.mem_of_mem_filter hk)).trans (by decide)
  have hval := congrArg BitVec.toNat hij
  rwa [BitVec.toNat_ofNat, BitVec.toNat_ofNat, Nat.mod_eq_of_lt (hlt hi), Nat.mod_eq_of_lt (hlt hj)] at hval

theorem huffmanNodes_leaves_eq (h : HuffmanNodes freq made t) : t.leaves = (countedSyms freq).length := by
  rw [← treeSyms_length, (huffmanNodes_syms h).length_eq, List.length_map, List.length_map]

/-- A counted symbol has a code, of at most `CODE_MAX` bits (R110, R111). -/
theorem exists_code (h : HuffmanNodes freq made t) {i : Nat} (hi : i < Config.nsym) (hcount : leafCount freq i ≠ 0) :
    ∃ c, Table.read (codeTable t) i = some c ∧ c.length ≤ Config.codeMax := by
  have hsome := read_codeTable_isSome_iff.mpr ((huffmanNodes_sym_iff h).mpr ⟨hi, hcount⟩)
  obtain ⟨c, hc⟩ := Option.isSome_iff_exists.mp hsome
  obtain ⟨sym, -, hmem⟩ := mem_codes_of_read hc
  exact ⟨c, hc, Nat.le_of_lt_succ ((path_length_lt hmem).trans_le (huffmanNodes_leaves h))⟩

theorem exists_eof_code (h : HuffmanNodes freq made t) :
    ∃ eof, Table.read (codeTable t) Config.pseudoEof = some eof ∧ eof.length ≤ Config.codeMax :=
  exists_code h (by decide) (by rw [leafCount, if_pos rfl]; exact Nat.one_ne_zero)

end

/-! ### The counts of a byte sequence -/

section
variable {bs : List Byte} {made : List Node} {t : Tree}

theorem freqFull_freqOf (bs : List Byte) : FreqFull (freqOf bs) := fun i hi => by
  rw [read_freqOf, if_pos hi]
  rfl

theorem leafCount_freqOf_byte (bs : List Byte) (b : Byte) : leafCount (freqOf bs) b.toNat = bs.count b := by
  have hne : b.toNat ≠ Config.pseudoEof := b.isLt.ne
  rw [leafCount, if_neg hne, read_freqOf_byte, Option.getD_some]

theorem leafCount_freqOf_nil {i : Nat} : leafCount (freqOf []) i = if i = Config.pseudoEof then 1 else 0 := by
  rw [leafCount, read_freqOf]
  split_ifs <;> rfl

/-- One more byte adds 1 to the count of its symbol. -/
theorem leafCount_freqOf_cons (b : Byte) (i : Nat) :
    leafCount (freqOf (b :: bs)) i = leafCount (freqOf bs) i + if i = b.toNat then 1 else 0 := by
  by_cases hi : i < Config.alphSize
  · obtain ⟨x, rfl⟩ : ∃ x : Byte, x.toNat = i := ⟨BitVec.ofNat 8 i, Nat.mod_eq_of_lt hi⟩
    rw [leafCount_freqOf_byte, leafCount_freqOf_byte, List.count_cons]
    simp only [beq_iff_eq, BitVec.toNat_inj, eq_comm (a := x) (b := b)]
  · have hne : i ≠ b.toNat := fun h => hi (h ▸ b.isLt)
    rw [if_neg hne, Nat.add_zero, leafCount, leafCount, read_freqOf, read_freqOf, if_neg hi, if_neg hi]

/-- Every byte of the input has a code. -/
theorem coded_of_huffman (h : HuffmanNodes (freqOf bs) made t) : Coded (codeTable t) bs := by
  intro b hb
  have hlt : b.toNat < Config.nsym := b.isLt.trans (by decide)
  refine exists_code h hlt ?_
  rw [leafCount_freqOf_byte]
  exact (List.count_pos_iff.mpr hb).ne'

/-! ### The length of the body (R109) -/

/-- Of the leaves of a tree with one leaf a symbol, one has the code of the symbol. -/
theorem sum_code_length {i : Nat} {c : Bits} (hnd : (treeSyms t).Nodup) (hc : Table.read (codeTable t) i = some c) :
    (t.codes.map fun p => if p.1.toNat = i then p.2.length else 0).sum = c.length := by
  obtain ⟨sym, rfl, hmem⟩ := mem_codes_of_read hc
  rw [← codes_syms] at hnd
  have hothers : ∀ p, p ≠ (sym, c) → p ∈ t.codes → (if p.1.toNat = sym.toNat then p.2.length else 0) = 0 :=
    fun p hne hp => if_neg fun hsym => hne (List.inj_on_of_nodup_map hnd hp hmem (BitVec.eq_of_toNat_eq hsym))
  have hone : @List.count _ instBEqOfDecidableEq (sym, c) t.codes = 1 :=
    @List.count_eq_one_of_mem _ instBEqOfDecidableEq _ _ _ hnd.of_map hmem
  rw [List.sum_map_eq_nsmul_single (sym, c) _ hothers, hone, one_nsmul, if_pos rfl]

theorem bodyBits_cons {code : Table Bits} {b : Byte} {c : Bits} (hc : Table.read code b.toNat = some c) :
    bodyBits code (b :: bs) = c ++ bodyBits code bs := by
  rw [bodyBits, List.flatMap_cons, hc, Option.getD_some, List.append_assoc, bodyBits]

/-- The body has as many bits as the tree costs for the counts of the input. -/
theorem bodyBits_length {eof : Bits} (hnd : (treeSyms t).Nodup) (hcoded : Coded (codeTable t) bs)
    (heof : Table.read (codeTable t) Config.pseudoEof = some eof) :
    (bodyBits (codeTable t) bs).length = treeCost (freqOf bs) t := by
  induction bs with
  | nil =>
    rw [bodyBits_eq_codeBits heof, codeBits_nil, List.nil_append, ← sum_code_length hnd heof, treeCost_eq]
    simp only [leafCount_freqOf_nil, ite_mul, one_mul, zero_mul]
  | cons b bs ih =>
    obtain ⟨⟨c, hc, -⟩, hrest⟩ := List.forall_mem_cons.mp hcoded
    rw [bodyBits_cons hc, List.length_append, ih hrest, ← sum_code_length hnd hc, treeCost_eq, treeCost_eq,
      ← List.sum_map_add]
    simp only [leafCount_freqOf_cons, add_mul, ite_mul, one_mul, zero_mul, Nat.add_comm]

theorem bodyBits_length_le {code : Table Bits} {eof : Bits} (hcoded : Coded code bs)
    (heof : Table.read code Config.pseudoEof = some eof) (hlen : eof.length ≤ Config.codeMax) :
    (bodyBits code bs).length ≤ Config.codeMax * (bs.length + 1) := by
  rw [bodyBits_eq_codeBits heof, List.length_append, Nat.mul_succ]
  exact Nat.add_le_add (codeBits_length_le hcoded) hlen

end

end Sys2Proof.Machine

/-!
PROOFS. A run of COMPRESS (`46_sequencer.md` R157): what each of its steps leaves for the next one, and the stream it
has written when it is DONE.
-/

namespace Sys2Proof.Machine

/-! ### Steps of a run -/

section
variable {s s' : State}

theorem run_succ (h : step s = .next s') (n : Nat) : core.run (n + 1) s = core.run n s' := by
  have hstep : core.step s = .next s' := h
  simp only [Host.Core.run, hstep]

theorem atStart_endPhase {p : Phase} (hb : s.state = .busy) (hp : s.phase = p) (hq : s.inputs = []) :
    AtStart p.next (endPhase s) :=
  ⟨hb, congrArg Phase.next hp, rfl, hq⟩

/-- The state in which the first line of the first phase of a run is next, its command being the last event. -/
def runStarted (p : Phase) (s : State) : State := enterPhase p (perRunInit { s with inputs := [] })

theorem atStart_runStarted (p : Phase) (s : State) : AtStart p (runStarted p s) := ⟨rfl, rfl, rfl, rfl⟩

/-- A pending COMPRESS is accepted. -/
theorem step_compress (ha : Accepting s) (hq : s.inputs = [(0, .hostWrite 0 1#32)]) :
    step s = .next (runStarted .count s) :=
  (step_delivers hq (.inl rfl)).trans (startRun_accepted (s := { s with inputs := [] }) ha)

/-- A pending DECOMPRESS is accepted. -/
theorem step_decompress (ha : Accepting s) (hq : s.inputs = [(0, .hostWrite 0 2#32)]) :
    step s = .next (runStarted .rdmagic s) :=
  (step_delivers hq (.inl rfl)).trans (startRun_accepted (s := { s with inputs := [] }) ha)

end

/-! ### Where a run of COMPRESS stands -/

/-- COMPRESS of the bytes `bs` is pending, with the streams bound for it. -/
structure CompressPending (bs : List Byte) (s : State) : Prop where
  accepting : Accepting s
  command : s.inputs = [(0, .hostWrite 0 1#32)]
  srcOpen : SrcOpen s
  snkOpen : SnkOpen s
  firstBit : s.src.pos = 0
  input : s.src.bits = byteBits bs
  rereads : s.src.reread = none
  nothingWritten : s.snk.bits = []
  fits : bs.length ≤ Config.lenMax

/-- COMPRESS of the bytes `bs` has reached the first line of phase `p`, with the bits `b` on SNK. -/
structure Compressing (p : Phase) (bs : List Byte) (b : Bits) (s : State) : Prop where
  start : AtStart p s
  srcOpen : SrcOpen s
  snkOpen : SnkOpen s
  input : s.src.bits = byteBits bs
  rereads : s.src.reread = none
  written : s.snk.bits = b
  snkpos : s.snkpos = b.length
  noFault : s.err = none

/-- What COMPRESS of `bs` writes before the pad (`30_encoding.md` R60): the constant, the header and the body. -/
def compressed (t : Tree) (bs : List Byte) : Bits :=
  bitsOf 32 Config.magic.toNat ++ t.ser ++ bodyBits (codeTable t) bs

/-- COMPRESS of the bytes `bs` by the tree `t` is over, with `pad` bits after the body. -/
structure CompressDone (bs : List Byte) (t : Tree) (pad : Bits) (s : State) : Prop where
  done : s.state = .done
  phase : s.phase = .noPhase
  noFault : s.err = none
  written : s.snk.bits = compressed t bs ++ pad
  shortPad : pad.length < 8
  wholeBytes : s.snk.bits.length % 8 = 0
  closed : s.snk.closed = true
  snkpos : s.snkpos = (compressed t bs).length
  srcpos : s.srcpos = 8 * bs.length

section
variable {s : State} {bs : List Byte} {b : Bits} {made : List Node} {t : Tree}

/-- A stream of COMPRESS is far shorter than SNKPOS can count. -/
theorem compressed_length_lt (hhuff : HuffmanNodes (freqOf bs) made t) (hfits : bs.length ≤ Config.lenMax) :
    (compressed t bs).length < Config.posLimit := by
  obtain ⟨eof, heof, heofLen⟩ := exists_eof_code hhuff
  have hbody := bodyBits_length_le (coded_of_huffman hhuff) heof heofLen
  have hser := ser_length_add_one t
  have hleaves := huffmanNodes_leaves hhuff
  rw [compressed, List.length_append, List.length_append, bitsOf_length]
  simp only [Config.codeMax, Config.nsym, Config.lenMax, Config.posLimit] at *
  omega

/-! ### The steps -/

theorem compress_starts (h : CompressPending bs s) :
    Compressing .count bs [] (runStarted .count s) where
  start := atStart_runStarted .count s
  srcOpen := h.srcOpen
  snkOpen := h.snkOpen
  input := h.input
  rereads := h.rereads
  written := h.nothingWritten
  snkpos := rfl
  noFault := rfl

theorem compress_count (h : Compressing .count bs b s) (hpos : s.src.pos = 0) (hsrcpos : s.srcpos = 0)
    (hfits : bs.length ≤ Config.lenMax) :
    ∃ s', step s = .next s' ∧ Compressing .build bs b s' ∧ s'.freq = freqOf bs := by
  obtain ⟨hb, hp, -, hq⟩ := h.start
  have hup : upcoming s = byteBits bs ++ [] := by rw [upcoming, hpos, List.drop_zero, h.input, List.append_nil]
  have hlimit : s.srcpos + 8 * bs.length < Config.posLimit := by
    simp only [Config.lenMax, Config.posLimit] at *
    omega
  refine ⟨_, (step_phase h.start).trans (exec_count h.start h.srcOpen hup (by decide) hfits hlimit), ?_, rfl⟩
  exact { h with start := atStart_endPhase (s := afterExhausted (counted bs s)) hb hp hq }

theorem compress_build (h : Compressing .build bs b s) (hfreq : s.freq = freqOf bs) :
    ∃ s' made t, step s = .next s' ∧ Compressing .derive bs b s' ∧ HuffmanNodes (freqOf bs) made t ∧
      arenaHolds s'.node t s'.root = true := by
  obtain ⟨hb, -, -, hq⟩ := h.start
  obtain ⟨node, made, t, k, -, -, -, hexec, hhuff, -, hroot, -⟩ :=
    buildMakesHuffmanTree s h.start (hfreq ▸ freqFull_freqOf bs)
  exact ⟨_, made, t, (step_phase h.start).trans hexec, { h with start := ⟨hb, rfl, rfl, hq⟩ }, hfreq ▸ hhuff, hroot⟩

theorem compress_derive (h : Compressing .derive bs b s) (hhuff : HuffmanNodes (freqOf bs) made t)
    (htree : arenaHolds s.node t s.root = true) :
    ∃ s', step s = .next s' ∧ Compressing .wrmagic bs b s' ∧ arenaHolds s'.node t s'.root = true ∧
      s'.code = codeTable t := by
  obtain ⟨hb, -, -, hq⟩ := h.start
  have hexec := deriveWritesPaths s t h.start htree (huffmanNodes_leaves hhuff) (huffmanNodes_sym_le hhuff)
  exact ⟨_, (step_phase h.start).trans hexec, { h with start := ⟨hb, rfl, rfl, hq⟩ }, htree, rfl⟩

/-- The phases that write go on from SNK with more bits on it. -/
theorem Compressing.writes {p p' : Phase} {s' : State} {b' : Bits} (h : Compressing p bs b s) (hstart : AtStart p' s')
    (hsrc : s'.src = s.src) (hsnk : s'.snk = snkAfter b' s) (hpos : s'.snkpos = s.snkpos + b'.length)
    (herr : s'.err = s.err) : Compressing p' bs (b ++ b') s' where
  start := hstart
  srcOpen := by rw [SrcOpen, hsrc]; exact h.srcOpen
  snkOpen := by rw [SnkOpen, hsnk]; exact h.snkOpen
  input := by rw [hsrc]; exact h.input
  rereads := by rw [hsrc]; exact h.rereads
  written := by rw [hsnk, snkAfter, h.written]
  snkpos := by rw [hpos, h.snkpos, List.length_append]
  noFault := herr.trans h.noFault

theorem compress_wrmagic (h : Compressing .wrmagic bs [] s) (htree : arenaHolds s.node t s.root = true)
    (hcode : s.code = codeTable t) :
    ∃ s', step s = .next s' ∧ Compressing .wrtree bs (bitsOf 32 Config.magic.toNat) s' ∧
      arenaHolds s'.node t s'.root = true ∧ s'.code = codeTable t := by
  obtain ⟨hb, -, -, hq⟩ := h.start
  obtain ⟨hexec, -⟩ := wrmagicWritesMagic s h.start
  refine ⟨_, (step_phase h.start).trans (hexec h.snkOpen (by rw [h.snkpos]; decide)), ?_, htree, hcode⟩
  exact h.writes (b' := bitsOf 32 Config.magic.toNat) ⟨hb, rfl, rfl, hq⟩ rfl rfl
    (congrArg (s.snkpos + ·) (bitsOf_length 32 Config.magic.toNat).symm) rfl

theorem compress_wrtree (h : Compressing .wrtree bs b s) (htree : arenaHolds s.node t s.root = true)
    (hcode : s.code = codeTable t) (hleaves : t.leaves ≤ Config.nsym)
    (hpos : (b ++ t.ser).length < Config.posLimit) :
    ∃ s', step s = .next s' ∧ Compressing .encode bs (b ++ t.ser) s' ∧ s'.code = codeTable t := by
  obtain ⟨hb, -, -, hq⟩ := h.start
  rw [List.length_append] at hpos
  obtain ⟨hexec, -⟩ := wrtreeWritesHeader s t h.start h.snkOpen htree hleaves (by rwa [h.snkpos])
  refine ⟨_, (step_phase h.start).trans hexec, ?_, hcode⟩
  exact h.writes ⟨hb, rfl, rfl, hq⟩ rfl rfl rfl rfl

theorem compress_encode (h : Compressing .encode bs b s) (hcode : s.code = codeTable t)
    (hhuff : HuffmanNodes (freqOf bs) made t) (hfits : bs.length ≤ Config.lenMax)
    (hpos : (b ++ bodyBits (codeTable t) bs).length < Config.posLimit) :
    ∃ s', step s = .next s' ∧ Compressing .flush bs (b ++ bodyBits (codeTable t) bs) s' ∧
      s'.srcpos = 8 * bs.length := by
  obtain ⟨hb, -, -, hq⟩ := h.start
  obtain ⟨eof, heof, heofLen⟩ := exists_eof_code hhuff
  have hup : s.src.reread.getD s.src.bits = byteBits bs ++ [] := by
    rw [h.rereads, Option.getD_none, h.input, List.append_nil]
  have hread : 8 * bs.length < Config.posLimit := by
    simp only [Config.lenMax, Config.posLimit] at *
    omega
  rw [List.length_append, ← hcode] at hpos
  have hexec := encodeWritesBody s bs [] eof h.start h.srcOpen h.snkOpen hup (by decide)
    (hcode ▸ coded_of_huffman hhuff) (hcode ▸ heof) heofLen hread (by rwa [h.snkpos])
  rw [← hcode]
  exact ⟨_, (step_phase h.start).trans hexec,
    { start := ⟨hb, rfl, rfl, hq⟩, srcOpen := h.srcOpen, snkOpen := h.snkOpen, input := List.append_nil _
      rereads := h.rereads, written := congrArg (· ++ _) h.written
      snkpos := by rw [h.snkpos, List.length_append], noFault := h.noFault }, rfl⟩

theorem compress_flush (h : Compressing .flush bs (compressed t bs) s) (hsrcpos : s.srcpos = 8 * bs.length) :
    ∃ s' pad, step s = .next s' ∧ CompressDone bs t pad s' := by
  obtain ⟨hcloses, -⟩ := flushCompletesRun s h.start
  obtain ⟨pad, s', hpad, hbytes, hexec, -, rfl⟩ := hcloses h.snkOpen
  exact ⟨_, pad, (step_phase h.start).trans hexec,
    { done := rfl, phase := rfl, noFault := h.noFault, written := congrArg (· ++ pad) h.written
      shortPad := hpad, wholeBytes := by rw [List.length_append]; exact hbytes
      closed := rfl, snkpos := h.snkpos, srcpos := hsrcpos }⟩

/-- The command and the seven phases of COMPRESS. -/
theorem run_compress (h : CompressPending bs s) :
    ∃ s' made t pad, core.run 8 s = .next s' ∧ HuffmanNodes (freqOf bs) made t ∧ CompressDone bs t pad s' := by
  have h₁ := compress_starts h
  obtain ⟨s₂, hcount, h₂, hfreq⟩ := compress_count h₁ h.firstBit rfl h.fits
  obtain ⟨s₃, made, t, hbuild, h₃, hhuff, htree₃⟩ := compress_build h₂ hfreq
  have hlen := compressed_length_lt hhuff h.fits
  have hlenHeader : (bitsOf 32 Config.magic.toNat ++ t.ser).length < Config.posLimit := by
    rw [compressed, List.length_append] at hlen
    exact Nat.lt_of_add_right_lt hlen
  obtain ⟨s₄, hderive, h₄, htree₄, hcode₄⟩ := compress_derive h₃ hhuff htree₃
  obtain ⟨s₅, hwrmagic, h₅, htree₅, hcode₅⟩ := compress_wrmagic h₄ htree₄ hcode₄
  obtain ⟨s₆, hwrtree, h₆, hcode₆⟩ := compress_wrtree h₅ htree₅ hcode₅ (huffmanNodes_leaves hhuff) hlenHeader
  obtain ⟨s₇, hencode, h₇, hsrcpos⟩ := compress_encode h₆ hcode₆ hhuff h.fits hlen
  obtain ⟨s₈, pad, hflush, h₈⟩ := compress_flush h₇ hsrcpos
  refine ⟨s₈, made, t, pad, ?_, hhuff, h₈⟩
  rw [run_succ (step_compress h.accepting h.command), run_succ hcount, run_succ hbuild, run_succ hderive,
    run_succ hwrmagic, run_succ hwrtree, run_succ hencode, run_succ hflush]
  rfl

/-- The size of the stream of a run of COMPRESS (`30_encoding.md` R77). -/
theorem compressed_length (hhuff : HuffmanNodes (freqOf bs) made t) :
    (compressed t bs).length = 32 + (11 * (countedSyms (freqOf bs)).length - 1) + treeCost (freqOf bs) t := by
  obtain ⟨eof, heof, -⟩ := exists_eof_code hhuff
  have hser := ser_length_add_one t
  have hbody := bodyBits_length (huffmanNodes_nodup hhuff) (coded_of_huffman hhuff) heof
  rw [huffmanNodes_leaves_eq hhuff] at hser
  rw [compressed, List.length_append, List.length_append, bitsOf_length, hbody, ← hser, Nat.add_sub_cancel]

end

/-- Settles O58: each step of the run is the command or a phase from its first line. -/
theorem compressWritesStream : Obligations.CompressWritesStream := by
  unfold Obligations.CompressWritesStream
  intro s bs ha hq hsrc hsnk hpos hbits hreread hempty hfits
  obtain ⟨t, made, tree, pad, hrun, hhuff, h⟩ :=
    run_compress ⟨ha, hq, hsrc, hsnk, hpos, hbits, hreread, hempty, hfits⟩
  exact ⟨t, tree, pad, hrun, h.done, h.phase, h.noFault, ⟨made, hhuff⟩, h.written, h.shortPad, h.wholeBytes, h.closed,
    h.snkpos.trans (compressed_length hhuff), h.srcpos⟩

end Sys2Proof.Machine

/-!
PROOFS. RDTREE and DECODE on any bit string (`43_tree_header_codec.md` R121, R122, R125, `45_decoder.md` R146, R148): each
turn but a few reads a bit of SRC, so the phase ends within its turns, as the header or the body says.
-/

namespace Sys2Proof.Machine

/-- The last turn of a quiet phase, if it raises a fault. -/
theorem runTurns_quiet_raise {p : Phase} {turn : State → Res} {s s' : State} {f : FaultCode} {n : Nat}
    (hb : s.state = .busy) (hp : s.phase = p) (hq : s.inputs = []) (hraise : turn s = raise f s') :
    runTurns p turn (n + 1) s = .next (faultEntry f s') := by
  rw [runTurns_quiet hb hp hq, hraise]
  rfl

/-- A nonempty rest is what stands before it short of the whole. -/
theorem length_of_drop_eq_cons {α : Type} {l rest : List α} {a : α} {n : Nat} (h : l.drop n = a :: rest) :
    n + rest.length + 1 = l.length := by
  have hlen := congrArg List.length h
  rw [List.length_drop, List.length_cons] at hlen
  omega

/-! ### RDTREE -/

/-- The ends of RDTREE on a source that answers, from its first line in `s`. -/
inductive HeaderEnds (s : State) : State → Prop where
  | read (k : Nat) (nodes : Table Node) (root used : Nat) : used ≤ (upcoming s).length →
      HeaderEnds s (endPhase { rdtreeAt .loop k nodes [] used s with root := some root })
  | malformed (m : Micro) (k : Nat) (nodes : Table Node) (stk : List StkEntry) (used : Nat) :
      HeaderEnds s (faultEntry .malformedHeader (afterExhausted (rdtreeAt m k nodes stk used s)))
  | overflow (k : Nat) (nodes : Table Node) (stk : List StkEntry) (used : Nat) :
      HeaderEnds s (faultEntry .nodeOverflow (rdtreeAt .loop k nodes stk used s))

section
variable {s : State} {k x : Nat} {nodes : Table Node} {stk : List StkEntry} {used : Nat} {rest : Bits}

/-- A return of `des()` leads to the next node, or it is the outermost one. -/
theorem desDone_cases (k x : Nat) (nodes : Table Node) (stk : List StkEntry) (used : Nat) (s : State) :
    (∃ nodes' stk', desDone x (rdtreeAt .loop k nodes stk used s) = rdtreeAt .loop k nodes' stk' used s) ∨
      ∃ nodes' root, desDone x (rdtreeAt .loop k nodes stk used s) =
        endPhase { rdtreeAt .loop k nodes' [] used s with root := some root } := by
  induction stk generalizing x nodes with
  | nil => exact .inr ⟨nodes, x, desDone_root⟩
  | cons e stk ih =>
    obtain ⟨h, done, left⟩ := e
    cases done with
    | false => exact .inl ⟨nodes, _, desDone_left⟩
    | true => rw [desDone_right]; exact ih h _

/-- A tag with the arena full (R122). -/
theorem rdtreeTurn_overflow {tag : Bool} (ho : SrcOpen s) (hup : (upcoming s).drop used = tag :: rest)
    (hpos : s.srcpos + used + 1 < Config.posLimit) :
    rdtreeTurn (rdtreeAt .loop Config.nodeCap nodes stk used s) =
      raise .nodeOverflow (rdtreeAt .loop Config.nodeCap nodes stk (used + 1) s) := by
  have htag : (upcoming s).drop used = bitsOf 1 tag.toNat ++ rest := by cases tag <;> exact hup
  rw [rdtreeTurn_loop, rd_rdtreeAt ho tag.toNat_lt htag hpos, desTag]
  exact if_pos (c := Config.nodeCap = Config.nodeCap) rfl

/-- Nine bits or more begin with the symbol field of a leaf (R123: any value). -/
theorem exists_symField {b : Bits} (h : 9 ≤ b.length) : ∃ (sym : Sym) (rest : Bits), b = bitsOf 9 sym.toNat ++ rest := by
  have hlen : (b.take 9).length = 9 := List.length_take_of_le h
  have hlt := bitsVal_lt (b.take 9)
  rw [hlen] at hlt
  refine ⟨BitVec.ofNat 9 (bitsVal (b.take 9)), b.drop 9, ?_⟩
  rw [BitVec.toNat_ofNat, Nat.mod_eq_of_lt hlt, bitsOf_bitsVal' hlen, List.take_append_drop]

/-- Reading from the head of `des()` ends within one turn more than there are bits left. -/
theorem runTurns_rdtree_ends (hb : s.state = .busy) (hp : s.phase = .rdtree) (hq : s.inputs = []) (ho : SrcOpen s)
    (hpos : s.srcpos + (upcoming s).length < Config.posLimit) (n : Nat) (hcap : k ≤ Config.nodeCap)
    (hn : (upcoming s).length < used + n) (hused : used ≤ (upcoming s).length) :
    ∃ t, runTurns .rdtree rdtreeTurn n (rdtreeAt .loop k nodes stk used s) = .next t ∧ HeaderEnds s t := by
  induction n using Nat.strong_induction_on generalizing k nodes stk used with
  | _ n ih =>
    obtain ⟨n, rfl⟩ : ∃ m, n = m + 1 := ⟨n - 1, by omega⟩
    cases hup : (upcoming s).drop used with
    | nil => exact ⟨_, runTurns_rdtreeAt_raise hb hp hq (rdtreeTurn_noTag ho hup), .malformed ..⟩
    | cons tag rest =>
      have hlen := length_of_drop_eq_cons hup
      obtain rfl | hroom := hcap.eq_or_lt
      · exact ⟨_, runTurns_rdtreeAt_raise hb hp hq (rdtreeTurn_overflow ho hup (by omega)), .overflow ..⟩
      · cases tag with
        | false =>
          rw [runTurns_rdtreeAt hb hp hq (rdtreeTurn_internal ho hup hroom (by omega))]
          exact ih n (by omega) hroom (by omega) (by omega)
        | true =>
          obtain ⟨n, rfl⟩ : ∃ m, n = m + 1 := ⟨n - 1, by omega⟩
          by_cases hfield : rest.length < 9
          · have hleft : (upcoming s).drop (used + 1) = rest := drop_add_length (b := [true]) hup
            rw [runTurns_rdtreeAt hb hp hq (rdtreeTurn_leafTag ho hup hroom (by omega))]
            exact ⟨_, runTurns_rdtreeAt_raise hb hp hq (rdtreeTurn_cutField ho (hleft ▸ hfield)), .malformed ..⟩
          · obtain ⟨sym, rest, rfl⟩ := exists_symField (Nat.le_of_not_lt hfield)
            rw [List.length_append, bitsOf_length] at hlen
            rw [runTurns_rdtree_leaf hb hp hq ho n hup hroom (by omega)]
            obtain ⟨nodes', stk', hdone⟩ | ⟨nodes', root, hdone⟩ :=
              desDone_cases (k + 1) k (Table.write nodes k (mkLeaf sym 0)) stk (used + 10) s
            · rw [hdone]
              exact ih n (by omega) hroom (by omega) (by omega)
            · rw [hdone]
              exact ⟨_, runTurns_endPhase n hp (by decide), .read _ _ _ _ (by omega)⟩

/-- RDTREE ends on every bit string. -/
theorem exec_rdtree_ends (hs : AtStart .rdtree s) (ho : SrcOpen s)
    (hpos : s.srcpos + (upcoming s).length < Config.posLimit) :
    ∃ t, exec .rdtree s = .next t ∧ HeaderEnds s t := by
  obtain ⟨hb, hp, hm, hq⟩ := id hs
  obtain ⟨n, hn⟩ : ∃ n, turnBound s = (upcoming s).length + 1 + n + 1 :=
    exists_turnBound_eq_of_upcoming (by omega)
  have hstart : exec .rdtree s = _ := runPhase_start hs hn (rdtreeTurn_start hm)
  rw [hstart]
  exact runTurns_rdtree_ends hb hp hq ho hpos _ (Nat.zero_le _) (by omega) (Nat.zero_le _)

end

/-! ### DECODE -/

/-- The ends of DECODE on a source and a sink that answer, from its first line in `s`. -/
inductive BodyEnds (s : State) : State → Prop where
  | accepted (cur : Handle) (used : Nat) (bs : List Byte) : BodyEnds s (endPhase (decoding .accept cur used bs s))
  | corrupt (cur : Handle) (used : Nat) (bs : List Byte) :
      BodyEnds s (faultEntry .corruptTree (decoding .atLeaf cur used bs s))
  | truncated (cur : Handle) (used : Nat) (bs : List Byte) :
      BodyEnds s (faultEntry .truncatedStream (afterExhausted (decoding .atInternal cur used bs s)))

section
variable {s : State} {cur : Handle} {used : Nat} {bs : List Byte} {rest : Bits} {sym : Sym} {l r L R : Tree}

/-- A leaf and an internal node do not hang from one handle. -/
theorem leaf_ne_node {nodes : Table Node} {h h' : Handle} (hl : arenaHolds nodes (.leaf sym) h = true)
    (hn : arenaHolds nodes (.node l r) h' = true) : h ≠ h' := by
  rintro rfl
  obtain ⟨i, n, rfl, hi, hleaf, -⟩ := arenaHolds_inv_leaf hl
  obtain ⟨_, n', ⟨⟩, hi', hnode, -⟩ := arenaHolds_inv_node hn
  obtain rfl : n = n' := Option.some.inj (hi.symm.trans hi')
  exact Bool.false_ne_true (hnode.symm.trans hleaf)

theorem runTurns_decoding_raise {d : DState} (hb : s.state = .busy) (hp : s.phase = .decode) (hq : s.inputs = [])
    {s' : State} {f : FaultCode} (n : Nat) (hraise : decodeTurn (decoding d cur used bs s) = raise f s') :
    runTurns .decode decodeTurn (n + 1) (decoding d cur used bs s) = .next (faultEntry f s') :=
  runTurns_quiet_raise (s := decoding d cur used bs s) hb hp hq hraise

/-- AT_INTERNAL at the end of the source (R143). -/
theorem decodeTurn_noBit (ho : SrcOpen s) (hup : (upcoming s).drop used = []) :
    decodeTurn (decoding .atInternal cur used bs s) =
      raise .truncatedStream (afterExhausted (decoding .atInternal cur used bs s)) :=
  rd_exhausted (n := 1) (s := decoding .atInternal cur used bs s) (k := decodeBit) (e := raise .truncatedStream) ho
    (by rw [upcoming_decoding, hup]; exact Nat.one_pos)

/-- AT_LEAF on a symbol above 256, or at the root on the symbol of a byte (R144). -/
theorem decodeTurn_corrupt (ht : arenaHolds s.node (.leaf sym) cur = true) (hne : sym.toNat ≠ Config.pseudoEof)
    (hbad : Config.pseudoEof < sym.toNat ∨ cur = s.root) :
    decodeTurn (decoding .atLeaf cur used bs s) = raise .corruptTree (decoding .atLeaf cur used bs s) := by
  obtain ⟨i, n, rfl, hn, -, rfl⟩ := arenaHolds_inv_leaf ht
  refine (readNode_some (s := decoding .atLeaf (some i) used bs s) hn).trans ?_
  rw [if_neg hne]
  by_cases habove : Config.pseudoEof < n.sym.toNat
  · rw [if_pos habove]
  · rw [if_neg habove]
    exact if_pos (hbad.resolve_left habove)

/-- The end-of-file leaf takes two turns, which end the phase (R144, R145). -/
theorem runTurns_decode_accepts (hb : s.state = .busy) (hp : s.phase = .decode) (hq : s.inputs = []) (n : Nat)
    (ht : arenaHolds s.node (.leaf 256#9) cur = true) :
    runTurns .decode decodeTurn (n + 2) (decoding .atLeaf cur used bs s) =
      .next (endPhase (decoding .accept cur used bs s)) := by
  rw [runTurns_decoding hb hp hq (decodeTurn_eof ht), runTurns_decoding hb hp hq decodeTurn_accept]
  exact runTurns_endPhase n hp (by decide)

/-- A symbol is that of a byte, of PSEUDO_EOF, or above. -/
theorem sym_cases (sym : Sym) : (∃ b : Byte, sym = b.setWidth 9) ∨ sym = 256#9 ∨ Config.pseudoEof < sym.toNat := by
  obtain hlt | heq | hgt := Nat.lt_trichotomy sym.toNat Config.pseudoEof
  · refine .inl ⟨sym.setWidth 8, BitVec.eq_of_toNat_eq ?_⟩
    have hlt' : sym.toNat < 2 ^ 8 := hlt
    rw [BitVec.toNat_setWidth_of_le (by decide), BitVec.toNat_setWidth, Nat.mod_eq_of_lt hlt']
  · exact .inr (.inl (BitVec.eq_of_toNat_eq heq))
  · exact .inr (.inr hgt)

/-- From an internal node, below a root that is one, DECODE ends within three turns for each bit left and one more. Each
byte takes one bit or more, so no more bytes are written than bits are read. -/
theorem runTurns_decode_ends (hb : s.state = .busy) (hp : s.phase = .decode) (hq : s.inputs = []) (hsrc : SrcOpen s)
    (hsnk : SnkOpen s) (hroot : arenaHolds s.node (.node L R) s.root = true)
    (hread : s.srcpos + (upcoming s).length < Config.posLimit)
    (hwrite : s.snkpos + 8 * (upcoming s).length < Config.posLimit)
    (n : Nat) (ht : arenaHolds s.node (.node l r) cur = true) (hup : (upcoming s).drop used = rest)
    (hn : 3 * rest.length < n) (hbytes : bs.length ≤ used) :
    ∃ t, runTurns .decode decodeTurn n (decoding .atInternal cur used bs s) = .next t ∧ BodyEnds s t := by
  induction rest generalizing l r cur used bs n with
  | nil =>
    obtain ⟨n, rfl⟩ : ∃ m, n = m + 1 := ⟨n - 1, by omega⟩
    exact ⟨_, runTurns_decoding_raise hb hp hq n (decodeTurn_noBit hsrc hup), .truncated ..⟩
  | cons b rest ih =>
    have hlen := length_of_drop_eq_cons hup
    have hnext : (upcoming s).drop (used + 1) = rest := drop_add_length (b := [b]) hup
    rw [List.length_cons] at hn
    obtain ⟨n, rfl⟩ : ∃ m, n = m + 3 := ⟨n - 3, by omega⟩
    obtain ⟨h, hchild, hturn⟩ := decodeTurn_bit (bs := bs) hsrc ht hup (by omega)
    rw [runTurns_decoding hb hp hq hturn]
    generalize cond b r l = child at hchild
    cases child with
    | node l' r' => exact ih (n + 2) hchild hnext (by omega) (by omega)
    | leaf sym =>
      rw [walkStop]
      obtain ⟨byte, rfl⟩ | rfl | habove := sym_cases sym
      · have hbelow := leaf_ne_node hchild hroot
        rw [runTurns_decoding hb hp hq (decodeTurn_byte hsnk hchild hbelow (by omega)),
          runTurns_decoding hb hp hq (decodeTurn_root hroot)]
        exact ih n hroot hnext (by omega) (by rw [List.length_append, List.length_singleton]; omega)
      · exact ⟨_, runTurns_decode_accepts hb hp hq n hchild, .accepted ..⟩
      · exact ⟨_, runTurns_decoding_raise hb hp hq _ (decodeTurn_corrupt hchild habove.ne' (.inl habove)), .corrupt ..⟩

/-- DECODE ends on every bit string, by whatever tree RDTREE has built. -/
theorem exec_decode_ends (hs : AtStart .decode s) (hsrc : SrcOpen s) (hsnk : SnkOpen s) (htree : HasTree s.node s.root)
    (hread : s.srcpos + (upcoming s).length < Config.posLimit)
    (hwrite : s.snkpos + 8 * (upcoming s).length < Config.posLimit) :
    ∃ t, exec .decode s = .next t ∧ BodyEnds s t := by
  obtain ⟨hb, hp, hm, hq⟩ := id hs
  obtain ⟨n, hn⟩ : ∃ n, turnBound s = 3 * (upcoming s).length + 4 + n + 1 :=
    exists_turnBound_eq_of_upcoming (by omega)
  obtain ⟨t, ht⟩ := htree
  have hstart : exec .decode s = _ := runPhase_start hs hn (decodeTurn_start hm)
  rw [hstart, Nat.add_right_comm, runTurns_decoding hb hp hq (decodeTurn_root ht)]
  cases t with
  | node l r =>
    exact runTurns_decode_ends hb hp hq hsrc hsnk ht hread hwrite _ ht rfl (by rw [List.drop_zero]; omega) (Nat.le_refl 0)
  | leaf sym =>
    by_cases heof : sym = 256#9
    · subst heof
      exact ⟨_, runTurns_decode_accepts hb hp hq _ ht, .accepted ..⟩
    · have hne : sym.toNat ≠ Config.pseudoEof := fun h => heof (BitVec.eq_of_toNat_eq h)
      exact ⟨_, runTurns_decoding_raise hb hp hq _ (decodeTurn_corrupt ht hne (.inr rfl)), .corrupt ..⟩

end

end Sys2Proof.Machine

/-!
PROOFS. A run of DECOMPRESS (`46_sequencer.md` R160): of any bit string it ends in DONE or by one of five faults, and of
what COMPRESS wrote it ends in DONE with the input (R166).
-/

namespace Sys2Proof.Machine

/-! ### Where a run of DECOMPRESS stands -/

/-- DECOMPRESS of the bits `up` is pending, with the streams bound for it. -/
structure DecompressPending (up : Bits) (s : State) : Prop where
  accepting : Accepting s
  command : s.inputs = [(0, .hostWrite 0 2#32)]
  srcOpen : SrcOpen s
  snkOpen : SnkOpen s
  firstBit : s.src.pos = 0
  input : s.src.bits = up
  nothingWritten : s.snk.bits = []

/-- DECOMPRESS has reached the first line of phase `p`, before DECODE has written anything: `used` bits of SRC are read
and `up` are left. -/
structure Decompressing (p : Phase) (used : Nat) (up : Bits) (s : State) : Prop where
  start : AtStart p s
  srcOpen : SrcOpen s
  snkOpen : SnkOpen s
  left : upcoming s = up
  srcpos : s.srcpos = used
  nothingWritten : s.snk.bits = []
  snkpos : s.snkpos = 0
  noFault : s.err = none

/-- DECOMPRESS has reached the first line of FLUSH, with the bytes `out` on SNK. -/
structure Decompressed (out : List Byte) (s : State) : Prop where
  start : AtStart .flush s
  snkOpen : SnkOpen s
  written : s.snk.bits = byteBits out
  noFault : s.err = none

/-- The run of DECOMPRESS is DONE, with the bytes `out` on SNK. -/
structure DecompressDone (out : List Byte) (s : State) : Prop where
  done : s.state = .done
  noFault : s.err = none
  written : s.snk.bits = byteBits out
  closed : s.snk.closed = true

/-- The fault `f` has ended the run of DECOMPRESS, with the bytes `out` on SNK. -/
structure DecompressBroken (f : FaultCode) (out : List Byte) (s : State) : Prop where
  faulted : s.state = .faulted
  quiet : s.inputs = []
  fault : s.err = some f
  written : s.snk.bits = byteBits out
  notClosed : s.snk.closed = false

/-- The faults that the bits of a stream can cause in a run of DECOMPRESS (`45_decoder.md` R148). -/
def streamFaults : List FaultCode :=
  [.badMagicNumber, .malformedHeader, .nodeOverflow, .corruptTree, .truncatedStream]

/-- The run of DECOMPRESS is over, in DONE or by a fault that a stream can cause. -/
def DecompressOver (s : State) : Prop :=
  ∃ out, DecompressDone out s ∨ ∃ f ∈ streamFaults, DecompressBroken f out s

section
variable {s s' : State} {used : Nat} {up rest : Bits} {out : List Byte} {f : FaultCode}

theorem decompress_starts (h : DecompressPending up s) : Decompressing .rdmagic 0 up (runStarted .rdmagic s) where
  start := atStart_runStarted .rdmagic s
  srcOpen := h.srcOpen
  snkOpen := h.snkOpen
  left := by
    have hdrop : upcoming (runStarted .rdmagic s) = s.src.bits.drop s.src.pos := rfl
    rw [hdrop, h.firstBit, List.drop_zero, h.input]
  srcpos := rfl
  nothingWritten := h.nothingWritten
  snkpos := rfl
  noFault := rfl

/-- A phase that reads goes on from SRC with fewer bits left. -/
theorem Decompressing.reads {p p' : Phase} {n : Nat} (h : Decompressing p used up s) (hstart : AtStart p' s')
    (hsrc : s'.src = srcAfter n s) (hpos : s'.srcpos = s.srcpos + n) (hsnk : s'.snk = s.snk)
    (hsnkpos : s'.snkpos = s.snkpos) (herr : s'.err = s.err) : Decompressing p' (used + n) (up.drop n) s' where
  start := hstart
  srcOpen := by rw [SrcOpen, hsrc]; exact h.srcOpen
  snkOpen := by rw [SnkOpen, hsnk]; exact h.snkOpen
  left := by rw [upcoming, hsrc, ← h.left, upcoming, List.drop_drop]; rfl
  srcpos := by rw [hpos, h.srcpos]
  nothingWritten := by rw [hsnk, h.nothingWritten]
  snkpos := hsnkpos.trans h.snkpos
  noFault := herr.trans h.noFault

/-- A fault before DECODE leaves nothing on SNK. -/
theorem Decompressing.faults {p : Phase} (h : Decompressing p used up s) (hsnk : s'.snk = s.snk)
    (hq : s'.inputs = s.inputs) : DecompressBroken f [] (faultEntry f s') := by
  obtain ⟨-, -, -, hquiet⟩ := h.start
  obtain ⟨-, hopen, -⟩ := h.snkOpen
  exact {
    faulted := rfl, quiet := hq.trans hquiet, fault := rfl
    written := (congrArg Sink.bits hsnk).trans h.nothingWritten
    notClosed := (congrArg Sink.closed hsnk).trans hopen }

/-! ### The steps on any bit string -/

/-- After a fault no step changes anything (`60_exceptions.md` R182). -/
theorem run_broken (h : DecompressBroken f out s) (n : Nat) : core.run n s = .next s := by
  refine run_of_step_same ((step_runs (.inl h.quiet)).trans (runCurrent_waits ?_)) n
  rw [h.faulted]
  decide

/-- RDMAGIC on the constant (R161). -/
theorem decompress_rdmagic (h : Decompressing .rdmagic used (bitsOf 32 Config.magic.toNat ++ rest) s)
    (hpos : used + 32 < Config.posLimit) :
    ∃ s', step s = .next s' ∧ Decompressing .rdtree (used + 32) rest s' := by
  obtain ⟨hb, -, -, hq⟩ := h.start
  have hlen : 32 ≤ (upcoming s).length := by
    rw [h.left, List.length_append, bitsOf_length]
    exact Nat.le_add_right 32 _
  have hval : bitsVal ((upcoming s).take 32) = Config.magic.toNat := by
    rw [h.left, List.take_left' (bitsOf_length 32 _), bitsVal_bitsOf, Nat.mod_eq_of_lt Config.magic.isLt]
  obtain ⟨-, hchecks, -⟩ := rdmagicChecksMagic s h.start
  obtain ⟨hmatches, -⟩ := hchecks h.srcOpen hlen (by rwa [h.srcpos])
  have hnext := h.reads (p' := .rdtree) (n := 32)
    (s' := { s with src := srcAfter 32 s, srcpos := s.srcpos + 32, phase := .rdtree, micro := .start })
    ⟨hb, rfl, rfl, hq⟩ rfl rfl rfl rfl rfl
  rw [List.drop_left' (bitsOf_length 32 _)] at hnext
  exact ⟨_, (step_phase h.start).trans (hmatches hval), hnext⟩

/-- RDMAGIC on bits that do not begin with the constant (R161). -/
theorem decompress_badMagic (h : Decompressing .rdmagic used up s) (hne : ¬ bitsOf 32 Config.magic.toNat <+: up)
    (hpos : used + 32 < Config.posLimit) :
    ∃ s', step s = .next s' ∧ DecompressBroken .badMagicNumber [] s' := by
  obtain ⟨-, hchecks, hshort⟩ := rdmagicChecksMagic s h.start
  by_cases hlen : (upcoming s).length < 32
  · exact ⟨_, (step_phase h.start).trans (hshort h.srcOpen hlen), h.faults rfl rfl⟩
  · have hlen' := Nat.le_of_not_lt hlen
    have hval : bitsVal ((upcoming s).take 32) ≠ Config.magic.toNat := fun hval => hne <| by
      rw [← hval, bitsOf_bitsVal' (List.length_take_of_le hlen'), h.left]
      exact List.take_prefix 32 up
    obtain ⟨-, hdiffers⟩ := hchecks h.srcOpen hlen' (by rwa [h.srcpos])
    exact ⟨_, (step_phase h.start).trans (hdiffers hval), h.faults rfl rfl⟩

/-- RDTREE ends with a tree, or by one of its two faults. -/
theorem decompress_rdtree (h : Decompressing .rdtree used up s) (hinv : Inv s)
    (hpos : used + up.length < Config.posLimit) :
    ∃ s', step s = .next s' ∧
      ((∃ n ≤ up.length, Decompressing .decode (used + n) (up.drop n) s' ∧ HasTree s'.node s'.root) ∨
        DecompressBroken .malformedHeader [] s' ∨ DecompressBroken .nodeOverflow [] s') := by
  obtain ⟨hb, hp, -, hq⟩ := h.start
  obtain ⟨t, hexec, hend⟩ := exec_rdtree_ends h.start h.srcOpen (by rwa [h.srcpos, h.left])
  have hstep := (step_phase h.start).trans hexec
  have hinv' := stepKeepsConsistency s t hinv hstep
  refine ⟨t, hstep, ?_⟩
  cases hend with
  | read k nodes root n hn =>
    rw [h.left] at hn
    have hstart := atStart_endPhase (s := { rdtreeAt .loop k nodes [] n s with root := some root }) hb hp hq
    obtain ⟨hb', hp', -⟩ := id hstart
    obtain ⟨htree, -⟩ := decode_ready hinv' hb' hp'
    exact .inl ⟨n, hn, h.reads hstart rfl rfl rfl rfl rfl, htree⟩
  | malformed => exact .inr (.inl (h.faults rfl rfl))
  | overflow => exact .inr (.inr (h.faults rfl rfl))

/-- DECODE ends in ACCEPT, or by one of its two faults. -/
theorem decompress_decode (h : Decompressing .decode used up s) (htree : HasTree s.node s.root)
    (hread : used + up.length < Config.posLimit) (hwrite : 8 * up.length < Config.posLimit) :
    ∃ s' out, step s = .next s' ∧
      (Decompressed out s' ∨ DecompressBroken .corruptTree out s' ∨ DecompressBroken .truncatedStream out s') := by
  obtain ⟨hb, hp, -, hq⟩ := h.start
  obtain ⟨t, hexec, hend⟩ := exec_decode_ends h.start h.srcOpen h.snkOpen htree (by rwa [h.srcpos, h.left])
    (by rwa [h.snkpos, h.left, Nat.zero_add])
  obtain ⟨-, hopen, -⟩ := h.snkOpen
  have hbits (bs : List Byte) : (snkAfter (byteBits bs) s).bits = byteBits bs := congrArg (· ++ _) h.nothingWritten
  have hstep := (step_phase h.start).trans hexec
  cases hend with
  | accepted cur n bs =>
    have hstart := atStart_endPhase (s := decoding .accept cur n bs s) hb hp hq
    exact ⟨_, bs, hstep, .inl ⟨hstart, h.snkOpen, hbits bs, h.noFault⟩⟩
  | corrupt cur n bs => exact ⟨_, bs, hstep, .inr (.inl ⟨rfl, hq, rfl, hbits bs, hopen⟩)⟩
  | truncated cur n bs => exact ⟨_, bs, hstep, .inr (.inr ⟨rfl, hq, rfl, hbits bs, hopen⟩)⟩

/-- FLUSH after whole bytes adds no pad. -/
theorem decompress_flush (h : Decompressed out s) : ∃ s', step s = .next s' ∧ DecompressDone out s' := by
  obtain ⟨hcloses, -⟩ := flushCompletesRun s h.start
  obtain ⟨pad, s', hpad, hbytes, hexec, -, rfl⟩ := hcloses h.snkOpen
  have hnil : pad = [] := by
    rw [h.written, byteBits_length] at hbytes
    exact List.eq_nil_of_length_eq_zero (by omega)
  subst hnil
  exact ⟨_, (step_phase h.start).trans hexec,
    { done := rfl, noFault := h.noFault, written := (List.append_nil _).trans h.written, closed := rfl }⟩

/-! ### The run on any bit string -/

theorem over_of_broken (h : DecompressBroken f out s) (hf : f ∈ streamFaults) (n : Nat) :
    ∃ t, core.run n s = .next t ∧ DecompressOver t :=
  ⟨s, run_broken h n, out, .inr ⟨f, hf, h⟩⟩

theorem over_from_flush (h : Decompressed out s) : ∃ t, core.run 1 s = .next t ∧ DecompressOver t := by
  obtain ⟨t, hstep, hdone⟩ := decompress_flush h
  exact ⟨t, run_succ hstep 0, out, .inl hdone⟩

theorem over_from_decode (h : Decompressing .decode used up s) (htree : HasTree s.node s.root)
    (hread : used + up.length < Config.posLimit) (hwrite : 8 * up.length < Config.posLimit) :
    ∃ t, core.run 2 s = .next t ∧ DecompressOver t := by
  obtain ⟨s', out, hstep, hend⟩ := decompress_decode h htree hread hwrite
  rw [run_succ hstep]
  obtain haccepted | hcorrupt | htruncated := hend
  · exact over_from_flush haccepted
  · exact over_of_broken hcorrupt (by decide) 1
  · exact over_of_broken htruncated (by decide) 1

theorem over_from_rdtree (h : Decompressing .rdtree used up s) (hinv : Inv s)
    (hread : used + up.length < Config.posLimit) (hwrite : 8 * up.length < Config.posLimit) :
    ∃ t, core.run 3 s = .next t ∧ DecompressOver t := by
  obtain ⟨s', hstep, hend⟩ := decompress_rdtree h hinv hread
  rw [run_succ hstep]
  obtain ⟨n, hn, hdecode, htree⟩ | hmalformed | hoverflow := hend
  · have hleft : (up.drop n).length = up.length - n := List.length_drop
    exact over_from_decode hdecode htree (by omega) (by omega)
  · exact over_of_broken hmalformed (by decide) 2
  · exact over_of_broken hoverflow (by decide) 2

theorem over_from_rdmagic (h : Decompressing .rdmagic 0 up s) (hinv : Inv s) (hwrite : 8 * up.length < Config.posLimit) :
    ∃ t, core.run 4 s = .next t ∧ DecompressOver t := by
  have hlimit : 0 + 32 < Config.posLimit := by decide
  by_cases hmagic : bitsOf 32 Config.magic.toNat <+: up
  · obtain ⟨rest, rfl⟩ := hmagic
    obtain ⟨s', hstep, hnext⟩ := decompress_rdmagic h hlimit
    rw [List.length_append, bitsOf_length] at hwrite
    rw [run_succ hstep]
    exact over_from_rdtree hnext (stepKeepsConsistency s s' hinv hstep) (by omega) (by omega)
  · obtain ⟨s', hstep, hbroken⟩ := decompress_badMagic h hmagic hlimit
    rw [run_succ hstep]
    exact over_of_broken hbroken (by decide) 3

/-- The block as after reset, with CTRL, the streams and the outside world of `s`. -/
def freshBlock (s : State) : State :=
  { State.reset with
    ie := s.ie, src := s.src, snk := s.snk, rst := s.rst, inputs := s.inputs, hostData := s.hostData, draws := s.draws }

theorem inv_freshBlock (hrst : s.rst = false) (hcursor : s.src.pos ≤ s.src.bits.length) : Inv (freshBlock s) := by
  have henv := inv_env (src := s.src) (snk := s.snk) (draws := s.draws) (ie := s.ie) (srcpos := 0) (snkpos := 0)
    resetIsConsistent rfl hcursor (by decide) (by decide)
  rw [freshBlock, hrst]
  exact inv_world henv hcursor

/-- Per-run initialisation makes of any state what it makes of a fresh block. -/
theorem perRunInit_freshBlock (s : State) : perRunInit (freshBlock s) = perRunInit s := rfl

/-- A run starts consistent, whatever earlier runs left (`10_state.md` R33). -/
theorem inv_runStarted {p : Phase} (hp : p = .count ∨ p = .rdmagic) (hrst : s.rst = false)
    (hcursor : s.src.pos ≤ s.src.bits.length) : Inv (runStarted p s) := by
  rw [runStarted, ← perRunInit_freshBlock]
  exact startRun_inv (inv_freshBlock (s := { s with inputs := [] }) hrst hcursor) hrst hp

end

/-- Settles O60: RDTREE and DECODE end on every bit string, and a run that a fault has ended stays as it is. -/
theorem decompressEnds : Obligations.DecompressEnds := by
  unfold Obligations.DecompressEnds
  intro s ha hq hsrc hsnk hpos hempty hlimit
  have hstart := decompress_starts ⟨ha, hq, hsrc, hsnk, hpos, rfl, hempty⟩
  have hinv := inv_runStarted (p := .rdmagic) (.inr rfl) ha.2 (hpos ▸ Nat.zero_le _)
  obtain ⟨t, hrun, out, hend⟩ := over_from_rdmagic hstart hinv hlimit
  refine ⟨t, out, (run_succ (step_decompress ha hq) 4).trans hrun, ?_⟩
  obtain hdone | ⟨f, hf, hbroken⟩ := hend
  · exact ⟨hdone.written, .inl ⟨hdone.done, hdone.noFault, hdone.closed⟩⟩
  · exact ⟨hbroken.written, .inr ⟨hbroken.faulted, hbroken.notClosed, f, hbroken.fault, hf⟩⟩

/-! ### The round trip (R166) -/

section
variable {s : State} {bs : List Byte} {made : List Node} {t : Tree} {code rest : Bits}

/-- The bytes of an input, each with its code. -/
def codePairs (code : Table Bits) (bs : List Byte) : List (Byte × Bits) :=
  bs.map fun b => (b, (Table.read code b.toNat).getD [])

theorem codePairs_fst (code : Table Bits) (bs : List Byte) : (codePairs code bs).map Prod.fst = bs := by
  simp [codePairs, Function.comp_def]

theorem codePairs_snd (code : Table Bits) (bs : List Byte) :
    (codePairs code bs).flatMap Prod.snd = codeBits code bs :=
  List.flatMap_map _ _ bs

/-- A code of the table is the path to the leaf of its symbol. -/
theorem at?_of_read {sym : Sym} (h : Table.read (codeTable t) sym.toNat = some code) : t.at? code = some sym := by
  obtain ⟨sym', hsym, hmem⟩ := mem_codes_of_read h
  rw [← BitVec.eq_of_toNat_eq hsym]
  exact mem_codes_iff.mp hmem

/-- The codes of the bytes are paths to their leaves. -/
theorem spells_codePairs (hcoded : Coded (codeTable t) bs) : Spells t (codePairs (codeTable t) bs) := by
  intro p hp
  obtain ⟨b, hb, rfl⟩ := List.mem_map.mp hp
  obtain ⟨c, hc, -⟩ := hcoded b hb
  have hval : (b.setWidth 9).toNat = b.toNat := BitVec.toNat_setWidth_of_le (by decide)
  dsimp only
  rw [hc, Option.getD_some]
  exact at?_of_read (hval.symm ▸ hc)

theorem size_le_of_leaves (h : t.leaves ≤ Config.nsym) : t.size ≤ Config.nodeCap := by
  have hsize := size_add_one t
  simp only [Config.nsym, Config.nodeCap] at *
  omega

/-- RDTREE on a header. -/
theorem decompress_header {used : Nat} (h : Decompressing .rdtree used (t.ser ++ rest) s)
    (hleaves : t.leaves ≤ Config.nsym) (hpos : used + t.ser.length < Config.posLimit) :
    ∃ s', step s = .next s' ∧ Decompressing .decode (used + t.ser.length) rest s' ∧
      arenaHolds s'.node t s'.root = true := by
  obtain ⟨hb, -, -, hq⟩ := h.start
  obtain ⟨node, hexec, htree, -⟩ :=
    rdtreeBuildsTree s t rest h.start h.srcOpen h.left (size_le_of_leaves hleaves) (by rwa [h.srcpos])
  have hnext := h.reads (p' := .decode) (n := t.ser.length)
    (s' := { s with
      src := srcAfter t.ser.length s, srcpos := s.srcpos + t.ser.length
      nnodes := t.size, node := node, stk := [], root := some 0, phase := .decode, micro := .start })
    ⟨hb, rfl, rfl, hq⟩ rfl rfl rfl rfl rfl
  rw [List.drop_left] at hnext
  exact ⟨_, (step_phase h.start).trans hexec, hnext, htree⟩

/-- DECODE on the body of an input. -/
theorem decompress_body {used : Nat} (h : Decompressing .decode used (bodyBits (codeTable t) bs ++ rest) s)
    (htree : arenaHolds s.node t s.root = true) (hhuff : HuffmanNodes (freqOf bs) made t)
    (hfits : bs.length ≤ Config.lenMax) (hpos : used + (bodyBits (codeTable t) bs).length < Config.posLimit) :
    ∃ s', step s = .next s' ∧ Decompressed bs s' := by
  obtain ⟨hb, -, -, hq⟩ := h.start
  obtain ⟨eof, heof, -⟩ := exists_eof_code hhuff
  have hbody : (codePairs (codeTable t) bs).flatMap Prod.snd ++ eof = bodyBits (codeTable t) bs := by
    rw [codePairs_snd, bodyBits_eq_codeBits heof]
  have hwrite : s.snkpos + 8 * (codePairs (codeTable t) bs).length < Config.posLimit := by
    rw [h.snkpos, codePairs, List.length_map]
    simp only [Config.lenMax, Config.posLimit] at *
    omega
  obtain ⟨cur, -, hexec⟩ := decodeInvertsEncode s t (codePairs (codeTable t) bs) eof rest h.start h.srcOpen h.snkOpen
    htree (spells_codePairs (coded_of_huffman hhuff)) (at?_of_read heof) (by rw [hbody, h.left])
    (by rwa [hbody, h.srcpos]) hwrite
  refine ⟨_, (step_phase h.start).trans hexec, ⟨hb, rfl, rfl, hq⟩, h.snkOpen, ?_, h.noFault⟩
  exact (congrArg (· ++ _) h.nothingWritten).trans (congrArg byteBits (codePairs_fst _ bs))

/-- DECOMPRESS of what COMPRESS of `bs` writes before the pad, with any bits after it. -/
theorem run_decompress (h : DecompressPending (compressed t bs ++ rest) s) (hhuff : HuffmanNodes (freqOf bs) made t)
    (hfits : bs.length ≤ Config.lenMax) : ∃ s', core.run 5 s = .next s' ∧ DecompressDone bs s' := by
  have hlen := compressed_length_lt hhuff hfits
  have h₁ := decompress_starts h
  rw [compressed, List.append_assoc, List.append_assoc] at h₁
  rw [compressed, List.length_append, List.length_append, bitsOf_length] at hlen
  obtain ⟨s₂, hrdmagic, h₂⟩ := decompress_rdmagic h₁ (by decide)
  obtain ⟨s₃, hrdtree, h₃, htree⟩ := decompress_header h₂ (huffmanNodes_leaves hhuff) (by omega)
  obtain ⟨s₄, hdecode, h₄⟩ := decompress_body h₃ htree hhuff hfits (by omega)
  obtain ⟨s₅, hflush, h₅⟩ := decompress_flush h₄
  refine ⟨s₅, ?_, h₅⟩
  rw [run_succ (step_decompress h.accepting h.command), run_succ hrdmagic, run_succ hrdtree, run_succ hdecode,
    run_succ hflush]
  rfl

end

/-- Settles O59: the first SNKPOS bits are the stream before the pad, whose header rebuilds the tree of the body. -/
theorem roundTrip : Obligations.RoundTrip := by
  unfold Obligations.RoundTrip
  intro s bs ha hq hsrc hsnk hpos hbits hreread hempty hfits
  obtain ⟨t, made, tree, pad, hrun, hhuff, h⟩ :=
    run_compress ⟨ha, hq, hsrc, hsnk, hpos, hbits, hreread, hempty, hfits⟩
  refine ⟨t, hrun, h.done, fun s' rest ha' hq' hsrc' hsnk' hpos' hbits' hempty' => ?_⟩
  rw [h.written, h.snkpos, List.take_left] at hbits'
  obtain ⟨t', hrun', h'⟩ := run_decompress ⟨ha', hq', hsrc', hsnk', hpos', hbits', hempty'⟩ hhuff hfits
  exact ⟨t', hrun', h'.done, h'.noFault, h'.written, h'.closed⟩

end Sys2Proof.Machine

/-!
PROOFS. Faults (`60_exceptions.md` R170 to R182): a phase ends with the turn that raises one, and FAULTED is final. Each
fault of a phase is the phase up to that turn, which the developments of the phases above give, and then the turn.
-/

namespace Sys2Proof.Machine

/-- Settles O20: fault entry is the update of three fields, and a raise is a `.halt`, after which nothing runs. (The
model's own `faultEntry` has the name of the statement.) -/
theorem faultEntry_records_and_ends : Obligations.FaultEntry := by
  unfold Obligations.FaultEntry
  exact fun _ _ _ => ⟨rfl, rfl⟩

/-! ### A phase whose next turn raises a fault -/

/-- The phase ends with the fault; an event that is not due has come one turn nearer. -/
theorem runPhase_raises {p : Phase} {turn : State → Res} {s s' : State} {f : FaultCode} (hb : s.state = .busy)
    (hp : s.phase = p) (hd : due s = false) (hraise : turn (tick s) = raise f s') :
    runPhase p turn s = .next (faultEntry f s') := by
  obtain ⟨m, hm⟩ : ∃ m, turnBound s = 0 + m + 1 := exists_turnBound_eq (by decide)
  rw [runPhase_goes_on hb hp, hm, runTurns_halt hb hp hd hraise]

/-- The same where nothing is pending. -/
theorem runPhase_raises_quiet {p : Phase} {m : Micro} {turn : State → Res} {s s' : State} {f : FaultCode}
    (hs : AtPoint p m s) (hraise : turn s = raise f s') : runPhase p turn s = .next (faultEntry f s') := by
  obtain ⟨hb, hp, -, hq⟩ := hs
  exact runPhase_raises hb hp (due_quiet hq) (by rwa [tick_quiet hq])

/-! ### Streams that have failed -/

@[simp] theorem waitsOnSrc_tick (s : State) : waitsOnSrc (tick s) = waitsOnSrc s := by
  simp only [waitsOnSrc, tick_phase, tick_micro, tick_dstate]

@[simp] theorem waitsOnSnk_tick (s : State) : waitsOnSnk (tick s) = waitsOnSnk s := by
  simp only [waitsOnSnk, tick_phase, tick_micro, tick_dstate, tick_cur, tick_root, tick_node]

/-- Phase NONE makes no transaction. -/
theorem phase_ne_of_waits {s : State} (h : waitsOnSrc s = true ∨ waitsOnSnk s = true) : s.phase ≠ .noPhase := by
  intro hp
  simp [waitsOnSrc, waitsOnSnk, hp] at h

/-- A transaction on a failed SRC is the fault `IoFailure` (`20_memory.md` R44). -/
theorem turn_srcFailed {s : State} (hw : waitsOnSrc s = true) (hf : s.src.failed = true) :
    s.phase.turn s = raise .ioFailure s := by
  obtain ⟨n, k, e, ht⟩ | ⟨k, ht⟩ := turn_of_waitsOnSrc hw <;> rw [ht]
  · exact rd_failed hf
  · exact rewind_failed hf

/-- A transaction on a failed or closed SNK is the fault `IoFailure` (R44). -/
theorem turn_snkFailed {s : State} (hw : waitsOnSnk s = true) (hf : s.snk.failed = true ∨ s.snk.closed = true) :
    s.phase.turn s = raise .ioFailure s := by
  obtain ⟨n, v, k, ht⟩ | ⟨k, ht⟩ := turn_of_waitsOnSnk hw <;> rw [ht]
  · exact wr_failed hf
  · exact close_failed hf

/-- A step of a run whose turn raises a fault. -/
theorem step_raises {s s' : State} {f : FaultCode} (hb : s.state = .busy) (hd : due s = false)
    (hp : s.phase ≠ .noPhase) (hraise : s.phase.turn (tick s) = raise f s') : step s = .next (faultEntry f s') := by
  rw [step_runs (.inr ⟨hb, hd⟩), runCurrent_busy hb, exec_phase_instr hp, runPhase_raises hb rfl hd hraise]

/-- A turn that passes takes 1 from the wait of the next event, and does no more. -/
theorem tick_inputs_only (s : State) : ∃ inputs, tick s = { s with inputs := inputs } := by
  unfold tick
  split
  · exact ⟨_, rfl⟩
  · exact ⟨s.inputs, rfl⟩

/-- Settles O45: the turn of the phase is the transaction on the failed stream. -/
theorem ioFailure : Obligations.IoFailure := by
  unfold Obligations.IoFailure
  refine fun s hb hd => ⟨fun hw hf => ?_, fun hw hf => ?_, tick_quiet, tick_inputs_only s⟩
  · have hturn := turn_srcFailed (s := tick s) (by rwa [waitsOnSrc_tick]) (by rwa [tick_src])
    rw [tick_phase] at hturn
    exact step_raises hb hd (phase_ne_of_waits (.inl hw)) hturn
  · have hturn := turn_snkFailed (s := tick s) (by rwa [waitsOnSnk_tick]) (by rwa [tick_snk])
    rw [tick_phase] at hturn
    exact step_raises hb hd (phase_ne_of_waits (.inr hw)) hturn

/-! ### COUNT -/

/-- A byte read when LEN is LEN_MAX (`40_frequency_counter.md` R84). -/
theorem countByte_overflow {s : State} (hlen : s.len = Config.lenMax) (r : Nat) :
    countByte r s = raise .countOverflow s := if_pos hlen

/-- Settles O26: the turn of the loop reads the byte, and the length guard raises the fault. -/
theorem countOverflow : Obligations.CountOverflow := by
  unfold Obligations.CountOverflow
  intro s hs ho hup hpos hlen
  obtain ⟨-, -, hm, -⟩ := id hs
  refine runPhase_raises_quiet hs ?_
  calc countTurn s
      = rd 8 s countByte fun s => .go (endPhase s) := by rw [countTurn, hm]
    _ = countByte _ (afterRead 8 s) := rd_value ho hup hpos
    _ = raise .countOverflow (afterRead 8 s) := countByte_overflow (s := afterRead 8 s) hlen _

/-! ### ENCODE -/

/-- A turn of the loop that reads a byte without a code (`44_encoder.md` R134). -/
theorem encodeTurn_missing {s : State} {bs : List Byte} {b : Byte} {rest : Bits} (ho : SrcOpen s)
    (hup : s.src.reread.getD s.src.bits = byteBits bs ++ (bitsOf 8 b.toNat ++ rest))
    (hc : Table.read s.code b.toNat = none) (hpos : 8 * bs.length + 8 < Config.posLimit) :
    encodeTurn (encodedTo bs s) = raise .missingCode (afterRead 8 (encodedTo bs s)) := by
  have hnone : codeAt b.toNat (afterRead 8 (encodedTo bs s)) = none := hc
  rw [encodeTurn_loop, rd_presented (srcOpen_encodedTo.mpr ho) b.isLt (upcoming_encodedTo hup) hpos, encodeByte, hnone]

/-- Settles O36: ENCODE takes one turn for the rewind, passes over the bytes with a code, and reads the one without. -/
theorem missingCode : Obligations.MissingCode := by
  unfold Obligations.MissingCode
  intro s bs b rest hs hsrc hsnk hup hcoded hnone hread hwrite
  obtain ⟨hb, hp, hm, hq⟩ := id hs
  rw [List.append_assoc] at hup
  have hcodeLen := codeBits_length_le hcoded
  obtain ⟨n, hn⟩ : ∃ n, turnBound s = 2 * bs.length + (codeBits s.code bs).length + 1 + n + 1 :=
    exists_turnBound_eq_of_rewound hup (by simp only [Config.codeMax] at hcodeLen; omega)
  calc exec .encode s
      = runTurns .encode encodeTurn (2 * bs.length + (codeBits s.code bs).length + 1 + n) (encodedTo [] s) :=
        runPhase_start hs hn (encodeTurn_start hm hsrc)
    _ = runTurns .encode encodeTurn (1 + n) (encodedTo bs s) := by
        rw [Nat.add_assoc]
        exact runTurns_encode (bs := []) hb hp hq hsrc hsnk _ hup hcoded (by simp only [List.nil_append]; omega) hwrite
    _ = .next (faultEntry .missingCode (afterRead 8 (encodedTo bs s))) := by
        rw [Nat.add_comm]
        exact runTurns_quiet_raise (s := encodedTo bs s) hb hp hq (encodeTurn_missing hsrc hup hnone (by omega))
    _ = _ := by
        rw [List.append_assoc, ← hup]
        rfl

/-! ### RDTREE -/

/-- Settles O41: RDTREE takes one turn for its first line, reads the tokens, and reads one tag more. -/
theorem nodeOverflow : Obligations.NodeOverflow := by
  unfold Obligations.NodeOverflow
  intro s toks tag rest hs ho htoks hopen hcap hup hpos
  obtain ⟨hb, hp, hm, hq⟩ := id hs
  obtain ⟨nodes, stk, m, hlen, htokens⟩ := runTurns_rdtree_tokens (k := 0) (nodes := s.node) (stk := []) (used := 0)
    hb hp hq ho htoks hopen hup (by omega) (by omega)
  rw [Nat.zero_add, Nat.zero_add, hcap] at htokens
  obtain ⟨n, hn⟩ : ∃ n, turnBound s = m + 1 + n + 1 :=
    exists_turnBound_eq (by simp only [Config.nodeCap] at hcap; omega)
  have htag : (upcoming s).drop (toks.flatMap encode).length = tag :: rest := by rw [hup, List.drop_left]
  refine ⟨nodes, stk, ?_⟩
  calc exec .rdtree s
      = runTurns .rdtree rdtreeTurn (m + 1 + n) (rdtreeAt .loop 0 s.node [] 0 s) :=
        runPhase_start hs hn (rdtreeTurn_start hm)
    _ = runTurns .rdtree rdtreeTurn (n + 1)
          (rdtreeAt .loop Config.nodeCap nodes stk (toks.flatMap encode).length s) := by
        rw [← htokens]
        congr 1
        omega
    _ = _ := runTurns_rdtreeAt_raise hb hp hq (rdtreeTurn_overflow ho htag hpos)

/-! ### DECODE -/

section
variable {s : State} {t : Tree} {ps : List (Byte × Bits)} {more rest : Bits}

/-- A tree with a path of one bit or more is no leaf. -/
theorem exists_node_of_path (hpath : (t.at? more).isSome = true) (hne : more ≠ []) : ∃ l r, t = .node l r := by
  obtain ⟨b, more, rfl⟩ := List.exists_cons_of_ne_nil hne
  cases t with
  | leaf sym => cases hpath
  | node l r => exact ⟨l, r, rfl⟩

/-- The bytes that DECODE has passed over, from its first line on: it stands at the root again, with turns left for
what comes after them. -/
theorem exec_decode_bytes (hs : AtStart .decode s) (hsrc : SrcOpen s) (hsnk : SnkOpen s)
    (ht : arenaHolds s.node t s.root = true) (hspells : Spells t ps) (hne : ∀ p ∈ ps, p.2 ≠ [])
    (hup : upcoming s = ps.flatMap Prod.snd ++ rest)
    (hread : s.srcpos + (ps.flatMap Prod.snd).length < Config.posLimit)
    (hwrite : s.snkpos + 8 * ps.length < Config.posLimit) {n : Nat} (hn : n ≤ rest.length + 2) :
    ∃ cur m, exec .decode s = runTurns .decode decodeTurn (n + m)
      (decoding .atRoot cur (ps.flatMap Prod.snd).length (ps.map Prod.fst) s) := by
  obtain ⟨hb, hp, hm, hq⟩ := id hs
  have hlen := length_le_length_flatMap hne
  obtain ⟨m, hm'⟩ : ∃ m, turnBound s = 2 * ps.length + (ps.flatMap Prod.snd).length + n + m + 1 :=
    exists_turnBound_eq_of_upcoming (by rw [hup, List.length_append]; omega)
  obtain ⟨cur, hbytes⟩ := runTurns_decode (cur := s.cur) (used := 0) (bs := []) hb hp hq hsrc hsnk ht hspells hne
    hup hread (by rwa [List.length_nil, Nat.zero_add])
  refine ⟨cur, m, ?_⟩
  calc exec .decode s
      = runTurns .decode decodeTurn (2 * ps.length + (ps.flatMap Prod.snd).length + n + m)
          (decoding .atRoot s.cur 0 [] s) := runPhase_start hs hm' (decodeTurn_start hm)
    _ = _ := by rw [Nat.add_assoc, hbytes, Nat.zero_add, List.nil_append]

end

/-- Settles O43: DECODE passes over the codes of the bytes, walks the bits that are left to an internal node, and finds
the source at its end. -/
theorem truncatedStream : Obligations.TruncatedStream := by
  unfold Obligations.TruncatedStream
  intro s t ps cut more hs hsrc hsnk ht hspells hpath hmore hup hread hwrite
  obtain ⟨hb, hp, -, hq⟩ := id hs
  rw [List.length_append] at hread ⊢
  obtain ⟨sym, hsym⟩ := Option.isSome_iff_exists.mp hpath
  have hne (p : Byte × Bits) (hmem : p ∈ ps) : p.2 ≠ [] := by
    intro hnil
    have hroot := hspells p hmem
    rw [hnil] at hroot
    obtain ⟨l, r, rfl⟩ := exists_node_of_path hpath (List.append_ne_nil_of_right_ne_nil cut hmore)
    cases hroot
  obtain ⟨cur, n, hbytes⟩ := exec_decode_bytes (n := cut.length + 2) hs hsrc hsnk ht hspells hne hup (by omega) hwrite
    (Nat.le_refl _)
  obtain ⟨t', h, -, hend, hwalk⟩ := runTurns_decode_walk (bs := ps.map Prod.fst) (cur := s.root)
    (used := (ps.flatMap Prod.snd).length) (rest := []) hb hp hq hsrc ht hsym
    (by rw [hup, List.drop_left, List.append_nil]) (by omega)
  obtain ⟨l, r, rfl⟩ := exists_node_of_path (Option.isSome_of_eq_some hend) hmore
  have hleft : (upcoming s).drop ((ps.flatMap Prod.snd).length + cut.length) = [] := by
    rw [hup, ← List.length_append, List.drop_length]
  refine ⟨h, ?_⟩
  calc exec .decode s
      = runTurns .decode decodeTurn (cut.length + (n + 1) + 1)
          (decoding .atRoot cur (ps.flatMap Prod.snd).length (ps.map Prod.fst) s) := by
        rw [hbytes]
        congr 1
        omega
    _ = runTurns .decode decodeTurn (n + 1)
          (decoding .atInternal h ((ps.flatMap Prod.snd).length + cut.length) (ps.map Prod.fst) s) := by
        rw [runTurns_decoding hb hp hq (decodeTurn_root ht), hwalk]
        rfl
    _ = .next (faultEntry .truncatedStream (afterExhausted
          (decoding .atInternal h ((ps.flatMap Prod.snd).length + cut.length) (ps.map Prod.fst) s))) :=
        runTurns_decoding_raise hb hp hq n (decodeTurn_noBit hsrc hleft)
    _ = _ := by
        simp only [afterExhausted, decoding, List.length_map]

/-- A bit that chooses a child that is NULL (`45_decoder.md` R143). -/
theorem decodeBit_null {s : State} {b : Bool} {i : Nat} {n : Node} (hcur : s.cur = some i)
    (hn : Table.read s.node i = some n) (hnull : (if b then n.right else n.left) = none) :
    decodeBit b.toNat s = raise .corruptTree s := by
  have hchild : (if b.toNat = 0 then n.left else n.right) = none := by cases b <;> exact hnull
  rw [decodeBit, hcur, readNode_some hn, hchild]

/-- AT_INTERNAL with a NULL child: the fault comes after the bit. -/
theorem exec_decode_null {s : State} {i : Nat} {n : Node} {b : Bool} {rest : Bits} (hs : AtPoint .decode .loop s)
    (hd : s.dstate = .atInternal) (ho : SrcOpen s) (hcur : s.cur = some i) (hn : Table.read s.node i = some n)
    (hnull : (if b then n.right else n.left) = none) (hup : upcoming s = b :: rest)
    (hpos : s.srcpos + 1 < Config.posLimit) :
    exec .decode s = .next (faultEntry .corruptTree (afterRead 1 s)) := by
  obtain ⟨-, -, hm, -⟩ := id hs
  have hbit : upcoming s = bitsOf 1 b.toNat ++ rest := by cases b <;> exact hup
  refine runPhase_raises_quiet hs ?_
  calc decodeTurn s
      = rd 1 s decodeBit fun s => raise .truncatedStream s := by rw [decodeTurn, hm, hd]
    _ = decodeBit b.toNat (afterRead 1 s) := rd_presented ho b.toNat_lt hbit hpos
    _ = raise .corruptTree (afterRead 1 s) := decodeBit_null (s := afterRead 1 s) hcur hn hnull

/-- After the codes of bytes, the path to a leaf whose symbol is above 256. -/
theorem exec_decode_above {s : State} {t : Tree} {ps : List (Byte × Bits)} {c rest : Bits} {sym : Sym}
    (hs : AtStart .decode s) (hsrc : SrcOpen s) (hsnk : SnkOpen s) (ht : arenaHolds s.node t s.root = true)
    (hspells : Spells t ps) (hpath : t.at? c = some sym) (habove : Config.pseudoEof < sym.toNat)
    (hup : upcoming s = ps.flatMap Prod.snd ++ (c ++ rest))
    (hread : s.srcpos + ((ps.flatMap Prod.snd).length + c.length) < Config.posLimit)
    (hwrite : s.snkpos + 8 * ps.length < Config.posLimit) :
    ∃ cur, exec .decode s = .next (faultEntry .corruptTree
      (decoding .atLeaf cur ((ps.flatMap Prod.snd).length + c.length) (ps.map Prod.fst) s)) := by
  obtain ⟨hb, hp, -, hq⟩ := id hs
  have hne (p : Byte × Bits) (hmem : p ∈ ps) : p.2 ≠ [] := path_ne_nil hpath (hspells p hmem) (by
    rintro rfl
    rw [BitVec.toNat_setWidth_of_le (by decide)] at habove
    exact absurd p.1.isLt habove.not_gt)
  obtain ⟨cur, n, hbytes⟩ := exec_decode_bytes (n := c.length + 2) hs hsrc hsnk ht hspells hne hup (by omega) hwrite
    (by rw [List.length_append]; omega)
  obtain ⟨h, hleaf, hwalk⟩ := runTurns_decode_path (cur := cur) (bs := ps.map Prod.fst)
    (used := (ps.flatMap Prod.snd).length) hb hp hq hsrc ht hpath (by rw [hup, List.drop_left]) (by omega)
  refine ⟨h, ?_⟩
  calc exec .decode s
      = runTurns .decode decodeTurn (c.length + (n + 1) + 1)
          (decoding .atRoot cur (ps.flatMap Prod.snd).length (ps.map Prod.fst) s) := by
        rw [hbytes]
        congr 1
        omega
    _ = _ := by
        rw [hwalk]
        exact runTurns_decoding_raise hb hp hq n (decodeTurn_corrupt hleaf habove.ne' (.inl habove))

/-- A root that is the leaf of a byte. -/
theorem exec_decode_rootLeaf {s : State} {sym : Sym} (hs : AtStart .decode s)
    (ht : arenaHolds s.node (.leaf sym) s.root = true) (hne : sym.toNat ≠ Config.pseudoEof) :
    exec .decode s = .next (faultEntry .corruptTree (decoding .atLeaf s.root 0 [] s)) := by
  obtain ⟨hb, hp, hm, hq⟩ := id hs
  obtain ⟨n, hn⟩ : ∃ n, turnBound s = 2 + n + 1 := exists_turnBound_eq (by decide)
  calc exec .decode s
      = runTurns .decode decodeTurn (2 + n) (decoding .atRoot s.cur 0 [] s) :=
        runPhase_start hs hn (decodeTurn_start hm)
    _ = runTurns .decode decodeTurn (n + 1) (decoding .atLeaf s.root 0 [] s) := by
        rw [Nat.add_comm]
        exact runTurns_decoding hb hp hq (decodeTurn_root ht)
    _ = _ := runTurns_decoding_raise hb hp hq n (decodeTurn_corrupt ht hne (.inr rfl))

/-- Settles O44: the three causes, each where the walk of DECODE meets it. -/
theorem corruptTree : Obligations.CorruptTree := by
  unfold Obligations.CorruptTree
  refine ⟨?_, ?_, ?_⟩
  · intro s h n b rest hs hd ho hcur hn hnull hup hpos
    exact exec_decode_null hs hd ho hcur hn hnull hup hpos
  · intro s t ps c rest sym hs hsrc hsnk ht hspells hpath habove hup hread hwrite
    rw [List.append_assoc] at hup
    rw [List.length_append] at hread ⊢
    obtain ⟨cur, hexec⟩ := exec_decode_above hs hsrc hsnk ht hspells hpath habove hup hread hwrite
    exact ⟨cur, by simpa only [decoding, List.length_map] using hexec⟩
  · intro s sym hs ht hbyte
    rw [exec_decode_rootLeaf hs ht hbyte.ne]
    simp [decoding, srcAfter, snkAfter, byteBits]

/-! ### The interrupt line -/

/-- IRQ is up in DONE and FAULTED, if IE lets it (`60_exceptions.md` R184). -/
theorem irq_iff (s : State) : irq s = true ↔ s.ie = true ∧ (s.state = .done ∨ s.state = .faulted) := by
  cases hs : s.state <;> simp [irq, hs]

/-- IRQ is down while a run is going on. -/
theorem irq_busy {s : State} (hb : s.state = .busy) : irq s = false := by simp [irq, hb]

/-- Settles O19: writes of CTRL set IE out of reset, and the other clauses set STATE. -/
theorem interruptLine : Obligations.InterruptLine := by
  unfold Obligations.InterruptLine
  refine fun s => ⟨irq_iff s, fun t hr h => ?_, fun t hr h => ?_, fun hinv hr => ?_, ?_, fun f => ?_, ?_, rfl⟩
  · rw [deliver_write_ctrl hr] at h
    cases h
    rfl
  · rw [deliver_write_ctrl hr] at h
    cases h
    exact (irq_iff _).trans (and_iff_right rfl)
  · rw [← hinv.control.held hr]
    rfl
  · rintro t i ha (rfl | rfl) h
    · cases (startRun_accepted ha).symm.trans h
      exact irq_busy rfl
    · cases (startRun_accepted ha).symm.trans h
      exact irq_busy rfl
  · exact Bool.and_true s.ie
  · exact Bool.and_true s.ie

/-! ### FAULTED is final -/

/-- Outside a run no instruction but a command that starts one does anything (`60_exceptions.md` R182). -/
theorem exec_waits {i : Instr} {s : State} (hb : s.state ≠ .busy) (h1 : i ≠ .compress) (h2 : i ≠ .decompress)
    (h3 : i ≠ .reservedOp3) (h4 : ∀ v, i ≠ .reservedHigh v) : exec i s = .next s := by
  obtain ⟨hmagic, htree, hcode⟩ := wireFieldsElsewhere s
  have htree := htree fun h => hb h.1
  cases i with
  | nop => rfl
  | phaseNone => rfl
  | compress => exact absurd rfl h1
  | decompress => exact absurd rfl h2
  | reservedOp3 => exact absurd rfl h3
  | reservedHigh v => exact absurd rfl (h4 v)
  | magic m => exact hmagic (fun h => hb h.1) m
  | internal => exact htree.1
  | leaf sym => exact htree.2 sym
  | codeword c => exact hcode (fun h => hb h.1) c
  | count | build | derive | wrmagic | wrtree | encode | flush | rdmagic | rdtree | decode => exact runPhase_waits hb

/-- A write of CTRL reaches IE at most, and NOP and a write of any other register nothing. -/
theorem deliver_write_ie_only {n : Nat} {v : Word} (h : n = 0 → v = 0#32) (s : State) :
    ∃ ie, deliver (.hostWrite n v) s = .next { s with ie := ie } := by
  by_cases h0 : n = 0
  · obtain rfl := h h0
    exact ⟨s.ie, by rw [h0]; rfl⟩
  · by_cases h5 : n = 5
    · subst h5
      by_cases hr : s.rst = true
      · exact ⟨s.ie, deliver_write_ctrl_held hr v⟩
      · exact ⟨_, deliver_write_ctrl (Bool.eq_false_of_not_eq_true hr) v⟩
    · exact ⟨s.ie, deliver_write_readOnly h0 h5 v s⟩

/-- A bind that is not refused takes effect. -/
theorem eq_of_bindStream {s s' t : State} (h : bindStream s s' = .next t) : t = s' := by
  by_cases hb : s.state = .busy
  · cases (bindStream_busy hb s').symm.trans h
  · cases (bindStream_free hb s').symm.trans h
    rfl

/-- An event that is no write and no reset reaches the streams and the word the host holds only. -/
theorem deliver_outside_only {e : Event} {s t : State} (h : deliver e s = .next t)
    (hwrite : ∀ n v, e ≠ .hostWrite n v) (hreset : ∀ a, e ≠ .resetInput a) :
    ∃ src snk w, t = { s with src := src, snk := snk, hostData := w } := by
  cases e with
  | hostWrite n v => exact absurd rfl (hwrite n v)
  | resetInput a => exact absurd rfl (hreset a)
  | bindSrc bits reread => exact ⟨_, s.snk, s.hostData, eq_of_bindStream h⟩
  | bindSnk => exact ⟨s.src, _, s.hostData, eq_of_bindStream h⟩
  | hostRead | closeSrc | closeSnk | blockSrc | blockSnk => cases h; exact ⟨_, _, _, rfl⟩

/-- FAULTED outlasts every event but reset and a command that is accepted (`60_exceptions.md` R182). -/
theorem deliver_keeps_fault {e : Event} {s t : State} (h : deliver e s = .next t) (hreset : ∀ a, e ≠ .resetInput a)
    (hcmd : ∀ v, v ≠ 0#32 → e ≠ .hostWrite 0 v) : t.state = s.state ∧ t.err = s.err ∧ t.errpos = s.errpos := by
  cases e with
  | hostWrite n v =>
    have hnop : n = 0 → v = 0#32 := by
      rintro rfl
      exact by_contra fun hv => hcmd v hv rfl
    obtain ⟨ie, hie⟩ := deliver_write_ie_only hnop s
    cases hie.symm.trans h
    exact ⟨rfl, rfl, rfl⟩
  | resetInput a => exact absurd rfl (hreset a)
  | _ =>
    obtain ⟨src, snk, w, rfl⟩ := deliver_outside_only h nofun nofun
    exact ⟨rfl, rfl, rfl⟩

/-- Settles O21: FAULTED is not BUSY, so nothing runs, and only reset and commands reach STATE, ERR and ERRPOS. -/
theorem faultedIsFinal : Obligations.FaultedIsFinal := by
  unfold Obligations.FaultedIsFinal
  intro s hs
  have hb : s.state ≠ .busy := by rw [hs]; decide
  refine ⟨fun hq => ?_, fun i => exec_waits hb, fun e t h hreset hcmd => ?_⟩
  · rw [step_runs (.inl hq), runCurrent_waits hb]
  · obtain ⟨hstate, herr, herrpos⟩ := deliver_keeps_fault h hreset hcmd
    exact ⟨hstate.trans hs, herr, herrpos⟩

end Sys2Proof.Machine

/-!
PROOFS. The reset input (`70_reset_and_hazards.md` R190, R191): a block held in reset stays as after reset whatever the
outside world does.
-/

namespace Sys2Proof.Machine

/-- While the reset input is asserted, and at its release, the block is as after reset (R190). -/
theorem driveReset_resets {a : Bool} {s : State} (h : (a || s.rst) = true) :
    driveReset a s = { resetBlock s with rst := a } := if_pos h

/-- A release that no assertion came before is no change (log entry 24). -/
theorem driveReset_released {s : State} (hr : s.rst = false) : driveReset false s = s := if_neg (by simp [hr])

/-- Held in reset the block takes no write of any register (R190). -/
theorem deliver_write_held {s : State} (hr : s.rst = true) (n : Nat) (v : Word) :
    deliver (.hostWrite n v) s = .next s := by
  by_cases hn : n = 0
  · subst hn
    exact exec_command_ignored (fun ha => Bool.false_ne_true (ha.2.symm.trans hr)) v
  · simp only [deliver, hostWrite, if_neg hn, writeReg_held hr]

/-- A block as after reset is so with any streams, pending events and host word. -/
theorem resetBlock_outside {s : State} (h : resetBlock s = s) (src : Source) (snk : Sink)
    (inputs : List (Nat × Event)) (w : Word) :
    resetBlock { s with src := src, snk := snk, inputs := inputs, hostData := w } =
      { s with src := src, snk := snk, inputs := inputs, hostData := w } :=
  congrArg (fun t : State => { t with src := src, snk := snk, inputs := inputs, hostData := w }) h

/-- No event takes a block out of the state after reset while it is held there, the release among them. -/
theorem deliver_held {e : Event} {s t : State} (hr : s.rst = true) (hreset : resetBlock s = s)
    (h : deliver e s = .next t) : resetBlock t = t := by
  cases e with
  | hostWrite n v =>
    cases (deliver_write_held hr n v).symm.trans h
    exact hreset
  | resetInput a =>
    cases h
    rw [driveReset_resets (by simp [hr])]
    rfl
  | _ =>
    obtain ⟨src, snk, w, rfl⟩ := deliver_outside_only h nofun nofun
    exact resetBlock_outside hreset src snk s.inputs w

/-- Held in reset the block stays as after reset: no run is in progress, and no event starts one. -/
theorem step_held {s t : State} (hr : s.rst = true) (hreset : resetBlock s = s) (h : step s = .next t) :
    resetBlock t = t := by
  have hidle : s.state ≠ .busy := by
    rw [← hreset, resetBlock_state]
    decide
  obtain ⟨n, e, rest, -, -, hs⟩ | ⟨-, hs⟩ := step_cases s <;> rw [hs] at h
  · exact deliver_held (s := { s with inputs := rest }) hr (resetBlock_outside hreset s.src s.snk rest s.hostData) h
  · cases (runCurrent_waits hidle).symm.trans h
    exact hreset

/-- Settles O24: asserted or at its release, the reset input puts the block in the state after reset, which nothing
takes it out of while the input is asserted. -/
theorem resetAbandonsRun : Obligations.ResetAbandonsRun := by
  unfold Obligations.ResetAbandonsRun
  refine fun s => ⟨?_, fun hr => ?_, fun hr => ?_, deliver_write_held, fun t => step_held⟩
  · exact congrArg Host.Outcome.next (driveReset_resets rfl)
  · exact congrArg Host.Outcome.next (driveReset_resets hr)
  · exact congrArg Host.Outcome.next (driveReset_released hr)

end Sys2Proof.Machine
